-- ==== Sys2Proof/Word.lean ====
section
/-! DEFINITION. The words of the CORE: bytes, the 32- and 64-bit register words, and the 16-byte block.
A byte string of FIXED length is a bit vector whose most significant byte is the string's byte 0, so
that a block's value is `beint` of its bytes (00_scope.md R12); a byte string of varying length is a
`List Byte`. -/

namespace Sys2Proof

/-- One byte of a byte string (R12) or of DMEM (R81). -/
abbrev Byte := BitVec 8

/-- A register of the window (R31), and a word of a digest (R230). -/
abbrev Word32 := BitVec 32

/-- RESULT and the argument registers (R38, R39). -/
abbrev Word64 := BitVec 64

/-- A 16-byte block, byte 0 most significant: the integer `beint` of its bytes. -/
abbrev Block := BitVec 128

/-- The 32-byte input buffer of a GCM slot (R47), byte 0 most significant. -/
abbrev DoubleBlock := BitVec 256

end Sys2Proof
end

