-- ==== Sys2Proof/Machine/Bytes.lean ====
section
/-! DEFINITION. Byte strings (00_scope.md R10 to R12): fixed-length strings as bit vectors with byte 0 most
significant, varying ones as lists; encodings, decodings, padding and slices. -/

namespace Sys2Proof.Machine

/-- `b[i]` of a fixed-length string of `w / 8` bytes; 0 past its end. -/
def byteAt {w : Nat} (v : BitVec w) (i : Nat) : Byte :=
  if 8 * (i + 1) ≤ w then v.extractLsb' (w - 8 * (i + 1)) 8 else 0

/-- `b[i] <- x` in a fixed-length string; past its end nothing changes. -/
def setByteAt {w : Nat} (v : BitVec w) (i : Nat) (x : Byte) : BitVec w :=
  if 8 * (i + 1) ≤ w then
    (v &&& ~~~((0xFF#8).setWidth w <<< (w - 8 * (i + 1)))) ||| (x.setWidth w <<< (w - 8 * (i + 1)))
  else v

/-- `b[i ..< i + len xs] <- xs` in a fixed-length string. -/
def setBytesAt {w : Nat} (v : BitVec w) (i : Nat) : List Byte → BitVec w
  | [] => v
  | x :: xs => setBytesAt (setByteAt v i x) (i + 1) xs

/-- The bytes of a fixed-length string, byte 0 first. -/
def toBytes {w : Nat} (v : BitVec w) : List Byte := (List.range (w / 8)).map (byteAt v)

/-- `beint(b)` (R12). -/
def beInt (b : List Byte) : Nat := b.foldl (fun acc x => 256 * acc + x.toNat) 0

/-- `leint(b)` (R12). -/
def leInt (b : List Byte) : Nat := beInt b.reverse

/-- `BE(n, v)`: n bytes of `v mod 256^n`, most significant first (R12). -/
def beBytes (n v : Nat) : List Byte :=
  (List.range n).map fun i => BitVec.ofNat 8 (v / 256 ^ (n - 1 - i))

/-- `LE(n, v)` (R12). -/
def leBytes (n v : Nat) : List Byte := (beBytes n v).reverse

/-- `zeros(n)` (R12). -/
def zeros (n : Nat) : List Byte := List.replicate n 0

/-- The block of the first 16 bytes of a string, zero-filled when it is shorter: `pad16(b)` for a string
of at most 16 bytes. -/
def blockOf (b : List Byte) : Block := BitVec.ofNat 128 (beInt ((b ++ zeros 16).take 16))

/-- The block whose byte i is `f i`. -/
def blockFn (f : Nat → Byte) : Block := blockOf ((List.range 16).map f)

/-- `a ⊕ b` of two strings of equal length (R12). -/
def xorBytes (a b : List Byte) : List Byte := List.zipWith (· ^^^ ·) a b

/-- `pad16(b)`, cut into its 16-byte blocks (R12). -/
def blocksOf (b : List Byte) : List Block :=
  (List.range ((b.length + 15) / 16)).map fun i => blockOf ((b.drop (16 * i)).take 16)

/-- `pad16(b)` (R12). -/
def pad16 (b : List Byte) : List Byte := b ++ zeros ((16 - b.length % 16) % 16)

end Sys2Proof.Machine
end

