-- ==== Sys2Proof/Config.lean ====
section
/-! DEFINITION. What an implementation fixes (00_scope.md R8) and the values the spec leaves free. -/

namespace Sys2Proof

/-- `BUF_BYTE_RESET` ∈ {0, 6} (R8, C11): what BUF.PBYTE leaves in `bufOff` after a full block. -/
inductive ByteReset where
  | zero
  | six
deriving DecidableEq, Repr, Inhabited

/-- The number `BUF_BYTE_RESET` is. -/
def ByteReset.val : ByteReset → Nat
  | .zero => 0
  | .six => 6

/-- The implementation parameters of R8, fixed for a whole run (R573). `N_CTX` is not here: it is the
number of slots of the state (log entry 2). -/
structure Params where
  /-- `MEM_LOG2`: DMEM holds `2^memLog2` bytes. -/
  memLog2 : Nat
  /-- `GCM_NONCE_MAX`. -/
  gcmNonceMax : Nat
  /-- `CCM_MAX_AAD`. -/
  ccmMaxAad : Nat
  /-- `CCM_MAX_MSG`. -/
  ccmMaxMsg : Nat
  /-- `BUF_BYTE_RESET`. -/
  bufByteReset : ByteReset
deriving DecidableEq, Repr

/-- The ranges R8 gives the parameters. -/
abbrev Params.InRange (p : Params) : Prop :=
  4 ≤ p.memLog2 ∧ p.memLog2 ≤ 32 ∧ 12 ≤ p.gcmNonceMax ∧ p.gcmNonceMax ≤ 255 ∧
    p.ccmMaxAad < 2 ^ 32 ∧ 16 ≤ p.ccmMaxMsg ∧ p.ccmMaxMsg < 2 ^ 32

/-- DESIGN CHOICE (log entry 2), safe: `BUF_BYTE_RESET` is OPEN (R8, D14), so the value a reset machine
has is free. -/
opaque Config.openBufByteReset : ByteReset

/-- The spec's defaults (R8), and the open value for `BUF_BYTE_RESET`. -/
def Config.defaults : Params where
  memLog2 := 16
  gcmNonceMax := 64
  ccmMaxAad := 65536
  ccmMaxMsg := 1048576
  bufByteReset := Config.openBufByteReset

/-- The default `N_CTX` (R8). -/
def Config.defaultNCtx : Nat := 8

/-- DESIGN CHOICE (log entry 1), safe: the byte DMEM holds at an address after power-on, a draw per
byte (R81). -/
opaque Config.powerOnByte : Nat → Byte

/-- DESIGN CHOICE (log entry 11), safe: the `n`-th drawn byte (R92, R101, R573). -/
opaque Config.freeByte : Nat → Byte

/-- DESIGN CHOICE (log entry 8), safe: RESULT of a size query whose value `n` does not fit 64 bits, a free
function of `n`. It is no draw: R573 lists every draw. -/
opaque Config.wideSize : Nat → Word64

end Sys2Proof
end

