-- ==== Sys2Proof/Syntax.lean ====
section
/-! DEFINITION. The commands of KMPU-CMD version 1 (30_encoding.md R115): one constructor per row of
the opcode table, its operands the fields of the command word that are not fixed. -/

namespace Sys2Proof

/-- The three digests (R42, R50). -/
inductive DigestAlg where
  | md5
  | sha1
  | sha256
deriving DecidableEq, Repr

/-- The inner cipher of a BUF slot (R46): OPT bit 0. -/
inductive Inner where
  | ecb
  | cbc
deriving DecidableEq, Repr

/-- The padding of a CMAC slot (R49): OPT bit 5. -/
inductive PadMode where
  | zero
  | pkcs7
deriving DecidableEq, Repr

/-- What CFG constructs: an ALG code with its OPT options (R42). `ms` is the CMAC field MS. -/
inductive AlgConf where
  | unconfigured
  | aes
  | cbc
  | ctr
  | buf (inner : Inner) (padded : Bool)
  | gcm
  | ccm
  | cmac (ms : BitVec 5) (pad : PadMode)
  | digest (alg : DigestAlg)
  | hmac (dk : DigestAlg)
deriving DecidableEq, Repr

/-- The parameter kind of an INIT (R113): A[2:0] = 0, 1, 2. -/
inductive PKind where
  | key
  | keyIv
  | aead
deriving DecidableEq, Repr

/-- A slot index, the field CTX (R110). -/
abbrev Ctx := BitVec 8

/-- A command. `rnd` is A[3], accepted and ignored (R113, D28); `enc` is B[0] (R113). -/
inductive Instr where
  -- SYS (40_context.md)
  | cfg (ctx : Ctx) (conf : AlgConf)
  | copy (ctx : Ctx)
  | gbs (ctx : Ctx)
  | gms (ctx : Ctx)
  | gds (ctx : Ctx)
  | gbl (ctx : Ctx)
  -- PACK (41_bytepack.md)
  | st16be
  | st16le
  | st32be
  | st32le
  | st64be
  | st64le
  | ld16be
  | ld16le
  | ld32be
  | ld32le
  | ld64be
  | ld64le
  -- AES (42_aes.md)
  | aesInit (ctx : Ctx) (pk : PKind) (rnd enc : Bool)
  | aesPblk (ctx : Ctx)
  | aesReset (ctx : Ctx)
  -- DG (43_digest.md)
  | dgUpd (ctx : Ctx)
  | dgUpds (ctx : Ctx)
  | dgFinal (ctx : Ctx)
  | dgReset (ctx : Ctx)
  -- HM (44_hmac.md)
  | hmInit (ctx : Ctx) (pk : PKind) (rnd : Bool)
  | hmUpd (ctx : Ctx)
  | hmUpds (ctx : Ctx)
  | hmFinal (ctx : Ctx)
  | hmReset (ctx : Ctx)
  -- BUF and PAD (45_buffered.md)
  | bufInit (ctx : Ctx) (pk : PKind) (rnd enc : Bool)
  | bufPbyte (ctx : Ctx)
  | bufPbytes (ctx : Ctx)
  | bufFinal (ctx : Ctx)
  | bufReset (ctx : Ctx)
  | bufGos (ctx : Ctx)
  | bufGuos (ctx : Ctx)
  | padAdd
  | padCnt
  -- CBC (46_cbc.md)
  | cbcInit (ctx : Ctx) (pk : PKind) (rnd enc : Bool)
  | cbcPblk (ctx : Ctx)
  | cbcReset (ctx : Ctx)
  -- CTR (47_ctr.md)
  | ctrInit (ctx : Ctx) (pk : PKind) (rnd enc : Bool)
  | ctrPblk (ctx : Ctx)
  | ctrPbyte (ctx : Ctx)
  | ctrPbytes (ctx : Ctx)
  | ctrReset (ctx : Ctx)
  | ctrSkip (ctx : Ctx)
  | ctrSeek (ctx : Ctx)
  | ctrGpos (ctx : Ctx)
  -- GCM and GF (48_gcm.md)
  | gcmInit (ctx : Ctx) (pk : PKind) (rnd enc : Bool)
  | gcmAad (ctx : Ctx)
  | gcmAads (ctx : Ctx)
  | gcmPbyte (ctx : Ctx)
  | gcmPbytes (ctx : Ctx)
  | gcmFinal (ctx : Ctx)
  | gcmGmac (ctx : Ctx)
  | gcmReset (ctx : Ctx)
  | gcmGos (ctx : Ctx)
  | gcmGuos (ctx : Ctx)
  | gfMul
  -- CCM and CMAC (49_ccm_cbcmac.md)
  | ccmInit (ctx : Ctx) (pk : PKind) (rnd enc : Bool)
  | ccmAad (ctx : Ctx)
  | ccmAads (ctx : Ctx)
  | ccmPbyte (ctx : Ctx)
  | ccmPbytes (ctx : Ctx)
  | ccmFinal (ctx : Ctx)
  | ccmPpkt (ctx : Ctx)
  | ccmGmac (ctx : Ctx)
  | ccmReset (ctx : Ctx)
  | ccmGos (ctx : Ctx)
  | ccmGuos (ctx : Ctx)
  | cmacInit (ctx : Ctx) (pk : PKind) (rnd : Bool)
  | cmacUpd (ctx : Ctx)
  | cmacUpds (ctx : Ctx)
  | cmacFinal (ctx : Ctx)
  | cmacReset (ctx : Ctx)
deriving DecidableEq, Repr

end Sys2Proof
end

