-- ==== Sys2Proof/Machine/State.lean ====
section
/-! DEFINITION. The state of the CORE (10_state.md R30): the register window, the command latch PEND, the
context slots, DMEM, and the host's interactions still to come. All of it is plain data. -/

namespace Sys2Proof.Machine

/-! ## Errors, faults, refusals -/

/-- The error kinds of R501, values of STATUS.ERR; none of them stops the machine (R573). -/
inductive Err where
  | ok
  | invalidParameter
  | dataTooShort
  | outputTooShort
  | authenticationFailed
  | misuseDetected
  | notInitialized
  | illegalCommand
  | accessFault
  | capacityExceeded
deriving DecidableEq, Repr

/-- Where the machine stops with a fault. No command raises one. -/
inductive Fault where
  /-- Raised by a host access to a DMEM address that does not exist (R81; no move in R570's table). Safe:
  the model stops where the spec gives no effect (log entry 10). -/
  | noSuchDmemAddress
deriving DecidableEq, Repr

/-- Where the machine refuses to go on. No command is refused. -/
inductive Refusal where
  /-- Raised by an arm of exec that has no meaning yet; no arm is left. Safe. -/
  | notModelled (mnemonic : String)
  /-- Raised by a host access to the register window that is not an aligned 32-bit one (R31, R570, U4).
  Safe: the spec itself refuses it. -/
  | windowAccess
deriving DecidableEq, Repr

/-! ## AES key schedule and the slots -/

/-- The direction a key schedule was built for, `aes.dir` (R43). -/
inductive Dir where
  | E
  | D
deriving DecidableEq, Repr

/-- The key-schedule substate `aes` (R43): the round keys `rk[0..Nr]` and their direction. -/
structure AesKey where
  dir : Dir
  rk : List Block
deriving DecidableEq, Repr

/-- `aes.Nr` (R43): there are Nr + 1 round keys. -/
def AesKey.nr (k : AesKey) : Nat := k.rk.length - 1

/-- The fields of a keyed AES slot (R42, R43). -/
structure AesKeyed where
  enc : Bool
  aes : AesKey
deriving DecidableEq, Repr

/-- The fields of a keyed CBC slot (R44), and of the CBC inner cipher of a BUF slot (R46). -/
structure CbcKeyed where
  enc : Bool
  aes : AesKey
  iv : Block
  cbcV : Block
  cbcNextV : Block
deriving DecidableEq, Repr

/-- The fields of a keyed CTR slot (R45). -/
structure CtrKeyed where
  enc : Bool
  aes : AesKey
  ivLen : Nat
  ctr0 : Block
  pos : Nat
deriving DecidableEq, Repr

/-- The inner cipher of a keyed BUF slot (R46, R301). -/
inductive InnerCipher where
  | ecb (k : AesKeyed)
  | cbc (k : CbcKeyed)
deriving DecidableEq, Repr

/-- The fields of a keyed BUF slot beside those CFG fixes (R46). -/
structure BufKeyed where
  cipher : InnerCipher
  buf : Block
  bufOff : Nat
deriving DecidableEq, Repr

/-- The associated-data accumulator `(S_at, atBlock, aadLen)` of a GCM slot (R47). -/
structure AadState where
  sAt : Block
  atBlock : Block
  aadLen : Word64
deriving DecidableEq, Repr

/-- The fields a GCM slot has while keyed (R47, R396). -/
structure GcmKeyed where
  init : Bool
  enc : Bool
  aes : AesKey
  macSize : Nat
  h : Block
  j0 : Block
  ctr : Block
  blocksLeft : Nat
  s : Block
  aad : AadState
  bufBlock : DoubleBlock
  bufOff : Nat
  ctLen : Nat
  snap : AadState
deriving DecidableEq, Repr

/-- A GCM slot (R47): CFG gives it `macBlock` and the nonce history (R141), INIT the rest. -/
structure GcmSlot where
  key : Option GcmKeyed
  macBlock : Block
  lastKey : Option (List Byte)
  lastNonce : Option (List Byte)
deriving DecidableEq, Repr

/-- The fields a CCM slot has while keyed (R48, R440). -/
structure CcmKeyed where
  init : Bool
  enc : Bool
  aes : AesKey
  nonce : List Byte
  macSize : Nat
  iaad : List Byte
  aad : List Byte
  msg : List Byte
deriving DecidableEq, Repr

/-- A CCM slot (R48): CFG gives it `macBlock` and the nonce history (R141), INIT the rest. -/
structure CcmSlot where
  key : Option CcmKeyed
  macBlock : Block
  lastKey : Option (List Byte)
  lastNonce : Option (List Byte)
deriving DecidableEq, Repr

/-- The fields of a keyed CMAC slot beside those CFG fixes (R49). -/
structure CmacKeyed where
  aes : AesKey
  buf : Block
  bufOff : Nat
  chain : Block
deriving DecidableEq, Repr

/-- A digest state `dg` (R50): `xBuf` is four bytes, byte 0 most significant. -/
structure Digest where
  hs : List Word32
  x : Vector Word32 16
  xOff : Nat
  xBuf : Word32
  xBufOff : Nat
  byteCount : Word64
deriving DecidableEq, Repr

/-- The fields of a keyed HMAC slot beside `dk` (R51). -/
structure HmacKeyed where
  dg : Digest
  ipadState : Digest
  opadState : Digest
deriving DecidableEq, Repr

/-- A context slot (R40): its algorithm and CFG options, and the fields that algorithm has. A field that
does not exist (R40, R141) is not there: the fields INIT creates stand under an `Option`. -/
inductive Slot where
  | unconfigured
  | aes (key : Option AesKeyed)
  | cbc (key : Option CbcKeyed)
  | ctr (key : Option CtrKeyed)
  | buf (inner : Inner) (padded : Bool) (key : Option BufKeyed)
  | gcm (g : GcmSlot)
  | ccm (c : CcmSlot)
  | cmac (ms : BitVec 5) (pad : PadMode) (key : Option CmacKeyed)
  | digest (alg : DigestAlg) (dg : Digest)
  | hmac (dk : DigestAlg) (key : Option HmacKeyed)
deriving DecidableEq, Repr

/-! ## Memory, the latch and the host -/

/-- DMEM: the bytes written since power-on, by address (R81; log entry 1). -/
abbrev Memory := List Host.Cell

/-- The canonical form: addresses strictly rising. -/
abbrev Memory.wf (m : Memory) : Prop := m.Pairwise (fun x y => x.1 < y.1)

/-- Every listed address exists: it is below MEM_SIZE (R81). -/
abbrev Memory.below (m : Memory) (size : Nat) : Prop := ∀ c ∈ m, c.1 < size

/-- The argument registers, or their latched copy (R39, R59). -/
abbrev Args := Vector Word64 8

/-- The command latch PEND while it is not empty (R59). -/
structure Pend where
  word : Word32
  args : Args
deriving DecidableEq, Repr

/-- One interaction of the host (R570). `width` is a window access's width in bytes. -/
inductive HostOp where
  | regRead (off : BitVec 12) (width : Nat)
  | regWrite (off : BitVec 12) (width : Nat) (v : Word32)
  | dmemRead (addr len : Nat)
  | dmemWrite (addr : Nat) (data : List Byte)
  | reset
deriving DecidableEq, Repr

/-- What moves next: the host, or the engine's completion of the pending command (R564). -/
inductive Input where
  | host (op : HostOp)
  | engine
deriving DecidableEq, Repr

/-- What the host's last read returned. -/
inductive BusData where
  | nothing
  | reg (v : Word32)
  | dmem (bytes : List Byte)
deriving DecidableEq, Repr

/-- The state of the CORE. The last six fields are the model's own (log entries 3, 7, 9, 11). -/
structure State where
  /-- The implementation parameters (R8); no step writes them. -/
  params : Params
  /-- CMD read-back: the last accepted command word (R36). -/
  cmd : Word32
  /-- STATUS.OVR (R37). -/
  ovr : Bool
  /-- STATUS.ERR (R37, R501). -/
  err : Err
  /-- RESULT (R38). -/
  result : Word64
  /-- ARG[0..7] (R39). -/
  args : Args
  /-- PEND (R59); STATUS.BUSY is 1 exactly while it is not empty. -/
  pend : Option Pend
  /-- CTXS[0 ..< N_CTX] (R40); N_CTX is its length. -/
  slots : List Slot
  /-- DMEM (R81). -/
  mem : Memory
  /-- The host's interactions still to come, with the engine's completions among them (R564, R570). -/
  inputs : List Input
  /-- DMEM addresses the host wrote inside the running command's ranges (R101). -/
  raced : List Nat
  /-- The commands completed since the host last observed BUSY = 0, latest first (R101). -/
  unseen : List Pend
  /-- DMEM addresses where the host broke its duty of R101 after a completion it had not yet observed. -/
  lateRaced : List Nat
  /-- How many free values have been drawn. -/
  draws : Nat
  /-- What the host's last read returned (R553). -/
  busData : BusData
deriving DecidableEq, Repr

/-- The machine right after power-on reset (R58, R540): nothing of DMEM has been written. -/
def State.reset : State where
  params := Config.defaults
  cmd := 0
  ovr := false
  err := .ok
  result := 0
  args := Vector.replicate 8 0
  pend := none
  slots := List.replicate Config.defaultNCtx .unconfigured
  mem := []
  inputs := []
  raced := []
  unseen := []
  lateRaced := []
  draws := 0
  busData := .nothing

end Sys2Proof.Machine
end

