-- ==== Sys2Proof/Machine/AesCore.lean ====
section
/-! DEFINITION. The AES engine (42_aes.md R190 to R202): tables, field arithmetic, round transformations,
key schedule, cipher and inverse cipher. -/

namespace Sys2Proof.Machine

/-! ## Tables -/

/-- The rows of R191: row = high nibble, byte = low nibble. -/
def sboxRows : List Block :=
  [0x637C777BF26B6FC53001672BFED7AB76#128,
   0xCA82C97DFA5947F0ADD4A2AF9CA472C0#128,
   0xB7FD9326363FF7CC34A5E5F171D83115#128,
   0x04C723C31896059A071280E2EB27B275#128] ++
  [0x09832C1A1B6E5AA0523BD6B329E32F84#128,
   0x53D100ED20FCB15B6ACBBE394A4C58CF#128,
   0xD0EFAAFB434D338545F9027F503C9FA8#128,
   0x51A3408F929D38F5BCB6DA2110FFF3D2#128] ++
  [0xCD0C13EC5F974417C4A77E3D645D1973#128,
   0x60814FDC222A908846EEB814DE5E0BDB#128,
   0xE0323A0A4906245CC2D3AC629195E479#128,
   0xE7C8376D8DD54EA96C56F4EA657AAE08#128] ++
  [0xBA78252E1CA6B4C6E8DD741F4BBD8B8A#128,
   0x703EB5664803F60E613557B986C11D9E#128,
   0xE1F8981169D98E949B1E87E9CE5528DF#128,
   0x8CA1890DBFE6426841992D0FB054BB16#128]

/-- The rows of R192. -/
def invSboxRows : List Block :=
  [0x52096AD53036A538BF40A39E81F3D7FB#128,
   0x7CE339829B2FFF87348E4344C4DEE9CB#128,
   0x547B9432A6C2233DEE4C950B42FAC34E#128,
   0x082EA16628D924B2765BA2496D8BD125#128] ++
  [0x72F8F66486689816D4A45CCC5D65B692#128,
   0x6C704850FDEDB9DA5E154657A78D9D84#128,
   0x90D8AB008CBCD30AF7E45805B8B34506#128,
   0xD02C1E8FCA3F0F02C1AFBD0301138A6B#128] ++
  [0x3A9111414F67DCEA97F2CFCEF0B4E673#128,
   0x96AC7422E7AD3585E2F937E81C75DF6E#128,
   0x47F11A711D29C5896FB7620EAA18BE1B#128,
   0xFC563E4BC6D279209ADBC0FE78CD5AF4#128] ++
  [0x1FDDA8338807C731B11210592780EC5F#128,
   0x60517FA919B54A0D2DE57A9F93C99CEF#128,
   0xA0E03B4DAE2AF5B0C8EBBB3C83539961#128,
   0x172B047EBA77D626E169146355210C7D#128]

/-- An entry of a table of 16 rows of 16 bytes. -/
def tableByte (rows : List Block) (x : Byte) : Byte :=
  byteAt (rows.getD (x.toNat / 16) 0) (x.toNat % 16)

/-- `SBOX[x]` (R191). -/
def sbox (x : Byte) : Byte := tableByte sboxRows x

/-- `INV_SBOX[x]` (R192). -/
def invSbox (x : Byte) : Byte := tableByte invSboxRows x

/-! ## GF(2^8) (R194) -/

/-- `xtime(a)`. -/
def xtime (a : Byte) : Byte := (a <<< 1) ^^^ (if a.getLsbD 7 then 0x1B else 0)

/-- `x^n • a`. -/
def xtimes : Nat → Byte → Byte
  | 0, a => a
  | n + 1, a => xtimes n (xtime a)

/-- `a • b`: the sum of `x^i • b` over the bits i of a. -/
def gfMul (a b : Byte) : Byte :=
  (List.range 8).foldl (fun acc i => if a.getLsbD i then acc ^^^ xtimes i b else acc) 0

/-- `inv(x)` (R195): 0 at 0, else the multiplicative inverse, as `x^254 = x^2 • x^4 • .. • x^128`. -/
def gfInv (x : Byte) : Byte :=
  ((List.range 7).foldl (fun (yp : Byte × Byte) _ => (gfMul yp.1 (gfMul yp.2 yp.2), gfMul yp.2 yp.2)) (1, x)).1

/-- The affine map `A(b)` (R195). -/
def affine (b : Byte) : Byte :=
  b ^^^ b.rotateLeft 1 ^^^ b.rotateLeft 2 ^^^ b.rotateLeft 3 ^^^ b.rotateLeft 4 ^^^ 0x63

/-- The definition `SBOX[x] = A(inv(x))` (R195). The engine reads the table `sbox`; `sbox_eq_sboxDef` in
Laws/Aes.lean shows that the two agree. -/
def sboxDef (x : Byte) : Byte := affine (gfInv x)

/-- `RCON[i]`, i from 1 (R193). -/
def rcon (i : Nat) : Byte := xtimes (i - 1) 1

/-! ## Round transformations (R196, R197): `s[r][c]` is byte `r + 4c` of the block. -/

def subBytes (s : Block) : Block := blockFn fun i => sbox (byteAt s i)

def invSubBytes (s : Block) : Block := blockFn fun i => invSbox (byteAt s i)

/-- `s'[r][c] = s[r][(c + r) mod 4]`. -/
def shiftRows (s : Block) : Block := blockFn fun i => byteAt s (i % 4 + 4 * ((i / 4 + i % 4) % 4))

/-- `s'[r][(c + r) mod 4] = s[r][c]`. -/
def invShiftRows (s : Block) : Block :=
  blockFn fun i => byteAt s (i % 4 + 4 * ((i / 4 + 4 - i % 4) % 4))

/-- The map of a column whose row r is `sum over k of coef[(k - r) mod 4] • a_k`. -/
def mixWith (coef : Nat → Byte) (s : Block) : Block :=
  blockFn fun i =>
    gfMul (coef ((0 + 4 - i % 4) % 4)) (byteAt s (4 * (i / 4))) ^^^
    gfMul (coef ((1 + 4 - i % 4) % 4)) (byteAt s (4 * (i / 4) + 1)) ^^^
    gfMul (coef ((2 + 4 - i % 4) % 4)) (byteAt s (4 * (i / 4) + 2)) ^^^
    gfMul (coef ((3 + 4 - i % 4) % 4)) (byteAt s (4 * (i / 4) + 3))

/-- Row 0 of MixColumns: 02, 03, 01, 01. -/
def mixCoef (k : Nat) : Byte := byteAt 0x02030101#32 k

/-- Row 0 of InvMixColumns: 0E, 0B, 0D, 09. -/
def invMixCoef (k : Nat) : Byte := byteAt 0x0E0B0D09#32 k

def mixColumns (s : Block) : Block := mixWith mixCoef s

def invMixColumns (s : Block) : Block := mixWith invMixCoef s

/-! ## Key schedule (R198, R202): a word is four bytes, byte 0 most significant. -/

def subWord (w : Word32) : Word32 :=
  sbox (byteAt w 0) ++ sbox (byteAt w 1) ++ sbox (byteAt w 2) ++ sbox (byteAt w 3)

def rotWord (w : Word32) : Word32 := w.rotateLeft 8

/-- The words of a key, 4 bytes each. -/
def keyWords (key : List Byte) : List Word32 :=
  (List.range (key.length / 4)).map fun i => BitVec.ofNat 32 (beInt ((key.drop (4 * i)).take 4))

/-- `W[i]` from the words before it, newest first (R198). -/
def nextWord (nk i : Nat) (ws : List Word32) : Word32 :=
  let t := ws.getD 0 0
  let t' :=
    if i % nk = 0 then subWord (rotWord t) ^^^ (rcon (i / nk) ++ 0#24)
    else if nk = 8 ∧ i % nk = 4 then subWord t
    else t
  ws.getD (nk - 1) 0 ^^^ t'

/-- `n` more words from index `i` on, newest first. -/
def expandWords (nk : Nat) : Nat → Nat → List Word32 → List Word32
  | 0, _, ws => ws
  | n + 1, i, ws => expandWords nk n (i + 1) (nextWord nk i ws :: ws)

/-- `rkE[r] = W[4r] || .. || W[4r+3]`, r = 0 .. Nr, of the words in order. -/
def roundKeys (nr : Nat) (ws : List Word32) : List Block :=
  (List.range (nr + 1)).map fun r =>
    ws.getD (4 * r) 0 ++ ws.getD (4 * r + 1) 0 ++ ws.getD (4 * r + 2) 0 ++ ws.getD (4 * r + 3) 0

/-- The encryption round keys of KeyExpansion(key) (R198). -/
def keyExpansion (key : List Byte) : List Block :=
  let nk := key.length / 4
  let nr := nk + 6
  roundKeys nr (expandWords nk (4 * (nr + 1) - nk) nk (keyWords key).reverse).reverse

/-- The decryption round keys: InvMixColumns on all but the first and last (R200, R202). -/
def decKeys (rk : List Block) : List Block :=
  (List.range rk.length).map fun r =>
    if r = 0 ∨ r = rk.length - 1 then rk.getD r 0 else invMixColumns (rk.getD r 0)

/-- `AESLoad(key, dir)`; `none` raises InvalidParameter (R202). -/
def aesLoad (key : List Byte) (dir : Dir) : Option AesKey :=
  if key.length = 16 ∨ key.length = 24 ∨ key.length = 32 then
    match dir with
    | .E => some ⟨.E, keyExpansion key⟩
    | .D => some ⟨.D, decKeys (keyExpansion key)⟩
  else none

/-! ## Cipher (R199) and inverse cipher (R200) -/

/-- The rounds after the first AddRoundKey; the last round has no MixColumns. -/
def encRounds : List Block → Block → Block
  | [], s => s
  | [k], s => shiftRows (subBytes s) ^^^ k
  | k :: ks, s => encRounds ks (mixColumns (shiftRows (subBytes s)) ^^^ k)

/-- `AES_E(rk, x)`. -/
def aesE (rk : List Block) (x : Block) : Block :=
  match rk with
  | [] => x
  | k :: ks => encRounds ks (x ^^^ k)

/-- The inverse rounds, the keys from the last to the first. -/
def decRounds : List Block → Block → Block
  | [], s => s
  | [k], s => invShiftRows (invSubBytes s) ^^^ k
  | k :: ks, s => decRounds ks (invMixColumns (invShiftRows (invSubBytes s)) ^^^ k)

/-- `AES_D(dk, y)`. -/
def aesD (dk : List Block) (y : Block) : Block :=
  match dk.reverse with
  | [] => y
  | k :: ks => decRounds ks (y ^^^ k)

/-- The raw engine on one block, in the direction of its schedule (R204). -/
def aesBlock (k : AesKey) (x : Block) : Block :=
  match k.dir with
  | .E => aesE k.rk x
  | .D => aesD k.rk x

end Sys2Proof.Machine
end

