-- ==== Sys2Proof/WellFormed.lean ====
section
/-! DEFINITION. Well-formed commands: those some command word stands for. Every operand type holds
just the values its field admits, but for the CMAC field MS, five bits wide with 17..31 invalid (R42). -/

namespace Sys2Proof

/-- The options R42 admits. -/
def AlgConf.wf : AlgConf → Bool
  | .unconfigured => true
  | .aes => true
  | .cbc => true
  | .ctr => true
  | .buf _ _ => true
  | .gcm => true
  | .ccm => true
  | .cmac ms _ => decide (ms.toNat ≤ 16)
  | .digest _ => true
  | .hmac _ => true

/-- A command that some word of R115 and R117 encodes. -/
def Instr.wf : Instr → Bool
  | .cfg _ conf => conf.wf
  | .copy _ | .gbs _ | .gms _ | .gds _ | .gbl _
  | .st16be | .st16le | .st32be | .st32le | .st64be | .st64le
  | .ld16be | .ld16le | .ld32be | .ld32le | .ld64be | .ld64le
  | .aesInit _ _ _ _ | .aesPblk _ | .aesReset _
  | .dgUpd _ | .dgUpds _ | .dgFinal _ | .dgReset _
  | .hmInit _ _ _ | .hmUpd _ | .hmUpds _ | .hmFinal _ | .hmReset _
  | .bufInit _ _ _ _ | .bufPbyte _ | .bufPbytes _ | .bufFinal _ | .bufReset _ | .bufGos _ | .bufGuos _
  | .padAdd | .padCnt
  | .cbcInit _ _ _ _ | .cbcPblk _ | .cbcReset _
  | .ctrInit _ _ _ _ | .ctrPblk _ | .ctrPbyte _ | .ctrPbytes _ | .ctrReset _ | .ctrSkip _
  | .ctrSeek _ | .ctrGpos _
  | .gcmInit _ _ _ _ | .gcmAad _ | .gcmAads _ | .gcmPbyte _ | .gcmPbytes _ | .gcmFinal _
  | .gcmGmac _ | .gcmReset _ | .gcmGos _ | .gcmGuos _ | .gfMul
  | .ccmInit _ _ _ _ | .ccmAad _ | .ccmAads _ | .ccmPbyte _ | .ccmPbytes _ | .ccmFinal _
  | .ccmPpkt _ | .ccmGmac _ | .ccmReset _ | .ccmGos _ | .ccmGuos _
  | .cmacInit _ _ _ | .cmacUpd _ | .cmacUpds _ | .cmacFinal _ | .cmacReset _ => true

end Sys2Proof
end

