-- ==== Sys2Proof/Decode.lean ====
section
/-! DEFINITION. Decoding the command word (30_encoding.md R110, R117, R126 steps 1 to 4) and encoding it
(R115, R122). Steps 5 to 7 of R126 look at the slots and stand in the commands' meanings. -/

namespace Sys2Proof

/-- Which step of R126 refuses a word; each raises IllegalCommand. -/
inductive DecodeError where
  /-- Step 1: OPC is not in R115's table. -/
  | reservedOpcode
  /-- Step 2: a field R115 marks "0" is not 0. -/
  | nonZeroField
  /-- Step 3: A[7:4] ≠ 0 or A[2:0] > 2 in an INIT. -/
  | badParameterKind
  /-- Step 3: B[7:1] ≠ 0 in an INIT. -/
  | badDirection
  /-- Step 4: CFG's (A, B) is not a legal (ALG, OPT) pair of R42. -/
  | badOption
deriving DecidableEq, Repr

/-! ## Field values -/

/-- The digest kind DK (R42, OPT[1:0] of an HMAC slot; 3 is invalid). -/
def decodeDk (b : BitVec 2) : Option DigestAlg :=
  if b = 0 then some .md5 else if b = 1 then some .sha1 else if b = 2 then some .sha256 else none

def encodeDk : DigestAlg → BitVec 2
  | .md5 => 0
  | .sha1 => 1
  | .sha256 => 2

/-- The (ALG, OPT) pairs of R42. -/
def decodeConf (a b : BitVec 8) : Option AlgConf :=
  match a.toNat with
  | 0x00 => if b = 0 then some .unconfigured else none
  | 0x01 => if b = 0 then some .aes else none
  | 0x02 => if b = 0 then some .cbc else none
  | 0x03 => if b = 0 then some .ctr else none
  | 0x04 =>
    if b.extractLsb' 2 6 = 0 then
      some (.buf (if b.getLsbD 0 then .cbc else .ecb) (b.getLsbD 1))
    else none
  | 0x05 => if b = 0 then some .gcm else none
  | 0x06 => if b = 0 then some .ccm else none
  | 0x07 =>
    if b.extractLsb' 6 2 = 0 ∧ (b.extractLsb' 0 5).toNat ≤ 16 then
      some (.cmac (b.extractLsb' 0 5) (if b.getLsbD 5 then .pkcs7 else .zero))
    else none
  | 0x08 => if b = 0 then some (.digest .md5) else none
  | 0x09 => if b = 0 then some (.digest .sha1) else none
  | 0x0A => if b = 0 then some (.digest .sha256) else none
  | 0x0B => if b.extractLsb' 2 6 = 0 then (decodeDk (b.extractLsb' 0 2)).map .hmac else none
  | _ => none

/-- The ALG code (R42). -/
def AlgConf.algCode : AlgConf → BitVec 8
  | .unconfigured => 0x00
  | .aes => 0x01
  | .cbc => 0x02
  | .ctr => 0x03
  | .buf _ _ => 0x04
  | .gcm => 0x05
  | .ccm => 0x06
  | .cmac _ _ => 0x07
  | .digest .md5 => 0x08
  | .digest .sha1 => 0x09
  | .digest .sha256 => 0x0A
  | .hmac _ => 0x0B

/-- The OPT byte (R42, R122). -/
def AlgConf.optByte : AlgConf → BitVec 8
  | .buf inner padded => (0#6 ++ BitVec.ofBool padded) ++ BitVec.ofBool (inner == .cbc)
  | .cmac ms pad => (0#2 ++ BitVec.ofBool (pad == .pkcs7)) ++ ms
  | .hmac dk => 0#6 ++ encodeDk dk
  | .unconfigured | .aes | .cbc | .ctr | .gcm | .ccm | .digest _ => 0

/-- PKIND, A[2:0] of an INIT (R113). -/
def decodePKind (k : BitVec 3) : Option PKind :=
  if k = 0 then some .key else if k = 1 then some .keyIv else if k = 2 then some .aead else none

def PKind.code : PKind → BitVec 3
  | .key => 0
  | .keyIv => 1
  | .aead => 2

/-! ## Word shapes -/

/-- CFG: A is ALG and B is OPT (R126 step 4). -/
def decodeCfg (ctx a b : BitVec 8) : Except DecodeError Instr :=
  match decodeConf a b with
  | some conf => .ok (.cfg ctx conf)
  | none => .error .badOption

/-- A command with CTX alone: A and B are 0. -/
def decodeSlot (mk : Ctx → Instr) (ctx a b : BitVec 8) : Except DecodeError Instr :=
  if a = 0 ∧ b = 0 then .ok (mk ctx) else .error .nonZeroField

/-- A context-free command: CTX, A and B are 0 (R118). -/
def decodeFree (i : Instr) (ctx a b : BitVec 8) : Except DecodeError Instr :=
  if ctx = 0 ∧ a = 0 ∧ b = 0 then .ok i else .error .nonZeroField

/-- An INIT with a direction (R113, R126 step 3). -/
def decodeInit (mk : Ctx → PKind → Bool → Bool → Instr) (ctx a b : BitVec 8) :
    Except DecodeError Instr :=
  if a.extractLsb' 4 4 ≠ 0 then .error .badParameterKind
  else match decodePKind (a.extractLsb' 0 3) with
    | none => .error .badParameterKind
    | some pk =>
      if b.extractLsb' 1 7 ≠ 0 then .error .badDirection
      else .ok (mk ctx pk (a.getLsbD 3) (b.getLsbD 0))

/-- HM.INIT and CMAC.INIT: B is a field R115 marks "0" (R113, R126 step 2). -/
def decodeInitNoDir (mk : Ctx → PKind → Bool → Instr) (ctx a b : BitVec 8) :
    Except DecodeError Instr :=
  if b ≠ 0 then .error .nonZeroField
  else if a.extractLsb' 4 4 ≠ 0 then .error .badParameterKind
  else match decodePKind (a.extractLsb' 0 3) with
    | none => .error .badParameterKind
    | some pk => .ok (mk ctx pk (a.getLsbD 3))

/-- The opcode map (R115). -/
def decodeFields (opc ctx a b : BitVec 8) : Except DecodeError Instr :=
  match opc.toNat with
  | 0x01 => decodeCfg ctx a b
  | 0x02 => decodeSlot .copy ctx a b
  | 0x03 => decodeSlot .gbs ctx a b
  | 0x04 => decodeSlot .gms ctx a b
  | 0x05 => decodeSlot .gds ctx a b
  | 0x06 => decodeSlot .gbl ctx a b
  | 0x10 => decodeFree .st16be ctx a b
  | 0x11 => decodeFree .st16le ctx a b
  | 0x12 => decodeFree .st32be ctx a b
  | 0x13 => decodeFree .st32le ctx a b
  | 0x14 => decodeFree .st64be ctx a b
  | 0x15 => decodeFree .st64le ctx a b
  | 0x18 => decodeFree .ld16be ctx a b
  | 0x19 => decodeFree .ld16le ctx a b
  | 0x1A => decodeFree .ld32be ctx a b
  | 0x1B => decodeFree .ld32le ctx a b
  | 0x1C => decodeFree .ld64be ctx a b
  | 0x1D => decodeFree .ld64le ctx a b
  | 0x20 => decodeInit .aesInit ctx a b
  | 0x21 => decodeSlot .aesPblk ctx a b
  | 0x22 => decodeSlot .aesReset ctx a b
  | 0x30 => decodeSlot .dgUpd ctx a b
  | 0x31 => decodeSlot .dgUpds ctx a b
  | 0x32 => decodeSlot .dgFinal ctx a b
  | 0x33 => decodeSlot .dgReset ctx a b
  | 0x40 => decodeInitNoDir .hmInit ctx a b
  | 0x41 => decodeSlot .hmUpd ctx a b
  | 0x42 => decodeSlot .hmUpds ctx a b
  | 0x43 => decodeSlot .hmFinal ctx a b
  | 0x44 => decodeSlot .hmReset ctx a b
  | 0x50 => decodeInit .bufInit ctx a b
  | 0x51 => decodeSlot .bufPbyte ctx a b
  | 0x52 => decodeSlot .bufPbytes ctx a b
  | 0x53 => decodeSlot .bufFinal ctx a b
  | 0x54 => decodeSlot .bufReset ctx a b
  | 0x55 => decodeSlot .bufGos ctx a b
  | 0x56 => decodeSlot .bufGuos ctx a b
  | 0x58 => decodeFree .padAdd ctx a b
  | 0x59 => decodeFree .padCnt ctx a b
  | 0x60 => decodeInit .cbcInit ctx a b
  | 0x61 => decodeSlot .cbcPblk ctx a b
  | 0x62 => decodeSlot .cbcReset ctx a b
  | 0x70 => decodeInit .ctrInit ctx a b
  | 0x71 => decodeSlot .ctrPblk ctx a b
  | 0x72 => decodeSlot .ctrPbyte ctx a b
  | 0x73 => decodeSlot .ctrPbytes ctx a b
  | 0x74 => decodeSlot .ctrReset ctx a b
  | 0x75 => decodeSlot .ctrSkip ctx a b
  | 0x76 => decodeSlot .ctrSeek ctx a b
  | 0x77 => decodeSlot .ctrGpos ctx a b
  | 0x80 => decodeInit .gcmInit ctx a b
  | 0x81 => decodeSlot .gcmAad ctx a b
  | 0x82 => decodeSlot .gcmAads ctx a b
  | 0x83 => decodeSlot .gcmPbyte ctx a b
  | 0x84 => decodeSlot .gcmPbytes ctx a b
  | 0x85 => decodeSlot .gcmFinal ctx a b
  | 0x86 => decodeSlot .gcmGmac ctx a b
  | 0x87 => decodeSlot .gcmReset ctx a b
  | 0x88 => decodeSlot .gcmGos ctx a b
  | 0x89 => decodeSlot .gcmGuos ctx a b
  | 0x8F => decodeFree .gfMul ctx a b
  | 0x90 => decodeInit .ccmInit ctx a b
  | 0x91 => decodeSlot .ccmAad ctx a b
  | 0x92 => decodeSlot .ccmAads ctx a b
  | 0x93 => decodeSlot .ccmPbyte ctx a b
  | 0x94 => decodeSlot .ccmPbytes ctx a b
  | 0x95 => decodeSlot .ccmFinal ctx a b
  | 0x96 => decodeSlot .ccmPpkt ctx a b
  | 0x97 => decodeSlot .ccmGmac ctx a b
  | 0x98 => decodeSlot .ccmReset ctx a b
  | 0x99 => decodeSlot .ccmGos ctx a b
  | 0x9A => decodeSlot .ccmGuos ctx a b
  | 0xA0 => decodeInitNoDir .cmacInit ctx a b
  | 0xA1 => decodeSlot .cmacUpd ctx a b
  | 0xA2 => decodeSlot .cmacUpds ctx a b
  | 0xA3 => decodeSlot .cmacFinal ctx a b
  | 0xA4 => decodeSlot .cmacReset ctx a b
  | _ => .error .reservedOpcode

/-- Decoding a command word (R111, R126): total, and it refuses by name. -/
def decodeWord (w : Word32) : Except DecodeError Instr :=
  decodeFields (w.extractLsb' 24 8) (w.extractLsb' 16 8) (w.extractLsb' 8 8) (w.extractLsb' 0 8)

/-- What the decoder reads from the table word `w`; every row has `nbits` = 32 (R110). -/
def decodeTableWord (nbits w : Nat) : Option Instr :=
  (decodeWord (BitVec.ofNat 32 (w % 2 ^ nbits))).toOption

/-! ## Encoding -/

/-- `word = (OPC << 24) | (CTX << 16) | (A << 8) | B` (R122). -/
def packWord (opc ctx a b : BitVec 8) : Word32 := opc ++ ctx ++ a ++ b

/-- `A = PKIND | (RND << 3)` (R122). -/
def initA (pk : PKind) (rnd : Bool) : BitVec 8 := (0#4 ++ BitVec.ofBool rnd) ++ pk.code

/-- `B = ENC` (R122). -/
def initB (enc : Bool) : BitVec 8 := 0#7 ++ BitVec.ofBool enc

/-- The operation code of a command (R115). -/
def Instr.opc : Instr → BitVec 8
  | .cfg _ _ => 0x01
  | .copy _ => 0x02
  | .gbs _ => 0x03
  | .gms _ => 0x04
  | .gds _ => 0x05
  | .gbl _ => 0x06
  | .st16be => 0x10
  | .st16le => 0x11
  | .st32be => 0x12
  | .st32le => 0x13
  | .st64be => 0x14
  | .st64le => 0x15
  | .ld16be => 0x18
  | .ld16le => 0x19
  | .ld32be => 0x1A
  | .ld32le => 0x1B
  | .ld64be => 0x1C
  | .ld64le => 0x1D
  | .aesInit _ _ _ _ => 0x20
  | .aesPblk _ => 0x21
  | .aesReset _ => 0x22
  | .dgUpd _ => 0x30
  | .dgUpds _ => 0x31
  | .dgFinal _ => 0x32
  | .dgReset _ => 0x33
  | .hmInit _ _ _ => 0x40
  | .hmUpd _ => 0x41
  | .hmUpds _ => 0x42
  | .hmFinal _ => 0x43
  | .hmReset _ => 0x44
  | .bufInit _ _ _ _ => 0x50
  | .bufPbyte _ => 0x51
  | .bufPbytes _ => 0x52
  | .bufFinal _ => 0x53
  | .bufReset _ => 0x54
  | .bufGos _ => 0x55
  | .bufGuos _ => 0x56
  | .padAdd => 0x58
  | .padCnt => 0x59
  | .cbcInit _ _ _ _ => 0x60
  | .cbcPblk _ => 0x61
  | .cbcReset _ => 0x62
  | .ctrInit _ _ _ _ => 0x70
  | .ctrPblk _ => 0x71
  | .ctrPbyte _ => 0x72
  | .ctrPbytes _ => 0x73
  | .ctrReset _ => 0x74
  | .ctrSkip _ => 0x75
  | .ctrSeek _ => 0x76
  | .ctrGpos _ => 0x77
  | .gcmInit _ _ _ _ => 0x80
  | .gcmAad _ => 0x81
  | .gcmAads _ => 0x82
  | .gcmPbyte _ => 0x83
  | .gcmPbytes _ => 0x84
  | .gcmFinal _ => 0x85
  | .gcmGmac _ => 0x86
  | .gcmReset _ => 0x87
  | .gcmGos _ => 0x88
  | .gcmGuos _ => 0x89
  | .gfMul => 0x8F
  | .ccmInit _ _ _ _ => 0x90
  | .ccmAad _ => 0x91
  | .ccmAads _ => 0x92
  | .ccmPbyte _ => 0x93
  | .ccmPbytes _ => 0x94
  | .ccmFinal _ => 0x95
  | .ccmPpkt _ => 0x96
  | .ccmGmac _ => 0x97
  | .ccmReset _ => 0x98
  | .ccmGos _ => 0x99
  | .ccmGuos _ => 0x9A
  | .cmacInit _ _ _ => 0xA0
  | .cmacUpd _ => 0xA1
  | .cmacUpds _ => 0xA2
  | .cmacFinal _ => 0xA3
  | .cmacReset _ => 0xA4

/-- The slot a command names (field CTX); `none` for a context-free command (R118). -/
def Instr.ctx? : Instr → Option Ctx
  | .st16be | .st16le | .st32be | .st32le | .st64be | .st64le
  | .ld16be | .ld16le | .ld32be | .ld32le | .ld64be | .ld64le
  | .padAdd | .padCnt | .gfMul => none
  | .cfg c _ | .copy c | .gbs c | .gms c | .gds c | .gbl c
  | .aesInit c _ _ _ | .aesPblk c | .aesReset c
  | .dgUpd c | .dgUpds c | .dgFinal c | .dgReset c
  | .hmInit c _ _ | .hmUpd c | .hmUpds c | .hmFinal c | .hmReset c
  | .bufInit c _ _ _ | .bufPbyte c | .bufPbytes c | .bufFinal c | .bufReset c | .bufGos c
  | .bufGuos c
  | .cbcInit c _ _ _ | .cbcPblk c | .cbcReset c
  | .ctrInit c _ _ _ | .ctrPblk c | .ctrPbyte c | .ctrPbytes c | .ctrReset c | .ctrSkip c
  | .ctrSeek c | .ctrGpos c
  | .gcmInit c _ _ _ | .gcmAad c | .gcmAads c | .gcmPbyte c | .gcmPbytes c | .gcmFinal c
  | .gcmGmac c | .gcmReset c | .gcmGos c | .gcmGuos c
  | .ccmInit c _ _ _ | .ccmAad c | .ccmAads c | .ccmPbyte c | .ccmPbytes c | .ccmFinal c
  | .ccmPpkt c | .ccmGmac c | .ccmReset c | .ccmGos c | .ccmGuos c
  | .cmacInit c _ _ | .cmacUpd c | .cmacUpds c | .cmacFinal c | .cmacReset c => some c

/-- The field A (R115, R122). -/
def Instr.fieldA : Instr → BitVec 8
  | .cfg _ conf => conf.algCode
  | .aesInit _ pk rnd _ | .bufInit _ pk rnd _ | .cbcInit _ pk rnd _ | .ctrInit _ pk rnd _
  | .gcmInit _ pk rnd _ | .ccmInit _ pk rnd _ | .hmInit _ pk rnd | .cmacInit _ pk rnd =>
    initA pk rnd
  | .copy _ | .gbs _ | .gms _ | .gds _ | .gbl _
  | .st16be | .st16le | .st32be | .st32le | .st64be | .st64le
  | .ld16be | .ld16le | .ld32be | .ld32le | .ld64be | .ld64le
  | .aesPblk _ | .aesReset _
  | .dgUpd _ | .dgUpds _ | .dgFinal _ | .dgReset _
  | .hmUpd _ | .hmUpds _ | .hmFinal _ | .hmReset _
  | .bufPbyte _ | .bufPbytes _ | .bufFinal _ | .bufReset _ | .bufGos _ | .bufGuos _
  | .padAdd | .padCnt
  | .cbcPblk _ | .cbcReset _
  | .ctrPblk _ | .ctrPbyte _ | .ctrPbytes _ | .ctrReset _ | .ctrSkip _ | .ctrSeek _ | .ctrGpos _
  | .gcmAad _ | .gcmAads _ | .gcmPbyte _ | .gcmPbytes _ | .gcmFinal _ | .gcmGmac _ | .gcmReset _
  | .gcmGos _ | .gcmGuos _ | .gfMul
  | .ccmAad _ | .ccmAads _ | .ccmPbyte _ | .ccmPbytes _ | .ccmFinal _ | .ccmPpkt _ | .ccmGmac _
  | .ccmReset _ | .ccmGos _ | .ccmGuos _
  | .cmacUpd _ | .cmacUpds _ | .cmacFinal _ | .cmacReset _ => 0

/-- The field B (R115, R122). -/
def Instr.fieldB : Instr → BitVec 8
  | .cfg _ conf => conf.optByte
  | .aesInit _ _ _ enc | .bufInit _ _ _ enc | .cbcInit _ _ _ enc | .ctrInit _ _ _ enc
  | .gcmInit _ _ _ enc | .ccmInit _ _ _ enc => initB enc
  | .hmInit _ _ _ | .cmacInit _ _ _
  | .copy _ | .gbs _ | .gms _ | .gds _ | .gbl _
  | .st16be | .st16le | .st32be | .st32le | .st64be | .st64le
  | .ld16be | .ld16le | .ld32be | .ld32le | .ld64be | .ld64le
  | .aesPblk _ | .aesReset _
  | .dgUpd _ | .dgUpds _ | .dgFinal _ | .dgReset _
  | .hmUpd _ | .hmUpds _ | .hmFinal _ | .hmReset _
  | .bufPbyte _ | .bufPbytes _ | .bufFinal _ | .bufReset _ | .bufGos _ | .bufGuos _
  | .padAdd | .padCnt
  | .cbcPblk _ | .cbcReset _
  | .ctrPblk _ | .ctrPbyte _ | .ctrPbytes _ | .ctrReset _ | .ctrSkip _ | .ctrSeek _ | .ctrGpos _
  | .gcmAad _ | .gcmAads _ | .gcmPbyte _ | .gcmPbytes _ | .gcmFinal _ | .gcmGmac _ | .gcmReset _
  | .gcmGos _ | .gcmGuos _ | .gfMul
  | .ccmAad _ | .ccmAads _ | .ccmPbyte _ | .ccmPbytes _ | .ccmFinal _ | .ccmPpkt _ | .ccmGmac _
  | .ccmReset _ | .ccmGos _ | .ccmGuos _
  | .cmacUpd _ | .cmacUpds _ | .cmacFinal _ | .cmacReset _ => 0

/-- The command word of a command (R122). -/
def encode (i : Instr) : Word32 := packWord i.opc (i.ctx?.getD 0) i.fieldA i.fieldB

end Sys2Proof
end

