-- ==== Sys2Proof/Machine/Ops.lean ====
section
/-! DEFINITION. The named operations: DMEM reads and writes, free values, completing a command, raising an
error (the CORE's whole exception entry: R14, R505, R510), admitting a slot, and the slots' common fields. -/

namespace Sys2Proof.Machine

/-! ## DMEM (20_memory.md R81) -/

/-- The byte written at an address since power-on, if one was. -/
def Memory.lookup : Memory → Nat → Option Byte
  | [], _ => none
  | c :: m, a => if c.1 = a then some c.2 else Memory.lookup m a

/-- Writing one byte keeps the addresses rising. -/
def Memory.write : Memory → Nat → Byte → Memory
  | [], a, b => [(a, b)]
  | c :: m, a, b =>
    if a < c.1 then (a, b) :: c :: m
    else if a = c.1 then (a, b) :: m
    else c :: Memory.write m a b

/-- What an address reads as: the byte written last, or the free power-on byte (log entry 1). -/
def Memory.read (m : Memory) (a : Nat) : Byte := (m.lookup a).getD (Config.powerOnByte a)

/-- `MemWrite(addr, len s, s)` (R13), ascending addresses (R86). -/
def Memory.writeBytes (m : Memory) (a : Nat) : List Byte → Memory
  | [] => m
  | b :: bs => Memory.writeBytes (m.write a b) (a + 1) bs

/-- `MemRead(addr, n)` (R13). -/
def Memory.readBytes (m : Memory) (a n : Nat) : List Byte := (List.range n).map fun i => m.read (a + i)

/-- A byte range `[base, base + len)` (R83). -/
structure Range where
  base : Nat
  len : Nat
deriving DecidableEq, Repr

/-- The address lies in the range. -/
abbrev Range.Contains (r : Range) (a : Nat) : Prop := r.base ≤ a ∧ a < r.base + r.len

/-- Some range contains the address. -/
abbrev InRanges (rs : List Range) (a : Nat) : Prop := ∃ r ∈ rs, r.Contains a

/-- `MEM_SIZE` (R81). -/
def State.memSize (s : State) : Nat := 2 ^ s.params.memLog2

/-- The range is inside DMEM: `a + n ≤ MEM_SIZE` on unbounded integers (R83). -/
abbrev State.Inside (s : State) (r : Range) : Prop := r.base + r.len ≤ s.memSize

/-- One byte of DMEM. -/
def State.readByte (s : State) (a : Nat) : Byte := s.mem.read a

/-- `MemRead(addr, n)`. -/
def State.memRead (s : State) (a n : Nat) : List Byte := s.mem.readBytes a n

/-- `MemWrite(addr, len bs, bs)`. -/
def State.memWrite (s : State) (a : Nat) (bs : List Byte) : State :=
  { s with mem := s.mem.writeBytes a bs }

/-- The bytes to store at `a`, those that fall in one of the ranges drawn from the free values, and the next
draw (R92). -/
def drawInside (rs : List Range) : Nat → List Byte → Nat → List Byte × Nat
  | _, [], d => ([], d)
  | a, b :: bs, d =>
    if InRanges rs a then
      (Config.freeByte d :: (drawInside rs (a + 1) bs (d + 1)).1, (drawInside rs (a + 1) bs (d + 1)).2)
    else (b :: (drawInside rs (a + 1) bs d).1, (drawInside rs (a + 1) bs d).2)

/-- Storing `bs` at `a`, each byte inside one of the ranges as a draw. -/
def State.storeDrawing (s : State) (rs : List Range) (a : Nat) (bs : List Byte) : State :=
  { s.memWrite a (drawInside rs a bs s.draws).1 with draws := (drawInside rs a bs s.draws).2 }

/-- Storing a command's output `bs` at `outA` when it read the ranges `ins` (R92): exact where an input
starts at the same address, and where they are disjoint; in any other overlap each byte written inside an
input is a draw (log entry 4). -/
def State.storeOver (s : State) (ins : List Range) (outA : Nat) (bs : List Byte) : State :=
  s.storeDrawing (ins.filter fun r => r.base ≠ outA) outA bs

/-! ## Completion (60_exceptions.md R505) -/

/-- The completion step: ERR and RESULT are written, PEND is emptied and so BUSY is 0; OVR and the CMD
read-back stay. The race record ends with the command, and until the host observes BUSY = 0 the command is
among the unseen ones (R101; log entry 7). -/
def State.complete (s : State) (e : Err) (r : Word64) : State :=
  { s with err := e, result := r, pend := none, raced := [], unseen := s.pend.toList ++ s.unseen }

/-- Completion with success and the value the command's rule sets. -/
def State.finish (s : State) (r : Word64) : State := s.complete .ok r

/-- TAKING AN ERROR, the one operation every command shares: `raise E` ends the command, STATUS.ERR gets
E's code and RESULT gets 0 (R14, R505). There is no saved state, no vector and no return (R510); what else
an error leaves (R506 classes 2 and 3) is in the state it is raised in. -/
def State.raise (s : State) (e : Err) : State := s.complete e 0

/-- Completion of a size query with value `n`. DESIGN CHOICE (log entry 8), safe: where `n` does not fit
RESULT's 64 bits the spec states no value, and RESULT is a free function of `n`. -/
def State.finishSize (s : State) (n : Nat) : State :=
  s.finish (if n < 2 ^ 64 then BitVec.ofNat 64 n else Config.wideSize n)

/-- A check of a command (R503): where it fails, the command ends with `raise e` in `s`. -/
def State.guard (s : State) (ok : Prop) [Decidable ok] (e : Err)
    (k : Host.Outcome State Fault Refusal) : Host.Outcome State Fault Refusal :=
  if ok then k else .next (s.raise e)

/-! ## Slots (10_state.md R40) -/

/-- `N_CTX` (R8, R40). -/
def State.nCtx (s : State) : Nat := s.slots.length

/-- The slot a CTX field names, if it exists (R119). -/
def State.slot? (s : State) (c : Ctx) : Option Slot := s.slots[c.toNat]?

/-- Replacing the addressed slot. -/
def State.setSlot (s : State) (c : Ctx) (sl : Slot) : State :=
  { s with slots := s.slots.set c.toNat sl }

/-- Steps 6 and 7 of R126: the slot exists and the family admits its algorithm (R114); otherwise
IllegalCommand. -/
def State.onSlot {α : Type} (s : State) (c : Ctx) (sel : Slot → Option α)
    (k : α → Host.Outcome State Fault Refusal) : Host.Outcome State Fault Refusal :=
  match (s.slot? c).bind sel with
  | some x => k x
  | none => .next (s.raise .illegalCommand)

/-- RequireInit and RequireKeyed (R151): the fields INIT creates exist, or NotInitialized. -/
def State.require {α : Type} (s : State) (key : Option α)
    (k : α → Host.Outcome State Fault Refusal) : Host.Outcome State Fault Refusal :=
  match key with
  | some x => k x
  | none => .next (s.raise .notInitialized)

/-- The algorithm and options CFG gave the slot (R42). -/
def Slot.conf : Slot → AlgConf
  | .unconfigured => .unconfigured
  | .aes _ => .aes
  | .cbc _ => .cbc
  | .ctr _ => .ctr
  | .buf inner padded _ => .buf inner padded
  | .gcm _ => .gcm
  | .ccm _ => .ccm
  | .cmac ms pad _ => .cmac ms pad
  | .digest alg _ => .digest alg
  | .hmac dk _ => .hmac dk

/-- The slot's `alg` (R42). -/
def Slot.alg (sl : Slot) : BitVec 8 := sl.conf.algCode

/-- The slot's `opt` (R42). -/
def Slot.opt (sl : Slot) : BitVec 8 := sl.conf.optByte

/-- The flag `keyed` (R41). -/
def Slot.isKeyed : Slot → Bool
  | .unconfigured => false
  | .aes k => k.isSome
  | .cbc k => k.isSome
  | .ctr k => k.isSome
  | .buf _ _ k => k.isSome
  | .gcm g => g.key.isSome
  | .ccm c => c.key.isSome
  | .cmac _ _ k => k.isSome
  | .digest _ _ => true
  | .hmac _ k => k.isSome

/-- The flag `init` (R41): `keyed`, but for GCM and CCM. -/
def Slot.isInit : Slot → Bool
  | .gcm g => g.key.any GcmKeyed.init
  | .ccm c => c.key.any CcmKeyed.init
  | .unconfigured => false
  | .aes k => k.isSome
  | .cbc k => k.isSome
  | .ctr k => k.isSome
  | .buf _ _ k => k.isSome
  | .cmac _ _ k => k.isSome
  | .digest _ _ => true
  | .hmac _ k => k.isSome

/-- The direction of the inner cipher of a BUF slot. -/
def InnerCipher.enc : InnerCipher → Bool
  | .ecb k => k.enc
  | .cbc k => k.enc

/-- The flag `enc` (R41; log entry 12). -/
def Slot.isEnc : Slot → Bool
  | .unconfigured => false
  | .aes k => k.any AesKeyed.enc
  | .cbc k => k.any CbcKeyed.enc
  | .ctr k => k.any CtrKeyed.enc
  | .buf _ _ k => k.any fun b => b.cipher.enc
  | .gcm g => g.key.any GcmKeyed.enc
  | .ccm c => c.key.any CcmKeyed.enc
  | .cmac _ _ _ => false
  | .digest _ _ => false
  | .hmac _ _ => false

/-- What a failed INIT leaves (R156, R506 class 2): the keyed fields are discarded, the fields of CFG and the
nonce history are kept. -/
def Slot.unkeyed : Slot → Slot
  | .unconfigured => .unconfigured
  | .aes _ => .aes none
  | .cbc _ => .cbc none
  | .ctr _ => .ctr none
  | .buf inner padded _ => .buf inner padded none
  | .gcm g => .gcm { g with key := none, macBlock := 0 }
  | .ccm c => .ccm { c with key := none, macBlock := 0 }
  | .cmac ms pad _ => .cmac ms pad none
  | .digest alg dg => .digest alg dg
  | .hmac dk _ => .hmac dk none

/-- The state a failed INIT ends in, before the error is raised. -/
def State.dropKey (s : State) (c : Ctx) : State :=
  match s.slot? c with
  | some sl => s.setSlot c sl.unkeyed
  | none => s

/-- AESLoad's check in an INIT (R202): `f` is the state a failed INIT ends in. -/
def State.loadKey (f : State) (key : Option AesKey)
    (k : AesKey → Host.Outcome State Fault Refusal) : Host.Outcome State Fault Refusal :=
  match key with
  | some x => k x
  | none => .next (f.raise .invalidParameter)

/-- The direction ENC gives a schedule (R203). -/
def dirOf : Bool → Dir
  | true => .E
  | false => .D

/-- The CMAC MAC size in bytes, from MS (R42, R141). -/
def cmacSize (ms : BitVec 5) : Nat := if ms = 0 then 8 else ms.toNat

/-! ## Admission of a slot by a family (R114) -/

def Slot.aes? : Slot → Option (Option AesKeyed)
  | .aes k => some k
  | _ => none

def Slot.cbc? : Slot → Option (Option CbcKeyed)
  | .cbc k => some k
  | _ => none

def Slot.ctr? : Slot → Option (Option CtrKeyed)
  | .ctr k => some k
  | _ => none

/-- A BUF slot as `(inner, padded, key)`. -/
def Slot.buf? : Slot → Option (Inner × Bool × Option BufKeyed)
  | .buf inner padded k => some (inner, padded, k)
  | _ => none

def Slot.gcm? : Slot → Option GcmSlot
  | .gcm g => some g
  | _ => none

def Slot.ccm? : Slot → Option CcmSlot
  | .ccm c => some c
  | _ => none

/-- A CMAC slot as `(ms, padMode, key)`. -/
def Slot.cmac? : Slot → Option (BitVec 5 × PadMode × Option CmacKeyed)
  | .cmac ms pad k => some (ms, pad, k)
  | _ => none

/-- A digest slot as `(alg, dg)`. -/
def Slot.digest? : Slot → Option (DigestAlg × Digest)
  | .digest alg dg => some (alg, dg)
  | _ => none

/-- An HMAC slot as `(dk, key)`. -/
def Slot.hmac? : Slot → Option (DigestAlg × Option HmacKeyed)
  | .hmac dk k => some (dk, k)
  | _ => none

end Sys2Proof.Machine
end

