-- ==== Sys2Proof/Machine/Operands.lean ====
section
/-! DEFINITION. The operand forms: latched arguments (30_encoding.md R111, R112), buffer descriptors
(20_memory.md R84), the single byte (40_context.md R152), INIT's ranges (R155), the checks on them (R149), and
the ranges each command names (R150). -/

namespace Sys2Proof.Machine

/-! ## Latched arguments -/

/-- The latched copy a command reads (R39, R59). With nothing pending there is none, and zeros stand for
it (log entry 15). -/
def State.latched (s : State) : Args :=
  match s.pend with
  | some p => p.args
  | none => Vector.replicate 8 0

/-- `ARG[i]` as a word. -/
def State.argW (s : State) (i : Fin 8) : Word64 := s.latched[i]

/-- `ARG[i]` as an unsigned integer (R111). -/
def State.arg (s : State) (i : Fin 8) : Nat := (s.argW i).toNat

/-- The single-byte operand `ARG[7][7:0]` (R152). -/
def State.byteOperand (s : State) : Byte := (s.argW 7).extractLsb' 0 8

/-! ## Descriptors (R84) -/

/-- The input array `[in_base, in_base + in_size)`. -/
def State.inArray (s : State) : Range := ⟨s.arg 0, s.arg 1⟩

/-- The output array `[out_base, out_base + out_size)`. -/
def State.outArray (s : State) : Range := ⟨s.arg 4, s.arg 5⟩

/-- Where the input bytes begin: `in_base + in_off`. -/
def State.inAddr (s : State) : Nat := s.arg 0 + s.arg 2

/-- Where the output bytes go: `out_base + out_off`. -/
def State.outAddr (s : State) : Nat := s.arg 4 + s.arg 6

/-- `len`, ARG3. -/
def State.len (s : State) : Nat := s.arg 3

/-- `InBytes(k)` (R14). -/
def State.inBytes (s : State) (k : Nat) : List Byte := s.memRead s.inAddr k

/-- InCheck(k) passes (R149): `in_off + k ≤ in_size`. -/
abbrev State.InFits (s : State) (k : Nat) : Prop := s.arg 2 + k ≤ s.arg 1

/-- OutCheck(m) passes (R149): nothing is written or `out_off + m ≤ out_size`. -/
abbrev State.OutFits (s : State) (m : Nat) : Prop := m = 0 ∨ s.arg 6 + m ≤ s.arg 5

/-- The result of a command that read `k` input bytes: `OutWrite(0, bs)`, and RESULT is the number of bytes
written (R153), with the overlap rule of R92. -/
def State.emit (s : State) (k : Nat) (bs : List Byte) : State :=
  (s.storeOver [⟨s.inAddr, k⟩] s.outAddr bs).finish (BitVec.ofNat 64 bs.length)

/-- The result of a command that names no input array: `OutWrite(0, bs)`, and RESULT is the number of bytes
written (R153). -/
def State.emitOut (s : State) (bs : List Byte) : State :=
  (s.memWrite s.outAddr bs).finish (BitVec.ofNat 64 bs.length)

/-! ## INIT operands (R112, R155) -/

/-- The key range `[key_addr, key_addr + key_len)`. -/
def State.keyRange (s : State) : Range := ⟨s.arg 0, s.arg 1⟩

/-- The IV or nonce range. -/
def State.ivRange (s : State) : Range := ⟨s.arg 2, s.arg 3⟩

/-- The associated-data range. -/
def State.aadRange (s : State) : Range := ⟨s.arg 4, s.arg 5⟩

/-- The ranges an INIT names, by its parameter kind (R155). -/
def State.initRanges (s : State) (pk : PKind) : List Range :=
  match pk with
  | .key => [s.keyRange]
  | .keyIv => [s.keyRange, s.ivRange]
  | .aead => [s.keyRange, s.ivRange, s.aadRange]

/-- `key`. -/
def State.keyBytes (s : State) : List Byte := s.memRead (s.arg 0) (s.arg 1)

/-- The IV or nonce. -/
def State.ivBytes (s : State) : List Byte := s.memRead (s.arg 2) (s.arg 3)

/-- The initial associated data, empty but for AEAD. -/
def State.aadBytes (s : State) (pk : PKind) : List Byte :=
  match pk with
  | .aead => s.memRead (s.arg 4) (s.arg 5)
  | .key => []
  | .keyIv => []

/-- `mac_bits`, ARG6. -/
def State.macBits (s : State) : Nat := s.arg 6

/-! ## RegionCheck (R150) -/

/-- Every range is inside DMEM. -/
abbrev State.AllInside (s : State) (rs : List Range) : Prop := ∀ r ∈ rs, s.Inside r

/-- The PACK operand `[a, a + n)` (R170). -/
def State.packRange (s : State) (n : Nat) : Range := ⟨s.arg 0, n⟩

/-- The PAD block `[base, base + n)` (R310, R311). -/
def State.padRange (s : State) : Range := ⟨s.arg 0, s.arg 1⟩

/-- A GF.MUL operand (R410). -/
def State.gfRange (s : State) (i : Fin 8) : Range := ⟨s.arg i, 16⟩

/-! ## The ranges a command names, for the race rule (R101; log entry 7) -/

/-- The input ranges of R85. -/
def inRanges (i : Instr) (s : State) : List Range :=
  match i with
  | .cfg _ _ | .copy _ | .gbs _ | .gms _ | .gds _ | .gbl _
  | .st16be | .st16le | .st32be | .st32le | .st64be | .st64le
  | .aesReset _ | .dgUpd _ | .dgFinal _ | .dgReset _ | .hmUpd _ | .hmFinal _ | .hmReset _
  | .bufPbyte _ | .bufFinal _ | .bufReset _ | .bufGos _ | .bufGuos _
  | .cbcReset _ | .ctrPbyte _ | .ctrReset _ | .ctrSkip _ | .ctrSeek _ | .ctrGpos _
  | .gcmAad _ | .gcmPbyte _ | .gcmFinal _ | .gcmGmac _ | .gcmReset _ | .gcmGos _ | .gcmGuos _
  | .ccmAad _ | .ccmPbyte _ | .ccmFinal _ | .ccmGmac _ | .ccmReset _ | .ccmGos _ | .ccmGuos _
  | .cmacUpd _ | .cmacFinal _ | .cmacReset _ => []
  | .ld16be | .ld16le => [s.packRange 2]
  | .ld32be | .ld32le => [s.packRange 4]
  | .ld64be | .ld64le => [s.packRange 8]
  | .aesInit _ pk _ _ | .bufInit _ pk _ _ | .cbcInit _ pk _ _ | .ctrInit _ pk _ _
  | .gcmInit _ pk _ _ | .ccmInit _ pk _ _ | .hmInit _ pk _ | .cmacInit _ pk _ => s.initRanges pk
  | .aesPblk _ | .dgUpds _ | .hmUpds _ | .bufPbytes _ | .cbcPblk _ | .ctrPblk _ | .ctrPbytes _
  | .gcmAads _ | .gcmPbytes _ | .ccmAads _ | .ccmPbytes _ | .ccmPpkt _ | .cmacUpds _ => [s.inArray]
  | .padAdd | .padCnt => [s.padRange]
  | .gfMul => [s.gfRange 0, s.gfRange 1]

/-- The output ranges: the output array, or the operand address of ST, PAD.ADD and GF.MUL (R85). -/
def outRanges (i : Instr) (s : State) : List Range :=
  match i with
  | .cfg _ _ | .copy _ | .gbs _ | .gms _ | .gds _ | .gbl _
  | .ld16be | .ld16le | .ld32be | .ld32le | .ld64be | .ld64le
  | .aesInit _ _ _ _ | .bufInit _ _ _ _ | .cbcInit _ _ _ _ | .ctrInit _ _ _ _
  | .gcmInit _ _ _ _ | .ccmInit _ _ _ _ | .hmInit _ _ _ | .cmacInit _ _ _
  | .aesReset _ | .dgUpd _ | .dgUpds _ | .dgReset _ | .hmUpd _ | .hmUpds _ | .hmReset _
  | .bufReset _ | .bufGos _ | .bufGuos _ | .padCnt
  | .cbcReset _ | .ctrReset _ | .ctrSkip _ | .ctrSeek _ | .ctrGpos _
  | .gcmAad _ | .gcmAads _ | .gcmReset _ | .gcmGos _ | .gcmGuos _
  | .ccmAad _ | .ccmAads _ | .ccmPbyte _ | .ccmPbytes _ | .ccmReset _ | .ccmGos _ | .ccmGuos _
  | .cmacUpd _ | .cmacUpds _ | .cmacReset _ => []
  | .st16be | .st16le => [s.packRange 2]
  | .st32be | .st32le => [s.packRange 4]
  | .st64be | .st64le => [s.packRange 8]
  | .aesPblk _ | .dgFinal _ | .hmFinal _ | .bufPbyte _ | .bufPbytes _ | .bufFinal _ | .cbcPblk _
  | .ctrPblk _ | .ctrPbyte _ | .ctrPbytes _ | .gcmPbyte _ | .gcmPbytes _ | .gcmFinal _ | .gcmGmac _
  | .ccmFinal _ | .ccmPpkt _ | .ccmGmac _ | .cmacFinal _ => [s.outArray]
  | .padAdd => [s.padRange]
  | .gfMul => [s.gfRange 4]

end Sys2Proof.Machine
end

