-- ==== Sys2Proof/Machine/Aes.lean ====
section
/-! DEFINITION. AES commands (42_aes.md R203 to R205). -/

namespace Sys2Proof.Machine

/-- AES.INIT (R203). -/
def execAesInit (ctx : Ctx) (pk : PKind) (_rnd enc : Bool) (s : State) :
    Host.Outcome State Fault Refusal :=
  s.onSlot ctx Slot.aes? fun _ =>
  s.guard (s.AllInside (s.initRanges pk)) .accessFault <|
  (s.dropKey ctx).guard (pk = .key) .invalidParameter <|
  (s.dropKey ctx).loadKey (aesLoad s.keyBytes (dirOf enc)) fun k =>
  .next ((s.setSlot ctx (.aes (some ⟨enc, k⟩))).finish 0)

/-- AES.PBLK (R204). -/
def execAesPblk (ctx : Ctx) (s : State) : Host.Outcome State Fault Refusal :=
  s.onSlot ctx Slot.aes? fun key =>
  s.guard (s.AllInside [s.inArray, s.outArray]) .accessFault <|
  s.require key fun k =>
  s.guard (s.InFits 16) .dataTooShort <|
  s.guard (s.OutFits 16) .outputTooShort <|
  .next (s.emit 16 (toBytes (aesBlock k.aes (blockOf (s.inBytes 16)))))

/-- AES.RESET (R205): the schedule and the flags are kept. -/
def execAesReset (ctx : Ctx) (s : State) : Host.Outcome State Fault Refusal :=
  s.onSlot ctx Slot.aes? fun _ => .next (s.finish 0)

end Sys2Proof.Machine
end

