-- ==== Sys2Proof/Machine/Cbc.lean ====
section
/-! DEFINITION. CBC mode (46_cbc.md R340 to R345): the chaining helpers, which the BUF wrapper shares, and the
three CBC commands. -/

namespace Sys2Proof.Machine

/-- `CBCBlock(C, x)` (R341): the result block, and the slot after it. -/
def cbcBlock (c : CbcKeyed) (x : Block) : Block × CbcKeyed :=
  if c.enc then
    (aesE c.aes.rk (c.cbcV ^^^ x), { c with cbcV := aesE c.aes.rk (c.cbcV ^^^ x) })
  else
    (aesD c.aes.rk x ^^^ c.cbcV, { c with cbcV := x, cbcNextV := c.cbcV })

/-- `CBCRestart(C)` (R345). -/
def cbcRestart (c : CbcKeyed) : CbcKeyed := { c with cbcV := c.iv, cbcNextV := 0 }

/-- The IV register after INIT: the IV of KEY_IV, else zero (R342, R303). -/
def State.ivBlock (s : State) (pk : PKind) : Block :=
  match pk with
  | .keyIv => blockOf s.ivBytes
  | .key => 0
  | .aead => 0

/-- CBC.INIT (R342). -/
def execCbcInit (ctx : Ctx) (pk : PKind) (_rnd enc : Bool) (s : State) :
    Host.Outcome State Fault Refusal :=
  s.onSlot ctx Slot.cbc? fun _ =>
  s.guard (s.AllInside (s.initRanges pk)) .accessFault <|
  (s.dropKey ctx).guard (pk ≠ .aead) .invalidParameter <|
  (s.dropKey ctx).guard (pk = .keyIv → s.arg 3 = 16) .invalidParameter <|
  (s.dropKey ctx).loadKey (aesLoad s.keyBytes (dirOf enc)) fun k =>
  .next ((s.setSlot ctx (.cbc (some (cbcRestart ⟨enc, k, s.ivBlock pk, 0, 0⟩)))).finish 0)

/-- CBC.PBLK (R343). -/
def execCbcPblk (ctx : Ctx) (s : State) : Host.Outcome State Fault Refusal :=
  s.onSlot ctx Slot.cbc? fun key =>
  s.guard (s.AllInside [s.inArray, s.outArray]) .accessFault <|
  s.require key fun c =>
  s.guard (s.InFits 16) .dataTooShort <|
  s.guard (s.OutFits 16) .outputTooShort <|
  .next ((s.setSlot ctx (.cbc (some (cbcBlock c (blockOf (s.inBytes 16))).2))).emit 16
    (toBytes (cbcBlock c (blockOf (s.inBytes 16))).1))

/-- CBC.RESET (R344): `if C.keyed: CBCRestart(C)`. -/
def execCbcReset (ctx : Ctx) (s : State) : Host.Outcome State Fault Refusal :=
  s.onSlot ctx Slot.cbc? fun key => .next ((s.setSlot ctx (.cbc (key.map cbcRestart))).finish 0)

end Sys2Proof.Machine
end

