-- ==== Sys2Proof/Machine/Buffered.lean ====
section
/-! DEFINITION. The buffered and padded wrapper and the PKCS7 padding (45_buffered.md R300 to R311): BUF and
PAD commands. -/

namespace Sys2Proof.Machine

/-! ## Inner cipher (R301) -/

/-- `BlockOp(C, x)` (R301): the result block, and the inner cipher after it. -/
def blockOp : InnerCipher → Block → Block × InnerCipher
  | .ecb k, x => (if k.enc then aesE k.aes.rk x else aesD k.aes.rk x, .ecb k)
  | .cbc k, x => ((cbcBlock k x).1, .cbc (cbcBlock k x).2)

/-- BlockOp over a list of blocks: the output bytes, and the inner cipher after them. -/
def blockOps : InnerCipher → List Block → List Byte × InnerCipher
  | c, [] => ([], c)
  | c, x :: xs =>
    (toBytes (blockOp c x).1 ++ (blockOps (blockOp c x).2 xs).1, (blockOps (blockOp c x).2 xs).2)

/-- The inner cipher's reset: CBCRestart for CBC (R301). -/
def InnerCipher.restart : InnerCipher → InnerCipher
  | .ecb k => .ecb k
  | .cbc k => .cbc (cbcRestart k)

/-- `BufReset(C)` (R301). -/
def bufReset (b : BufKeyed) : BufKeyed := ⟨b.cipher.restart, 0, 0⟩

/-! ## Padding (R302) -/

/-- The bytes PadAdd writes from `off` on, in a block of `n` bytes. -/
def padTail (n off : Nat) : List Byte := List.replicate (n - off) (BitVec.ofNat 8 ((n - off) % 256))

/-- `PadAdd(blk, off)`. -/
def padAdd (blk : List Byte) (off : Nat) : List Byte := blk.take off ++ padTail blk.length off

/-- `PadCount(blk)`: the whole block is looked at; `none` raises AuthenticationFailed. -/
def padCount (blk : List Byte) : Option Nat :=
  let n := blk.length
  let count := (blk.getD (n - 1) 0).toNat
  if count ≤ n ∧ count ≠ 0 ∧ ∀ i ∈ List.range n, n - i ≤ count → (blk.getD i 0).toNat = count then
    some count
  else none

/-! ## Streaming (R304, R305) -/

/-- `C.buf[C.bufOff ..< C.bufOff + len xs] <- xs`, and `bufOff` moved past them. -/
def bufFill (b : BufKeyed) (xs : List Byte) : BufKeyed :=
  { b with buf := setBytesAt b.buf b.bufOff xs, bufOff := b.bufOff + xs.length }

/-- Runs the full buffer through the cipher; `bufOff` becomes `off`, the buffer's contents stay. -/
def bufFlush (b : BufKeyed) (off : Nat) : List Byte × BufKeyed :=
  (toBytes (blockOp b.cipher b.buf).1, { b with cipher := (blockOp b.cipher b.buf).2, bufOff := off })

/-- The output size of PBYTE (R304). -/
def bufByteSize (padded : Bool) (b : BufKeyed) : Nat :=
  if (padded = false ∧ b.bufOff = 15) ∨ (padded = true ∧ b.bufOff = 16) then 16 else 0

/-- PBYTE's pseudocode (R304); `brst` is BUF_BYTE_RESET. -/
def bufByte (brst : Nat) (padded : Bool) (b : BufKeyed) (x : Byte) : List Byte × BufKeyed :=
  match padded with
  | false =>
    if b.bufOff + 1 = 16 then bufFlush (bufFill b [x]) brst else ([], bufFill b [x])
  | true =>
    if b.bufOff = 16 then ((bufFlush b 0).1, bufFill (bufFlush b 0).2 [x]) else ([], bufFill b [x])

/-- The last step of PBYTES: an unpadded wrapper processes a buffer that is full. -/
def bufSettle (padded : Bool) (b : BufKeyed) : List Byte × BufKeyed :=
  if padded = false ∧ b.bufOff = 16 then bufFlush b 0 else ([], b)

/-- PBYTES's pseudocode past the gap: the whole blocks of `xs` but the last 1 to 16 bytes, which are
buffered. -/
def bufDirect (b : BufKeyed) (xs : List Byte) : List Byte × BufKeyed :=
  let n := (xs.length - 1) / 16
  let r := blockOps b.cipher (blocksOf (xs.take (16 * n)))
  (r.1, bufFill { b with cipher := r.2 } (xs.drop (16 * n)))

/-- PBYTES's pseudocode (R305). -/
def bufBytes (padded : Bool) (b : BufKeyed) (data : List Byte) : List Byte × BufKeyed :=
  let gap := 16 - b.bufOff
  if gap < data.length then
    let first := bufFlush (bufFill b (data.take gap)) 0
    let rest := bufDirect first.2 (data.drop gap)
    let last := bufSettle padded rest.2
    (first.1 ++ rest.1 ++ last.1, last.2)
  else bufSettle padded (bufFill b data)

/-- `GUOS(C, len)` (R309). -/
def bufUpdateSize (padded : Bool) (bufOff len : Nat) : Nat :=
  let total := len + bufOff
  let left := total % 16
  if padded = false then total - left
  else if left = 0 then total - 16
  else total - left

/-- `GOS(C, len)` (R308). -/
def bufOutputSize (padded enc : Bool) (bufOff len : Nat) : Nat :=
  let total := len + bufOff
  let left := total % 16
  if padded = false then total
  else if left = 0 then (if enc = true then total + 16 else total)
  else total - left + 16

/-! ## BUF commands -/

/-- The slot with its keyed fields replaced; CFG's fields stay. -/
def State.putBuf (s : State) (ctx : Ctx) (b : Inner × Bool × Option BufKeyed) (k : BufKeyed) : State :=
  s.setSlot ctx (.buf b.1 b.2.1 (some k))

/-- The inner cipher INIT makes (R303): a CBC inner cipher with its IV loaded. -/
def innerInit (inner : Inner) (enc : Bool) (k : AesKey) (iv : Block) : InnerCipher :=
  match inner with
  | .ecb => .ecb ⟨enc, k⟩
  | .cbc => .cbc ⟨enc, k, iv, 0, 0⟩

/-- BUF.INIT (R303). -/
def execBufInit (ctx : Ctx) (pk : PKind) (_rnd enc : Bool) (s : State) :
    Host.Outcome State Fault Refusal :=
  s.onSlot ctx Slot.buf? fun b =>
  s.guard (s.AllInside (s.initRanges pk)) .accessFault <|
  (s.dropKey ctx).guard (pk ≠ .aead) .invalidParameter <|
  (s.dropKey ctx).guard (b.1 = .ecb → pk ≠ .keyIv) .invalidParameter <|
  (s.dropKey ctx).guard (b.1 = .cbc → pk = .keyIv → s.arg 3 = 16) .invalidParameter <|
  (s.dropKey ctx).loadKey (aesLoad s.keyBytes (dirOf enc)) fun k =>
  .next ((s.putBuf ctx b (bufReset ⟨innerInit b.1 enc k (s.ivBlock pk), 0, 0⟩)).finish 0)

/-- BUF.PBYTE (R304). -/
def execBufPbyte (ctx : Ctx) (s : State) : Host.Outcome State Fault Refusal :=
  s.onSlot ctx Slot.buf? fun b =>
  s.guard (s.AllInside [s.outArray]) .accessFault <|
  s.require b.2.2 fun k =>
  s.guard (s.OutFits (bufByteSize b.2.1 k)) .outputTooShort <|
  .next ((s.putBuf ctx b (bufByte s.params.bufByteReset.val b.2.1 k s.byteOperand).2).emitOut
    (bufByte s.params.bufByteReset.val b.2.1 k s.byteOperand).1)

/-- BUF.PBYTES (R305). -/
def execBufPbytes (ctx : Ctx) (s : State) : Host.Outcome State Fault Refusal :=
  s.onSlot ctx Slot.buf? fun b =>
  s.guard (s.AllInside [s.inArray, s.outArray]) .accessFault <|
  s.require b.2.2 fun k =>
  s.guard (s.InFits s.len) .dataTooShort <|
  s.guard (s.OutFits (bufUpdateSize b.2.1 k.bufOff s.len)) .outputTooShort <|
  .next ((s.putBuf ctx b (bufBytes b.2.1 k (s.inBytes s.len)).2).emit s.len
    (bufBytes b.2.1 k (s.inBytes s.len)).1)

/-- What an encrypting padded FINAL writes (R306). -/
def bufFinalBytes (k : BufKeyed) : List Byte :=
  let r := if k.bufOff = 16 then bufFlush k 0 else ([], k)
  r.1 ++ toBytes (blockOp r.2.cipher (blockOf (padAdd (toBytes r.2.buf) r.2.bufOff))).1

/-- BUF.FINAL, unpadded, from step 3 (R306). -/
def bufFinalPlain (ctx : Ctx) (b : Inner × Bool × Option BufKeyed) (k : BufKeyed) (s : State) :
    Host.Outcome State Fault Refusal :=
  s.guard (s.OutFits k.bufOff) .outputTooShort <|
  (s.putBuf ctx b (bufReset k)).guard (k.bufOff = 0) .dataTooShort <|
  .next ((s.putBuf ctx b (bufReset k)).finish 0)

/-- BUF.FINAL, padded, encrypting, from step 3 (R306). -/
def bufFinalEnc (ctx : Ctx) (b : Inner × Bool × Option BufKeyed) (k : BufKeyed) (s : State) :
    Host.Outcome State Fault Refusal :=
  s.guard (s.OutFits (if k.bufOff = 16 then 32 else 16)) .outputTooShort <|
  .next ((s.putBuf ctx b (bufReset k)).emitOut (bufFinalBytes k))

/-- BUF.FINAL, padded, decrypting, from step 3 (R306): every error leaves the slot reset. -/
def bufFinalDec (ctx : Ctx) (b : Inner × Bool × Option BufKeyed) (k : BufKeyed) (s : State) :
    Host.Outcome State Fault Refusal :=
  (s.putBuf ctx b (bufReset k)).guard (k.bufOff = 16) .dataTooShort <|
  match padCount (toBytes (blockOp k.cipher k.buf).1) with
  | some n =>
    (s.putBuf ctx b (bufReset k)).guard (s.OutFits (16 - n)) .outputTooShort <|
    .next ((s.putBuf ctx b (bufReset k)).emitOut ((toBytes (blockOp k.cipher k.buf).1).take (16 - n)))
  | none => .next ((s.putBuf ctx b (bufReset k)).raise .authenticationFailed)

/-- BUF.FINAL (R306). -/
def execBufFinal (ctx : Ctx) (s : State) : Host.Outcome State Fault Refusal :=
  s.onSlot ctx Slot.buf? fun b =>
  s.guard (s.AllInside [s.outArray]) .accessFault <|
  s.require b.2.2 fun k =>
  match b.2.1, k.cipher.enc with
  | false, _ => bufFinalPlain ctx b k s
  | true, true => bufFinalEnc ctx b k s
  | true, false => bufFinalDec ctx b k s

/-- BUF.RESET (R307): `if C.keyed: BufReset(C)`. -/
def execBufReset (ctx : Ctx) (s : State) : Host.Outcome State Fault Refusal :=
  s.onSlot ctx Slot.buf? fun b =>
  .next ((s.setSlot ctx (.buf b.1 b.2.1 (b.2.2.map bufReset))).finish 0)

/-- BUF.GOS (R308). -/
def execBufGos (ctx : Ctx) (s : State) : Host.Outcome State Fault Refusal :=
  s.onSlot ctx Slot.buf? fun b =>
  s.require b.2.2 fun k =>
  .next (s.finishSize (bufOutputSize b.2.1 k.cipher.enc k.bufOff s.len))

/-- BUF.GUOS (R309). -/
def execBufGuos (ctx : Ctx) (s : State) : Host.Outcome State Fault Refusal :=
  s.onSlot ctx Slot.buf? fun b =>
  s.require b.2.2 fun k => .next (s.finishSize (bufUpdateSize b.2.1 k.bufOff s.len))

/-! ## PAD commands -/

/-- PAD.ADD (R310): bytes `off .. n-1` of the block become the code. -/
def execPadAdd (s : State) : Host.Outcome State Fault Refusal :=
  s.guard (s.AllInside [s.padRange]) .accessFault <|
  s.guard (s.arg 2 ≤ s.arg 1) .dataTooShort <|
  .next ((s.memWrite (s.arg 0 + s.arg 2) (padTail (s.arg 1) (s.arg 2))).finish
    (BitVec.ofNat 64 (s.arg 1 - s.arg 2)))

/-- PAD.CNT (R311). -/
def execPadCnt (s : State) : Host.Outcome State Fault Refusal :=
  s.guard (s.AllInside [s.padRange]) .accessFault <|
  s.guard (s.arg 1 ≠ 0) .dataTooShort <|
  match padCount (s.memRead (s.arg 0) (s.arg 1)) with
  | some n => .next (s.finish (BitVec.ofNat 64 n))
  | none => .next (s.raise .authenticationFailed)

end Sys2Proof.Machine
end

