-- ==== Sys2Proof/Machine/BytePack.lean ====
section
/-! DEFINITION. PACK commands (41_bytepack.md R170 to R185). -/

namespace Sys2Proof.Machine

/-- A store of the `n` bytes `bs` at ARG0 (R170, R171). -/
def packStore (s : State) (n : Nat) (bs : List Byte) : Host.Outcome State Fault Refusal :=
  s.guard (s.Inside (s.packRange n)) .accessFault <| .next ((s.memWrite (s.arg 0) bs).finish 0)

/-- A load of `n` bytes at ARG0, read as the integer `val` of them, zero-extended (R170, R171). -/
def packLoad (s : State) (n : Nat) (val : List Byte → Nat) : Host.Outcome State Fault Refusal :=
  s.guard (s.Inside (s.packRange n)) .accessFault <|
  .next (s.finish (BitVec.ofNat 64 (val (s.memRead (s.arg 0) n))))

/-- ST16BE (R172). -/
def execSt16be (s : State) : Host.Outcome State Fault Refusal := packStore s 2 (beBytes 2 (s.arg 1))

/-- ST16LE (R173). -/
def execSt16le (s : State) : Host.Outcome State Fault Refusal := packStore s 2 (leBytes 2 (s.arg 1))

/-- ST32BE (R174). -/
def execSt32be (s : State) : Host.Outcome State Fault Refusal := packStore s 4 (beBytes 4 (s.arg 1))

/-- ST32LE (R175). -/
def execSt32le (s : State) : Host.Outcome State Fault Refusal := packStore s 4 (leBytes 4 (s.arg 1))

/-- ST64BE (R176). -/
def execSt64be (s : State) : Host.Outcome State Fault Refusal := packStore s 8 (beBytes 8 (s.arg 1))

/-- ST64LE (R177). -/
def execSt64le (s : State) : Host.Outcome State Fault Refusal := packStore s 8 (leBytes 8 (s.arg 1))

/-- LD16BE (R178). -/
def execLd16be (s : State) : Host.Outcome State Fault Refusal := packLoad s 2 beInt

/-- LD16LE (R179). -/
def execLd16le (s : State) : Host.Outcome State Fault Refusal := packLoad s 2 leInt

/-- LD32BE (R180). -/
def execLd32be (s : State) : Host.Outcome State Fault Refusal := packLoad s 4 beInt

/-- LD32LE (R181). -/
def execLd32le (s : State) : Host.Outcome State Fault Refusal := packLoad s 4 leInt

/-- LD64BE (R182). -/
def execLd64be (s : State) : Host.Outcome State Fault Refusal := packLoad s 8 beInt

/-- LD64LE (R183). -/
def execLd64le (s : State) : Host.Outcome State Fault Refusal := packLoad s 8 leInt

end Sys2Proof.Machine
end

