-- ==== Sys2Proof/Machine/CcmCore.lean ====
section
/-! DEFINITION. CCM formatting and packet processing (49_ccm_cbcmac.md R440 to R446). -/

namespace Sys2Proof.Machine

/-- `L = 15 - len(N)` (R440). -/
def CcmKeyed.lenSize (c : CcmKeyed) : Nat := 15 - c.nonce.length

/-- `A = iaad || aad` (R440). -/
def CcmKeyed.allAad (c : CcmKeyed) : List Byte := c.iaad ++ c.aad

/-- The flags byte of B0 (R441). -/
def ccmFlags (c : CcmKeyed) : Byte :=
  (if c.allAad = [] then 0 else 0x40) ||| (BitVec.ofNat 8 ((c.macSize - 2) / 2) <<< 3) |||
    BitVec.ofNat 8 (c.lenSize - 1)

/-- `B0(C, P)` of a message of `n` bytes (R441). -/
def ccmB0 (c : CcmKeyed) (n : Nat) : Block := blockOf (ccmFlags c :: c.nonce ++ beBytes c.lenSize n)

/-- `AADEnc(A)` (R442). -/
def aadEnc (a : List Byte) : List Byte :=
  if a = [] then []
  else if a.length < 0xFF00 then pad16 (beBytes 2 a.length ++ a)
  else pad16 ([0xFF, 0xFE] ++ beBytes 4 a.length ++ a)

/-- The counter block `A_i(C)` (R443). -/
def ccmCtrBlock (c : CcmKeyed) (i : Nat) : Block :=
  blockOf (BitVec.ofNat 8 (c.lenSize - 1) :: c.nonce ++ beBytes c.lenSize i)

/-- `S_i = AES_E(C, A_i)` (R443). -/
def ccmStream (c : CcmKeyed) (i : Nat) : Block := aesE c.aes.rk (ccmCtrBlock c i)

/-- `CBCMAC_k(X)` over blocks (R444). -/
def cbcMac (rk : List Block) (xs : List Block) : Block := xs.foldl (fun y x => aesE rk (y ^^^ x)) 0

/-- `CCMMac(C, P)` (R444). -/
def ccmMac (c : CcmKeyed) (p : List Byte) : List Byte :=
  (toBytes (cbcMac c.aes.rk (ccmB0 c p.length :: blocksOf (aadEnc c.allAad) ++ blocksOf p))).take c.macSize

/-- `CtrXor(x)` (R445): byte i takes byte `i mod 16` of `S_{1 + i/16}`. -/
def ccmXor (c : CcmKeyed) (x : List Byte) : List Byte :=
  xorBytes x ((List.range ((x.length + 15) / 16)).flatMap fun j => toBytes (ccmStream c (j + 1)))

/-- A MAC xored with `S_0[0 ..< M]` (R445). -/
def ccmMask (c : CcmKeyed) (t : List Byte) : List Byte := xorBytes t (toBytes (ccmStream c 0))

/-- The counter-space limit for a message of `n` bytes (R445, R452). -/
abbrev CcmKeyed.HasRoom (c : CcmKeyed) (n : Nat) : Prop := ¬(c.lenSize < 4 ∧ 2 ^ (8 * c.lenSize) ≤ n)

/-- `CCMPacket(C, in)` past its length limit (R445): the output and the tag sent or received; `none` raises
AuthenticationFailed. -/
def ccmPacket (c : CcmKeyed) (x : List Byte) : Option (List Byte × List Byte) :=
  match c.enc with
  | true => some (ccmXor c x ++ ccmMask c (ccmMac c x), ccmMask c (ccmMac c x))
  | false =>
    if x.length < c.macSize then none
    else
      let p := ccmXor c (x.take (x.length - c.macSize))
      let u := x.drop (x.length - c.macSize)
      if ccmMask c u = ccmMac c p then some (p, u) else none

/-- `CCMRestart(C)` (R446): an encrypting slot needs a new INIT. -/
def ccmRestart (c : CcmKeyed) : CcmKeyed :=
  { c with aad := [], msg := [], init := if c.enc then false else c.init }

/-- The bytes a packet of `n` bytes turns into (R452, R453). -/
def ccmPacketSize (c : CcmKeyed) (n : Nat) : Nat := if c.enc then n + c.macSize else n - c.macSize

end Sys2Proof.Machine
end

