-- ==== Sys2Proof/Machine/Ccm.lean ====
section
/-! DEFINITION. CCM commands (49_ccm_cbcmac.md R447 to R457). -/

namespace Sys2Proof.Machine

/-- The slot with its keyed fields and its `macBlock` replaced; the key and nonce history stays. -/
def State.putCcm (s : State) (ctx : Ctx) (c : CcmSlot) (k : CcmKeyed) (mac : Block) : State :=
  s.setSlot ctx (.ccm { c with key := some k, macBlock := mac })

/-- RequireInit of a CCM slot (R151, R440). -/
def CcmSlot.ready (c : CcmSlot) : Option CcmKeyed := c.key.filter CcmKeyed.init

/-- The MAC size INIT sets: `mac_bits / 8` for AEAD, else 8 (R447). -/
def State.ccmMacSize (s : State) (pk : PKind) : Nat :=
  match pk with
  | .aead => s.macBits / 8
  | .keyIv => 8
  | .key => 8

/-- The tag lengths CCM takes, in bits (R447). -/
abbrev CcmMacBits (n : Nat) : Prop :=
  n = 32 ∨ n = 48 ∨ n = 64 ∨ n = 80 ∨ n = 96 ∨ n = 112 ∨ n = 128

/-- CCM.INIT (R447). -/
def execCcmInit (ctx : Ctx) (pk : PKind) (_rnd enc : Bool) (s : State) :
    Host.Outcome State Fault Refusal :=
  s.onSlot ctx Slot.ccm? fun c =>
  s.guard (s.AllInside (s.initRanges pk)) .accessFault <|
  (s.dropKey ctx).guard (pk ≠ .key) .invalidParameter <|
  (s.dropKey ctx).guard (pk = .aead → CcmMacBits s.macBits) .invalidParameter <|
  (s.dropKey ctx).guard (7 ≤ s.arg 3 ∧ s.arg 3 ≤ 13) .invalidParameter <|
  (s.dropKey ctx).loadKey (aesLoad s.keyBytes .E) fun k =>
  (s.dropKey ctx).guard (pk = .aead → s.arg 5 ≤ s.params.ccmMaxAad) .capacityExceeded <|
  (s.dropKey ctx).guard (¬(enc = true ∧ c.lastNonce = some s.ivBytes ∧ c.lastKey = some s.keyBytes))
    .misuseDetected <|
  .next ((s.setSlot ctx (.ccm ⟨some ⟨true, enc, k, s.ivBytes, s.ccmMacSize pk, s.aadBytes pk, [], []⟩, 0,
    some s.keyBytes, some s.ivBytes⟩)).finish 0)

/-- The room left for associated data (R448, R449). -/
abbrev CcmKeyed.AadFits (k : CcmKeyed) (s : State) (n : Nat) : Prop :=
  k.iaad.length + k.aad.length + n ≤ s.params.ccmMaxAad

/-- The room left for the message (R450, R451). -/
abbrev CcmKeyed.MsgFits (k : CcmKeyed) (s : State) (n : Nat) : Prop :=
  k.msg.length + n ≤ s.params.ccmMaxMsg

/-- CCM.AAD (R448). -/
def execCcmAad (ctx : Ctx) (s : State) : Host.Outcome State Fault Refusal :=
  s.onSlot ctx Slot.ccm? fun c =>
  s.require c.ready fun k =>
  s.guard (k.AadFits s 1) .capacityExceeded <|
  .next ((s.putCcm ctx c { k with aad := k.aad ++ [s.byteOperand] } c.macBlock).finish 0)

/-- CCM.AADS (R449). -/
def execCcmAads (ctx : Ctx) (s : State) : Host.Outcome State Fault Refusal :=
  s.onSlot ctx Slot.ccm? fun c =>
  s.guard (s.AllInside [s.inArray]) .accessFault <|
  s.require c.ready fun k =>
  s.guard (s.InFits s.len) .dataTooShort <|
  s.guard (k.AadFits s s.len) .capacityExceeded <|
  .next ((s.putCcm ctx c { k with aad := k.aad ++ s.inBytes s.len } c.macBlock).finish 0)

/-- CCM.PBYTE (R450): buffered; nothing is written. -/
def execCcmPbyte (ctx : Ctx) (s : State) : Host.Outcome State Fault Refusal :=
  s.onSlot ctx Slot.ccm? fun c =>
  s.require c.ready fun k =>
  s.guard (k.MsgFits s 1) .capacityExceeded <|
  .next ((s.putCcm ctx c { k with msg := k.msg ++ [s.byteOperand] } c.macBlock).finish 0)

/-- CCM.PBYTES (R451). -/
def execCcmPbytes (ctx : Ctx) (s : State) : Host.Outcome State Fault Refusal :=
  s.onSlot ctx Slot.ccm? fun c =>
  s.guard (s.AllInside [s.inArray]) .accessFault <|
  s.require c.ready fun k =>
  s.guard (s.InFits s.len) .dataTooShort <|
  s.guard (k.MsgFits s s.len) .capacityExceeded <|
  .next ((s.putCcm ctx c { k with msg := k.msg ++ s.inBytes s.len } c.macBlock).finish 0)

/-- The slot as CCM.RESET leaves it (R455). -/
def State.restartCcm (s : State) (ctx : Ctx) (c : CcmSlot) (k : CcmKeyed) : State :=
  s.putCcm ctx c (ccmRestart k) 0

/-- The common end of FINAL and PPKT: the packet, then the restart (R452, R453). -/
def ccmFinish (s : State) (ctx : Ctx) (c : CcmSlot) (k : CcmKeyed) (x : List Byte)
    (out : State → List Byte → State) : Host.Outcome State Fault Refusal :=
  match ccmPacket k x with
  | some r => .next (out (s.putCcm ctx c (ccmRestart k) (blockOf r.2)) r.1)
  | none => .next ((s.restartCcm ctx c k).raise .authenticationFailed)

/-- CCM.FINAL (R452). -/
def execCcmFinal (ctx : Ctx) (s : State) : Host.Outcome State Fault Refusal :=
  s.onSlot ctx Slot.ccm? fun c =>
  s.guard (s.AllInside [s.outArray]) .accessFault <|
  s.require c.ready fun k =>
  s.guard (s.OutFits (ccmPacketSize k k.msg.length)) .outputTooShort <|
  s.guard (k.HasRoom k.msg.length) .misuseDetected <|
  ccmFinish s ctx c k k.msg fun t bs => t.emitOut bs

/-- CCM.PPKT (R453). -/
def execCcmPpkt (ctx : Ctx) (s : State) : Host.Outcome State Fault Refusal :=
  s.onSlot ctx Slot.ccm? fun c =>
  s.guard (s.AllInside [s.inArray, s.outArray]) .accessFault <|
  s.require c.ready fun k =>
  s.guard (s.InFits s.len) .dataTooShort <|
  s.guard (s.OutFits (ccmPacketSize k s.len)) .outputTooShort <|
  s.guard (s.len ≤ s.params.ccmMaxMsg) .capacityExceeded <|
  s.guard (k.HasRoom s.len) .misuseDetected <|
  ccmFinish s ctx c k (s.inBytes s.len) fun t bs => t.emit s.len bs

/-- CCM.GMAC (R454): the tag as it appears after the ciphertext. -/
def execCcmGmac (ctx : Ctx) (s : State) : Host.Outcome State Fault Refusal :=
  s.onSlot ctx Slot.ccm? fun c =>
  s.guard (s.AllInside [s.outArray]) .accessFault <|
  s.require c.key fun k =>
  s.guard (s.OutFits k.macSize) .outputTooShort <|
  .next (s.emitOut ((toBytes c.macBlock).take k.macSize))

/-- CCM.RESET (R455): `if C.keyed: CCMRestart(C); C.macBlock <- zeros(16)`. -/
def execCcmReset (ctx : Ctx) (s : State) : Host.Outcome State Fault Refusal :=
  s.onSlot ctx Slot.ccm? fun c =>
  match c.key with
  | some k => .next ((s.restartCcm ctx c k).finish 0)
  | none => .next (s.finish 0)

/-- CCM.GOS (R456). -/
def execCcmGos (ctx : Ctx) (s : State) : Host.Outcome State Fault Refusal :=
  s.onSlot ctx Slot.ccm? fun c =>
  s.require c.key fun k => .next (s.finishSize (ccmPacketSize k (s.len + k.msg.length)))

/-- CCM.GUOS (R457). -/
def execCcmGuos (ctx : Ctx) (s : State) : Host.Outcome State Fault Refusal :=
  s.onSlot ctx Slot.ccm? fun c =>
  s.require c.key fun _ => .next (s.finish 0)

end Sys2Proof.Machine
end

