-- ==== Sys2Proof/Machine/Cmac.lean ====
section
/-! DEFINITION. CBC-MAC (49_ccm_cbcmac.md R470 to R477). -/

namespace Sys2Proof.Machine

/-- Chains the buffer and empties it (R471). -/
def cmacChain (c : CmacKeyed) : CmacKeyed :=
  { c with chain := aesE c.aes.rk (c.chain ^^^ c.buf), bufOff := 0 }

/-- `CMACAbsorb(C, b)` (R471). -/
def cmacAbsorb (c : CmacKeyed) (b : Byte) : CmacKeyed :=
  let c' := if c.bufOff = 16 then cmacChain c else c
  { c' with buf := setByteAt c'.buf c'.bufOff b, bufOff := c'.bufOff + 1 }

/-- `for b in bs: CMACAbsorb(C, b)`. -/
def cmacAbsorbBytes (c : CmacKeyed) (bs : List Byte) : CmacKeyed := bs.foldl cmacAbsorb c

/-- The last block, padded, with the chaining value before it (R472). -/
def cmacLast (pad : PadMode) (c : CmacKeyed) : CmacKeyed :=
  match pad with
  | .zero => { c with buf := blockOf ((toBytes c.buf).take c.bufOff) }
  | .pkcs7 =>
    let c' := if c.bufOff = 16 then cmacChain c else c
    { c' with buf := blockOf (padAdd (toBytes c'.buf) c'.bufOff) }

/-- The chaining value `CMACFinish(C)` returns (R472). -/
def cmacFinish (pad : PadMode) (c : CmacKeyed) : Block := (cmacChain (cmacLast pad c)).chain

/-- `CMACClear(C)` (R472). -/
def cmacClear (c : CmacKeyed) : CmacKeyed := ⟨c.aes, 0, 0, 0⟩

/-- The slot with its keyed fields replaced; CFG's fields stay. -/
def State.putCmac (s : State) (ctx : Ctx) (m : BitVec 5 × PadMode × Option CmacKeyed) (k : CmacKeyed) :
    State :=
  s.setSlot ctx (.cmac m.1 m.2.1 (some k))

/-- CMAC.INIT (R473). -/
def execCmacInit (ctx : Ctx) (pk : PKind) (_rnd : Bool) (s : State) :
    Host.Outcome State Fault Refusal :=
  s.onSlot ctx Slot.cmac? fun m =>
  s.guard (s.AllInside (s.initRanges pk)) .accessFault <|
  (s.dropKey ctx).guard (pk = .key) .invalidParameter <|
  (s.dropKey ctx).loadKey (aesLoad s.keyBytes .E) fun k =>
  .next ((s.putCmac ctx m ⟨k, 0, 0, 0⟩).finish 0)

/-- CMAC.UPD (R474). -/
def execCmacUpd (ctx : Ctx) (s : State) : Host.Outcome State Fault Refusal :=
  s.onSlot ctx Slot.cmac? fun m =>
  s.require m.2.2 fun k =>
  .next ((s.putCmac ctx m (cmacAbsorb k s.byteOperand)).finish 0)

/-- CMAC.UPDS (R475). -/
def execCmacUpds (ctx : Ctx) (s : State) : Host.Outcome State Fault Refusal :=
  s.onSlot ctx Slot.cmac? fun m =>
  s.guard (s.AllInside [s.inArray]) .accessFault <|
  s.require m.2.2 fun k =>
  s.guard (s.InFits s.len) .dataTooShort <|
  .next ((s.putCmac ctx m (cmacAbsorbBytes k (s.inBytes s.len))).finish 0)

/-- CMAC.FINAL (R476). -/
def execCmacFinal (ctx : Ctx) (s : State) : Host.Outcome State Fault Refusal :=
  s.onSlot ctx Slot.cmac? fun m =>
  s.guard (s.AllInside [s.outArray]) .accessFault <|
  s.require m.2.2 fun k =>
  s.guard (s.OutFits (cmacSize m.1)) .outputTooShort <|
  .next ((s.putCmac ctx m (cmacClear k)).emitOut ((toBytes (cmacFinish m.2.1 k)).take (cmacSize m.1)))

/-- CMAC.RESET (R477): `if C.keyed: CMACClear(C)`. -/
def execCmacReset (ctx : Ctx) (s : State) : Host.Outcome State Fault Refusal :=
  s.onSlot ctx Slot.cmac? fun m =>
  .next ((s.setSlot ctx (.cmac m.1 m.2.1 (m.2.2.map cmacClear))).finish 0)

end Sys2Proof.Machine
end

