-- ==== Sys2Proof/Machine/DigestCore.lean ====
section
/-! DEFINITION. The digest engine (43_digest.md R230 to R252): the streaming framework, and the MD5, SHA-1
and SHA-256 compressions. -/

namespace Sys2Proof.Machine

/-! ## MD5 (R240 to R243) -/

/-- The constants `T[0..63]` (R242), eight words a row. -/
def md5Rows : List (BitVec 256) :=
  [0xD76AA478E8C7B756242070DBC1BDCEEEF57C0FAF4787C62AA8304613FD469501#256,
   0x698098D88B44F7AFFFFF5BB1895CD7BE6B901122FD987193A679438E49B40821#256,
   0xF61E2562C040B340265E5A51E9B6C7AAD62F105D02441453D8A1E681E7D3FBC8#256,
   0x21E1CDE6C33707D6F4D50D87455A14EDA9E3E905FCEFA3F8676F02D98D2A4C8A#256] ++
  [0xFFFA39428771F6816D9D6122FDE5380CA4BEEA444BDECFA9F6BB4B60BEBFBC70#256,
   0x289B7EC6EAA127FAD4EF308504881D05D9D4D039E6DB99E51FA27CF8C4AC5665#256,
   0xF4292244432AFF97AB9423A7FC93A039655B59C38F0CCC92FFEFF47D85845DD1#256,
   0x6FA87E4FFE2CE6E0A30143144E0811A1F7537E82BD3AF2352AD7D2BBEB86D391#256]

/-- Word `i` of a table of rows of eight 32-bit words. -/
def tableWord (rows : List (BitVec 256)) (i : Nat) : Word32 :=
  (rows.getD (i / 8) 0).extractLsb' (224 - 32 * (i % 8)) 32

/-- `T[i]` (R242). -/
def md5T (i : Nat) : Word32 := tableWord md5Rows i

/-- The round function of step i (R240, R241): F, G, H, I. -/
def md5Fn (i : Nat) (x y z : Word32) : Word32 :=
  if i < 16 then (x &&& y) ||| (~~~x &&& z)
  else if i < 32 then (x &&& z) ||| (y &&& ~~~z)
  else if i < 48 then x ^^^ y ^^^ z
  else y ^^^ (x ||| ~~~z)

/-- The shift amount `s[i]` (R241). -/
def md5Shift (i : Nat) : Nat :=
  if i < 16 then [7, 12, 17, 22].getD (i % 4) 0
  else if i < 32 then [5, 9, 14, 20].getD (i % 4) 0
  else if i < 48 then [4, 11, 16, 23].getD (i % 4) 0
  else [6, 10, 15, 21].getD (i % 4) 0

/-- The message index `g(i)` (R241). -/
def md5Index (i : Nat) : Nat :=
  if i < 16 then i
  else if i < 32 then (5 * i + 1) % 16
  else if i < 48 then (3 * i + 5) % 16
  else (7 * i) % 16

/-- The registers of MD5 in the middle of a block. -/
structure Md5Regs where
  a : Word32
  b : Word32
  c : Word32
  d : Word32

/-- Step i of R243. -/
def md5Step (x : Vector Word32 16) (r : Md5Regs) (i : Nat) : Md5Regs where
  a := r.d
  b := r.b + (r.a + md5Fn i r.b r.c r.d + md5T i + x.toList.getD (md5Index i) 0).rotateLeft (md5Shift i)
  c := r.b
  d := r.c

/-- `Compress_MD5(Hs, X)` (R243). -/
def md5Compress (hs : List Word32) (x : Vector Word32 16) : List Word32 :=
  let r := (List.range 64).foldl (md5Step x) ⟨hs.getD 0 0, hs.getD 1 0, hs.getD 2 0, hs.getD 3 0⟩
  [hs.getD 0 0 + r.a, hs.getD 1 0 + r.b, hs.getD 2 0 + r.c, hs.getD 3 0 + r.d]

/-! ## SHA-1 (R244 to R246) -/

/-- `f_t(b, c, d)` (R244). -/
def sha1Fn (t : Nat) (b c d : Word32) : Word32 :=
  if t < 20 then (b &&& c) ||| (~~~b &&& d)
  else if t < 40 then b ^^^ c ^^^ d
  else if t < 60 then (b &&& c) ||| (b &&& d) ||| (c &&& d)
  else b ^^^ c ^^^ d

/-- `K_t` (R244). -/
def sha1K (t : Nat) : Word32 :=
  if t < 20 then 0x5A827999 else if t < 40 then 0x6ED9EBA1 else if t < 60 then 0x8F1BBCDC else 0xCA62C1D6

/-- `n` more schedule words (R245), newest first. -/
def sha1Expand : Nat → List Word32 → List Word32
  | 0, ws => ws
  | n + 1, ws =>
    sha1Expand n
      ((ws.getD 2 0 ^^^ ws.getD 7 0 ^^^ ws.getD 13 0 ^^^ ws.getD 15 0).rotateLeft 1 :: ws)

/-- `W[0..79]` (R245). -/
def sha1Schedule (x : Vector Word32 16) : List Word32 := (sha1Expand 64 x.toList.reverse).reverse

/-- The registers of SHA-1 in the middle of a block. -/
structure Sha1Regs where
  a : Word32
  b : Word32
  c : Word32
  d : Word32
  e : Word32

/-- Round t of R246. -/
def sha1Step (ws : List Word32) (r : Sha1Regs) (t : Nat) : Sha1Regs where
  a := r.a.rotateLeft 5 + sha1Fn t r.b r.c r.d + r.e + sha1K t + ws.getD t 0
  b := r.a
  c := r.b.rotateLeft 30
  d := r.c
  e := r.d

/-- `Compress_SHA1(Hs, X)` (R246). -/
def sha1Compress (hs : List Word32) (x : Vector Word32 16) : List Word32 :=
  let r := (List.range 80).foldl (sha1Step (sha1Schedule x))
    ⟨hs.getD 0 0, hs.getD 1 0, hs.getD 2 0, hs.getD 3 0, hs.getD 4 0⟩
  [hs.getD 0 0 + r.a, hs.getD 1 0 + r.b, hs.getD 2 0 + r.c, hs.getD 3 0 + r.d, hs.getD 4 0 + r.e]

/-! ## SHA-256 (R247 to R249) -/

/-- The constants `K[0..63]` (R248), eight words a row. -/
def sha256Rows : List (BitVec 256) :=
  [0x428A2F9871374491B5C0FBCFE9B5DBA53956C25B59F111F1923F82A4AB1C5ED5#256,
   0xD807AA9812835B01243185BE550C7DC372BE5D7480DEB1FE9BDC06A7C19BF174#256,
   0xE49B69C1EFBE47860FC19DC6240CA1CC2DE92C6F4A7484AA5CB0A9DC76F988DA#256,
   0x983E5152A831C66DB00327C8BF597FC7C6E00BF3D5A7914706CA635114292967#256] ++
  [0x27B70A852E1B21384D2C6DFC53380D13650A7354766A0ABB81C2C92E92722C85#256,
   0xA2BFE8A1A81A664BC24B8B70C76C51A3D192E819D6990624F40E3585106AA070#256,
   0x19A4C1161E376C082748774C34B0BCB5391C0CB34ED8AA4A5B9CCA4F682E6FF3#256,
   0x748F82EE78A5636F84C878148CC7020890BEFFFAA4506CEBBEF9A3F7C67178F2#256]

/-- `K[t]` (R248). -/
def sha256K (t : Nat) : Word32 := tableWord sha256Rows t

def sha256Ch (e f g : Word32) : Word32 := (e &&& f) ^^^ (~~~e &&& g)

def sha256Maj (a b c : Word32) : Word32 := (a &&& b) ^^^ (a &&& c) ^^^ (b &&& c)

/-- `Σ0(a)`. -/
def sha256S0 (a : Word32) : Word32 := a.rotateRight 2 ^^^ a.rotateRight 13 ^^^ a.rotateRight 22

/-- `Σ1(e)`. -/
def sha256S1 (e : Word32) : Word32 := e.rotateRight 6 ^^^ e.rotateRight 11 ^^^ e.rotateRight 25

/-- `σ0(x)`. -/
def sha256s0 (x : Word32) : Word32 := x.rotateRight 7 ^^^ x.rotateRight 18 ^^^ (x >>> 3)

/-- `σ1(x)`. -/
def sha256s1 (x : Word32) : Word32 := x.rotateRight 17 ^^^ x.rotateRight 19 ^^^ (x >>> 10)

/-- `n` more schedule words (R249), newest first. -/
def sha256Expand : Nat → List Word32 → List Word32
  | 0, ws => ws
  | n + 1, ws =>
    sha256Expand n
      ((sha256s1 (ws.getD 1 0) + ws.getD 6 0 + sha256s0 (ws.getD 14 0) + ws.getD 15 0) :: ws)

/-- `W[0..63]` (R249). -/
def sha256Schedule (x : Vector Word32 16) : List Word32 := (sha256Expand 48 x.toList.reverse).reverse

/-- The registers of SHA-256 in the middle of a block. -/
structure Sha256Regs where
  a : Word32
  b : Word32
  c : Word32
  d : Word32
  e : Word32
  f : Word32
  g : Word32
  h : Word32

/-- `T1` of round t (R249). -/
def sha256T1 (ws : List Word32) (r : Sha256Regs) (t : Nat) : Word32 :=
  r.h + sha256S1 r.e + sha256Ch r.e r.f r.g + sha256K t + ws.getD t 0

/-- Round t of R249. -/
def sha256Step (ws : List Word32) (r : Sha256Regs) (t : Nat) : Sha256Regs where
  a := sha256T1 ws r t + (sha256S0 r.a + sha256Maj r.a r.b r.c)
  b := r.a
  c := r.b
  d := r.c
  e := r.d + sha256T1 ws r t
  f := r.e
  g := r.f
  h := r.g

/-- `Compress_SHA256(Hs, X)` (R249). -/
def sha256Compress (hs : List Word32) (x : Vector Word32 16) : List Word32 :=
  let r := (List.range 64).foldl (sha256Step (sha256Schedule x))
    ⟨hs.getD 0 0, hs.getD 1 0, hs.getD 2 0, hs.getD 3 0, hs.getD 4 0, hs.getD 5 0, hs.getD 6 0,
      hs.getD 7 0⟩
  [hs.getD 0 0 + r.a, hs.getD 1 0 + r.b, hs.getD 2 0 + r.c, hs.getD 3 0 + r.d, hs.getD 4 0 + r.e,
    hs.getD 5 0 + r.f, hs.getD 6 0 + r.g, hs.getD 7 0 + r.h]

/-! ## The framework (R230 to R239, R250, R252) -/

/-- `DigestSize` (R252). -/
def digestSize : DigestAlg → Nat
  | .md5 => 16
  | .sha1 => 20
  | .sha256 => 32

/-- The digest's internal block length (R252). -/
def digestBlockLen : Nat := 64

/-- The initial values (R232 to R234). -/
def digestIV : DigestAlg → List Word32
  | .md5 => [0x67452301, 0xEFCDAB89, 0x98BADCFE, 0x10325476]
  | .sha1 => [0x67452301, 0xEFCDAB89, 0x98BADCFE, 0x10325476, 0xC3D2E1F0]
  | .sha256 =>
    [0x6A09E667, 0xBB67AE85, 0x3C6EF372, 0xA54FF53A, 0x510E527F, 0x9B05688C, 0x1F83D9AB, 0x5BE0CD19]

/-- `DigestReset(alg)` (R231). -/
def digestReset (alg : DigestAlg) : Digest where
  hs := digestIV alg
  x := Vector.replicate 16 0
  xOff := 0
  xBuf := 0
  xBufOff := 0
  byteCount := 0

/-- `Compress_alg(Hs, X)`. -/
def digestCompress (alg : DigestAlg) (hs : List Word32) (x : Vector Word32 16) : List Word32 :=
  match alg with
  | .md5 => md5Compress hs x
  | .sha1 => sha1Compress hs x
  | .sha256 => sha256Compress hs x

/-- `ProcessBlock(dg)` (R236). -/
def processBlock (alg : DigestAlg) (dg : Digest) : Digest :=
  { dg with hs := digestCompress alg dg.hs dg.x, x := Vector.replicate 16 0, xOff := 0 }

/-- The word the four buffered bytes are: little-endian for MD5, big-endian for the others (R236). -/
def bufferWord (alg : DigestAlg) (xBuf : Word32) : Word32 :=
  match alg with
  | .md5 => BitVec.ofNat 32 (leInt (toBytes xBuf))
  | .sha1 => BitVec.ofNat 32 (beInt (toBytes xBuf))
  | .sha256 => BitVec.ofNat 32 (beInt (toBytes xBuf))

/-- `ProcessWord(dg)` (R236). -/
def processWord (alg : DigestAlg) (dg : Digest) : Digest :=
  let dg1 := { dg with x := dg.x.setIfInBounds dg.xOff (bufferWord alg dg.xBuf), xOff := dg.xOff + 1 }
  if dg1.xOff = 16 then processBlock alg dg1 else dg1

/-- `DigestAbsorb(dg, b)` (R235). -/
def digestAbsorb (alg : DigestAlg) (dg : Digest) (b : Byte) : Digest :=
  let dg1 := { dg with xBuf := setByteAt dg.xBuf dg.xBufOff b, xBufOff := dg.xBufOff + 1 }
  let dg2 := if dg1.xBufOff = 4 then { processWord alg dg1 with xBufOff := 0 } else dg1
  { dg2 with byteCount := dg.byteCount + 1 }

/-- `DigestAbsorbBytes(dg, m)` (R250). -/
def digestAbsorbBytes (alg : DigestAlg) (dg : Digest) (m : List Byte) : Digest :=
  m.foldl (digestAbsorb alg) dg

/-- `while dg.xBufOff != 0: DigestAbsorb(dg, 0x00)` (R237), at most `n` bytes: with xBufOff in 0..3 three
bytes end it. -/
def digestZeroFill (alg : DigestAlg) : Nat → Digest → Digest
  | 0, dg => dg
  | n + 1, dg => if dg.xBufOff = 0 then dg else digestZeroFill alg n (digestAbsorb alg dg 0)

/-- `ProcessLength(dg, L)` (R238). -/
def processLength (alg : DigestAlg) (dg : Digest) (l : Word64) : Digest :=
  let dg1 := if dg.xOff > 14 then processBlock alg dg else dg
  match alg with
  | .md5 =>
    { dg1 with x := (dg1.x.set 14 (l.extractLsb' 0 32)).set 15 (l.extractLsb' 32 32) }
  | .sha1 =>
    { dg1 with x := (dg1.x.set 14 (l.extractLsb' 32 32)).set 15 (l.extractLsb' 0 32) }
  | .sha256 =>
    { dg1 with x := (dg1.x.set 14 (l.extractLsb' 32 32)).set 15 (l.extractLsb' 0 32) }

/-- `DigestFinish(dg)` (R237): the bit length is taken before the padding bytes. -/
def digestFinish (alg : DigestAlg) (dg : Digest) : Digest :=
  let bitLength := dg.byteCount * 8
  processBlock alg (processLength alg (digestZeroFill alg 3 (digestAbsorb alg dg 0x80)) bitLength)

/-- `DigestOut(dg)` (R239): `DigestSize(alg)` bytes. -/
def digestOut (alg : DigestAlg) (dg : Digest) : List Byte :=
  match alg with
  | .md5 => (List.range 4).flatMap fun i => leBytes 4 (dg.hs.getD i 0).toNat
  | .sha1 => (List.range 5).flatMap fun i => beBytes 4 (dg.hs.getD i 0).toNat
  | .sha256 => (List.range 8).flatMap fun i => beBytes 4 (dg.hs.getD i 0).toNat

/-- The digest of a whole byte string. -/
def digestOf (alg : DigestAlg) (m : List Byte) : List Byte :=
  digestOut alg (digestFinish alg (digestAbsorbBytes alg (digestReset alg) m))

/-! ## HMAC (44_hmac.md R281, R282) -/

/-- `HMACKey(dk, key)`: the snapshots after the ipad and the opad block, `(ipadState, opadState)`. -/
def hmacKey (dk : DigestAlg) (key : List Byte) : Digest × Digest :=
  let key1 := if key.length > digestBlockLen then digestOf dk key else key
  let k0 := key1 ++ zeros (digestBlockLen - key1.length)
  (digestAbsorbBytes dk (digestReset dk) (xorBytes k0 (List.replicate digestBlockLen 0x36)),
    digestAbsorbBytes dk (digestReset dk) (xorBytes k0 (List.replicate digestBlockLen 0x5C)))

end Sys2Proof.Machine
end

