-- ==== Sys2Proof/Machine/Context.lean ====
section
/-! DEFINITION. SYS commands (40_context.md R140 to R148): CFG, COPY and the size queries. -/

namespace Sys2Proof.Machine

/-- The fields CFG establishes (R141). -/
def freshSlot : AlgConf → Slot
  | .unconfigured => .unconfigured
  | .aes => .aes none
  | .cbc => .cbc none
  | .ctr => .ctr none
  | .buf inner padded => .buf inner padded none
  | .gcm => .gcm ⟨none, 0, none, none⟩
  | .ccm => .ccm ⟨none, 0, none, none⟩
  | .cmac ms pad => .cmac ms pad none
  | .digest alg => .digest alg (digestReset alg)
  | .hmac dk => .hmac dk none

/-- CFG (R140). -/
def execCfg (ctx : Ctx) (conf : AlgConf) (s : State) : Host.Outcome State Fault Refusal :=
  s.onSlot ctx some fun _ => .next ((s.setSlot ctx (freshSlot conf)).finish 0)

/-- COPY (R143): three checks of decode step 7, then the digest state by value. -/
def execCopy (ctx : Ctx) (s : State) : Host.Outcome State Fault Refusal :=
  s.onSlot ctx Slot.digest? fun d =>
  match (s.slots[s.arg 0]?).bind Slot.digest? with
  | some (alg, dg) =>
    s.guard (alg = d.1) .illegalCommand <| .next ((s.setSlot ctx (.digest alg dg)).finish 0)
  | none => .next (s.raise .illegalCommand)

/-- The algorithms with a block size (R144). -/
def Slot.blockSize? : Slot → Option Nat
  | .aes _ | .cbc _ | .ctr _ | .buf _ _ _ | .gcm _ | .ccm _ | .cmac _ _ _ => some 16
  | .unconfigured | .digest _ _ | .hmac _ _ => none

/-- GBS (R144). -/
def execGbs (ctx : Ctx) (s : State) : Host.Outcome State Fault Refusal :=
  s.onSlot ctx Slot.blockSize? fun n => .next (s.finish (BitVec.ofNat 64 n))

/-- The algorithms with a MAC size, and the size where it is set (R145). -/
def Slot.macSize? : Slot → Option (Option Nat)
  | .gcm g => some (g.key.map GcmKeyed.macSize)
  | .ccm c => some (c.key.map CcmKeyed.macSize)
  | .cmac ms _ _ => some (some (cmacSize ms))
  | .hmac dk _ => some (some (digestSize dk))
  | .unconfigured | .aes _ | .cbc _ | .ctr _ | .buf _ _ _ | .digest _ _ => none

/-- GMS (R145). -/
def execGms (ctx : Ctx) (s : State) : Host.Outcome State Fault Refusal :=
  s.onSlot ctx Slot.macSize? fun m =>
  s.require m fun n => .next (s.finish (BitVec.ofNat 64 n))

/-- GDS (R146). -/
def execGds (ctx : Ctx) (s : State) : Host.Outcome State Fault Refusal :=
  s.onSlot ctx Slot.digest? fun d => .next (s.finish (BitVec.ofNat 64 (digestSize d.1)))

/-- GBL (R147). -/
def execGbl (ctx : Ctx) (s : State) : Host.Outcome State Fault Refusal :=
  s.onSlot ctx Slot.digest? fun _ => .next (s.finish (BitVec.ofNat 64 digestBlockLen))

end Sys2Proof.Machine
end

