-- ==== Sys2Proof/Machine/Ctr.lean ====
section
/-! DEFINITION. CTR (SIC) mode (47_ctr.md R360 to R372). -/

namespace Sys2Proof.Machine

/-- `t = 16 - ivLen`, the counter-only tail in bytes (R360). -/
def CtrKeyed.tail (c : CtrKeyed) : Nat := 16 - c.ivLen

/-- `CtrBlock(C, b)` (R361). -/
def ctrBlock (c : CtrKeyed) (b : Nat) : Block := c.ctr0 + BitVec.ofNat 128 b

/-- `KS(C, p)` (R361). -/
def ctrKeystream (c : CtrKeyed) (p : Nat) : Byte :=
  byteAt (aesE c.aes.rk (ctrBlock c (p / 16))) (p % 16)

/-- `InRange(C, p)` (R361). -/
abbrev CtrKeyed.InRange (c : CtrKeyed) (p : Nat) : Prop := c.tail = 0 ∨ p / 16 < 2 ^ (8 * c.tail)

/-- The range test of CTRXor for `n` bytes (R362). -/
abbrev CtrKeyed.HasRoom (c : CtrKeyed) (n : Nat) : Prop := n = 0 ∨ c.InRange (c.pos + n - 1)

/-- The output of CTRXor (R362). -/
def ctrXor (c : CtrKeyed) (data : List Byte) : List Byte :=
  xorBytes data ((List.range data.length).map fun i => ctrKeystream c (c.pos + i))

/-- The position after `n` bytes (R362). -/
def ctrAdvance (c : CtrKeyed) (n : Nat) : CtrKeyed := { c with pos := (c.pos + n) % 2 ^ 132 }

/-- A settable position (R364). -/
abbrev CtrKeyed.Settable (c : CtrKeyed) (p : Int) : Prop :=
  c.tail = 0 ∨ (0 ≤ p ∧ p < 16 * 2 ^ (8 * c.tail))

/-- The position SKIP and SEEK set: for t = 0 modulo 2^132 (R364, R370). -/
def ctrSetPos (c : CtrKeyed) (p : Int) : CtrKeyed :=
  { c with pos := if c.tail = 0 then (p % 2 ^ 132).toNat else p.toNat }

/-- CTR.INIT (R365). -/
def execCtrInit (ctx : Ctx) (pk : PKind) (_rnd enc : Bool) (s : State) :
    Host.Outcome State Fault Refusal :=
  s.onSlot ctx Slot.ctr? fun _ =>
  s.guard (s.AllInside (s.initRanges pk)) .accessFault <|
  (s.dropKey ctx).guard (pk = .keyIv) .invalidParameter <|
  (s.dropKey ctx).guard (8 ≤ s.arg 3 ∧ s.arg 3 ≤ 16) .invalidParameter <|
  (s.dropKey ctx).loadKey (aesLoad s.keyBytes .E) fun k =>
  .next ((s.setSlot ctx (.ctr (some ⟨enc, k, s.arg 3, blockOf s.ivBytes, 0⟩))).finish 0)

/-- The common end of the three stream commands: the range test, then CTRXor of `data` (R362). -/
def ctrStream (s : State) (ctx : Ctx) (c : CtrKeyed) (data : List Byte) (out : State → List Byte → State) :
    Host.Outcome State Fault Refusal :=
  s.guard (c.HasRoom data.length) .misuseDetected <|
  .next (out (s.setSlot ctx (.ctr (some (ctrAdvance c data.length)))) (ctrXor c data))

/-- CTR.PBLK (R366). -/
def execCtrPblk (ctx : Ctx) (s : State) : Host.Outcome State Fault Refusal :=
  s.onSlot ctx Slot.ctr? fun key =>
  s.guard (s.AllInside [s.inArray, s.outArray]) .accessFault <|
  s.require key fun c =>
  s.guard (s.InFits 16) .dataTooShort <|
  s.guard (s.OutFits 16) .outputTooShort <|
  ctrStream s ctx c (s.inBytes 16) fun t bs => t.emit 16 bs

/-- CTR.PBYTE (R367). -/
def execCtrPbyte (ctx : Ctx) (s : State) : Host.Outcome State Fault Refusal :=
  s.onSlot ctx Slot.ctr? fun key =>
  s.guard (s.AllInside [s.outArray]) .accessFault <|
  s.require key fun c =>
  s.guard (s.OutFits 1) .outputTooShort <|
  ctrStream s ctx c [s.byteOperand] fun t bs => t.emitOut bs

/-- CTR.PBYTES (R368). -/
def execCtrPbytes (ctx : Ctx) (s : State) : Host.Outcome State Fault Refusal :=
  s.onSlot ctx Slot.ctr? fun key =>
  s.guard (s.AllInside [s.inArray, s.outArray]) .accessFault <|
  s.require key fun c =>
  s.guard (s.InFits s.len) .dataTooShort <|
  s.guard (s.OutFits s.len) .outputTooShort <|
  ctrStream s ctx c (s.inBytes s.len) fun t bs => t.emit s.len bs

/-- CTR.RESET (R369): `if C.keyed: C.pos <- 0`. -/
def execCtrReset (ctx : Ctx) (s : State) : Host.Outcome State Fault Refusal :=
  s.onSlot ctx Slot.ctr? fun key =>
  .next ((s.setSlot ctx (.ctr (key.map fun c => { c with pos := 0 }))).finish 0)

/-- CTR.SKIP (R370): the count is `sext_64(ARG[0])`. DESIGN CHOICE (log entry 21), unsafe as to ERR: with n = 0
at the position just past a short counter's last byte, which R364 does not let SKIP set, the check wins over the
corner case "no-op" and MisuseDetected is raised; the position stays either way. -/
def execCtrSkip (ctx : Ctx) (s : State) : Host.Outcome State Fault Refusal :=
  s.onSlot ctx Slot.ctr? fun key =>
  s.require key fun c =>
  s.guard (c.Settable (c.pos + (s.argW 0).toInt)) .misuseDetected <|
  .next ((s.setSlot ctx (.ctr (some (ctrSetPos c (c.pos + (s.argW 0).toInt))))).finish (s.argW 0))

/-- CTR.SEEK (R371). -/
def execCtrSeek (ctx : Ctx) (s : State) : Host.Outcome State Fault Refusal :=
  s.onSlot ctx Slot.ctr? fun key =>
  s.require key fun c =>
  s.guard (c.Settable (s.arg 0)) .misuseDetected <|
  .next ((s.setSlot ctx (.ctr (some (ctrSetPos c (s.arg 0))))).finish (s.argW 0))

/-- CTR.GPOS (R372): RESULT is the position modulo 2^64. -/
def execCtrGpos (ctx : Ctx) (s : State) : Host.Outcome State Fault Refusal :=
  s.onSlot ctx Slot.ctr? fun key =>
  s.require key fun c => .next (s.finish (BitVec.ofNat 64 c.pos))

end Sys2Proof.Machine
end

