-- ==== Sys2Proof/Machine/Digest.lean ====
section
/-! DEFINITION. DG commands (43_digest.md R262 to R265). -/

namespace Sys2Proof.Machine

/-- DG.UPD (R262). -/
def execDgUpd (ctx : Ctx) (s : State) : Host.Outcome State Fault Refusal :=
  s.onSlot ctx Slot.digest? fun d =>
  .next ((s.setSlot ctx (.digest d.1 (digestAbsorb d.1 d.2 s.byteOperand))).finish 0)

/-- DG.UPDS (R263). -/
def execDgUpds (ctx : Ctx) (s : State) : Host.Outcome State Fault Refusal :=
  s.onSlot ctx Slot.digest? fun d =>
  s.guard (s.AllInside [s.inArray]) .accessFault <|
  s.guard (s.InFits s.len) .dataTooShort <|
  .next ((s.setSlot ctx (.digest d.1 (digestAbsorbBytes d.1 d.2 (s.inBytes s.len)))).finish 0)

/-- DG.FINAL (R264). -/
def execDgFinal (ctx : Ctx) (s : State) : Host.Outcome State Fault Refusal :=
  s.onSlot ctx Slot.digest? fun d =>
  s.guard (s.AllInside [s.outArray]) .accessFault <|
  s.guard (s.OutFits (digestSize d.1)) .outputTooShort <|
  .next ((s.setSlot ctx (.digest d.1 (digestReset d.1))).emitOut
    (digestOut d.1 (digestFinish d.1 d.2)))

/-- DG.RESET (R265). -/
def execDgReset (ctx : Ctx) (s : State) : Host.Outcome State Fault Refusal :=
  s.onSlot ctx Slot.digest? fun d =>
  .next ((s.setSlot ctx (.digest d.1 (digestReset d.1))).finish 0)

end Sys2Proof.Machine
end

