-- ==== Sys2Proof/Machine/GcmCore.lean ====
section
/-! DEFINITION. GF(2^128) arithmetic and the GCM slot's helpers (48_gcm.md R390 to R399, R405). -/

namespace Sys2Proof.Machine

/-! ## Field arithmetic (R390 to R395) -/

/-- `v <- (v & 1 = 1) ? ((v >> 1) XOR R) : (v >> 1)`, with `R = 0xE1 << 120`: multiplication by x. -/
def gfHalve (v : Block) : Block :=
  if v.getLsbD 0 then (v >>> 1) ^^^ (0xE1#128 <<< 120) else v >>> 1

/-- The loop of GMUL over the bits `i-1 .. 0` of `x`. -/
def gmulLoop : Nat → Block → Block → Block → Block
  | 0, _, _, z => z
  | i + 1, x, v, z => gmulLoop i x (gfHalve v) (if x.getLsbD i then z ^^^ v else z)

/-- `GMUL(X, Y)` (R391). -/
def gmul (x y : Block) : Block := gmulLoop 128 x y 0

/-- `GHASH(H, D)` of a string of whole blocks (R392). -/
def ghash (h : Block) (d : List Block) : Block := d.foldl (fun y x => gmul (y ^^^ x) h) 0

/-- `inc32(X)` (R393). -/
def inc32 (x : Block) : Block := x.extractLsb' 32 96 ++ (x.extractLsb' 0 32 + 1)

/-- The element 1 of the field (R390). -/
def gfOne : Block := 0x80#128 <<< 120

/-- `HPow(H, n)` (R394). -/
def hpow (h : Block) : Nat → Block
  | 0 => gfOne
  | n + 1 => gmul (hpow h n) h

/-- `J0(H, N)` (R395). -/
def gcmJ0 (h : Block) (nonce : List Byte) : Block :=
  if nonce.length = 12 then blockOf (nonce ++ [0, 0, 0, 1])
  else ghash h (blocksOf nonce ++ [0#64 ++ BitVec.ofNat 64 (8 * nonce.length)])

/-! ## Associated data (R397) -/

/-- `AADAbsorb(C, b)`. -/
def aadAbsorb (h : Block) (a : AadState) (b : Byte) : AadState :=
  let blk := setByteAt a.atBlock (a.aadLen.toNat % 16) b
  if (a.aadLen + 1).toNat % 16 = 0 then ⟨gmul (a.sAt ^^^ blk) h, 0, a.aadLen + 1⟩
  else ⟨a.sAt, blk, a.aadLen + 1⟩

/-- `for b in bs: AADAbsorb(C, b)`. -/
def aadAbsorbBytes (h : Block) (a : AadState) (bs : List Byte) : AadState := bs.foldl (aadAbsorb h) a

/-- `AADFold(C)`. -/
def aadFold (h : Block) (a : AadState) : Block :=
  if a.aadLen.toNat % 16 = 0 then a.sAt
  else gmul (a.sAt ^^^ blockOf ((toBytes a.atBlock).take (a.aadLen.toNat % 16))) h

/-! ## Data (R396, R398, R399, R403) -/

/-- `cap(C)` (R396). -/
def GcmKeyed.cap (g : GcmKeyed) : Nat := if g.enc then 16 else 16 + g.macSize

/-- `GCMData(C, x)` (R398): the output bytes, and the slot after them. -/
def gcmData (g : GcmKeyed) (x : List Byte) : List Byte × GcmKeyed :=
  let y := xorBytes x (toBytes (aesE g.aes.rk (inc32 g.ctr)))
  (y, { g with
    blocksLeft := g.blocksLeft - 1
    ctr := inc32 g.ctr
    s := gmul (g.s ^^^ blockOf (if g.enc then y else x)) g.h
    ctLen := g.ctLen + x.length })

/-- What GCMByte leaves in the buffer after a block: nothing, or the held-back last `macSize` bytes. -/
def gcmRewind (g : GcmKeyed) : GcmKeyed :=
  if g.enc then { g with bufOff := 0 }
  else { g with
    bufBlock := setBytesAt g.bufBlock 0 (((toBytes g.bufBlock).drop 16).take g.macSize)
    bufOff := g.macSize }

/-- `GCMByte(C, b, w)` (R403): the bytes written at `w`, and the slot after them. -/
def gcmByte (g : GcmKeyed) (b : Byte) : List Byte × GcmKeyed :=
  let g' := { g with bufBlock := setByteAt g.bufBlock g.bufOff b, bufOff := g.bufOff + 1 }
  if g'.bufOff = g'.cap then
    ((gcmData g' ((toBytes g'.bufBlock).take 16)).1,
      gcmRewind (gcmData g' ((toBytes g'.bufBlock).take 16)).2)
  else ([], g')

/-- GCMByte over a string, outputs one after the other (R404). -/
def gcmBytes : GcmKeyed → List Byte → List Byte × GcmKeyed
  | g, [] => ([], g)
  | g, b :: bs => ((gcmByte g b).1 ++ (gcmBytes (gcmByte g b).2 bs).1, (gcmBytes (gcmByte g b).2 bs).2)

/-- The state of the fields GCMRestart resets, as INIT leaves them. -/
def gcmStart (g : GcmKeyed) : GcmKeyed :=
  { g with ctr := g.j0, blocksLeft := 2 ^ 32 - 2, s := 0, ctLen := 0, bufBlock := 0, bufOff := 0,
           aad := g.snap }

/-- `GCMRestart(C)` (R399): an encrypting slot needs a new INIT. -/
def gcmRestart (g : GcmKeyed) : GcmKeyed :=
  { gcmStart g with init := if g.enc then false else g.init }

/-! ## Sizes (R403, R408, R409) -/

/-- The output size of PBYTE (R403). -/
def gcmByteSize (g : GcmKeyed) : Nat := if g.bufOff + 1 = g.cap then 16 else 0

/-- `GUOS(C, len)` (R409). -/
def gcmUpdateSize (g : GcmKeyed) (len : Nat) : Nat :=
  let total := if g.enc then len + g.bufOff else len + g.bufOff - g.macSize
  total - total % 16

/-- `GOS(C, len)` (R408). -/
def gcmOutputSize (g : GcmKeyed) (len : Nat) : Nat :=
  if g.enc then len + g.bufOff + g.macSize else len + g.bufOff - g.macSize

/-! ## FINAL (R405) -/

/-- `e`, the number of trailing data bytes. -/
def gcmTailLen (g : GcmKeyed) : Nat := if g.enc then g.bufOff else g.bufOff - g.macSize

/-- The data tail: its output bytes, and the slot after it. -/
def gcmTail (g : GcmKeyed) : List Byte × GcmKeyed :=
  if gcmTailLen g = 0 then ([], g) else gcmData g ((toBytes g.bufBlock).take (gcmTailLen g))

/-- The tag block `T` of a slot all of whose data has been hashed. -/
def gcmTag (g : GcmKeyed) : Block :=
  let x := gmul (aadFold g.h g.aad) (hpow g.h ((g.ctLen + 15) / 16)) ^^^ g.s
  aesE g.aes.rk g.j0 ^^^ gmul (x ^^^ (8 * g.aad.aadLen ++ BitVec.ofNat 64 (8 * g.ctLen))) g.h

/-- The tag, `T[0 ..< C.macSize]`. -/
def gcmTagBytes (g : GcmKeyed) : List Byte := (toBytes (gcmTag g)).take g.macSize

/-- The received tag `R` of a decrypting slot. -/
def gcmReceivedTag (g : GcmKeyed) : List Byte :=
  ((toBytes g.bufBlock).drop (gcmTailLen g)).take g.macSize

/-- The keyed fields a successful INIT leaves (R400). -/
def gcmInit (enc : Bool) (k : AesKey) (macSize : Nat) (nonce iaad : List Byte) : GcmKeyed :=
  let h := aesE k.rk 0
  let a := aadAbsorbBytes h ⟨0, 0, 0⟩ iaad
  gcmStart ⟨true, enc, k, macSize, h, gcmJ0 h nonce, 0, 0, 0, a, 0, 0, 0, a⟩

end Sys2Proof.Machine
end

