-- ==== Sys2Proof/Machine/Gcm.lean ====
section
/-! DEFINITION. GCM commands and GF.MUL (48_gcm.md R400 to R410). -/

namespace Sys2Proof.Machine

/-- The slot with its keyed fields and its `macBlock` replaced; the nonce history stays. -/
def State.putGcm (s : State) (ctx : Ctx) (g : GcmSlot) (k : GcmKeyed) (mac : Block) : State :=
  s.setSlot ctx (.gcm { g with key := some k, macBlock := mac })

/-- RequireInit of a GCM slot (R151, R396). -/
def GcmSlot.ready (g : GcmSlot) : Option GcmKeyed := g.key.filter GcmKeyed.init

/-- The MAC size INIT sets: `mac_bits / 8` for AEAD, else 16 (R400). -/
def State.gcmMacSize (s : State) (pk : PKind) : Nat :=
  match pk with
  | .aead => s.macBits / 8
  | .keyIv => 16
  | .key => 16

/-- The tag lengths GCM takes, in bits (R400). -/
abbrev GcmMacBits (n : Nat) : Prop := n = 32 ∨ n = 64 ∨ n = 96 ∨ n = 128

/-- GCM.INIT (R400). -/
def execGcmInit (ctx : Ctx) (pk : PKind) (_rnd enc : Bool) (s : State) :
    Host.Outcome State Fault Refusal :=
  s.onSlot ctx Slot.gcm? fun g =>
  s.guard (s.AllInside (s.initRanges pk)) .accessFault <|
  (s.dropKey ctx).guard (pk ≠ .key) .invalidParameter <|
  (s.dropKey ctx).guard (pk = .aead → GcmMacBits s.macBits) .invalidParameter <|
  (s.dropKey ctx).guard (s.arg 3 ≠ 0) .invalidParameter <|
  (s.dropKey ctx).guard (s.arg 3 ≤ s.params.gcmNonceMax) .capacityExceeded <|
  (s.dropKey ctx).loadKey (aesLoad s.keyBytes .E) fun k =>
  (s.dropKey ctx).guard (¬(enc = true ∧ g.lastNonce = some s.ivBytes ∧ g.lastKey = some s.keyBytes))
    .misuseDetected <|
  .next ((s.setSlot ctx (.gcm ⟨some (gcmInit enc k (s.gcmMacSize pk) s.ivBytes (s.aadBytes pk)), 0,
    some s.keyBytes, some s.ivBytes⟩)).finish 0)

/-- GCM.AAD (R401). -/
def execGcmAad (ctx : Ctx) (s : State) : Host.Outcome State Fault Refusal :=
  s.onSlot ctx Slot.gcm? fun g =>
  s.require g.ready fun k =>
  .next ((s.putGcm ctx g { k with aad := aadAbsorb k.h k.aad s.byteOperand } g.macBlock).finish 0)

/-- GCM.AADS (R402). -/
def execGcmAads (ctx : Ctx) (s : State) : Host.Outcome State Fault Refusal :=
  s.onSlot ctx Slot.gcm? fun g =>
  s.guard (s.AllInside [s.inArray]) .accessFault <|
  s.require g.ready fun k =>
  s.guard (s.InFits s.len) .dataTooShort <|
  .next ((s.putGcm ctx g { k with aad := aadAbsorbBytes k.h k.aad (s.inBytes s.len) }
    g.macBlock).finish 0)

/-- GCM.PBYTE (R403). -/
def execGcmPbyte (ctx : Ctx) (s : State) : Host.Outcome State Fault Refusal :=
  s.onSlot ctx Slot.gcm? fun g =>
  s.guard (s.AllInside [s.outArray]) .accessFault <|
  s.require g.ready fun k =>
  s.guard (s.OutFits (gcmByteSize k)) .outputTooShort <|
  s.guard (¬(gcmByteSize k = 16 ∧ k.blocksLeft = 0)) .misuseDetected <|
  .next ((s.putGcm ctx g (gcmByte k s.byteOperand).2 g.macBlock).emitOut (gcmByte k s.byteOperand).1)

/-- GCM.PBYTES (R404). -/
def execGcmPbytes (ctx : Ctx) (s : State) : Host.Outcome State Fault Refusal :=
  s.onSlot ctx Slot.gcm? fun g =>
  s.guard (s.AllInside [s.inArray, s.outArray]) .accessFault <|
  s.require g.ready fun k =>
  s.guard (s.InFits s.len) .dataTooShort <|
  s.guard (s.OutFits (gcmUpdateSize k s.len)) .outputTooShort <|
  s.guard (gcmUpdateSize k s.len / 16 ≤ k.blocksLeft) .misuseDetected <|
  .next ((s.putGcm ctx g (gcmBytes k (s.inBytes s.len)).2 g.macBlock).emit s.len
    (gcmBytes k (s.inBytes s.len)).1)

/-- The slot as GCM.RESET leaves it (R407). -/
def State.restartGcm (s : State) (ctx : Ctx) (g : GcmSlot) (k : GcmKeyed) : State :=
  s.putGcm ctx g (gcmRestart k) 0

/-- The slot after a FINAL that succeeds: restarted, the tag kept (R405). -/
def State.endGcm (s : State) (ctx : Ctx) (g : GcmSlot) (k : GcmKeyed) : State :=
  s.putGcm ctx g (gcmRestart k) (blockOf (gcmTagBytes (gcmTail k).2))

/-- GCM.FINAL (R405). -/
def execGcmFinal (ctx : Ctx) (s : State) : Host.Outcome State Fault Refusal :=
  s.onSlot ctx Slot.gcm? fun g =>
  s.guard (s.AllInside [s.outArray]) .accessFault <|
  s.require g.ready fun k =>
  s.guard (s.OutFits (gcmOutputSize k 0)) .outputTooShort <|
  (s.restartGcm ctx g k).guard (k.enc = true ∨ k.macSize ≤ k.bufOff) .authenticationFailed <|
  s.guard (¬(0 < gcmTailLen k ∧ k.blocksLeft = 0)) .misuseDetected <|
  match k.enc with
  | true => .next ((s.endGcm ctx g k).emitOut ((gcmTail k).1 ++ gcmTagBytes (gcmTail k).2))
  | false =>
    (s.restartGcm ctx g k).guard (gcmReceivedTag k = gcmTagBytes (gcmTail k).2) .authenticationFailed <|
    .next ((s.endGcm ctx g k).emitOut (gcmTail k).1)

/-- GCM.GMAC (R406). -/
def execGcmGmac (ctx : Ctx) (s : State) : Host.Outcome State Fault Refusal :=
  s.onSlot ctx Slot.gcm? fun g =>
  s.guard (s.AllInside [s.outArray]) .accessFault <|
  s.require g.key fun k =>
  s.guard (s.OutFits k.macSize) .outputTooShort <|
  .next (s.emitOut ((toBytes g.macBlock).take k.macSize))

/-- GCM.RESET (R407): `if C.keyed: GCMRestart(C); C.macBlock <- zeros(16)`. -/
def execGcmReset (ctx : Ctx) (s : State) : Host.Outcome State Fault Refusal :=
  s.onSlot ctx Slot.gcm? fun g =>
  match g.key with
  | some k => .next ((s.restartGcm ctx g k).finish 0)
  | none => .next (s.finish 0)

/-- GCM.GOS (R408). -/
def execGcmGos (ctx : Ctx) (s : State) : Host.Outcome State Fault Refusal :=
  s.onSlot ctx Slot.gcm? fun g =>
  s.require g.key fun k => .next (s.finishSize (gcmOutputSize k s.len))

/-- GCM.GUOS (R409). -/
def execGcmGuos (ctx : Ctx) (s : State) : Host.Outcome State Fault Refusal :=
  s.onSlot ctx Slot.gcm? fun g =>
  s.require g.key fun k => .next (s.finishSize (gcmUpdateSize k s.len))

/-- GF.MUL (R410): both operands are read before the product is written, and it lands under the overlap rule
with each of them (R92): in place and disjoint it is exact, and a byte of any other overlap is a draw (log
entry 5). -/
def execGfMul (s : State) : Host.Outcome State Fault Refusal :=
  s.guard (s.AllInside [s.gfRange 0, s.gfRange 1, s.gfRange 4]) .accessFault <|
  .next ((s.storeOver [s.gfRange 0, s.gfRange 1] (s.arg 4)
    (toBytes (gmul (blockOf (s.memRead (s.arg 0) 16)) (blockOf (s.memRead (s.arg 1) 16))))).finish 16)

end Sys2Proof.Machine
end

