-- ==== Sys2Proof/Machine/Hmac.lean ====
section
/-! DEFINITION. HM commands (44_hmac.md R283 to R287). -/

namespace Sys2Proof.Machine

/-- HM.INIT (R283): any key length; `dg` starts as the ipad snapshot. -/
def execHmInit (ctx : Ctx) (pk : PKind) (_rnd : Bool) (s : State) :
    Host.Outcome State Fault Refusal :=
  s.onSlot ctx Slot.hmac? fun h =>
  s.guard (s.AllInside (s.initRanges pk)) .accessFault <|
  (s.dropKey ctx).guard (pk = .key) .invalidParameter <|
  .next ((s.setSlot ctx (.hmac h.1 (some
    ⟨(hmacKey h.1 s.keyBytes).1, (hmacKey h.1 s.keyBytes).1, (hmacKey h.1 s.keyBytes).2⟩))).finish 0)

/-- HM.UPD (R284). -/
def execHmUpd (ctx : Ctx) (s : State) : Host.Outcome State Fault Refusal :=
  s.onSlot ctx Slot.hmac? fun h =>
  s.require h.2 fun k =>
  .next ((s.setSlot ctx (.hmac h.1 (some { k with dg := digestAbsorb h.1 k.dg s.byteOperand }))).finish 0)

/-- HM.UPDS (R285). -/
def execHmUpds (ctx : Ctx) (s : State) : Host.Outcome State Fault Refusal :=
  s.onSlot ctx Slot.hmac? fun h =>
  s.guard (s.AllInside [s.inArray]) .accessFault <|
  s.require h.2 fun k =>
  s.guard (s.InFits s.len) .dataTooShort <|
  .next ((s.setSlot ctx (.hmac h.1 (some
    { k with dg := digestAbsorbBytes h.1 k.dg (s.inBytes s.len) }))).finish 0)

/-- The MAC of a keyed HMAC slot (R286): the inner digest, hashed under the opad state. -/
def hmacResult (dk : DigestAlg) (k : HmacKeyed) : List Byte :=
  digestOut dk (digestFinish dk
    (digestAbsorbBytes dk k.opadState (digestOut dk (digestFinish dk k.dg))))

/-- HM.FINAL (R286). -/
def execHmFinal (ctx : Ctx) (s : State) : Host.Outcome State Fault Refusal :=
  s.onSlot ctx Slot.hmac? fun h =>
  s.guard (s.AllInside [s.outArray]) .accessFault <|
  s.require h.2 fun k =>
  s.guard (s.OutFits (digestSize h.1)) .outputTooShort <|
  .next ((s.setSlot ctx (.hmac h.1 (some { k with dg := k.ipadState }))).emitOut (hmacResult h.1 k))

/-- HM.RESET (R287): `if C.keyed: C.dg <- C.ipadState`. -/
def execHmReset (ctx : Ctx) (s : State) : Host.Outcome State Fault Refusal :=
  s.onSlot ctx Slot.hmac? fun h =>
  .next ((s.setSlot ctx (.hmac h.1 (h.2.map fun k => { k with dg := k.ipadState }))).finish 0)

end Sys2Proof.Machine
end

