-- ==== Sys2Proof/Machine/Dispatch.lean ====
section
/-! DEFINITION. The meaning of every command: the completion of a command whose word decodes to it. -/

namespace Sys2Proof.Machine

/-- One arm per command; each meaning is a definition of its own. -/
def exec (i : Instr) (s : State) : Host.Outcome State Fault Refusal :=
  match i with
  -- SYS (40_context.md)
  | .cfg ctx conf => Sys2Proof.Machine.execCfg ctx conf s
  | .copy ctx => Sys2Proof.Machine.execCopy ctx s
  | .gbs ctx => Sys2Proof.Machine.execGbs ctx s
  | .gms ctx => Sys2Proof.Machine.execGms ctx s
  | .gds ctx => Sys2Proof.Machine.execGds ctx s
  | .gbl ctx => Sys2Proof.Machine.execGbl ctx s
  -- PACK (41_bytepack.md)
  | .st16be => Sys2Proof.Machine.execSt16be s
  | .st16le => Sys2Proof.Machine.execSt16le s
  | .st32be => Sys2Proof.Machine.execSt32be s
  | .st32le => Sys2Proof.Machine.execSt32le s
  | .st64be => Sys2Proof.Machine.execSt64be s
  | .st64le => Sys2Proof.Machine.execSt64le s
  | .ld16be => Sys2Proof.Machine.execLd16be s
  | .ld16le => Sys2Proof.Machine.execLd16le s
  | .ld32be => Sys2Proof.Machine.execLd32be s
  | .ld32le => Sys2Proof.Machine.execLd32le s
  | .ld64be => Sys2Proof.Machine.execLd64be s
  | .ld64le => Sys2Proof.Machine.execLd64le s
  -- AES (42_aes.md)
  | .aesInit ctx pk rnd enc => Sys2Proof.Machine.execAesInit ctx pk rnd enc s
  | .aesPblk ctx => Sys2Proof.Machine.execAesPblk ctx s
  | .aesReset ctx => Sys2Proof.Machine.execAesReset ctx s
  -- DG (43_digest.md)
  | .dgUpd ctx => Sys2Proof.Machine.execDgUpd ctx s
  | .dgUpds ctx => Sys2Proof.Machine.execDgUpds ctx s
  | .dgFinal ctx => Sys2Proof.Machine.execDgFinal ctx s
  | .dgReset ctx => Sys2Proof.Machine.execDgReset ctx s
  -- HM (44_hmac.md)
  | .hmInit ctx pk rnd => Sys2Proof.Machine.execHmInit ctx pk rnd s
  | .hmUpd ctx => Sys2Proof.Machine.execHmUpd ctx s
  | .hmUpds ctx => Sys2Proof.Machine.execHmUpds ctx s
  | .hmFinal ctx => Sys2Proof.Machine.execHmFinal ctx s
  | .hmReset ctx => Sys2Proof.Machine.execHmReset ctx s
  -- BUF and PAD (45_buffered.md)
  | .bufInit ctx pk rnd enc => Sys2Proof.Machine.execBufInit ctx pk rnd enc s
  | .bufPbyte ctx => Sys2Proof.Machine.execBufPbyte ctx s
  | .bufPbytes ctx => Sys2Proof.Machine.execBufPbytes ctx s
  | .bufFinal ctx => Sys2Proof.Machine.execBufFinal ctx s
  | .bufReset ctx => Sys2Proof.Machine.execBufReset ctx s
  | .bufGos ctx => Sys2Proof.Machine.execBufGos ctx s
  | .bufGuos ctx => Sys2Proof.Machine.execBufGuos ctx s
  | .padAdd => Sys2Proof.Machine.execPadAdd s
  | .padCnt => Sys2Proof.Machine.execPadCnt s
  -- CBC (46_cbc.md)
  | .cbcInit ctx pk rnd enc => Sys2Proof.Machine.execCbcInit ctx pk rnd enc s
  | .cbcPblk ctx => Sys2Proof.Machine.execCbcPblk ctx s
  | .cbcReset ctx => Sys2Proof.Machine.execCbcReset ctx s
  -- CTR (47_ctr.md)
  | .ctrInit ctx pk rnd enc => Sys2Proof.Machine.execCtrInit ctx pk rnd enc s
  | .ctrPblk ctx => Sys2Proof.Machine.execCtrPblk ctx s
  | .ctrPbyte ctx => Sys2Proof.Machine.execCtrPbyte ctx s
  | .ctrPbytes ctx => Sys2Proof.Machine.execCtrPbytes ctx s
  | .ctrReset ctx => Sys2Proof.Machine.execCtrReset ctx s
  | .ctrSkip ctx => Sys2Proof.Machine.execCtrSkip ctx s
  | .ctrSeek ctx => Sys2Proof.Machine.execCtrSeek ctx s
  | .ctrGpos ctx => Sys2Proof.Machine.execCtrGpos ctx s
  -- GCM and GF (48_gcm.md)
  | .gcmInit ctx pk rnd enc => Sys2Proof.Machine.execGcmInit ctx pk rnd enc s
  | .gcmAad ctx => Sys2Proof.Machine.execGcmAad ctx s
  | .gcmAads ctx => Sys2Proof.Machine.execGcmAads ctx s
  | .gcmPbyte ctx => Sys2Proof.Machine.execGcmPbyte ctx s
  | .gcmPbytes ctx => Sys2Proof.Machine.execGcmPbytes ctx s
  | .gcmFinal ctx => Sys2Proof.Machine.execGcmFinal ctx s
  | .gcmGmac ctx => Sys2Proof.Machine.execGcmGmac ctx s
  | .gcmReset ctx => Sys2Proof.Machine.execGcmReset ctx s
  | .gcmGos ctx => Sys2Proof.Machine.execGcmGos ctx s
  | .gcmGuos ctx => Sys2Proof.Machine.execGcmGuos ctx s
  | .gfMul => Sys2Proof.Machine.execGfMul s
  -- CCM and CMAC (49_ccm_cbcmac.md)
  | .ccmInit ctx pk rnd enc => Sys2Proof.Machine.execCcmInit ctx pk rnd enc s
  | .ccmAad ctx => Sys2Proof.Machine.execCcmAad ctx s
  | .ccmAads ctx => Sys2Proof.Machine.execCcmAads ctx s
  | .ccmPbyte ctx => Sys2Proof.Machine.execCcmPbyte ctx s
  | .ccmPbytes ctx => Sys2Proof.Machine.execCcmPbytes ctx s
  | .ccmFinal ctx => Sys2Proof.Machine.execCcmFinal ctx s
  | .ccmPpkt ctx => Sys2Proof.Machine.execCcmPpkt ctx s
  | .ccmGmac ctx => Sys2Proof.Machine.execCcmGmac ctx s
  | .ccmReset ctx => Sys2Proof.Machine.execCcmReset ctx s
  | .ccmGos ctx => Sys2Proof.Machine.execCcmGos ctx s
  | .ccmGuos ctx => Sys2Proof.Machine.execCcmGuos ctx s
  | .cmacInit ctx pk rnd => Sys2Proof.Machine.execCmacInit ctx pk rnd s
  | .cmacUpd ctx => Sys2Proof.Machine.execCmacUpd ctx s
  | .cmacUpds ctx => Sys2Proof.Machine.execCmacUpds ctx s
  | .cmacFinal ctx => Sys2Proof.Machine.execCmacFinal ctx s
  | .cmacReset ctx => Sys2Proof.Machine.execCmacReset ctx s

end Sys2Proof.Machine
end

