-- ==== Sys2Proof/Machine/Engine.lean ====
section
/-! DEFINITION. The engine's turn: the completion of the pending command as one atomic step (10_state.md
R59), with the host races of 20_memory.md R101 (log entry 7). -/

namespace Sys2Proof.Machine

/-- Each listed byte of DMEM becomes a draw. -/
def State.drawBytes (s : State) : List Nat → State
  | [] => s
  | a :: as =>
    State.drawBytes { s with mem := s.mem.write a (Config.freeByte s.draws), draws := s.draws + 1 } as

/-- Each listed byte of DMEM gets the value it has in `m`. -/
def State.restoreBytes (s : State) (m : Memory) : List Nat → State
  | [] => s
  | a :: as => State.restoreBytes { s with mem := s.mem.write a (m.read a) } m as

/-- What the command sees: each raced byte of an input range is a draw (R101). -/
def State.beforeRaces (s : State) (i : Instr) : State :=
  s.drawBytes (s.raced.filter fun a => InRanges (inRanges i s) a)

/-- What DMEM holds after it: a raced byte of an output range is a draw, and one of an input range alone is
what the host wrote (R101). `s` is the state before the completion. DESIGN CHOICE (log entry 7), safe: so too
where the command raises an error, IllegalCommand of R126 steps 6 and 7 included. -/
def State.afterRaces (t s : State) (i : Instr) : State :=
  (t.restoreBytes s.mem (s.raced.filter fun a => ¬ InRanges (outRanges i s) a)).drawBytes
    (s.raced.filter fun a => InRanges (outRanges i s) a)

/-- Running a decoded command to completion. DESIGN CHOICE (log entry 7), safe: a word that passes steps 1 to 4
of R126 has ranges to race for, though it fail step 6 or 7; R124 and R101 leave that open. -/
def runCommand (i : Instr) (s : State) : Host.Outcome State Fault Refusal :=
  if s.raced = [] then exec i s
  else
    match exec i (s.beforeRaces i) with
    | .next t => .next (t.afterRaces s i)
    | .fault f => .fault f
    | .refused r => .refused r

/-- The completion step (R59): an undecodable word raises IllegalCommand (R126). With PEND empty the engine
has nothing to do. -/
def engineStep (s : State) : Host.Outcome State Fault Refusal :=
  match s.pend with
  | none => .next s
  | some p =>
    match decodeWord p.word with
    | .ok i => runCommand i s
    | .error _ => .next (s.raise .illegalCommand)

end Sys2Proof.Machine
end

