-- ==== Sys2Proof/Machine/Flags.lean ====
section
/-! DEFINITION. The status and constant registers of the window as words (10_state.md R33 to R37) and the
error codes (60_exceptions.md R501). The CORE has no condition codes (R54). -/

namespace Sys2Proof.Machine

/-- STATUS.ERR's codes (R501). -/
def Err.code : Err → BitVec 4
  | .ok => 0
  | .invalidParameter => 1
  | .dataTooShort => 2
  | .outputTooShort => 3
  | .authenticationFailed => 4
  | .misuseDetected => 5
  | .notInitialized => 6
  | .illegalCommand => 7
  | .accessFault => 8
  | .capacityExceeded => 9

/-- STATUS.BUSY: PEND is empty when BUSY = 0 (R59). -/
def State.busy (s : State) : Bool := s.pend.isSome

/-- STATUS (R37): ERR in bits 11:8, OVR in bit 1, BUSY in bit 0, every other bit 0. -/
def State.statusWord (s : State) : Word32 :=
  0#20 ++ s.err.code ++ 0#6 ++ BitVec.ofBool s.ovr ++ BitVec.ofBool s.busy

/-- ID (R33). -/
def idWord : Word32 := 0x4B4D5531

/-- CAPS (R34): MEMLOG2 in bits 21:16, BRST6 in bit 8, NCTXM1 in bits 7:0, every other bit 0. -/
def State.capsWord (s : State) : Word32 :=
  0#10 ++ BitVec.ofNat 6 s.params.memLog2 ++ 0#7 ++
    BitVec.ofBool (s.params.bufByteReset == .six) ++ BitVec.ofNat 8 (s.nCtx - 1)

end Sys2Proof.Machine
end

