-- ==== Sys2Proof/Machine/HostInterface.lean ====
section
/-! DEFINITION. What the host can do to the CORE and what the CORE does in return
(70_reset_and_hazards.md R570): the register window (10_state.md R31 to R39), DMEM, and reset. -/

namespace Sys2Proof.Machine

/-! ## The register window -/

/-- Writing CMD (R36): accepted when idle; while BUSY the word is discarded and OVR set (R551). -/
def State.accept (s : State) (w : Word32) : State :=
  match s.pend with
  | none => { s with pend := some ⟨w, s.args⟩, cmd := w, raced := [] }
  | some _ => { s with ovr := true }

/-- The argument register and half a window offset names: offset 0x040 + 8i is ARGi_LO, 0x044 + 8i is
ARGi_HI (R32). -/
def argOfOffset (off : BitVec 12) : Option (Fin 8 × Bool) :=
  if h : 0x040 ≤ off.toNat ∧ off.toNat < 0x080 then
    some (⟨(off.toNat - 0x040) / 8, by omega⟩, off.getLsbD 2)
  else none

/-- The low or high half of a 64-bit register. -/
def halfOf (hi : Bool) (v : Word64) : Word32 := v.extractLsb' (if hi then 32 else 0) 32

/-- The register with its low or high half replaced (R39). -/
def setHalf (hi : Bool) (v : Word64) (x : Word32) : Word64 :=
  if hi then x ++ v.extractLsb' 0 32 else v.extractLsb' 32 32 ++ x

/-- Reading a register of the window (R32 to R39); reserved offsets read 0. -/
def readReg (s : State) (off : BitVec 12) : Word32 :=
  match off.toNat with
  | 0x000 => idWord
  | 0x004 => s.capsWord
  | 0x008 => s.cmd
  | 0x00C => s.statusWord
  | 0x010 => halfOf false s.result
  | 0x014 => halfOf true s.result
  | 0x018 => BitVec.ofNat 32 s.params.gcmNonceMax
  | 0x01C => BitVec.ofNat 32 s.params.ccmMaxAad
  | 0x020 => BitVec.ofNat 32 s.params.ccmMaxMsg
  | _ =>
    match argOfOffset off with
    | some (i, hi) => halfOf hi s.args[i]
    | none => 0

/-- Writing a register of the window: CMD, STATUS.OVR (write 1 to clear) and the argument registers; every
other write is ignored (R91). -/
def writeReg (s : State) (off : BitVec 12) (v : Word32) : State :=
  match off.toNat with
  | 0x008 => s.accept v
  | 0x00C => if v.getLsbD 1 then { s with ovr := false } else s
  | _ =>
    match argOfOffset off with
    | some (i, hi) => { s with args := s.args.set i (setHalf hi s.args[i] v) }
    | none => s

/-- A naturally aligned 32-bit access, the only kind the window takes (R31). -/
abbrev WindowAccess (off : BitVec 12) (width : Nat) : Prop := width = 4 ∧ off.toNat % 4 = 0

/-! ## DMEM (R82, R101) -/

/-- The pending command's input ranges. DESIGN CHOICE (log entry 7), safe: a word that fails steps 1 to 4 of
R126 has none; one that passes them has those it names, though it fail step 6 or 7 (R124 leaves it open). -/
def State.pendIn (s : State) : List Range :=
  match s.pend with
  | none => []
  | some p =>
    match decodeWord p.word with
    | .ok i => inRanges i s
    | .error _ => []

/-- The pending command's output ranges, of the same words as `pendIn`. -/
def State.pendOut (s : State) : List Range :=
  match s.pend with
  | none => []
  | some p =>
    match decodeWord p.word with
    | .ok i => outRanges i s
    | .error _ => []

/-- The input ranges of the commands whose completion the host has not observed (R101). -/
def State.unseenIn (s : State) : List Range := s.unseen.flatMap fun p => { s with pend := some p }.pendIn

/-- Their output ranges. -/
def State.unseenOut (s : State) : List Range := s.unseen.flatMap fun p => { s with pend := some p }.pendOut

/-- The bytes a host read of the addresses returns: a draw inside the running command's output ranges
(R101, R555), else DMEM's byte (R550, R570); and the next draw. DESIGN CHOICE (log entry 22): the draws end at the
completion, where R101 carries them on to the host's observation of BUSY = 0. -/
def hostBytes (s : State) : List Nat → Nat → List Byte × Nat
  | [], d => ([], d)
  | a :: as, d =>
    if InRanges s.pendOut a then
      (Config.freeByte d :: (hostBytes s as (d + 1)).1, (hostBytes s as (d + 1)).2)
    else (s.readByte a :: (hostBytes s as d).1, (hostBytes s as d).2)

/-- The addresses of a range. -/
def Range.addrs (r : Range) : List Nat := (List.range r.len).map fun i => r.base + i

/-- A record with the addresses of `r` added that lie in one of the ranges. -/
def recordIn (seen : List Nat) (rs : List Range) (r : Range) : List Nat :=
  seen ++ r.addrs.filter fun a => InRanges rs a ∧ a ∉ seen

/-- A host read of DMEM. A byte in an unseen command's output is as the completion left it (R550, R570;
DESIGN CHOICE, log entry 22), and the access is recorded (R101; log entry 7). -/
def State.hostRead (s : State) (addr len : Nat) : State :=
  { s with
    lateRaced := recordIn s.lateRaced s.unseenOut ⟨addr, len⟩
    busData := .dmem (hostBytes s (Range.addrs ⟨addr, len⟩) s.draws).1
    draws := (hostBytes s (Range.addrs ⟨addr, len⟩) s.draws).2 }

/-- A host write of DMEM: a byte inside the running command's ranges is recorded as raced (R101, R555), and one
inside an unseen command's as a late race, which leaves the byte as written (R550, R570; DESIGN CHOICE, log
entries 7 and 22). -/
def State.hostWrite (s : State) (addr : Nat) (data : List Byte) : State :=
  { s.memWrite addr data with
    raced := recordIn s.raced (s.pendIn ++ s.pendOut) ⟨addr, data.length⟩
    lateRaced := recordIn s.lateRaced (s.unseenIn ++ s.unseenOut) ⟨addr, data.length⟩ }

/-! ## Reset -/

/-- The reset event (R540, R554): a pending command is discarded and every register and slot is as after
power-on; DMEM keeps its bytes (R81). The model's own fields are kept, but that no command is raced for or
unseen any more (log entry 13). -/
def State.applyReset (s : State) : State :=
  { s with
    cmd := 0
    ovr := false
    err := .ok
    result := 0
    args := Vector.replicate 8 0
    pend := none
    slots := List.replicate s.nCtx .unconfigured
    raced := []
    unseen := [] }

/-! ## One interaction -/

/-- What is left unseen after a read of the window: reading STATUS with BUSY = 0 is the host's observation that
ends its duty of R101 (R97). -/
def State.unseenAfter (s : State) (off : BitVec 12) : List Pend :=
  if off = 0x00C ∧ s.pend = none then [] else s.unseen

/-- The CORE's response to one host interaction (R570). -/
def hostStep (op : HostOp) (s : State) : Host.Outcome State Fault Refusal :=
  match op with
  | .regRead off width =>
    if WindowAccess off width then .next { s with busData := .reg (readReg s off), unseen := s.unseenAfter off }
    else .refused .windowAccess
  | .regWrite off width v =>
    if WindowAccess off width then .next (writeReg s off v) else .refused .windowAccess
  | .dmemRead addr len =>
    if s.Inside ⟨addr, len⟩ then .next (s.hostRead addr len) else .fault .noSuchDmemAddress
  | .dmemWrite addr data =>
    if s.Inside ⟨addr, data.length⟩ then .next (s.hostWrite addr data)
    else .fault .noSuchDmemAddress
  | .reset => .next s.applyReset

end Sys2Proof.Machine
end

