-- ==== Sys2Proof/Machine/Step.lean ====
section
/-! DEFINITION. One step of the machine: the next interaction of the host, or the engine's completion of the
pending command (70_reset_and_hazards.md R564, R570; log entry 3). -/

namespace Sys2Proof.Machine

/-- The next input is taken; with no input left the engine has its turn (the fairness of R564). -/
def step (s : State) : Host.Outcome State Fault Refusal :=
  match s.inputs with
  | [] => engineStep s
  | .engine :: rest => engineStep { s with inputs := rest }
  | .host op :: rest => hostStep op { s with inputs := rest }

/-- The state in which the command word `w` has just been accepted with the present arguments, and the next
step is its completion (log entry 3). -/
def State.withFetchWord (s : State) (nbits w : Nat) : State :=
  { s with
    pend := some ⟨BitVec.ofNat 32 (w % 2 ^ nbits), s.args⟩
    cmd := BitVec.ofNat 32 (w % 2 ^ nbits)
    raced := []
    inputs := .engine :: s.inputs }

end Sys2Proof.Machine
end

