-- ==== Sys2Proof/Safety.lean ====
section
/-! DEFINITION. What claims are made of: what a completion leaves alone, how output lands in DMEM, which
slots a command admits, and the invariant of a run. -/

namespace Sys2Proof.Machine

/-! ## What a completion changes and what it leaves alone -/

/-- The registers no command writes (10_state.md R37, R39; 30_encoding.md R125), and the model's inputs. -/
structure SameRegs (s t : State) : Prop where
  params : t.params = s.params
  cmd : t.cmd = s.cmd
  ovr : t.ovr = s.ovr
  args : t.args = s.args
  inputs : t.inputs = s.inputs
  busData : t.busData = s.busData

/-- `t` is `s` after the completion step with this ERR and RESULT (60_exceptions.md R505). -/
structure Completes (s t : State) (e : Err) (r : Word64) : Prop where
  regs : SameRegs s t
  err : t.err = e
  result : t.result = r
  pend : t.pend = none
  raced : t.raced = []
  unseen : t.unseen = s.pend.toList ++ s.unseen
  lateRaced : t.lateRaced = s.lateRaced

/-- Every byte of DMEM reads as before. -/
def SameDmem (s t : State) : Prop := ∀ a, t.readByte a = s.readByte a

/-- Every byte of DMEM outside the range reads as before. -/
def SameDmemOutside (r : Range) (s t : State) : Prop :=
  ∀ a, ¬ r.Contains a → t.readByte a = s.readByte a

/-- Exactly the bytes `bs` stand at `out`, and nothing else of DMEM changed. -/
structure Stores (s t : State) (out : Nat) (bs : List Byte) : Prop where
  outside : SameDmemOutside ⟨out, bs.length⟩ s t
  bytes : ∀ i, i < bs.length → t.readByte (out + i) = bs.getD i 0

/-- The byte at `a` is one of the values drawn on the way from `s` to `t`. -/
def DrawnByte (s t : State) (a : Nat) : Prop :=
  ∃ n, s.draws ≤ n ∧ n < t.draws ∧ t.readByte a = Config.freeByte n

/-- The bytes `bs` stand at `out` under the overlap rule (20_memory.md R92) with the ranges read: in place and
away from the inputs every byte is exact; a byte of any other overlap is a draw. -/
structure StoresOver (s t : State) (ins : List Range) (out : Nat) (bs : List Byte) : Prop where
  outside : SameDmemOutside ⟨out, bs.length⟩ s t
  exact : ∀ i, i < bs.length → (∀ r ∈ ins, r.base = out ∨ ¬ r.Contains (out + i)) →
    t.readByte (out + i) = bs.getD i 0
  drawn : ∀ i, i < bs.length → (∃ r ∈ ins, r.base ≠ out ∧ r.Contains (out + i)) →
    DrawnByte s t (out + i)
  draws : (∀ i, i < bs.length → ∀ r ∈ ins, r.base = out ∨ ¬ r.Contains (out + i)) → t.draws = s.draws

/-- A command succeeded with this RESULT and touched no slot and no byte of DMEM. -/
structure Answers (s t : State) (r : Word64) : Prop where
  done : Completes s t .ok r
  slots : t.slots = s.slots
  dmem : SameDmem s t
  draws : t.draws = s.draws

/-- A command succeeded with RESULT 0, the addressed slot became `sl`, and no byte of DMEM changed. -/
structure Updates (s t : State) (c : Ctx) (sl : Slot) : Prop where
  done : Completes s t .ok 0
  slots : t.slots = s.slots.set c.toNat sl
  dmem : SameDmem s t
  draws : t.draws = s.draws

/-- A command that read no input array succeeded: it wrote `bs` at the output address, RESULT is the number
of bytes, and the slots are `slots` (40_context.md R153). -/
structure Emits (s t : State) (slots : List Slot) (bs : List Byte) : Prop where
  done : Completes s t .ok (BitVec.ofNat 64 bs.length)
  slots : t.slots = slots
  dmem : Stores s t s.outAddr bs
  draws : t.draws = s.draws

/-- A command that read `k` input bytes succeeded: as `Emits`, under the overlap rule. -/
structure EmitsOver (s t : State) (k : Nat) (slots : List Slot) (bs : List Byte) : Prop where
  done : Completes s t .ok (BitVec.ofNat 64 bs.length)
  slots : t.slots = slots
  dmem : StoresOver s t [⟨s.inAddr, k⟩] s.outAddr bs

/-- A size query answered `n`: RESULT is `n` where it fits 64 bits, else a free value (log entry 8). -/
structure Sizes (s t : State) (n : Nat) : Prop where
  regs : SameRegs s t
  err : t.err = .ok
  pend : t.pend = none
  raced : t.raced = []
  unseen : t.unseen = s.pend.toList ++ s.unseen
  lateRaced : t.lateRaced = s.lateRaced
  slots : t.slots = s.slots
  dmem : SameDmem s t
  draws : t.draws = s.draws
  result : n < 2 ^ 64 → t.result = BitVec.ofNat 64 n

/-- An error that changed nothing but RESULT and STATUS.ERR (60_exceptions.md R506 class 1). -/
structure Precise (s t : State) (e : Err) : Prop where
  done : Completes s t e 0
  slots : t.slots = s.slots
  mem : t.mem = s.mem
  draws : t.draws = s.draws

/-- An error that left the addressed slot as `sl` and wrote no byte (R506 classes 2 and 3). -/
structure Fails (s t : State) (e : Err) (c : Ctx) (sl : Slot) : Prop where
  done : Completes s t e 0
  slots : t.slots = s.slots.set c.toNat sl
  mem : t.mem = s.mem
  draws : t.draws = s.draws

/-- A meaning ends in this error. -/
def Raises (o : Host.Outcome State Fault Refusal) (e : Err) : Prop := ∃ t, o = .next t ∧ t.err = e

/-- The state with one slot replaced, whatever command runs. -/
def State.withSlot (s : State) (j : Nat) (sl : Slot) : State := { s with slots := s.slots.set j sl }

/-- The state with one byte of DMEM replaced. -/
def State.withByte (s : State) (a : Nat) (b : Byte) : State := { s with mem := s.mem.write a b }

/-! ## Admission (30_encoding.md R114, R126; 40_context.md R143 to R147) -/

/-- The ALG codes of the slots a command admits; CFG admits every slot. -/
def admittedCodes : Instr → List (BitVec 8)
  | .cfg _ _ => (List.range 12).map (BitVec.ofNat 8)
  | .copy _ | .gds _ | .gbl _ | .dgUpd _ | .dgUpds _ | .dgFinal _ | .dgReset _ => [0x08, 0x09, 0x0A]
  | .gbs _ => [0x01, 0x02, 0x03, 0x04, 0x05, 0x06, 0x07]
  | .gms _ => [0x05, 0x06, 0x07, 0x0B]
  | .aesInit _ _ _ _ | .aesPblk _ | .aesReset _ => [0x01]
  | .hmInit _ _ _ | .hmUpd _ | .hmUpds _ | .hmFinal _ | .hmReset _ => [0x0B]
  | .bufInit _ _ _ _ | .bufPbyte _ | .bufPbytes _ | .bufFinal _ | .bufReset _ | .bufGos _
  | .bufGuos _ => [0x04]
  | .cbcInit _ _ _ _ | .cbcPblk _ | .cbcReset _ => [0x02]
  | .ctrInit _ _ _ _ | .ctrPblk _ | .ctrPbyte _ | .ctrPbytes _ | .ctrReset _ | .ctrSkip _
  | .ctrSeek _ | .ctrGpos _ => [0x03]
  | .gcmInit _ _ _ _ | .gcmAad _ | .gcmAads _ | .gcmPbyte _ | .gcmPbytes _ | .gcmFinal _
  | .gcmGmac _ | .gcmReset _ | .gcmGos _ | .gcmGuos _ => [0x05]
  | .ccmInit _ _ _ _ | .ccmAad _ | .ccmAads _ | .ccmPbyte _ | .ccmPbytes _ | .ccmFinal _
  | .ccmPpkt _ | .ccmGmac _ | .ccmReset _ | .ccmGos _ | .ccmGuos _ => [0x06]
  | .cmacInit _ _ _ | .cmacUpd _ | .cmacUpds _ | .cmacFinal _ | .cmacReset _ => [0x07]
  | .st16be | .st16le | .st32be | .st32le | .st64be | .st64le
  | .ld16be | .ld16le | .ld32be | .ld32le | .ld64be | .ld64le | .padAdd | .padCnt | .gfMul => []

/-- COPY's tests on its source slot (R143); no other command has one. -/
def State.SourceOk (s : State) (i : Instr) (sl : Slot) : Prop :=
  match i with
  | .copy _ => ∃ src, s.slots[s.arg 0]? = some src ∧ src.alg = sl.alg
  | _ => True

/-- Steps 5 to 7 of R126: a context-free command, or one whose slot exists and is admitted. -/
def State.Admits (s : State) (i : Instr) : Prop :=
  ∀ c, i.ctx? = some c → ∃ sl, s.slot? c = some sl ∧ sl.alg ∈ admittedCodes i ∧ s.SourceOk i sl

/-- Every DMEM range a command names (40_context.md R150). -/
def ranges (i : Instr) (s : State) : List Range := inRanges i s ++ outRanges i s

/-- The commands whose rule lists RequireInit (R151). -/
def needsInit : Instr → Bool
  | .aesPblk _ | .hmUpd _ | .hmUpds _ | .hmFinal _
  | .bufPbyte _ | .bufPbytes _ | .bufFinal _ | .bufGos _ | .bufGuos _ | .cbcPblk _
  | .ctrPblk _ | .ctrPbyte _ | .ctrPbytes _ | .ctrSkip _ | .ctrSeek _ | .ctrGpos _
  | .gcmAad _ | .gcmAads _ | .gcmPbyte _ | .gcmPbytes _ | .gcmFinal _
  | .ccmAad _ | .ccmAads _ | .ccmPbyte _ | .ccmPbytes _ | .ccmFinal _ | .ccmPpkt _
  | .cmacUpd _ | .cmacUpds _ | .cmacFinal _ => true
  | _ => false

/-- The commands whose rule lists RequireKeyed (R151). -/
def needsKeyed : Instr → Bool
  | .gcmGmac _ | .gcmGos _ | .gcmGuos _ | .ccmGmac _ | .ccmGos _ | .ccmGuos _ => true
  | _ => false

/-- The input bytes of the commands whose rule lists InCheck (R149). -/
def inputLen (i : Instr) (s : State) : Option Nat :=
  match i with
  | .aesPblk _ | .cbcPblk _ | .ctrPblk _ => some 16
  | .dgUpds _ | .hmUpds _ | .bufPbytes _ | .ctrPbytes _ | .gcmAads _ | .gcmPbytes _ | .ccmAads _
  | .ccmPbytes _ | .ccmPpkt _ | .cmacUpds _ => some s.len
  | _ => none

/-- The output size of a command whose rule gives one before any processing, for OutCheck (R149). -/
def outputLen (i : Instr) (s : State) : Option Nat :=
  match i with
  | .aesPblk _ | .cbcPblk _ | .ctrPblk _ => some 16
  | .ctrPbyte _ => some 1
  | .ctrPbytes _ => some s.len
  | .dgFinal c => (s.slot? c).bind fun sl => sl.digest?.map fun d => digestSize d.1
  | .hmFinal c => (s.slot? c).bind fun sl => sl.hmac?.map fun h => digestSize h.1
  | .cmacFinal c => (s.slot? c).bind fun sl => sl.cmac?.map fun m => cmacSize m.1
  | .bufPbyte c => (s.slot? c).bind fun sl => sl.buf?.bind fun b => b.2.2.map (bufByteSize b.2.1)
  | .bufPbytes c => (s.slot? c).bind fun sl => sl.buf?.bind fun b =>
      b.2.2.map fun k => bufUpdateSize b.2.1 k.bufOff s.len
  | .bufFinal c => (s.slot? c).bind fun sl => sl.buf?.bind fun b => b.2.2.bind fun k =>
      if b.2.1 = false then some k.bufOff
      else if k.cipher.enc = true then some (if k.bufOff = 16 then 32 else 16)
      else none
  | .gcmPbyte c => (s.slot? c).bind fun sl => sl.gcm?.bind fun g => g.key.map gcmByteSize
  | .gcmPbytes c => (s.slot? c).bind fun sl => sl.gcm?.bind fun g =>
      g.key.map fun k => gcmUpdateSize k s.len
  | .gcmFinal c => (s.slot? c).bind fun sl => sl.gcm?.bind fun g =>
      g.key.map fun k => if k.enc then k.bufOff + k.macSize else k.bufOff - k.macSize
  | .gcmGmac c => (s.slot? c).bind fun sl => sl.gcm?.bind fun g => g.key.map GcmKeyed.macSize
  | .ccmFinal c => (s.slot? c).bind fun sl => sl.ccm?.bind fun g =>
      g.key.map fun k => if k.enc then k.msg.length + k.macSize else k.msg.length - k.macSize
  | .ccmPpkt c => (s.slot? c).bind fun sl => sl.ccm?.bind fun g =>
      g.key.map fun k => if k.enc then s.len + k.macSize else s.len - k.macSize
  | .ccmGmac c => (s.slot? c).bind fun sl => sl.ccm?.bind fun g => g.key.map CcmKeyed.macSize
  | _ => none

/-- RequireInit and RequireKeyed pass where the rule lists them (R151). -/
def State.Ready (s : State) (i : Instr) : Prop :=
  ∀ c sl, i.ctx? = some c → s.slot? c = some sl →
    (needsInit i = true → sl.isInit = true) ∧ (needsKeyed i = true → sl.isKeyed = true)

/-- The INIT commands (R113). -/
def isInitCommand : Instr → Bool
  | .aesInit _ _ _ _ | .bufInit _ _ _ _ | .cbcInit _ _ _ _ | .ctrInit _ _ _ _ | .gcmInit _ _ _ _
  | .ccmInit _ _ _ _ | .hmInit _ _ _ | .cmacInit _ _ _ => true
  | _ => false

/-- The errors of a command that leave the slot restarted (60_exceptions.md R506 class 3), with the RESET
command of its family. BUF.FINAL's OutputTooShort is apart: only the late one does (45_buffered.md R306). -/
def restarts : Instr → Option (List Err × Instr)
  | .bufFinal c => some ([.dataTooShort, .authenticationFailed], .bufReset c)
  | .gcmFinal c => some ([.authenticationFailed], .gcmReset c)
  | .ccmFinal c => some ([.authenticationFailed], .ccmReset c)
  | .ccmPpkt c => some ([.authenticationFailed], .ccmReset c)
  | _ => none

/-! ## Reserved words (30_encoding.md R117) -/

/-- The OPC values of R117's first item. -/
def reservedOpc (n : Nat) : Prop :=
  n = 0x00 ∨ (0x07 ≤ n ∧ n ≤ 0x0F) ∨ n = 0x16 ∨ n = 0x17 ∨ n = 0x1E ∨ n = 0x1F ∨
  (0x23 ≤ n ∧ n ≤ 0x2F) ∨ (0x34 ≤ n ∧ n ≤ 0x3F) ∨ (0x45 ≤ n ∧ n ≤ 0x4F) ∨ n = 0x57 ∨
  (0x5A ≤ n ∧ n ≤ 0x5F) ∨ (0x63 ≤ n ∧ n ≤ 0x6F) ∨ (0x78 ≤ n ∧ n ≤ 0x7F) ∨ (0x8A ≤ n ∧ n ≤ 0x8E) ∨
  (0x9B ≤ n ∧ n ≤ 0x9F) ∨ (0xA5 ≤ n ∧ n ≤ 0xFF)

/-- The context-free OPC values (R118). -/
def freeOpc (n : Nat) : Prop :=
  (0x10 ≤ n ∧ n ≤ 0x15) ∨ (0x18 ≤ n ∧ n ≤ 0x1D) ∨ n = 0x58 ∨ n = 0x59 ∨ n = 0x8F

/-- The OPC values of the INIT commands that take a direction (R113, R115). -/
def directedInitOpc (n : Nat) : Prop :=
  n = 0x20 ∨ n = 0x50 ∨ n = 0x60 ∨ n = 0x70 ∨ n = 0x80 ∨ n = 0x90

/-- The OPC values of HM.INIT and CMAC.INIT. -/
def plainInitOpc (n : Nat) : Prop := n = 0x40 ∨ n = 0xA0

/-- A legal (ALG, OPT) pair (10_state.md R42). -/
def LegalOption (a b : Nat) : Prop :=
  ((a ≤ 0x03 ∨ a = 0x05 ∨ a = 0x06 ∨ a = 0x08 ∨ a = 0x09 ∨ a = 0x0A) ∧ b = 0) ∨
  (a = 0x04 ∧ b < 4) ∨ (a = 0x07 ∧ b < 64 ∧ b % 32 ≤ 16) ∨ (a = 0x0B ∧ b < 3)

/-- A reserved word, by the four items of R117. -/
def ReservedWord (w : Word32) : Prop :=
  let opc := (w.extractLsb' 24 8).toNat
  let ctx := (w.extractLsb' 16 8).toNat
  let a := (w.extractLsb' 8 8).toNat
  let b := (w.extractLsb' 0 8).toNat
  reservedOpc opc ∨
  (freeOpc opc ∧ (ctx ≠ 0 ∨ a ≠ 0 ∨ b ≠ 0)) ∨
  (¬ reservedOpc opc ∧ ¬ freeOpc opc ∧ ¬ directedInitOpc opc ∧ ¬ plainInitOpc opc ∧ opc ≠ 0x01 ∧
    (a ≠ 0 ∨ b ≠ 0)) ∨
  (directedInitOpc opc ∧ (2 < a % 8 ∨ 16 ≤ a ∨ 2 ≤ b)) ∨
  (plainInitOpc opc ∧ (2 < a % 8 ∨ 16 ≤ a ∨ b ≠ 0)) ∨
  (opc = 0x01 ∧ ¬ LegalOption a b)

/-- The nonce history of a slot (10_state.md R47, R48). -/
def Slot.history : Slot → Option (List Byte) × Option (List Byte)
  | .gcm g => (g.lastKey, g.lastNonce)
  | .ccm c => (c.lastKey, c.lastNonce)
  | _ => (none, none)

/-! ## What the algorithms compute, as the laws of the spec name it -/

/-- The schedule of a key (42_aes.md R202). -/
def keySchedule (key : List Byte) : Dir → AesKey
  | .E => ⟨.E, keyExpansion key⟩
  | .D => ⟨.D, decKeys (keyExpansion key)⟩

/-- The key lengths AES takes (R202). -/
def AesLen (n : Nat) : Prop := n = 16 ∨ n = 24 ∨ n = 32

/-- A slot's digest state after the message `m` since reset (43_digest.md R250). -/
def absorbed (alg : DigestAlg) (m : List Byte) : Digest := digestAbsorbBytes alg (digestReset alg) m

/-- The message `m` padded as RFC 1321 and FIPS 180-4 do: 0x80, zeros, and its length in bits as eight bytes
in the algorithm's byte order (R251). -/
def paddedMessage (alg : DigestAlg) (m : List Byte) : List Byte :=
  m ++ 0x80 :: zeros ((119 - m.length % 64) % 64) ++
    (if alg = .md5 then leBytes 8 (8 * m.length) else beBytes 8 (8 * m.length))

/-- The sixteen words of block `j` of a byte string, in the algorithm's byte order. -/
def blockWords (alg : DigestAlg) (p : List Byte) (j : Nat) : Vector Word32 16 :=
  Vector.ofFn fun i =>
    let w := (p.drop (64 * j + 4 * i)).take 4
    BitVec.ofNat 32 (if alg = .md5 then leInt w else beInt w)

/-- The hash of a message: the compressions over the blocks of the padded message, serialised (R251). -/
def hashOf (alg : DigestAlg) (m : List Byte) : List Byte :=
  let p := paddedMessage alg m
  let hs := (List.range (p.length / 64)).foldl (fun h j => digestCompress alg h (blockWords alg p j))
    (digestIV alg)
  digestOut alg { digestReset alg with hs := hs }

/-- `K0` (44_hmac.md R282). -/
def hmacK0 (dk : DigestAlg) (key : List Byte) : List Byte :=
  let k := if key.length > 64 then digestOf dk key else key
  k ++ zeros (64 - k.length)

/-- PBYTE after PBYTE over a byte string, with `bufOff` back to 0 after a block: the outputs one after the
other, and the slot after them (45_buffered.md R304). -/
def bufByteRun (padded : Bool) : BufKeyed → List Byte → List Byte × BufKeyed
  | k, [] => ([], k)
  | k, b :: bs =>
    ((bufByte 0 padded k b).1 ++ (bufByteRun padded (bufByte 0 padded k b).2 bs).1,
      (bufByteRun padded (bufByte 0 padded k b).2 bs).2)

/-- CBCBlock over blocks: the results, and the slot after them (46_cbc.md R346). -/
def cbcRun : CbcKeyed → List Block → List Block × CbcKeyed
  | c, [] => ([], c)
  | c, x :: xs => ((cbcBlock c x).1 :: (cbcRun (cbcBlock c x).2 xs).1, (cbcRun (cbcBlock c x).2 xs).2)

/-- `KS(p ..< p + n)` (47_ctr.md R361). -/
def keystream (c : CtrKeyed) (p n : Nat) : List Byte := (List.range n).map fun i => ctrKeystream c (p + i)

/-- `C = D ⊕ (AES_E(inc32(J0)) || AES_E(inc32(inc32(J0))) || ..)` (48_gcm.md R411). -/
def gcmCipher (rk : List Block) (j0 : Block) (d : List Byte) : List Byte :=
  xorBytes d ((List.range ((d.length + 15) / 16)).flatMap fun i => toBytes (aesE rk (inc32^[i + 1] j0)))

/-- `T = MSB_t(AES_E(J0) ⊕ GHASH(H, pad16(A) || pad16(C) || BE(8, 8·len A) || BE(8, 8·len C)))` (R411). -/
def gcmTagOf (rk : List Block) (h j0 : Block) (a c : List Byte) (t : Nat) : List Byte :=
  (toBytes (aesE rk j0 ^^^ ghash h (blocksOf a ++ blocksOf c ++
    [BitVec.ofNat 64 (8 * a.length) ++ BitVec.ofNat 64 (8 * c.length)]))).take t

/-- AADS and PBYTES in turn on a GCM slot, each pair some associated data and then some data: the outputs one
after the other, and the slot after them (R402, R404). -/
def gcmRun : GcmKeyed → List (List Byte × List Byte) → List Byte × GcmKeyed
  | g, [] => ([], g)
  | g, (a, d) :: xs =>
    let y := gcmBytes { g with aad := aadAbsorbBytes g.h g.aad a } d
    (y.1 ++ (gcmRun y.2 xs).1, (gcmRun y.2 xs).2)

/-- The message CBC-MAC chains: zero-padded to whole blocks, at least one, or with PKCS7 padding
(49_ccm_cbcmac.md R478). -/
def cmacPadded (pad : PadMode) (m : List Byte) : List Byte :=
  match pad with
  | .zero => if m = [] then zeros 16 else pad16 m
  | .pkcs7 => m ++ List.replicate (16 - m.length % 16) (BitVec.ofNat 8 (16 - m.length % 16))

/-! ## The invariant of a run -/

/-- A schedule that AESLoad built (10_state.md R43): 10, 12 or 14 rounds, and the direction. -/
structure AesKey.Ok (k : AesKey) (d : Dir) : Prop where
  rounds : k.nr = 10 ∨ k.nr = 12 ∨ k.nr = 14
  dir : k.dir = d

/-- The digest state's own invariant (10_state.md R50, 43_digest.md R230). -/
structure Digest.Ok (alg : DigestAlg) (d : Digest) : Prop where
  words : d.hs.length = digestSize alg / 4
  xOff : d.xOff < 16
  xBufOff : d.xBufOff < 4
  clear : ∀ j (h : j < 16), d.xOff ≤ j → d.x[j] = 0

/-- The inner cipher of a BUF slot is the one CFG chose (10_state.md R46). -/
def InnerCipher.Ok (inner : Inner) : InnerCipher → Prop
  | .ecb k => inner = .ecb ∧ k.aes.Ok (dirOf k.enc)
  | .cbc k => inner = .cbc ∧ k.aes.Ok (dirOf k.enc)

/-- A keyed CTR slot (10_state.md R45): a position the counter reaches. -/
structure CtrKeyed.Ok (c : CtrKeyed) : Prop where
  key : c.aes.Ok .E
  ivLow : 8 ≤ c.ivLen
  ivHigh : c.ivLen ≤ 16
  pos : c.pos < 2 ^ 132
  room : c.tail ≠ 0 → c.pos ≤ 16 * 2 ^ (8 * c.tail)

/-- A keyed GCM slot (10_state.md R47). -/
structure GcmKeyed.Ok (g : GcmKeyed) : Prop where
  key : g.aes.Ok .E
  macSize : g.macSize = 4 ∨ g.macSize = 8 ∨ g.macSize = 12 ∨ g.macSize = 16
  bufOff : g.bufOff < g.cap
  blocks : g.ctLen + 16 * g.blocksLeft = 16 * (2 ^ 32 - 2)

/-- A keyed CCM slot (10_state.md R48). -/
structure CcmKeyed.Ok (p : Params) (c : CcmKeyed) : Prop where
  key : c.aes.Ok .E
  nonceLow : 7 ≤ c.nonce.length
  nonceHigh : c.nonce.length ≤ 13
  macSize : c.macSize ∈ [4, 6, 8, 10, 12, 14, 16]
  aad : c.iaad.length + c.aad.length ≤ p.ccmMaxAad
  msg : c.msg.length ≤ p.ccmMaxMsg

/-- A slot as the commands leave it (10_state.md R43 to R52). -/
def Slot.Ok (p : Params) : Slot → Prop
  | .unconfigured => True
  | .aes k => ∀ x ∈ k, x.aes.Ok (dirOf x.enc)
  | .cbc k => ∀ x ∈ k, x.aes.Ok (dirOf x.enc)
  | .ctr k => ∀ x ∈ k, x.Ok
  | .buf inner padded k =>
    ∀ x ∈ k, x.cipher.Ok inner ∧ x.bufOff ≤ (if padded then 16 else 15)
  | .gcm g => ∀ x ∈ g.key, x.Ok ∧ g.lastKey.isSome ∧ g.lastNonce.isSome
  | .ccm c => ∀ x ∈ c.key, x.Ok p ∧ c.lastKey.isSome ∧ c.lastNonce = some x.nonce
  | .cmac ms _ k => ms.toNat ≤ 16 ∧ ∀ x ∈ k, x.aes.Ok .E ∧ x.bufOff ≤ 16
  | .digest alg d => d.Ok alg
  | .hmac dk k => ∀ x ∈ k, x.dg.Ok dk ∧ x.ipadState.Ok dk ∧ x.opadState.Ok dk

/-- Every slot is well formed. -/
def State.SlotsOk (s : State) : Prop := ∀ sl ∈ s.slots, sl.Ok s.params

/-- DMEM's record is canonical, and lists only addresses that exist (20_memory.md R81). -/
structure State.MemOk (s : State) : Prop where
  wf : s.mem.wf
  below : s.mem.below s.memSize

/-- PEND, the CMD read-back and the race records agree (10_state.md R36, R59; 30_encoding.md R125). -/
structure State.LatchOk (s : State) : Prop where
  word : ∀ p, s.pend = some p → s.cmd = p.word
  idle : s.pend = none → s.raced = []
  raced : ∀ a ∈ s.raced, a < s.memSize
  late : ∀ a ∈ s.lateRaced, a < s.memSize

/-- The invariant every step keeps. -/
structure State.Inv (s : State) : Prop where
  params : s.params.InRange
  slotCount : 1 ≤ s.nCtx ∧ s.nCtx ≤ 256
  slots : s.SlotsOk
  mem : s.MemOk
  latch : s.LatchOk

/-- The end of a run (70_reset_and_hazards.md R574): the host is done and no command is pending. -/
def State.quiescent (s : State) : Prop := s.inputs = [] ∧ s.pend = none

end Sys2Proof.Machine
end

