-- ==== Sys2Proof/Certificates/Slice0/Obligations.lean ====
section
/-! DEFINITION. The statements about the CORE that the provers settle. Each docstring names the rules of the
spec it formalises; the laws of an algorithm are apart from the statements of the commands that use it. -/

open Sys2Proof Sys2Proof.Machine

/-! ## Reset, decoding and the host's side -/

/-- R58: what every piece of state holds after reset; a byte of DMEM is a draw after power-on (log entry 1) and
unchanged by a reset event. -/
def Obligations.ResetLeavesEverythingClear : Prop :=
  State.reset.cmd = 0 ∧ State.reset.statusWord = 0 ∧ State.reset.result = 0 ∧
  (∀ i : Fin 8, State.reset.args[i] = 0) ∧ State.reset.pend = none ∧
  (∀ c sl, State.reset.slot? c = some sl → sl = .unconfigured) ∧
  (∀ a, State.reset.readByte a = Config.powerOnByte a) ∧
  (∀ (s t : State) (a : Nat), hostStep .reset s = .next t → t.readByte a = s.readByte a) ∧
  readReg State.reset 0x000 = 0x4B4D5531 ∧
  readReg State.reset 0x004 = State.reset.capsWord ∧
  readReg State.reset 0x018 = BitVec.ofNat 32 State.reset.params.gcmNonceMax ∧
  readReg State.reset 0x01C = BitVec.ofNat 32 State.reset.params.ccmMaxAad ∧
  readReg State.reset 0x020 = BitVec.ofNat 32 State.reset.params.ccmMaxMsg

/-- R541, R554: a reset event discards a pending command with all its effects, clears every register and
slot, keeps DMEM, and is idempotent. -/
def Obligations.ResetEventClearsAllButDmem : Prop :=
  ∀ (s : State) (rest : List Input), s.inputs = .host .reset :: rest →
    ∃ t, step s = .next t ∧ t.cmd = 0 ∧ t.statusWord = 0 ∧ t.result = 0 ∧
      (∀ i : Fin 8, t.args[i] = 0) ∧ t.pend = none ∧ t.nCtx = s.nCtx ∧
      (∀ c sl, t.slot? c = some sl → sl = .unconfigured) ∧ SameDmem s t ∧
      t.params = s.params ∧ t.inputs = rest ∧ hostStep .reset t = .next t

/-- R123: the words of the spec's encoding examples decode to the commands they stand for, and its two
illegal words are refused. -/
def Obligations.DecodesTheSpecsExampleWords : Prop :=
  decodeWord 0x01010500 = .ok (.cfg 1 .gcm) ∧
  decodeWord 0x01030403 = .ok (.cfg 3 (.buf .cbc true)) ∧
  decodeWord 0x01020724 = .ok (.cfg 2 (.cmac 4 .pkcs7)) ∧
  decodeWord 0x01000B02 = .ok (.cfg 0 (.hmac .sha256)) ∧
  decodeWord 0x80010201 = .ok (.gcmInit 1 .aead false true) ∧
  decodeWord 0x70020101 = .ok (.ctrInit 2 .keyIv false true) ∧
  decodeWord 0x20000800 = .ok (.aesInit 0 .key true false) ∧
  decodeWord 0x73020000 = .ok (.ctrPbytes 2) ∧
  decodeWord 0x12000000 = .ok .st32be ∧
  decodeWord 0x8F000000 = .ok .gfMul ∧
  (∃ e, decodeWord 0x21000100 = .error e) ∧ (∃ e, decodeWord 0x10010000 = .error e)

/-- R115, R122, R126: decoding the word of any well-formed command gives it back, every operand whole. -/
def Obligations.DecodeInvertsEncode : Prop :=
  ∀ i : Instr, i.wf = true → decodeWord (encode i) = .ok i

/-- R126, R127: a word that decodes is the encoding of the well-formed command it decodes to, so no two
words stand for one command and no bit of a word is ignored. -/
def Obligations.EncodeInvertsDecode : Prop :=
  ∀ (w : Word32) (i : Instr), decodeWord w = .ok i → i.wf = true ∧ encode i = w

/-- R117, R124: every reserved word raises IllegalCommand and changes nothing but RESULT and STATUS. -/
def Obligations.ReservedWordsAreIllegal : Prop :=
  ∀ (s : State) (p : Pend), s.pend = some p → ReservedWord p.word →
    ∃ t, engineStep s = .next t ∧ Precise s t .illegalCommand

/-- R114, R119, R126 steps 5 to 7, R143: a command whose slot does not exist or is not admitted raises
IllegalCommand. -/
def Obligations.UnadmittedSlotsAreIllegal : Prop :=
  ∀ (i : Instr) (s : State), ¬ s.Admits i →
    ∃ t, exec i s = .next t ∧ Precise s t .illegalCommand

/-- R59, R95: the engine's completion step is the meaning of the decoded command. The model's choice, log entry 3
(DESIGN CHOICE), and no rule of the spec: that what moves next stands in the list `inputs` with its engine tokens,
that with no input left and PEND empty the engine leaves the state as it is, and what `withFetchWord` places, the
state that runs a word's command next. -/
def Obligations.StepRunsTheDecodedCommand : Prop :=
  (∀ (s : State) (p : Pend) (i : Instr), s.pend = some p → decodeWord p.word = .ok i → s.raced = [] →
    (s.inputs = [] → step s = exec i s) ∧
    (∀ rest, s.inputs = .engine :: rest → step s = exec i { s with inputs := rest })) ∧
  (∀ s : State, s.pend = none → s.inputs = [] → step s = .next s) ∧
  (∀ (s : State) (op : HostOp) (rest : List Input), s.inputs = .host op :: rest →
    step s = hostStep op { s with inputs := rest }) ∧
  (∀ (s : State) (i : Instr), i.wf = true → step (s.withFetchWord 32 (encode i).toNat) =
    exec i { s with pend := some ⟨encode i, s.args⟩, cmd := encode i, raced := [] })

/-- R36, R125, R551: a CMD write is accepted when BUSY = 0, with the arguments latched; while BUSY = 1 it
is discarded and sets OVR; CMD reads back the accepted word. -/
def Obligations.CmdWriteIsAcceptedOrSetsOvr : Prop :=
  (∀ (s : State) (w : Word32), s.pend = none →
    hostStep (.regWrite 0x008 4 w) s =
      .next { s with pend := some ⟨w, s.args⟩, cmd := w, raced := [] }) ∧
  (∀ (s : State) (w : Word32) (p : Pend), s.pend = some p →
    hostStep (.regWrite 0x008 4 w) s = .next { s with ovr := true }) ∧
  (∀ s : State, hostStep (.regRead 0x008 4) s = .next { s with busData := .reg s.cmd })

/-- R32 to R39, R501, R553: what a read of each offset of the window returns, field by field, with the ten
error codes of STATUS.ERR. No read changes anything the spec gives the machine: `busData` and `unseen` are the
model's own, and a STATUS read with BUSY = 0 is the host's observation of it (log entries 7 and 9, DESIGN CHOICE). -/
def Obligations.RegisterReadsFollowTheMap : Prop :=
  ∀ (s : State) (off : BitVec 12), off.toNat % 4 = 0 →
    ∃ v : Word32, hostStep (.regRead off 4) s = .next { s with
        busData := .reg v, unseen := if off = 0x00C ∧ s.pend = none then [] else s.unseen } ∧
      (off = 0x000 → v = 0x4B4D5531) ∧
      (off = 0x004 → v.extractLsb' 0 8 = BitVec.ofNat 8 (s.nCtx - 1) ∧
        v.getLsbD 8 = (s.params.bufByteReset == .six) ∧ v.extractLsb' 9 7 = 0 ∧
        v.extractLsb' 16 6 = BitVec.ofNat 6 s.params.memLog2 ∧ v.extractLsb' 22 10 = 0) ∧
      (off = 0x008 → v = s.cmd) ∧
      (off = 0x00C → v.getLsbD 0 = s.pend.isSome ∧ v.getLsbD 1 = s.ovr ∧ v.extractLsb' 2 6 = 0 ∧
        v.extractLsb' 8 4 = (match s.err with
          | .ok => 0 | .invalidParameter => 1 | .dataTooShort => 2 | .outputTooShort => 3
          | .authenticationFailed => 4 | .misuseDetected => 5 | .notInitialized => 6
          | .illegalCommand => 7 | .accessFault => 8 | .capacityExceeded => 9) ∧
        v.extractLsb' 12 20 = 0) ∧
      (off = 0x010 → v = s.result.extractLsb' 0 32) ∧
      (off = 0x014 → v = s.result.extractLsb' 32 32) ∧
      (off = 0x018 → v = BitVec.ofNat 32 s.params.gcmNonceMax) ∧
      (off = 0x01C → v = BitVec.ofNat 32 s.params.ccmMaxAad) ∧
      (off = 0x020 → v = BitVec.ofNat 32 s.params.ccmMaxMsg) ∧
      (∀ i : Fin 8, (off.toNat = 0x040 + 8 * i.val → v = s.args[i].extractLsb' 0 32) ∧
        (off.toNat = 0x044 + 8 * i.val → v = s.args[i].extractLsb' 32 32)) ∧
      ((0x024 ≤ off.toNat ∧ off.toNat ≤ 0x03C) ∨ 0x080 ≤ off.toNat → v = 0)

/-- R31, R91: the window refuses any access but an aligned 32-bit one; reserved offsets read 0; STATUS bit 1
clears OVR, and every write to a read-only or reserved offset is ignored. -/
def Obligations.WindowRefusesAndIgnoresWrites : Prop :=
  (∀ (s : State) (off : BitVec 12) (width : Nat) (v : Word32), ¬(width = 4 ∧ off.toNat % 4 = 0) →
    hostStep (.regRead off width) s = .refused .windowAccess ∧
    hostStep (.regWrite off width v) s = .refused .windowAccess) ∧
  (∀ (s : State) (off : BitVec 12) (v : Word32), off.toNat % 4 = 0 →
    off ≠ 0x008 → off ≠ 0x00C → ¬(0x040 ≤ off.toNat ∧ off.toNat < 0x080) →
    hostStep (.regWrite off 4 v) s = .next s) ∧
  (∀ (s : State) (off : BitVec 12), off.toNat % 4 = 0 →
    (0x024 ≤ off.toNat ∧ off.toNat < 0x040) ∨ 0x080 ≤ off.toNat →
    hostStep (.regRead off 4) s = .next { s with busData := .reg 0 }) ∧
  (∀ (s : State) (v : Word32), hostStep (.regWrite 0x00C 4 v) s =
    .next (if v.getLsbD 1 then { s with ovr := false } else s))

/-- R39, R552: an argument write sets its half, and neither PEND nor any command's effect depends on it:
a command reads the latched copy. -/
def Obligations.ArgumentWritesDoNotReachTheRunningCommand : Prop :=
  ∀ (s : State) (i : Fin 8) (hi : Bool) (v : Word32),
    ∃ t, hostStep (.regWrite (BitVec.ofNat 12 (0x040 + 8 * i.val + if hi then 4 else 0)) 4 v) s = .next t ∧
      t.args[i].extractLsb' (if hi then 32 else 0) 32 = v ∧
      t.args[i].extractLsb' (if hi then 0 else 32) 32 = s.args[i].extractLsb' (if hi then 0 else 32) 32 ∧
      (∀ j : Fin 8, j ≠ i → t.args[j] = s.args[j]) ∧ t = { s with args := t.args } ∧
      ∀ (k : Instr) (u : State), exec k s = .next u → exec k t = .next { u with args := t.args }

/-- R82, R96, R97, R550, R555, R570: a host write of DMEM stores its bytes at any time, and a host read returns
DMEM's bytes, but that a byte in the running command's output reads as a draw; outside the running command's ranges,
and with none running, nothing is drawn (log entry 22, DESIGN CHOICE: R101 carries the draws further). Neither changes
anything else the spec gives the machine. The model's choice (log entries 7 and 10, DESIGN CHOICE): which ranges a
pending word has, and the two race records, of accesses before the completion and of accesses between it and the
host's observation of it. -/
def Obligations.HostReachesDmemAsPlainMemory : Prop :=
  (∀ (s : State) (addr : Nat) (data : List Byte), addr + data.length ≤ s.memSize →
    let written (a : Nat) : Prop := (Range.mk addr data.length).Contains a
    ∃ t, hostStep (.dmemWrite addr data) s = .next t ∧ Stores s t addr data ∧ SameRegs s t ∧
      t.pend = s.pend ∧ t.slots = s.slots ∧ t.err = s.err ∧ t.result = s.result ∧ t.draws = s.draws ∧
      t.unseen = s.unseen ∧
      (∀ a, a ∈ t.raced ↔ a ∈ s.raced ∨ written a ∧ InRanges (s.pendIn ++ s.pendOut) a) ∧
      (∀ a, a ∈ t.lateRaced ↔ a ∈ s.lateRaced ∨ written a ∧ InRanges (s.unseenIn ++ s.unseenOut) a)) ∧
  (∀ (s : State) (addr len : Nat), addr + len ≤ s.memSize →
    let isOpen (j : Nat) : Prop := InRanges s.pendOut (addr + j)
    ∃ bs d l, hostStep (.dmemRead addr len) s =
        .next { s with busData := .dmem bs, draws := d, lateRaced := l } ∧
      bs.length = len ∧ (∀ j, j < len → ¬ isOpen j → bs.getD j 0 = s.readByte (addr + j)) ∧
      (∀ j, j < len → isOpen j → ∃ n, s.draws ≤ n ∧ n < d ∧ bs.getD j 0 = Config.freeByte n) ∧
      ((∀ j, j < len → ¬ isOpen j) → d = s.draws) ∧
      (∀ a, a ∈ l ↔ a ∈ s.lateRaced ∨ (Range.mk addr len).Contains a ∧ InRanges s.unseenOut a))

/-- R101, R555, R564: while a command is pending, each byte of its output that the host reads is a draw, and each
that it writes is a draw once the command has completed. The model's choice (log entry 7, DESIGN CHOICE), where R85,
R101 and R124 do not say: the output is the whole array the command names, and a word that will fail decode at R126
step 6 or 7 has one too. What follows between the completion and the host's observation of it is log entry 22. -/
def Obligations.AccessesBeforeTheCompletionAreDraws : Prop :=
  ∀ (s : State) (p : Pend) (i : Instr) (rest : List Input), s.pend = some p → decodeWord p.word = .ok i →
    (∀ addr len, s.inputs = .host (.dmemRead addr len) :: .engine :: rest → addr + len ≤ s.memSize →
      ∃ t u bs, step s = .next t ∧ step t = .next u ∧ u.busData = .dmem bs ∧ u.pend = none ∧
        u.inputs = rest ∧ ∀ j, j < len → InRanges (outRanges i s) (addr + j) →
          ∃ n, s.draws ≤ n ∧ n < u.draws ∧ bs.getD j 0 = Config.freeByte n) ∧
    (∀ addr data, s.inputs = .host (.dmemWrite addr data) :: .engine :: rest →
      addr + data.length ≤ s.memSize →
      ∃ t u, step s = .next t ∧ step t = .next u ∧ u.pend = none ∧ u.inputs = rest ∧
        ∀ j, j < data.length → InRanges (outRanges i s) (addr + j) → DrawnByte s u (addr + j))

/-- R101, R555 (and log entry 7): after a race each output byte the host wrote is a draw, each byte it wrote
in an input range alone keeps the host's value, and where it wrote no input byte everything else is as the
command specifies. -/
def Obligations.RacedBytesAreDraws : Prop :=
  ∀ (s t : State) (p : Pend) (i : Instr), s.pend = some p → decodeWord p.word = .ok i →
    engineStep s = .next t →
    (∀ a ∈ s.raced, InRanges (outRanges i s) a → DrawnByte s t a) ∧
    (∀ a ∈ s.raced, ¬ InRanges (outRanges i s) a → t.readByte a = s.readByte a) ∧
    ((∀ a ∈ s.raced, ¬ InRanges (inRanges i s) a) →
      ∃ u, exec i s = .next u ∧ SameRegs u t ∧ t.err = u.err ∧ t.result = u.result ∧ t.slots = u.slots ∧
        t.pend = u.pend ∧ t.unseen = u.unseen ∧
        t.lateRaced = u.lateRaced ∧ ∀ a, a ∉ s.raced → t.readByte a = u.readByte a)

/-! ## Rules over every command -/

/-- R505, R573: every command completes: BUSY and PEND are cleared, OVR, the CMD read-back and the argument
registers stay, and an error leaves RESULT 0. (The race record ends, and the command is unseen until the host
observes BUSY = 0: the model's choice, log entry 7, DESIGN CHOICE.) -/
def Obligations.EveryCommandCompletes : Prop :=
  ∀ (i : Instr) (s : State), ∃ t, exec i s = .next t ∧ SameRegs s t ∧ t.pend = none ∧ t.raced = [] ∧
    t.unseen = s.pend.toList ++ s.unseen ∧ t.lateRaced = s.lateRaced ∧ t.nCtx = s.nCtx ∧ (t.err ≠ .ok → t.result = 0)

/-- R506: the three classes of errors. A word that fails to decode is precise. No error writes a byte of DMEM or
an argument register. An INIT that fails after RegionCheck
leaves its slot unkeyed, with CFG's options and the nonce history; a FINAL that fails late leaves its slot as
RESET does; every other error changes no slot. -/
def Obligations.ErrorsAreOfThreeClasses : Prop :=
  (∀ (s : State) (p : Pend) (e : DecodeError), s.pend = some p → decodeWord p.word = .error e →
    ∃ t, engineStep s = .next t ∧ Precise s t .illegalCommand) ∧
  ∀ (i : Instr) (s t : State), exec i s = .next t → t.err ≠ .ok →
    SameRegs s t ∧ t.mem = s.mem ∧ t.draws = s.draws ∧ t.result = 0 ∧
    (isInitCommand i = true ∧ t.err ∈ [.invalidParameter, .misuseDetected, .capacityExceeded] →
      ∃ c sl sl', i.ctx? = some c ∧ s.slot? c = some sl ∧ t.slots = s.slots.set c.toNat sl' ∧
        sl'.isKeyed = false ∧ sl'.isInit = false ∧ sl'.conf = sl.conf ∧ sl'.history = sl.history) ∧
    (∀ errs r, restarts i = some (errs, r) → t.err ∈ errs →
      ∃ u, exec r s = .next u ∧ t.slots = u.slots) ∧
    (¬(isInitCommand i = true ∧ t.err ∈ [.invalidParameter, .misuseDetected, .capacityExceeded]) →
      (∀ errs r, restarts i = some (errs, r) → t.err ∉ errs) →
      t.slots = s.slots ∨ ∃ c, i = .bufFinal c ∧ t.err = .outputTooShort ∧
        ∃ u, exec (.bufReset c) s = .next u ∧ t.slots = u.slots)

/-- R142: a command reads and writes only the slot its CTX names, and COPY its source: with any other slot
replaced it gives the same results, and leaves that slot alone. -/
def Obligations.SlotsAreIndependent : Prop :=
  ∀ (i : Instr) (s t : State) (j : Nat), (∀ c, i.ctx? = some c → c.toNat ≠ j) → exec i s = .next t →
    t.slots[j]? = s.slots[j]? ∧
    ∀ sl, (∀ c, i = .copy c → s.arg 0 ≠ j) →
      exec i (s.withSlot j sl) = .next (t.withSlot j sl)

/-- R504: AccessFault is raised exactly when an admitted command names a range that is not inside DMEM,
before anything changes. -/
def Obligations.RangesOutsideDmemFault : Prop :=
  ∀ (i : Instr) (s : State), s.Admits i →
    (¬ s.AllInside (ranges i s) → ∃ t, exec i s = .next t ∧ Precise s t .accessFault) ∧
    (∀ t, exec i s = .next t → t.err = .accessFault → ¬ s.AllInside (ranges i s))

/-- R149, R151, R503 steps 2 to 4: past RegionCheck, a command whose rule lists RequireInit or RequireKeyed
raises NotInitialized on a slot that is not; then DataTooShort where the input does not fit; then
OutputTooShort where the output does not. Each is precise. -/
def Obligations.ChecksFollowInOrder : Prop :=
  (∀ (i : Instr) (s : State), s.Admits i → s.AllInside (ranges i s) → ¬ s.Ready i →
     ∃ t, exec i s = .next t ∧ Precise s t .notInitialized) ∧
  (∀ (i : Instr) (s : State), s.Admits i → s.AllInside (ranges i s) → s.Ready i →
     (∀ k, inputLen i s = some k → s.arg 1 < s.arg 2 + k →
       ∃ t, exec i s = .next t ∧ Precise s t .dataTooShort) ∧
     (∀ m, outputLen i s = some m → (∀ k, inputLen i s = some k → s.arg 2 + k ≤ s.arg 1) →
       m ≠ 0 → s.arg 5 < s.arg 6 + m → ∃ t, exec i s = .next t ∧ Precise s t .outputTooShort))

/-- R85: a command writes DMEM only inside its output ranges, and reads it only inside its input ranges:
with any other byte replaced it does the same. -/
def Obligations.CommandsStayInTheirRanges : Prop :=
  ∀ (i : Instr) (s t : State), s.SlotsOk → exec i s = .next t →
    (∀ a, ¬ InRanges (outRanges i s) a → t.readByte a = s.readByte a) ∧
    (∀ a b, ¬ InRanges (inRanges i s) a → ∃ u, exec i (s.withByte a b) = .next u ∧
      SameRegs t u ∧ u.err = t.err ∧ u.result = t.result ∧ u.slots = t.slots ∧ u.draws = t.draws ∧
      u.unseen = t.unseen ∧ u.lateRaced = t.lateRaced ∧
      (∀ a', a' ≠ a → u.readByte a' = t.readByte a') ∧
      (¬ InRanges (outRanges i s) a → u.readByte a = b))

/-- The invariant holds at reset (with the defaults of log entry 2). -/
def Obligations.ResetMeetsTheInvariant : Prop := State.reset.Inv

/-- R40 to R52, R59, R81, R573: the invariant of State.Inv is kept by every step, the host's and the
engine's: parameters, slots, the canonical DMEM and the latch. -/
def Obligations.EveryStepKeepsTheInvariant : Prop :=
  ∀ s t : State, s.Inv → step s = .next t → t.Inv

/-! ## Configuration and queries -/

/-- R140, R141, R143: CFG on any existing slot makes it fresh, with just the fields R141 lists; COPY gives the
destination the source's digest state by value. -/
def Obligations.CfgAndCopySetTheSlot : Prop :=
  (∀ (s : State) (c : Ctx) (conf : AlgConf), c.toNat < s.nCtx →
     ∃ t sl, exec (.cfg c conf) s = .next t ∧ Updates s t c sl ∧ sl.alg = conf.algCode ∧
       sl.opt = conf.optByte ∧ sl.history = (none, none) ∧
       (sl.isKeyed = true ↔ ∃ alg, conf = .digest alg) ∧ sl.isInit = sl.isKeyed ∧ sl.isEnc = false ∧
       (conf = .gcm → sl = .gcm ⟨none, 0, none, none⟩) ∧ (conf = .ccm → sl = .ccm ⟨none, 0, none, none⟩) ∧
       (∀ inner padded, conf = .buf inner padded → sl = .buf inner padded none) ∧
       (∀ ms pad, conf = .cmac ms pad → sl = .cmac ms pad none) ∧
       (∀ dk, conf = .hmac dk → sl = .hmac dk none) ∧
       (∀ alg, conf = .digest alg →
         sl = .digest alg ⟨digestIV alg, Vector.replicate 16 0, 0, 0, 0, 0⟩)) ∧
  (∀ (s : State) (d : Ctx) (alg : DigestAlg) (old src : Digest),
     s.slot? d = some (.digest alg old) → s.slots[s.arg 0]? = some (.digest alg src) →
     ∃ t, exec (.copy d) s = .next t ∧ Updates s t d (.digest alg src) ∧
       (s.arg 0 ≠ d.toNat → t.slots[s.arg 0]? = some (.digest alg src)))

/-- R144 to R148: the size queries, on every slot they take; GMS needs a keyed GCM or CCM slot. They
change nothing. -/
def Obligations.SizeQueriesAnswerTheSizes : Prop :=
  (∀ (s : State) (c : Ctx) (sl : Slot), s.slot? c = some sl →
    (sl.alg.toNat ∈ [1, 2, 3, 4, 5, 6, 7] → ∃ t, exec (.gbs c) s = .next t ∧ Answers s t 16)) ∧
  (∀ (s : State) (c : Ctx) (g : GcmSlot), s.slot? c = some (.gcm g) →
    (∀ k, g.key = some k → ∃ t, exec (.gms c) s = .next t ∧ Answers s t (BitVec.ofNat 64 k.macSize)) ∧
    (g.key = none → ∃ t, exec (.gms c) s = .next t ∧ Precise s t .notInitialized)) ∧
  (∀ (s : State) (c : Ctx) (g : CcmSlot), s.slot? c = some (.ccm g) →
    (∀ k, g.key = some k → ∃ t, exec (.gms c) s = .next t ∧ Answers s t (BitVec.ofNat 64 k.macSize)) ∧
    (g.key = none → ∃ t, exec (.gms c) s = .next t ∧ Precise s t .notInitialized)) ∧
  (∀ (s : State) (c : Ctx) (ms : BitVec 5) (pad : PadMode) (key : Option CmacKeyed),
    s.slot? c = some (.cmac ms pad key) →
    ∃ t, exec (.gms c) s = .next t ∧ Answers s t (if ms = 0 then 8 else ms.setWidth 64)) ∧
  (∀ (s : State) (c : Ctx) (dk : DigestAlg) (key : Option HmacKeyed), s.slot? c = some (.hmac dk key) →
    ∃ t, exec (.gms c) s = .next t ∧
      Answers s t (match dk with | .md5 => 16 | .sha1 => 20 | .sha256 => 32)) ∧
  (∀ (s : State) (c : Ctx) (alg : DigestAlg) (d : Digest), s.slot? c = some (.digest alg d) →
    (∃ t, exec (.gds c) s = .next t ∧
      Answers s t (match alg with | .md5 => 16 | .sha1 => 20 | .sha256 => 32)) ∧
    (∃ t, exec (.gbl c) s = .next t ∧ Answers s t 64))

/-! ## Byte packing -/

/-- R171 to R183: each store writes the low bytes of ARG1 in its order, and nothing else; each load reads its
bytes in its order, zero-extended. -/
def Obligations.PackCommandsMoveTheBytes : Prop :=
  (∀ (s : State) (i : Instr) (bs : List Byte),
     let v := s.argW 1
     let b (j : Nat) : Byte := v.extractLsb' (8 * j) 8
     ((i = .st16be ∧ bs = [b 1, b 0]) ∨ (i = .st16le ∧ bs = [b 0, b 1]) ∨
       (i = .st32be ∧ bs = [b 3, b 2, b 1, b 0]) ∨ (i = .st32le ∧ bs = [b 0, b 1, b 2, b 3]) ∨
       (i = .st64be ∧ bs = [b 7, b 6, b 5, b 4, b 3, b 2, b 1, b 0]) ∨
       (i = .st64le ∧ bs = [b 0, b 1, b 2, b 3, b 4, b 5, b 6, b 7])) →
     s.arg 0 + bs.length ≤ s.memSize →
     ∃ t, exec i s = .next t ∧ Completes s t .ok 0 ∧ t.slots = s.slots ∧ t.draws = s.draws ∧
       Stores s t (s.arg 0) bs) ∧
  (∀ (s : State) (i : Instr) (n : Nat) (v : Word64),
     let b (j : Nat) : Byte := s.readByte (s.arg 0 + j)
     ((i = .ld16be ∧ n = 2 ∧ v = (b 0 ++ b 1).setWidth 64) ∨
       (i = .ld16le ∧ n = 2 ∧ v = (b 1 ++ b 0).setWidth 64) ∨
       (i = .ld32be ∧ n = 4 ∧ v = (b 0 ++ b 1 ++ b 2 ++ b 3).setWidth 64) ∨
       (i = .ld32le ∧ n = 4 ∧ v = (b 3 ++ b 2 ++ b 1 ++ b 0).setWidth 64) ∨
       (i = .ld64be ∧ n = 8 ∧ v = b 0 ++ b 1 ++ b 2 ++ b 3 ++ b 4 ++ b 5 ++ b 6 ++ b 7) ∨
       (i = .ld64le ∧ n = 8 ∧ v = b 7 ++ b 6 ++ b 5 ++ b 4 ++ b 3 ++ b 2 ++ b 1 ++ b 0)) →
     s.arg 0 + n ≤ s.memSize → ∃ t, exec i s = .next t ∧ Answers s t v)

/-- R185: a load after the store of its width and order gives the value modulo its width; a little-endian
load after a big-endian store gives it byte-reversed; a store changes its bytes only, a load none. -/
def Obligations.PackLoadsInvertStores : Prop :=
  ∀ (st ld ldRev : Instr) (n : Nat) (s t u : State),
    ((st = .st16be ∧ ld = .ld16be ∧ ldRev = .ld16le ∧ n = 2) ∨
      (st = .st16le ∧ ld = .ld16le ∧ ldRev = .ld16be ∧ n = 2) ∨
      (st = .st32be ∧ ld = .ld32be ∧ ldRev = .ld32le ∧ n = 4) ∨
      (st = .st32le ∧ ld = .ld32le ∧ ldRev = .ld32be ∧ n = 4) ∨
      (st = .st64be ∧ ld = .ld64be ∧ ldRev = .ld64le ∧ n = 8) ∨
      (st = .st64le ∧ ld = .ld64le ∧ ldRev = .ld64be ∧ n = 8)) →
    exec st s = .next t → t.err = .ok → u.mem = t.mem → u.params = t.params → u.arg 0 = s.arg 0 →
    SameDmemOutside ⟨s.arg 0, n⟩ s t ∧
    (∃ w, exec ld u = .next w ∧ w.err = .ok ∧ w.result.toNat = s.arg 1 % 256 ^ n ∧ SameDmem u w) ∧
    (∃ w, exec ldRev u = .next w ∧ w.err = .ok ∧
      w.result.toNat = beInt (leBytes n (s.arg 1)) ∧ SameDmem u w)

/-! ## AES -/

/-- R202 to R205: AES.INIT with a key of 16, 24 or 32 bytes loads its schedule in the direction given; AES.PBLK
writes the cipher's or the inverse cipher's block and leaves every slot alone; AES.RESET changes nothing. -/
def Obligations.AesCommandsLoadAndCipher : Prop :=
  (∀ (s : State) (c : Ctx) (rnd enc : Bool) (old : Option AesKeyed), s.slot? c = some (.aes old) →
     s.AllInside (s.initRanges .key) → AesLen (s.arg 1) →
     ∃ t, exec (.aesInit c .key rnd enc) s = .next t ∧
       Updates s t c (.aes (some ⟨enc, keySchedule (s.memRead (s.arg 0) (s.arg 1)) (dirOf enc)⟩))) ∧
  (∀ (s : State) (c : Ctx) (k : AesKeyed), s.slot? c = some (.aes (some k)) →
    s.AllInside [s.inArray, s.outArray] → s.InFits 16 → s.OutFits 16 →
    ∃ t, exec (.aesPblk c) s = .next t ∧
      EmitsOver s t 16 s.slots (toBytes (match k.aes.dir with
        | .E => aesE k.aes.rk (blockOf (s.memRead s.inAddr 16))
        | .D => aesD k.aes.rk (blockOf (s.memRead s.inAddr 16))))) ∧
  (∀ (s : State) (c : Ctx) (key : Option AesKeyed), s.slot? c = some (.aes key) →
    ∃ t, exec (.aesReset c) s = .next t ∧ Answers s t 0)

/-- R206: with the schedules of one key, the inverse cipher undoes the cipher and the cipher undoes it. -/
def Obligations.AesDecryptionInvertsEncryption : Prop :=
  ∀ (key : List Byte) (x : Block), AesLen key.length →
    aesD (keySchedule key .D).rk (aesE (keySchedule key .E).rk x) = x ∧
    aesE (keySchedule key .E).rk (aesD (keySchedule key .D).rk x) = x

/-! ## Digests and HMAC -/

/-- R250, R262 to R265: DG.UPD and DG.UPDS absorb their bytes, DG.RESET starts over, and DG.FINAL writes
the digest of the state and starts over. -/
def Obligations.DigestCommandsStreamAndFinish : Prop :=
  ∀ (s : State) (c : Ctx) (alg : DigestAlg) (d : Digest), s.slot? c = some (.digest alg d) →
    (∃ t, exec (.dgUpd c) s = .next t ∧
      Updates s t c (.digest alg (digestAbsorb alg d ((s.argW 7).extractLsb' 0 8)))) ∧
    (s.AllInside [s.inArray] → s.InFits s.len → ∃ t, exec (.dgUpds c) s = .next t ∧
      Updates s t c (.digest alg ((s.memRead s.inAddr s.len).foldl (digestAbsorb alg) d))) ∧
    (∃ t, exec (.dgReset c) s = .next t ∧ Updates s t c (.digest alg (digestReset alg))) ∧
    (s.AllInside [s.outArray] → s.OutFits (digestSize alg) → ∃ t, exec (.dgFinal c) s = .next t ∧
      Emits s t (s.slots.set c.toNat (.digest alg (digestReset alg)))
        (digestOut alg (digestFinish alg d)) ∧
      t.result.toNat = digestSize alg)

/-- R251, R266: the digest of a message absorbed since reset is its hash as the standards define it,
however the message was split. -/
def Obligations.DigestIsTheStandardHash : Prop :=
  ∀ (alg : DigestAlg) (m : List Byte), m.length < 2 ^ 61 →
    digestOut alg (digestFinish alg (absorbed alg m)) = hashOf alg m ∧
    ∀ m', digestAbsorbBytes alg (absorbed alg m) m' = absorbed alg (m ++ m')

/-- R282 to R287: HM.INIT takes a key of any length and sets the two snapshots; HM.UPD, HM.UPDS and
HM.RESET move the running digest; HM.FINAL writes the outer digest and restores the ipad snapshot. -/
def Obligations.HmacCommandsKeyStreamAndFinish : Prop :=
  (∀ (s : State) (c : Ctx) (rnd : Bool) (dk : DigestAlg) (old : Option HmacKeyed),
    s.slot? c = some (.hmac dk old) → s.AllInside (s.initRanges .key) →
    ∃ t, exec (.hmInit c .key rnd) s = .next t ∧
      Updates s t c (.hmac dk (some
        (let k0 := hmacK0 dk (s.memRead (s.arg 0) (s.arg 1))
         let ipad := absorbed dk (xorBytes k0 (List.replicate 64 0x36))
         ⟨ipad, ipad, absorbed dk (xorBytes k0 (List.replicate 64 0x5C))⟩)))) ∧
  (∀ (s : State) (c : Ctx) (dk : DigestAlg) (k : HmacKeyed), s.slot? c = some (.hmac dk (some k)) →
    (∃ t, exec (.hmUpd c) s = .next t ∧
      Updates s t c (.hmac dk (some { k with dg := digestAbsorb dk k.dg ((s.argW 7).extractLsb' 0 8) }))) ∧
    (s.AllInside [s.inArray] → s.InFits s.len → ∃ t, exec (.hmUpds c) s = .next t ∧
      Updates s t c (.hmac dk (some
        { k with dg := (s.memRead s.inAddr s.len).foldl (digestAbsorb dk) k.dg }))) ∧
    (∃ t, exec (.hmReset c) s = .next t ∧
      Updates s t c (.hmac dk (some { k with dg := k.ipadState }))) ∧
    (s.AllInside [s.outArray] → s.OutFits (digestSize dk) → ∃ t, exec (.hmFinal c) s = .next t ∧
      Emits s t (s.slots.set c.toNat (.hmac dk (some { k with dg := k.ipadState })))
        (digestOut dk (digestFinish dk (digestAbsorbBytes dk k.opadState
          (digestOut dk (digestFinish dk k.dg))))) ∧
      t.result.toNat = digestSize dk)) ∧
  (∀ (s : State) (c : Ctx) (dk : DigestAlg), s.slot? c = some (.hmac dk none) →
    ∃ t, exec (.hmReset c) s = .next t ∧ Updates s t c (.hmac dk none))

/-- R288: for a slot HM.INIT keyed, what HM.FINAL writes after a message is HMAC of it. -/
def Obligations.HmacIsTheNestedHash : Prop :=
  ∀ (dk : DigestAlg) (key m : List Byte),
    let k := hmacKey dk key
    hmacResult dk ⟨digestAbsorbBytes dk k.1 m, k.1, k.2⟩ =
      digestOf dk (xorBytes (hmacK0 dk key) (List.replicate 64 0x5C) ++
        digestOf dk (xorBytes (hmacK0 dk key) (List.replicate 64 0x36) ++ m)) ∧
    (hmacResult dk ⟨digestAbsorbBytes dk k.1 m, k.1, k.2⟩).length = digestSize dk

/-! ## The buffered wrapper and padding -/

/-- R303, R307 to R309: BUF.INIT keys the wrapper and its inner cipher, from an IV where CBC is given one, else
from zero, with the buffer empty; BUF.RESET returns to the start state; BUF.GOS and BUF.GUOS give the sizes and
change nothing. -/
def Obligations.BufInitResetAndSizes : Prop :=
  (∀ (s : State) (c : Ctx) (pk : PKind) (rnd enc padded : Bool) (inner : Inner) (old : Option BufKeyed),
     s.slot? c = some (.buf inner padded old) → s.AllInside (s.initRanges pk) → AesLen (s.arg 1) →
     (let k := keySchedule (s.memRead (s.arg 0) (s.arg 1)) (dirOf enc)
      (inner = .ecb → pk = .key → ∃ t, exec (.bufInit c pk rnd enc) s = .next t ∧
        Updates s t c (.buf .ecb padded (some ⟨.ecb ⟨enc, k⟩, 0, 0⟩))) ∧
      (inner = .cbc → pk = .key → ∃ t, exec (.bufInit c pk rnd enc) s = .next t ∧
        Updates s t c (.buf .cbc padded (some ⟨.cbc ⟨enc, k, 0, 0, 0⟩, 0, 0⟩))) ∧
      (inner = .cbc → pk = .keyIv → s.arg 3 = 16 → ∃ t, exec (.bufInit c pk rnd enc) s = .next t ∧
        (let iv := blockOf (s.memRead (s.arg 2) 16)
         Updates s t c (.buf .cbc padded (some ⟨.cbc ⟨enc, k, iv, iv, 0⟩, 0, 0⟩)))))) ∧
  (∀ (s : State) (c : Ctx) (inner : Inner) (padded : Bool) (k : BufKeyed),
    s.slot? c = some (.buf inner padded (some k)) →
    let total := s.arg 3 + k.bufOff
    (∃ t, exec (.bufReset c) s = .next t ∧
      Updates s t c (.buf inner padded (some ⟨k.cipher.restart, 0, 0⟩))) ∧
    (∃ t, exec (.bufGos c) s = .next t ∧ Sizes s t
      (if padded = false then total
       else if total % 16 = 0 then (if k.cipher.enc = true then total + 16 else total)
       else total - total % 16 + 16)) ∧
    (∃ t, exec (.bufGuos c) s = .next t ∧ Sizes s t
      (if padded = true ∧ total % 16 = 0 then total - 16 else total - total % 16))) ∧
  (∀ (s : State) (c : Ctx) (inner : Inner) (padded : Bool), s.slot? c = some (.buf inner padded none) →
    ∃ t, exec (.bufReset c) s = .next t ∧ Updates s t c (.buf inner padded none))

/-- R301, R304: BUF.PBYTE. Unpadded, the sixteenth byte runs the buffer through the cipher and bufOff
becomes BUF_BYTE_RESET; padded, a byte that meets a full buffer does, and then is buffered. -/
def Obligations.BufPbyteBuffersOneByte : Prop :=
  ∀ (s : State) (c : Ctx) (inner : Inner) (padded : Bool) (k : BufKeyed),
    s.slot? c = some (.buf inner padded (some k)) → s.AllInside [s.outArray] →
    let b : Byte := (s.argW 7).extractLsb' 0 8
    let put (k' : BufKeyed) := s.slots.set c.toNat (.buf inner padded (some k'))
    let full := setByteAt k.buf k.bufOff b
    (padded = false → k.bufOff < 15 → ∃ t, exec (.bufPbyte c) s = .next t ∧
      Emits s t (put ⟨k.cipher, full, k.bufOff + 1⟩) []) ∧
    (padded = false → k.bufOff = 15 → s.OutFits 16 → ∃ t, exec (.bufPbyte c) s = .next t ∧
      Emits s t (put ⟨(blockOp k.cipher full).2, full, s.params.bufByteReset.val⟩)
        (toBytes (blockOp k.cipher full).1)) ∧
    (padded = true → k.bufOff < 16 → ∃ t, exec (.bufPbyte c) s = .next t ∧
      Emits s t (put ⟨k.cipher, full, k.bufOff + 1⟩) []) ∧
    (padded = true → k.bufOff = 16 → s.OutFits 16 → ∃ t, exec (.bufPbyte c) s = .next t ∧
      Emits s t (put ⟨(blockOp k.cipher k.buf).2, setByteAt k.buf 0 b, 1⟩)
        (toBytes (blockOp k.cipher k.buf).1))

/-- R305, R309: BUF.PBYTES completes, and writes exactly as many bytes as BUF.GUOS says. Where they land follows
R92, with log entry 4 (DEDUCED): input and output that start at one address are in place, and exact, though their
lengths differ. -/
def Obligations.BufPbytesWritesTheUpdateSize : Prop :=
  ∀ (s : State) (c : Ctx) (inner : Inner) (padded : Bool) (k : BufKeyed),
    s.slot? c = some (.buf inner padded (some k)) → k.bufOff ≤ (if padded then 16 else 15) →
    s.AllInside [s.inArray, s.outArray] → s.InFits s.len →
    (let total := s.len + k.bufOff
     let m := if padded = true ∧ total % 16 = 0 then total - 16 else total - total % 16
     s.OutFits m → ∃ t, exec (.bufPbytes c) s = .next t ∧
       EmitsOver s t s.len
         (s.slots.set c.toNat (.buf inner padded (some (bufBytes padded k (s.memRead s.inAddr s.len)).2)))
         (bufBytes padded k (s.memRead s.inAddr s.len)).1 ∧
       t.result.toNat = m)

/-- R305, R312: PBYTES of a string writes what PBYTE of its bytes one by one writes (bufOff going back to 0
after a block), and leaves the same cipher, the same bufOff and the same buffered bytes. -/
def Obligations.BufPbytesIsPbyteRepeated : Prop :=
  ∀ (padded : Bool) (k : BufKeyed) (data : List Byte), k.bufOff ≤ (if padded then 16 else 15) →
    let x := bufBytes padded k data
    let y := bufByteRun padded k data
    x.1 = y.1 ∧ x.2.cipher = y.2.cipher ∧ x.2.bufOff = y.2.bufOff ∧
      (toBytes x.2.buf).take x.2.bufOff = (toBytes y.2.buf).take x.2.bufOff

/-- R306, R506 class 3: BUF.FINAL in its three forms, each error with what it leaves. -/
def Obligations.BufFinalFinishesOrResets : Prop :=
  ∀ (s : State) (c : Ctx) (inner : Inner) (padded : Bool) (k : BufKeyed),
    s.slot? c = some (.buf inner padded (some k)) → s.AllInside [s.outArray] →
    let clear : Slot := .buf inner padded (some ⟨k.cipher.restart, 0, 0⟩)
    let put := s.slots.set c.toNat clear
    let p := toBytes (blockOp k.cipher k.buf).1
    (padded = false → s.OutFits k.bufOff → k.bufOff = 0 →
      ∃ t, exec (.bufFinal c) s = .next t ∧ Updates s t c clear) ∧
    (padded = false → s.OutFits k.bufOff → k.bufOff ≠ 0 →
      ∃ t, exec (.bufFinal c) s = .next t ∧ Fails s t .dataTooShort c clear) ∧
    (padded = true → k.cipher.enc = true → k.bufOff < 16 → s.OutFits 16 →
      ∃ t, exec (.bufFinal c) s = .next t ∧
        Emits s t put (toBytes (blockOp k.cipher (blockOf ((toBytes k.buf).take k.bufOff ++
          List.replicate (16 - k.bufOff) (BitVec.ofNat 8 (16 - k.bufOff))))).1)) ∧
    (padded = true → k.cipher.enc = true → k.bufOff = 16 → s.OutFits 32 →
      ∃ t, exec (.bufFinal c) s = .next t ∧
        Emits s t put (p ++ toBytes (blockOp (blockOp k.cipher k.buf).2
          (blockOf (List.replicate 16 0x10))).1)) ∧
    (padded = true → k.cipher.enc = false → k.bufOff ≠ 16 →
      ∃ t, exec (.bufFinal c) s = .next t ∧ Fails s t .dataTooShort c clear) ∧
    (padded = true → k.cipher.enc = false → k.bufOff = 16 → padCount p = none →
      ∃ t, exec (.bufFinal c) s = .next t ∧ Fails s t .authenticationFailed c clear) ∧
    (∀ n, padded = true → k.cipher.enc = false → k.bufOff = 16 → padCount p = some n →
      (s.OutFits (16 - n) → ∃ t, exec (.bufFinal c) s = .next t ∧ Emits s t put (p.take (16 - n))) ∧
      (¬ s.OutFits (16 - n) →
        ∃ t, exec (.bufFinal c) s = .next t ∧ Fails s t .outputTooShort c clear))

/-- R310, R311: PAD.ADD writes the code from `off` to the end; PAD.CNT answers the pad count, or raises
AuthenticationFailed; both check their lengths. -/
def Obligations.PadCommandsAddAndCount : Prop :=
  ∀ s : State, s.arg 0 + s.arg 1 ≤ s.memSize →
    (s.arg 2 ≤ s.arg 1 → ∃ t, exec .padAdd s = .next t ∧
      Completes s t .ok (BitVec.ofNat 64 (s.arg 1 - s.arg 2)) ∧ t.slots = s.slots ∧
      SameDmemOutside ⟨s.arg 0 + s.arg 2, s.arg 1 - s.arg 2⟩ s t ∧
      ∀ j, s.arg 2 ≤ j → j < s.arg 1 →
        t.readByte (s.arg 0 + j) = BitVec.ofNat 8 (s.arg 1 - s.arg 2)) ∧
    (s.arg 1 < s.arg 2 → ∃ t, exec .padAdd s = .next t ∧ Precise s t .dataTooShort) ∧
    (s.arg 1 = 0 → ∃ t, exec .padCnt s = .next t ∧ Precise s t .dataTooShort) ∧
    (s.arg 1 ≠ 0 →
      let last := (s.readByte (s.arg 0 + s.arg 1 - 1)).toNat
      let good := 1 ≤ last ∧ last ≤ s.arg 1 ∧
        ∀ j, s.arg 1 - last ≤ j → j < s.arg 1 → (s.readByte (s.arg 0 + j)).toNat = last
      (good → ∃ t, exec .padCnt s = .next t ∧ Answers s t (BitVec.ofNat 64 last)) ∧
      (¬ good → ∃ t, exec .padCnt s = .next t ∧ Precise s t .authenticationFailed))

/-- R313: PadCount undoes PadAdd for every block length up to 255 and every offset below it. -/
def Obligations.PadCountInvertsPadAdd : Prop :=
  ∀ (blk : List Byte) (off : Nat), blk.length ≤ 255 → off < blk.length →
    padCount (padAdd blk off) = some (blk.length - off) ∧ (padAdd blk off).take off = blk.take off

/-! ## CBC and CTR -/

/-- R341 to R345: CBC.INIT, CBC.PBLK in both directions, and CBC.RESET. -/
def Obligations.CbcCommandsChain : Prop :=
  (∀ (s : State) (c : Ctx) (pk : PKind) (rnd enc : Bool) (old : Option CbcKeyed),
    s.slot? c = some (.cbc old) → s.AllInside (s.initRanges pk) → AesLen (s.arg 1) →
    (let k := keySchedule (s.memRead (s.arg 0) (s.arg 1)) (dirOf enc)
     (pk = .key → ∃ t, exec (.cbcInit c pk rnd enc) s = .next t ∧
       Updates s t c (.cbc (some ⟨enc, k, 0, 0, 0⟩))) ∧
     (pk = .keyIv → s.arg 3 = 16 → ∃ t, exec (.cbcInit c pk rnd enc) s = .next t ∧
       (let iv := blockOf (s.memRead (s.arg 2) 16)
        Updates s t c (.cbc (some ⟨enc, k, iv, iv, 0⟩)))))) ∧
  (∀ (s : State) (c : Ctx) (k : CbcKeyed), s.slot? c = some (.cbc (some k)) →
    s.AllInside [s.inArray, s.outArray] → s.InFits 16 → s.OutFits 16 →
    let x := blockOf (s.memRead s.inAddr 16)
    (k.enc = true → ∃ t, exec (.cbcPblk c) s = .next t ∧
      (let y := aesE k.aes.rk (k.cbcV ^^^ x)
       EmitsOver s t 16 (s.slots.set c.toNat (.cbc (some { k with cbcV := y }))) (toBytes y))) ∧
    (k.enc = false → ∃ t, exec (.cbcPblk c) s = .next t ∧
      EmitsOver s t 16 (s.slots.set c.toNat (.cbc (some { k with cbcV := x, cbcNextV := k.cbcV })))
        (toBytes (aesD k.aes.rk x ^^^ k.cbcV)))) ∧
  (∀ (s : State) (c : Ctx) (k : CbcKeyed), s.slot? c = some (.cbc (some k)) →
    ∃ t, exec (.cbcReset c) s = .next t ∧
      Updates s t c (.cbc (some { k with cbcV := k.iv, cbcNextV := 0 }))) ∧
  (∀ (s : State) (c : Ctx), s.slot? c = some (.cbc none) →
    ∃ t, exec (.cbcReset c) s = .next t ∧ Updates s t c (.cbc none))

/-- R346: the blocks a decrypting chain makes of an encrypting chain's output are the plaintext, for one
key and IV. -/
def Obligations.CbcDecryptionInvertsEncryption : Prop :=
  ∀ (key : List Byte) (iv : Block) (ps : List Block), AesLen key.length →
    (cbcRun ⟨false, keySchedule key .D, iv, iv, 0⟩
      (cbcRun ⟨true, keySchedule key .E, iv, iv, 0⟩ ps).1).1 = ps

/-- R364, R365, R369 to R372: CTR.INIT with an IV of 8 to 16 bytes; RESET, SKIP, SEEK and GPOS; a position that
is not settable raises MisuseDetected and changes nothing. The model's choice (log entry 21, DESIGN CHOICE): so does
SKIP with n = 0 from the position just past the last byte of a short counter, which is not settable. -/
def Obligations.CtrInitAndPositionCommands : Prop :=
  (∀ (s : State) (c : Ctx) (rnd enc : Bool) (old : Option CtrKeyed), s.slot? c = some (.ctr old) →
     s.AllInside (s.initRanges .keyIv) → AesLen (s.arg 1) → 8 ≤ s.arg 3 → s.arg 3 ≤ 16 →
     ∃ t, exec (.ctrInit c .keyIv rnd enc) s = .next t ∧
       Updates s t c (.ctr (some ⟨enc, keySchedule (s.memRead (s.arg 0) (s.arg 1)) .E, s.arg 3,
         blockOf (s.memRead (s.arg 2) (s.arg 3) ++ zeros (16 - s.arg 3)), 0⟩))) ∧
  (∀ (s : State) (c : Ctx) (k : CtrKeyed), s.slot? c = some (.ctr (some k)) → k.ivLen ≤ 16 →
    let settable (p : Int) : Prop := k.ivLen = 16 ∨ (0 ≤ p ∧ p < 16 * 2 ^ (8 * (16 - k.ivLen)))
    let put (p : Int) : Slot :=
      .ctr (some { k with pos := if k.ivLen = 16 then (p % 2 ^ 132).toNat else p.toNat })
    let skip : Int := k.pos + (s.argW 0).toInt
    let seek : Int := s.arg 0
    (∃ t, exec (.ctrReset c) s = .next t ∧ Updates s t c (.ctr (some { k with pos := 0 }))) ∧
    (settable skip → ∃ t, exec (.ctrSkip c) s = .next t ∧ Completes s t .ok (s.argW 0) ∧
      t.slots = s.slots.set c.toNat (put skip) ∧ SameDmem s t) ∧
    (¬ settable skip → ∃ t, exec (.ctrSkip c) s = .next t ∧ Precise s t .misuseDetected) ∧
    (settable seek → ∃ t, exec (.ctrSeek c) s = .next t ∧ Completes s t .ok (s.argW 0) ∧
      t.slots = s.slots.set c.toNat (put seek) ∧ SameDmem s t) ∧
    (¬ settable seek → ∃ t, exec (.ctrSeek c) s = .next t ∧ Precise s t .misuseDetected) ∧
    (∃ t, exec (.ctrGpos c) s = .next t ∧ Answers s t (BitVec.ofNat 64 k.pos))) ∧
  (∀ (s : State) (c : Ctx), s.slot? c = some (.ctr none) →
    ∃ t, exec (.ctrReset c) s = .next t ∧ Updates s t c (.ctr none))

/-- R361, R362, R366 to R368: the three stream commands xor their data with the keystream and advance, or
raise MisuseDetected where the counter has no room, changing nothing. -/
def Obligations.CtrStreamsXorTheKeystream : Prop :=
  ∀ (s : State) (c : Ctx) (k : CtrKeyed), s.slot? c = some (.ctr (some k)) →
    let room (n : Nat) : Prop :=
      n = 0 ∨ k.ivLen = 16 ∨ (k.pos + n - 1) / 16 < 2 ^ (8 * (16 - k.ivLen))
    let put (n : Nat) := s.slots.set c.toNat (.ctr (some { k with pos := (k.pos + n) % 2 ^ 132 }))
    (k.ivLen ≤ 16 → s.AllInside [s.inArray, s.outArray] → s.InFits 16 → s.OutFits 16 →
      (room 16 → ∃ t, exec (.ctrPblk c) s = .next t ∧
        EmitsOver s t 16 (put 16) (xorBytes (s.memRead s.inAddr 16) (keystream k k.pos 16))) ∧
      (¬ room 16 → ∃ t, exec (.ctrPblk c) s = .next t ∧ Precise s t .misuseDetected)) ∧
    (k.ivLen ≤ 16 → s.AllInside [s.outArray] → s.OutFits 1 →
      (room 1 → ∃ t, exec (.ctrPbyte c) s = .next t ∧
        Emits s t (put 1) [(s.argW 7).extractLsb' 0 8 ^^^ ctrKeystream k k.pos]) ∧
      (¬ room 1 → ∃ t, exec (.ctrPbyte c) s = .next t ∧ Precise s t .misuseDetected)) ∧
    (k.ivLen ≤ 16 → s.AllInside [s.inArray, s.outArray] → s.InFits s.len → s.OutFits s.len →
      (room s.len → ∃ t, exec (.ctrPbytes c) s = .next t ∧
        EmitsOver s t s.len (put s.len)
          (xorBytes (s.memRead s.inAddr s.len) (keystream k k.pos s.len))) ∧
      (¬ room s.len → ∃ t, exec (.ctrPbytes c) s = .next t ∧ Precise s t .misuseDetected))

/-- R373: the keystream does not depend on the direction, applying the mode twice gives the data back, and
the split of the data does not matter. -/
def Obligations.CtrIsSelfInverseAndSplits : Prop :=
  ∀ (k : CtrKeyed) (enc : Bool) (d e : List Byte),
    ctrXor { k with enc := enc } (ctrXor k d) = d ∧
    ctrXor k (d ++ e) = ctrXor k d ++ ctrXor (ctrAdvance k d.length) e ∧
    (ctrAdvance (ctrAdvance k d.length) e.length).pos = (ctrAdvance k (d ++ e).length).pos

/-! ## GCM -/

/-- R397, R399 to R402: what a successful GCM.INIT leaves, for each parameter kind it takes; GCM.AAD and GCM.AADS
absorb associated data, before or after data. -/
def Obligations.GcmInitAndAssociatedData : Prop :=
  (∀ (s : State) (c : Ctx) (pk : PKind) (rnd enc : Bool) (g : GcmSlot), s.slot? c = some (.gcm g) →
     s.AllInside (s.initRanges pk) → AesLen (s.arg 1) → s.arg 3 ≠ 0 → s.arg 3 ≤ s.params.gcmNonceMax →
     let key := s.memRead (s.arg 0) (s.arg 1)
     let nonce := s.memRead (s.arg 2) (s.arg 3)
     let k := keySchedule key .E
     let h := aesE k.rk 0
     let j0 := gcmJ0 h nonce
     let slotOf (macSize : Nat) (iaad : List Byte) : Slot :=
       let a := aadAbsorbBytes h ⟨0, 0, 0⟩ iaad
       .gcm ⟨some ⟨true, enc, k, macSize, h, j0, j0, 2 ^ 32 - 2, 0, a, 0, 0, 0, a⟩, 0, some key, some nonce⟩
     (enc = false ∨ g.lastNonce ≠ some nonce ∨ g.lastKey ≠ some key) →
     (pk = .keyIv → ∃ t, exec (.gcmInit c pk rnd enc) s = .next t ∧ Updates s t c (slotOf 16 [])) ∧
     (pk = .aead → s.arg 6 ∈ [32, 64, 96, 128] → ∃ t, exec (.gcmInit c pk rnd enc) s = .next t ∧
       Updates s t c (slotOf (s.arg 6 / 8) (s.memRead (s.arg 4) (s.arg 5))))) ∧
  (∀ (s : State) (c : Ctx) (g : GcmSlot) (k : GcmKeyed), s.slot? c = some (.gcm g) → g.key = some k →
     k.init = true →
     let put (a : AadState) : Slot := .gcm { g with key := some { k with aad := a } }
     (∃ t, exec (.gcmAad c) s = .next t ∧
       Updates s t c (put (aadAbsorb k.h k.aad ((s.argW 7).extractLsb' 0 8)))) ∧
     (s.AllInside [s.inArray] → s.InFits s.len → ∃ t, exec (.gcmAads c) s = .next t ∧
       Updates s t c (put ((s.memRead s.inAddr s.len).foldl (aadAbsorb k.h) k.aad))))

/-- R403, R404, R409: GCM.PBYTE and GCM.PBYTES write exactly the bytes their size formulas say, or raise
MisuseDetected where the block budget does not suffice, changing nothing. Where PBYTES's bytes land follows R92,
with log entry 4 (DEDUCED): input and output that start at one address are in place, and exact, though their lengths
differ. -/
def Obligations.GcmStreamsWriteTheUpdateSize : Prop :=
  ∀ (s : State) (c : Ctx) (g : GcmSlot) (k : GcmKeyed), s.slot? c = some (.gcm g) → g.key = some k →
    k.init = true → k.Ok →
    let put (k' : GcmKeyed) := s.slots.set c.toNat (.gcm { g with key := some k' })
    let b : Byte := (s.argW 7).extractLsb' 0 8
    let data := s.memRead s.inAddr s.len
    let m1 := if k.bufOff + 1 = k.cap then 16 else 0
    let total := if k.enc then s.len + k.bufOff else s.len + k.bufOff - k.macSize
    let m := total - total % 16
    (s.AllInside [s.outArray] → s.OutFits m1 →
      (¬(m1 = 16 ∧ k.blocksLeft = 0) → ∃ t, exec (.gcmPbyte c) s = .next t ∧
        Emits s t (put (gcmByte k b).2) (gcmByte k b).1 ∧ t.result.toNat = m1) ∧
      (m1 = 16 ∧ k.blocksLeft = 0 → ∃ t, exec (.gcmPbyte c) s = .next t ∧ Precise s t .misuseDetected)) ∧
    (s.AllInside [s.inArray, s.outArray] → s.InFits s.len → s.OutFits m →
      (m / 16 ≤ k.blocksLeft → ∃ t, exec (.gcmPbytes c) s = .next t ∧
        EmitsOver s t s.len (put (gcmBytes k data).2) (gcmBytes k data).1 ∧ t.result.toNat = m) ∧
      (k.blocksLeft < m / 16 → ∃ t, exec (.gcmPbytes c) s = .next t ∧ Precise s t .misuseDetected))

/-- R405, R506 class 3: GCM.FINAL writes the tail and the tag, or, decrypting, the tail once the tag
matches; a mismatch or an input shorter than the tag restarts the slot and writes nothing. -/
def Obligations.GcmFinalMakesOrChecksTheTag : Prop :=
  ∀ (s : State) (c : Ctx) (g : GcmSlot) (k : GcmKeyed), s.slot? c = some (.gcm g) → g.key = some k →
    k.init = true → s.AllInside [s.outArray] →
    let e := if k.enc then k.bufOff else k.bufOff - k.macSize
    let y := if e = 0 then ([], k) else gcmData k ((toBytes k.bufBlock).take e)
    let tag := (toBytes (gcmTag y.2)).take k.macSize
    let received := ((toBytes k.bufBlock).drop e).take k.macSize
    let put (mac : Block) : Slot := .gcm { g with key := some (gcmRestart k), macBlock := mac }
    (k.enc = true → s.OutFits (k.bufOff + k.macSize) → ¬(0 < e ∧ k.blocksLeft = 0) →
      ∃ t, exec (.gcmFinal c) s = .next t ∧
        Emits s t (s.slots.set c.toNat (put (blockOf tag))) (y.1 ++ tag)) ∧
    (k.enc = false → s.OutFits e → k.macSize ≤ k.bufOff → ¬(0 < e ∧ k.blocksLeft = 0) →
      (received = tag → ∃ t, exec (.gcmFinal c) s = .next t ∧
        Emits s t (s.slots.set c.toNat (put (blockOf tag))) y.1) ∧
      (received ≠ tag → ∃ t, exec (.gcmFinal c) s = .next t ∧
        Fails s t .authenticationFailed c (put 0))) ∧
    (k.enc = false → s.OutFits e → k.bufOff < k.macSize → ∃ t, exec (.gcmFinal c) s = .next t ∧
      Fails s t .authenticationFailed c (put 0)) ∧
    (s.OutFits (if k.enc then k.bufOff + k.macSize else e) → (k.enc = true ∨ k.macSize ≤ k.bufOff) →
      0 < e → k.blocksLeft = 0 → ∃ t, exec (.gcmFinal c) s = .next t ∧ Precise s t .misuseDetected)

/-- R399, R406 to R409: GCM.GMAC writes the last tag, GCM.RESET restarts the slot (an encrypting slot then
needs a new INIT) and clears the tag, and GCM.GOS and GCM.GUOS give the sizes. -/
def Obligations.GcmTagResetAndSizes : Prop :=
  (∀ (s : State) (c : Ctx) (g : GcmSlot) (k : GcmKeyed), s.slot? c = some (.gcm g) → g.key = some k →
    let total := s.arg 3 + k.bufOff
    let held := if k.enc then total else total - k.macSize
    (s.AllInside [s.outArray] → s.OutFits k.macSize → ∃ t, exec (.gcmGmac c) s = .next t ∧
      Emits s t s.slots ((toBytes g.macBlock).take k.macSize)) ∧
    (∃ t, exec (.gcmReset c) s = .next t ∧
      Updates s t c (.gcm ⟨some ⟨if k.enc then false else k.init, k.enc, k.aes, k.macSize, k.h, k.j0, k.j0,
        2 ^ 32 - 2, 0, k.snap, 0, 0, 0, k.snap⟩, 0, g.lastKey, g.lastNonce⟩)) ∧
    (∃ t, exec (.gcmGos c) s = .next t ∧
      Sizes s t (if k.enc then total + k.macSize else total - k.macSize)) ∧
    (∃ t, exec (.gcmGuos c) s = .next t ∧ Sizes s t (held - held % 16))) ∧
  (∀ (s : State) (c : Ctx) (g : GcmSlot), s.slot? c = some (.gcm g) → g.key = none →
    ∃ t, exec (.gcmReset c) s = .next t ∧ Updates s t c (.gcm g))

/-- R410, R92: GF.MUL writes the product of the two operands as they stood: exactly where z is one of them and
where it is disjoint, while each byte written in a partial overlap with an operand is a draw (R92 read over R410's
corner case: log entry 5, DEDUCED). -/
def Obligations.GfMulWritesTheProduct : Prop :=
  ∀ s : State, s.arg 0 + 16 ≤ s.memSize → s.arg 1 + 16 ≤ s.memSize → s.arg 4 + 16 ≤ s.memSize →
    ∃ t, exec .gfMul s = .next t ∧ Completes s t .ok 16 ∧ t.slots = s.slots ∧
      StoresOver s t [⟨s.arg 0, 16⟩, ⟨s.arg 1, 16⟩] (s.arg 4)
        (toBytes (gmul (blockOf (s.memRead (s.arg 0) 16)) (blockOf (s.memRead (s.arg 1) 16))))

/-- R390, R391: GMUL is commutative and associative, distributes over xor, and has the block 80 00 .. 00 as
its identity; x times x^127 is the reduced x^128. -/
def Obligations.GmulIsAFieldProduct : Prop :=
  (∀ x y : Block, gmul x y = gmul y x) ∧ (∀ x y z : Block, gmul (gmul x y) z = gmul x (gmul y z)) ∧
  (∀ x y z : Block, gmul (x ^^^ y) z = gmul x z ^^^ gmul y z) ∧
  (∀ x : Block, gmul (0x80#128 <<< 120) x = x) ∧ gmul 1 (0x40#128 <<< 120) = 0xE1#128 <<< 120

/-- R411: however its associated data and data are split and interleaved, a GCM slot encrypts to the
counter-mode ciphertext and makes the tag of the closed form; decrypting that ciphertext and tag, split and
interleaved in any way, gives the data and the same tag. -/
def Obligations.GcmIsTheClosedForm : Prop :=
  ∀ (k : AesKey) (t : Nat) (nonce a0 d : List Byte) (xs : List (List Byte × List Byte)),
    t ∈ [4, 8, 12, 16] →
    let h := aesE k.rk 0
    let j0 := gcmJ0 h nonce
    let cipher := gcmCipher k.rk j0 d
    let tag := gcmTagOf k.rk h j0 (a0 ++ xs.flatMap Prod.fst) cipher t
    let data := xs.flatMap Prod.snd
    (data = d →
      let r := gcmRun (gcmInit true k t nonce a0) xs
      r.1 ++ (gcmTail r.2).1 = cipher ∧ gcmTagBytes (gcmTail r.2).2 = tag) ∧
    (data = cipher ++ tag →
      let r := gcmRun (gcmInit false k t nonce a0) xs
      r.1 ++ (gcmTail r.2).1 = d ∧ gcmReceivedTag r.2 = tag ∧ gcmTagBytes (gcmTail r.2).2 = tag)

/-! ## CCM and CBC-MAC -/

/-- R447 to R451: what a successful CCM.INIT leaves, and CCM's four absorbing commands, which write nothing
and raise CapacityExceeded past the declared capacities. -/
def Obligations.CcmInitAndAbsorption : Prop :=
  (∀ (s : State) (c : Ctx) (pk : PKind) (rnd enc : Bool) (g : CcmSlot), s.slot? c = some (.ccm g) →
    s.AllInside (s.initRanges pk) → AesLen (s.arg 1) → 7 ≤ s.arg 3 → s.arg 3 ≤ 13 →
    let key := s.memRead (s.arg 0) (s.arg 1)
    let nonce := s.memRead (s.arg 2) (s.arg 3)
    let slotOf (macSize : Nat) (iaad : List Byte) : Slot :=
      .ccm ⟨some ⟨true, enc, keySchedule key .E, nonce, macSize, iaad, [], []⟩, 0, some key, some nonce⟩
    (enc = false ∨ g.lastNonce ≠ some nonce ∨ g.lastKey ≠ some key) →
    (pk = .keyIv → ∃ t, exec (.ccmInit c pk rnd enc) s = .next t ∧ Updates s t c (slotOf 8 [])) ∧
    (pk = .aead → s.arg 6 ∈ [32, 48, 64, 80, 96, 112, 128] → s.arg 5 ≤ s.params.ccmMaxAad →
      ∃ t, exec (.ccmInit c pk rnd enc) s = .next t ∧
        Updates s t c (slotOf (s.arg 6 / 8) (s.memRead (s.arg 4) (s.arg 5))))) ∧
  (∀ (s : State) (c : Ctx) (g : CcmSlot) (k : CcmKeyed), s.slot? c = some (.ccm g) → g.key = some k →
    k.init = true →
    let b : Byte := (s.argW 7).extractLsb' 0 8
    let data := s.memRead s.inAddr s.len
    let put (k' : CcmKeyed) : Slot := .ccm { g with key := some k' }
    let aadMax := s.params.ccmMaxAad
    (k.iaad.length + k.aad.length + 1 ≤ aadMax → ∃ t, exec (.ccmAad c) s = .next t ∧
      Updates s t c (put { k with aad := k.aad ++ [b] })) ∧
    (aadMax < k.iaad.length + k.aad.length + 1 → ∃ t, exec (.ccmAad c) s = .next t ∧
      Precise s t .capacityExceeded) ∧
    (k.msg.length + 1 ≤ s.params.ccmMaxMsg → ∃ t, exec (.ccmPbyte c) s = .next t ∧
      Updates s t c (put { k with msg := k.msg ++ [b] })) ∧
    (s.params.ccmMaxMsg < k.msg.length + 1 → ∃ t, exec (.ccmPbyte c) s = .next t ∧
      Precise s t .capacityExceeded) ∧
    (s.AllInside [s.inArray] → s.InFits s.len →
      (k.iaad.length + k.aad.length + s.len ≤ aadMax → ∃ t, exec (.ccmAads c) s = .next t ∧
        Updates s t c (put { k with aad := k.aad ++ data })) ∧
      (aadMax < k.iaad.length + k.aad.length + s.len → ∃ t, exec (.ccmAads c) s = .next t ∧
        Precise s t .capacityExceeded) ∧
      (k.msg.length + s.len ≤ s.params.ccmMaxMsg → ∃ t, exec (.ccmPbytes c) s = .next t ∧
        Updates s t c (put { k with msg := k.msg ++ data })) ∧
      (s.params.ccmMaxMsg < k.msg.length + s.len → ∃ t, exec (.ccmPbytes c) s = .next t ∧
        Precise s t .capacityExceeded)))

/-- R445, R446, R452, R453: CCM.FINAL on the buffered message and CCM.PPKT on one in memory: the packet's
output, the tag kept, the slot restarted; a bad tag writes nothing; a length the counter cannot hold is
misuse. Where PPKT's bytes land follows R92, with log entry 4 (DEDUCED): a packet and an output that start at one
address are in place, and exact, though their lengths differ by the tag. -/
def Obligations.CcmFinalAndPacketProcess : Prop :=
  ∀ (s : State) (c : Ctx) (g : CcmSlot) (k : CcmKeyed), s.slot? c = some (.ccm g) → g.key = some k →
    k.init = true →
    let l := 15 - k.nonce.length
    let size (n : Nat) := if k.enc then n + k.macSize else n - k.macSize
    let tooLong (n : Nat) : Prop := l < 4 ∧ 2 ^ (8 * l) ≤ n
    let put (mac : Block) : Slot := .ccm { g with
      key := some { k with aad := [], msg := [], init := if k.enc then false else k.init }
      macBlock := mac }
    let data := s.memRead s.inAddr s.len
    (s.AllInside [s.outArray] → s.OutFits (size k.msg.length) →
      (tooLong k.msg.length → ∃ t, exec (.ccmFinal c) s = .next t ∧ Precise s t .misuseDetected) ∧
      (¬ tooLong k.msg.length →
        (∀ r, ccmPacket k k.msg = some r → ∃ t, exec (.ccmFinal c) s = .next t ∧
          Emits s t (s.slots.set c.toNat (put (blockOf r.2))) r.1) ∧
        (ccmPacket k k.msg = none → ∃ t, exec (.ccmFinal c) s = .next t ∧
          Fails s t .authenticationFailed c (put 0)))) ∧
    (s.AllInside [s.inArray, s.outArray] → s.InFits s.len → s.OutFits (size s.len) →
      (s.params.ccmMaxMsg < s.len → ∃ t, exec (.ccmPpkt c) s = .next t ∧
        Precise s t .capacityExceeded) ∧
      (s.len ≤ s.params.ccmMaxMsg → tooLong s.len → ∃ t, exec (.ccmPpkt c) s = .next t ∧
        Precise s t .misuseDetected) ∧
      (s.len ≤ s.params.ccmMaxMsg → ¬ tooLong s.len →
        (∀ r, ccmPacket k data = some r → ∃ t, exec (.ccmPpkt c) s = .next t ∧
          EmitsOver s t s.len (s.slots.set c.toNat (put (blockOf r.2))) r.1) ∧
        (ccmPacket k data = none → ∃ t, exec (.ccmPpkt c) s = .next t ∧
          Fails s t .authenticationFailed c (put 0))))

/-- R446, R454 to R457: CCM.GMAC, CCM.RESET, CCM.GOS and CCM.GUOS. -/
def Obligations.CcmTagResetAndSizes : Prop :=
  (∀ (s : State) (c : Ctx) (g : CcmSlot) (k : CcmKeyed), s.slot? c = some (.ccm g) → g.key = some k →
    let total := s.arg 3 + k.msg.length
    (s.AllInside [s.outArray] → s.OutFits k.macSize → ∃ t, exec (.ccmGmac c) s = .next t ∧
      Emits s t s.slots ((toBytes g.macBlock).take k.macSize)) ∧
    (∃ t, exec (.ccmReset c) s = .next t ∧
      Updates s t c (.ccm ⟨some ⟨if k.enc then false else k.init, k.enc, k.aes, k.nonce, k.macSize, k.iaad,
        [], []⟩, 0, g.lastKey, g.lastNonce⟩)) ∧
    (∃ t, exec (.ccmGos c) s = .next t ∧
      Sizes s t (if k.enc then total + k.macSize else total - k.macSize)) ∧
    (∃ t, exec (.ccmGuos c) s = .next t ∧ Answers s t 0)) ∧
  (∀ (s : State) (c : Ctx) (g : CcmSlot), s.slot? c = some (.ccm g) → g.key = none →
    ∃ t, exec (.ccmReset c) s = .next t ∧ Updates s t c (.ccm g))

/-- R445, R458: an encrypted packet is the ciphertext and the masked CBC-MAC, and a decrypting slot with the
same parameters recovers the message from it and the same tag; any other tag of its length is refused. -/
def Obligations.CcmDecryptionInvertsEncryption : Prop :=
  ∀ (k : CcmKeyed) (p : List Byte), k.macSize ≤ 16 →
    let mask := (toBytes (aesE k.aes.rk (ccmCtrBlock k 0))).take k.macSize
    let tag := xorBytes (ccmMac k p) mask
    ccmPacket { k with enc := true } p = some (ccmXor k p ++ tag, tag) ∧
    ccmPacket { k with enc := false } (ccmXor k p ++ tag) = some (p, tag) ∧
    ∀ u, u.length = k.macSize → u ≠ tag → ccmPacket { k with enc := false } (ccmXor k p ++ u) = none

/-- R471 to R477: CMAC.INIT, CMAC.UPD, CMAC.UPDS, CMAC.FINAL and CMAC.RESET. -/
def Obligations.CmacCommandsKeyStreamAndFinish : Prop :=
  (∀ (s : State) (c : Ctx) (rnd : Bool) (ms : BitVec 5) (pad : PadMode) (old : Option CmacKeyed),
    s.slot? c = some (.cmac ms pad old) → s.AllInside (s.initRanges .key) → AesLen (s.arg 1) →
    ∃ t, exec (.cmacInit c .key rnd) s = .next t ∧
      Updates s t c (.cmac ms pad (some ⟨keySchedule (s.memRead (s.arg 0) (s.arg 1)) .E, 0, 0, 0⟩))) ∧
  (∀ (s : State) (c : Ctx) (ms : BitVec 5) (pad : PadMode) (k : CmacKeyed),
    s.slot? c = some (.cmac ms pad (some k)) →
    let size := if ms = 0 then 8 else ms.toNat
    (∃ t, exec (.cmacUpd c) s = .next t ∧
      Updates s t c (.cmac ms pad (some (cmacAbsorb k ((s.argW 7).extractLsb' 0 8))))) ∧
    (s.AllInside [s.inArray] → s.InFits s.len → ∃ t, exec (.cmacUpds c) s = .next t ∧
      Updates s t c (.cmac ms pad (some ((s.memRead s.inAddr s.len).foldl cmacAbsorb k)))) ∧
    (∃ t, exec (.cmacReset c) s = .next t ∧ Updates s t c (.cmac ms pad (some ⟨k.aes, 0, 0, 0⟩))) ∧
    (s.AllInside [s.outArray] → s.OutFits size → ∃ t, exec (.cmacFinal c) s = .next t ∧
      Emits s t (s.slots.set c.toNat (.cmac ms pad (some ⟨k.aes, 0, 0, 0⟩)))
        ((toBytes (cmacFinish pad k)).take size))) ∧
  (∀ (s : State) (c : Ctx) (ms : BitVec 5) (pad : PadMode), s.slot? c = some (.cmac ms pad none) →
    ∃ t, exec (.cmacReset c) s = .next t ∧ Updates s t c (.cmac ms pad none))

/-- R478: absorbing a message and finishing is the CBC-MAC of the padded message, however it was split. -/
def Obligations.CmacIsTheCbcMac : Prop :=
  ∀ (k : AesKey) (pad : PadMode) (m m' : List Byte),
    cmacFinish pad (cmacAbsorbBytes ⟨k, 0, 0, 0⟩ m) = cbcMac k.rk (blocksOf (cmacPadded pad m)) ∧
    cmacAbsorbBytes (cmacAbsorbBytes ⟨k, 0, 0, 0⟩ m) m' = cmacAbsorbBytes ⟨k, 0, 0, 0⟩ (m ++ m')

/-- R203, R283, R303, R342, R365, R400, R447, R473: the errors of the eight INIT commands past RegionCheck,
in each rule's order. -/
def Obligations.InitRejectsBadParameters : Prop :=
  ∀ (s : State) (c : Ctx) (pk : PKind) (rnd enc : Bool), s.AllInside (s.initRanges pk) →
    let badKey := ¬ AesLen (s.arg 1)
    let key := s.memRead (s.arg 0) (s.arg 1)
    let nonce := s.memRead (s.arg 2) (s.arg 3)
    (∀ old, s.slot? c = some (.aes old) → pk ≠ .key ∨ badKey →
      Raises (exec (.aesInit c pk rnd enc) s) .invalidParameter) ∧
    (∀ dk old, s.slot? c = some (.hmac dk old) → pk ≠ .key →
      Raises (exec (.hmInit c pk rnd) s) .invalidParameter) ∧
    (∀ ms pad old, s.slot? c = some (.cmac ms pad old) → pk ≠ .key ∨ badKey →
      Raises (exec (.cmacInit c pk rnd) s) .invalidParameter) ∧
    (∀ inner padded old, s.slot? c = some (.buf inner padded old) →
      pk = .aead ∨ (inner = .ecb ∧ pk = .keyIv) ∨ (inner = .cbc ∧ pk = .keyIv ∧ s.arg 3 ≠ 16) ∨ badKey →
      Raises (exec (.bufInit c pk rnd enc) s) .invalidParameter) ∧
    (∀ old, s.slot? c = some (.cbc old) → pk = .aead ∨ (pk = .keyIv ∧ s.arg 3 ≠ 16) ∨ badKey →
      Raises (exec (.cbcInit c pk rnd enc) s) .invalidParameter) ∧
    (∀ old, s.slot? c = some (.ctr old) → pk ≠ .keyIv ∨ s.arg 3 < 8 ∨ 16 < s.arg 3 ∨ badKey →
      Raises (exec (.ctrInit c pk rnd enc) s) .invalidParameter) ∧
    (∀ g, s.slot? c = some (.gcm g) →
      let bad := pk = .key ∨ (pk = .aead ∧ s.arg 6 ∉ [32, 64, 96, 128]) ∨ s.arg 3 = 0
      let long := s.params.gcmNonceMax < s.arg 3
      (bad → Raises (exec (.gcmInit c pk rnd enc) s) .invalidParameter) ∧
      (¬ bad → long → Raises (exec (.gcmInit c pk rnd enc) s) .capacityExceeded) ∧
      (¬ bad → ¬ long → badKey → Raises (exec (.gcmInit c pk rnd enc) s) .invalidParameter) ∧
      (¬ bad → ¬ long → ¬ badKey → enc = true → g.lastNonce = some nonce → g.lastKey = some key →
        Raises (exec (.gcmInit c pk rnd enc) s) .misuseDetected)) ∧
    (∀ g, s.slot? c = some (.ccm g) →
      let bad := pk = .key ∨ (pk = .aead ∧ s.arg 6 ∉ [32, 48, 64, 80, 96, 112, 128]) ∨ s.arg 3 < 7 ∨
        13 < s.arg 3 ∨ badKey
      let long := pk = .aead ∧ s.params.ccmMaxAad < s.arg 5
      (bad → Raises (exec (.ccmInit c pk rnd enc) s) .invalidParameter) ∧
      (¬ bad → long → Raises (exec (.ccmInit c pk rnd enc) s) .capacityExceeded) ∧
      (¬ bad → ¬ long → enc = true → g.lastNonce = some nonce → g.lastKey = some key →
        Raises (exec (.ccmInit c pk rnd enc) s) .misuseDetected))
end

