-- ==== Sys2Proof/Laws/Aes.lean ====
section
/-! SUPPORT. The S-box tables agree with the definition of 42_aes.md R195, which a model has to show. -/

namespace Sys2Proof.Machine

theorem gfInv_zero : gfInv 0 = 0 := by decide

/-- R195 at every byte, in one evaluation. -/
theorem gfInv_sbox : ∀ x : Byte, (x ≠ 0 → gfMul x (gfInv x) = 1) ∧ sbox x = sboxDef x := by decide +kernel

/-- R195: `gfInv` is the multiplicative inverse. -/
theorem gfMul_gfInv (x : Byte) (h : x ≠ 0) : gfMul x (gfInv x) = 1 := (gfInv_sbox x).1 h

/-- R195: the table of R191 and the definition agree. -/
theorem sbox_eq_sboxDef (x : Byte) : sbox x = sboxDef x := (gfInv_sbox x).2

/-- R195, as the rule has it: the affine map of the inverse, and of 0 at 0. -/
theorem sbox_eq_affine : sbox 0 = affine 0 ∧ ∀ x : Byte, x ≠ 0 → ∃ y, gfMul x y = 1 ∧ sbox x = affine y :=
  ⟨sbox_eq_sboxDef 0, fun x h => ⟨gfInv x, gfMul_gfInv x h, sbox_eq_sboxDef x⟩⟩

/-- R192. -/
theorem invSbox_sbox : ∀ x : Byte, invSbox (sbox x) = x := by decide +kernel

theorem sbox_invSbox : ∀ x : Byte, sbox (invSbox x) = x := by decide +kernel

/-- R193: RCON[1] to RCON[10]. -/
theorem rcon_values : (List.range 10).map (fun i => rcon (i + 1)) =
    [0x01, 0x02, 0x04, 0x08, 0x10, 0x20, 0x40, 0x80, 0x1B, 0x36] := by decide

end Sys2Proof.Machine
end

