-- ==== Sys2Proof/Laws/Decode.lean ====
section
/-! SUPPORT. The command word as its four fields (30_encoding.md R110, R122): decoding a packed word reads the
fields it was packed from, and every word is the packing of its fields. -/

namespace Sys2Proof

theorem packWord_getLsbD (o c a b : BitVec 8) (i : Nat) : (packWord o c a b).getLsbD i = if i < 8 then b.getLsbD i else if i < 16 then a.getLsbD (i-8) else if i < 24 then c.getLsbD (i-16) else o.getLsbD (i-24) := by
  unfold packWord
  rw [BitVec.getLsbD_append, BitVec.getLsbD_append, BitVec.getLsbD_append]
  by_cases h1 : i < 8
  · simp [h1]
  · by_cases h2 : i < 16
    · have : i - 8 < 8 := by omega
      simp [h1, h2, this]
    · by_cases h3 : i < 24
      · have h4 : i - 8 - 8 < 8 := by omega
        have : ¬ i - 8 < 8 := by omega
        simp [h1, h2, h3, this, show i - 8 - 8 = i - 16 by omega]; omega
      · have h4 : ¬ i - 8 - 8 < 8 := by omega
        have : ¬ i - 8 < 8 := by omega
        simp [h1, h2, h3, this, h4, show i - 8 - 8 - 8 = i - 24 by omega]

theorem packWord_fields (o c a b : BitVec 8) : (packWord o c a b).extractLsb' 24 8 = o ∧ (packWord o c a b).extractLsb' 16 8 = c ∧ (packWord o c a b).extractLsb' 8 8 = a ∧ (packWord o c a b).extractLsb' 0 8 = b := by
  refine ⟨?_, ?_, ?_, ?_⟩ <;> (apply BitVec.eq_of_getLsbD_eq; intro i hi; rw [BitVec.getLsbD_extractLsb', packWord_getLsbD])
  · simp [hi, show ¬ 24 + i < 8 by omega, show ¬ 24 + i < 16 by omega]
  · simp [hi, show ¬ 16 + i < 8 by omega, show 16 + i < 24 by omega]
  · simp [hi, show 8 + i < 16 by omega]
  · simp [hi]

theorem decodeWord_packWord (o c a b : BitVec 8) : decodeWord (packWord o c a b) = decodeFields o c a b := by
  obtain ⟨h1, h2, h3, h4⟩ := packWord_fields o c a b
  simp only [decodeWord, h1, h2, h3, h4]

theorem packWord_of_fields (w : Word32) : packWord (w.extractLsb' 24 8) (w.extractLsb' 16 8) (w.extractLsb' 8 8) (w.extractLsb' 0 8) = w := by
  apply BitVec.eq_of_getLsbD_eq; intro i hi
  rw [packWord_getLsbD]
  simp only [BitVec.getLsbD_extractLsb']
  split_ifs with h1 h2 h3
  · simp [h1]
  · simp [show i - 8 < 8 by omega, show 8 + (i - 8) = i by omega]
  · simp [show i - 16 < 8 by omega, show 16 + (i - 16) = i by omega]
  · simp [show i - 24 < 8 by omega, show 24 + (i - 24) = i by omega]

end Sys2Proof
end

