-- ==== Sys2Proof/Laws/Memory.lean ====
section
/-! SUPPORT. The laws of DMEM: read after write, the canonical form, and equality of memories. -/

namespace Sys2Proof.Machine

/-! ## One byte -/

theorem Memory.lookup_write (m : Memory) (a b : Nat) (x : Byte) :
    (m.write a x).lookup b = if b = a then some x else m.lookup b := by
  induction m with
  | nil => simp [Memory.write, Memory.lookup, eq_comm]
  | cons c m ih =>
    unfold Memory.write
    split
    · simp [Memory.lookup, eq_comm]
    · split
      · rename_i h
        subst h
        simp only [Memory.lookup]
        grind
      · simp only [Memory.lookup, ih]
        grind

@[simp] theorem Memory.read_write_self (m : Memory) (a : Nat) (x : Byte) :
    (m.write a x).read a = x := by
  simp [Memory.read, Memory.lookup_write]

theorem Memory.read_write (m : Memory) (a b : Nat) (x : Byte) :
    (m.write a x).read b = if b = a then x else m.read b := by
  simp only [Memory.read, Memory.lookup_write]
  split <;> simp

theorem Memory.read_write_of_ne {a b : Nat} (m : Memory) (x : Byte) (h : b ≠ a) :
    (m.write a x).read b = m.read b := by
  simp [Memory.read_write, h]

theorem Memory.mem_write {m : Memory} {a : Nat} {x : Byte} {c : Host.Cell} (h : c ∈ m.write a x) :
    c = (a, x) ∨ c ∈ m := by
  induction m with
  | nil => simpa [Memory.write] using h
  | cons d m ih =>
    unfold Memory.write at h
    split at h
    · simp_all
    · split at h
      · simp_all
        tauto
      · simp only [List.mem_cons] at h ⊢
        rcases h with h | h
        · exact .inr (.inl h)
        · exact (ih h).imp id .inr

/-- Writing keeps the canonical form. -/
theorem Memory.wf_write {m : Memory} (h : m.wf) (a : Nat) (x : Byte) : (m.write a x).wf := by
  induction m with
  | nil => simp [Memory.write]
  | cons c m ih =>
    have h' := List.pairwise_cons.mp h
    unfold Memory.write
    split
    · rename_i hlt
      refine List.pairwise_cons.mpr ⟨?_, h⟩
      intro d hd
      rcases List.mem_cons.mp hd with rfl | hd
      · exact hlt
      · exact lt_trans hlt (h'.1 d hd)
    · split
      · rename_i heq
        exact List.pairwise_cons.mpr ⟨fun d hd => heq ▸ h'.1 d hd, h'.2⟩
      · rename_i h1 h2
        refine List.pairwise_cons.mpr ⟨?_, ih h'.2⟩
        intro d hd
        rcases Memory.mem_write hd with rfl | hd
        · show c.1 < a
          omega
        · exact h'.1 d hd

theorem Memory.below_write {m : Memory} {n a : Nat} (h : m.below n) (ha : a < n) (x : Byte) :
    (m.write a x).below n := by
  intro c hc
  rcases Memory.mem_write hc with rfl | hc
  · exact ha
  · exact h c hc

/-! ## Equality of memories -/

theorem Memory.lookup_eq_none_of_lt {m : Memory} {a : Nat} (h : ∀ c ∈ m, a < c.1) :
    m.lookup a = none := by
  induction m with
  | nil => rfl
  | cons c m ih =>
    have := h c (by simp)
    simp only [Memory.lookup]
    rw [if_neg (by omega)]
    exact ih fun d hd => h d (by simp [hd])

/-- Canonical memories that read alike are the same list. -/
theorem Memory.ext_lookup {m n : Memory} (hm : m.wf) (hn : n.wf)
    (h : ∀ a, m.lookup a = n.lookup a) : m = n := by
  induction m generalizing n with
  | nil =>
    cases n with
    | nil => rfl
    | cons d n => simpa [Memory.lookup] using h d.1
  | cons c m ih =>
    cases n with
    | nil => simpa [Memory.lookup] using h c.1
    | cons d n =>
      have hm' := List.pairwise_cons.mp hm
      have hn' := List.pairwise_cons.mp hn
      have hc := h c.1
      have hd := h d.1
      simp only [Memory.lookup, if_true] at hc hd
      have e1 : c.1 = d.1 := by
        by_contra hne
        rw [if_neg (Ne.symm hne)] at hc
        rw [if_neg hne] at hd
        rcases Nat.lt_or_gt_of_ne hne with hlt | hlt
        · rw [Memory.lookup_eq_none_of_lt fun e he => lt_trans hlt (hn'.1 e he)] at hc
          cases hc
        · rw [Memory.lookup_eq_none_of_lt fun e he => lt_trans hlt (hm'.1 e he)] at hd
          cases hd
      have e2 : c.2 = d.2 := by
        rw [if_pos e1.symm] at hc
        exact Option.some.inj hc
      have e3 : m = n := by
        refine ih hm'.2 hn'.2 fun a => ?_
        have ha := h a
        simp only [Memory.lookup] at ha
        by_cases hac : c.1 = a
        · rw [Memory.lookup_eq_none_of_lt fun e he => hac ▸ hm'.1 e he,
            Memory.lookup_eq_none_of_lt fun e he => hac ▸ e1 ▸ hn'.1 e he]
        · rwa [if_neg hac, if_neg (e1 ▸ hac)] at ha
      rw [e3, Prod.ext e1 e2]

/-! ## Byte strings -/

@[simp] theorem Memory.length_readBytes (m : Memory) (a n : Nat) : (m.readBytes a n).length = n := by
  simp [Memory.readBytes]

theorem Memory.getElem_readBytes (m : Memory) (a n i : Nat) (h : i < (m.readBytes a n).length) :
    (m.readBytes a n)[i] = m.read (a + i) := by
  simp [Memory.readBytes]

theorem Memory.read_writeBytes (m : Memory) (a : Nat) (bs : List Byte) (b : Nat) :
    (m.writeBytes a bs).read b =
      if a ≤ b ∧ b < a + bs.length then bs.getD (b - a) 0 else m.read b := by
  induction bs generalizing m a with
  | nil => simp [Memory.writeBytes]
  | cons x bs ih =>
    rw [Memory.writeBytes, ih, Memory.read_write, List.length_cons]
    by_cases h1 : b = a
    · subst h1
      simp
    · by_cases h2 : a + 1 ≤ b ∧ b < a + 1 + bs.length
      · have : b - a = b - (a + 1) + 1 := by omega
        rw [if_pos h2, if_pos (by omega), this, List.getD_cons_succ]
      · rw [if_neg h2, if_neg h1, if_neg (by omega)]

theorem Memory.read_writeBytes_outside {m : Memory} {a b : Nat} {bs : List Byte}
    (h : ¬ (Range.mk a bs.length).Contains b) : (m.writeBytes a bs).read b = m.read b := by
  rw [Memory.read_writeBytes, if_neg h]

theorem Memory.read_writeBytes_inside (m : Memory) (a : Nat) {bs : List Byte} {i : Nat}
    (h : i < bs.length) : (m.writeBytes a bs).read (a + i) = bs.getD i 0 := by
  rw [Memory.read_writeBytes, if_pos (by omega), Nat.add_sub_cancel_left]

/-- Reading back what was written. -/
@[simp] theorem Memory.readBytes_writeBytes (m : Memory) (a : Nat) (bs : List Byte) :
    (m.writeBytes a bs).readBytes a bs.length = bs := by
  refine List.ext_getElem (by simp) fun i h1 h2 => ?_
  rw [Memory.getElem_readBytes, Memory.read_writeBytes_inside m a h2, List.getD_eq_getElem _ _ h2]

theorem Memory.readBytes_congr {m m' : Memory} {a n : Nat}
    (h : ∀ b, a ≤ b → b < a + n → m.read b = m'.read b) : m.readBytes a n = m'.readBytes a n := by
  refine List.map_congr_left fun i hi => ?_
  have := List.mem_range.mp hi
  exact h _ (by omega) (by omega)

/-- Every memory operation keeps the canonical form. -/
theorem Memory.wf_writeBytes {m : Memory} (h : m.wf) (a : Nat) (bs : List Byte) :
    (m.writeBytes a bs).wf := by
  induction bs generalizing m a with
  | nil => exact h
  | cons x bs ih => exact ih (Memory.wf_write h a x) (a + 1)

theorem Memory.below_writeBytes {m : Memory} {n a : Nat} (h : m.below n) {bs : List Byte}
    (ha : bs = [] ∨ a + bs.length ≤ n) : (m.writeBytes a bs).below n := by
  induction bs generalizing m a with
  | nil => exact h
  | cons x bs ih =>
    simp only [List.length_cons, reduceCtorEq, false_or] at ha
    exact ih (Memory.below_write h (by omega) x) (.inr (by omega))

end Sys2Proof.Machine
end

