-- ==== Sys2Proof/Laws/State.lean ====
section
/-! SUPPORT. One lemma per field per update of State, and what the operand forms read after an update. -/

namespace Sys2Proof.Machine

/-! ## memWrite -/

@[simp] theorem State.memWrite_params (s : State) (a : Nat) (bs : List Byte) : (s.memWrite a bs).params = s.params := rfl
@[simp] theorem State.memWrite_cmd (s : State) (a : Nat) (bs : List Byte) : (s.memWrite a bs).cmd = s.cmd := rfl
@[simp] theorem State.memWrite_ovr (s : State) (a : Nat) (bs : List Byte) : (s.memWrite a bs).ovr = s.ovr := rfl
@[simp] theorem State.memWrite_err (s : State) (a : Nat) (bs : List Byte) : (s.memWrite a bs).err = s.err := rfl
@[simp] theorem State.memWrite_result (s : State) (a : Nat) (bs : List Byte) : (s.memWrite a bs).result = s.result := rfl
@[simp] theorem State.memWrite_args (s : State) (a : Nat) (bs : List Byte) : (s.memWrite a bs).args = s.args := rfl
@[simp] theorem State.memWrite_pend (s : State) (a : Nat) (bs : List Byte) : (s.memWrite a bs).pend = s.pend := rfl
@[simp] theorem State.memWrite_slots (s : State) (a : Nat) (bs : List Byte) : (s.memWrite a bs).slots = s.slots := rfl
@[simp] theorem State.memWrite_mem (s : State) (a : Nat) (bs : List Byte) : (s.memWrite a bs).mem = s.mem.writeBytes a bs := rfl
@[simp] theorem State.memWrite_inputs (s : State) (a : Nat) (bs : List Byte) : (s.memWrite a bs).inputs = s.inputs := rfl
@[simp] theorem State.memWrite_raced (s : State) (a : Nat) (bs : List Byte) : (s.memWrite a bs).raced = s.raced := rfl
@[simp] theorem State.memWrite_unseen (s : State) (a : Nat) (bs : List Byte) : (s.memWrite a bs).unseen = s.unseen := rfl
@[simp] theorem State.memWrite_lateRaced (s : State) (a : Nat) (bs : List Byte) : (s.memWrite a bs).lateRaced = s.lateRaced := rfl
@[simp] theorem State.memWrite_draws (s : State) (a : Nat) (bs : List Byte) : (s.memWrite a bs).draws = s.draws := rfl
@[simp] theorem State.memWrite_busData (s : State) (a : Nat) (bs : List Byte) : (s.memWrite a bs).busData = s.busData := rfl

/-! ## storeDrawing -/

@[simp] theorem State.storeDrawing_params (s : State) (rs : List Range) (a : Nat) (bs : List Byte) : (s.storeDrawing rs a bs).params = s.params := rfl
@[simp] theorem State.storeDrawing_cmd (s : State) (rs : List Range) (a : Nat) (bs : List Byte) : (s.storeDrawing rs a bs).cmd = s.cmd := rfl
@[simp] theorem State.storeDrawing_ovr (s : State) (rs : List Range) (a : Nat) (bs : List Byte) : (s.storeDrawing rs a bs).ovr = s.ovr := rfl
@[simp] theorem State.storeDrawing_err (s : State) (rs : List Range) (a : Nat) (bs : List Byte) : (s.storeDrawing rs a bs).err = s.err := rfl
@[simp] theorem State.storeDrawing_result (s : State) (rs : List Range) (a : Nat) (bs : List Byte) : (s.storeDrawing rs a bs).result = s.result := rfl
@[simp] theorem State.storeDrawing_args (s : State) (rs : List Range) (a : Nat) (bs : List Byte) : (s.storeDrawing rs a bs).args = s.args := rfl
@[simp] theorem State.storeDrawing_pend (s : State) (rs : List Range) (a : Nat) (bs : List Byte) : (s.storeDrawing rs a bs).pend = s.pend := rfl
@[simp] theorem State.storeDrawing_slots (s : State) (rs : List Range) (a : Nat) (bs : List Byte) : (s.storeDrawing rs a bs).slots = s.slots := rfl
@[simp] theorem State.storeDrawing_inputs (s : State) (rs : List Range) (a : Nat) (bs : List Byte) : (s.storeDrawing rs a bs).inputs = s.inputs := rfl
@[simp] theorem State.storeDrawing_raced (s : State) (rs : List Range) (a : Nat) (bs : List Byte) : (s.storeDrawing rs a bs).raced = s.raced := rfl
@[simp] theorem State.storeDrawing_unseen (s : State) (rs : List Range) (a : Nat) (bs : List Byte) : (s.storeDrawing rs a bs).unseen = s.unseen := rfl
@[simp] theorem State.storeDrawing_lateRaced (s : State) (rs : List Range) (a : Nat) (bs : List Byte) : (s.storeDrawing rs a bs).lateRaced = s.lateRaced := rfl
@[simp] theorem State.storeDrawing_busData (s : State) (rs : List Range) (a : Nat) (bs : List Byte) : (s.storeDrawing rs a bs).busData = s.busData := rfl

/-! ## storeOver -/

@[simp] theorem State.storeOver_params (s : State) (ins : List Range) (a : Nat) (bs : List Byte) : (s.storeOver ins a bs).params = s.params := rfl
@[simp] theorem State.storeOver_cmd (s : State) (ins : List Range) (a : Nat) (bs : List Byte) : (s.storeOver ins a bs).cmd = s.cmd := rfl
@[simp] theorem State.storeOver_ovr (s : State) (ins : List Range) (a : Nat) (bs : List Byte) : (s.storeOver ins a bs).ovr = s.ovr := rfl
@[simp] theorem State.storeOver_err (s : State) (ins : List Range) (a : Nat) (bs : List Byte) : (s.storeOver ins a bs).err = s.err := rfl
@[simp] theorem State.storeOver_result (s : State) (ins : List Range) (a : Nat) (bs : List Byte) : (s.storeOver ins a bs).result = s.result := rfl
@[simp] theorem State.storeOver_args (s : State) (ins : List Range) (a : Nat) (bs : List Byte) : (s.storeOver ins a bs).args = s.args := rfl
@[simp] theorem State.storeOver_pend (s : State) (ins : List Range) (a : Nat) (bs : List Byte) : (s.storeOver ins a bs).pend = s.pend := rfl
@[simp] theorem State.storeOver_slots (s : State) (ins : List Range) (a : Nat) (bs : List Byte) : (s.storeOver ins a bs).slots = s.slots := rfl
@[simp] theorem State.storeOver_inputs (s : State) (ins : List Range) (a : Nat) (bs : List Byte) : (s.storeOver ins a bs).inputs = s.inputs := rfl
@[simp] theorem State.storeOver_raced (s : State) (ins : List Range) (a : Nat) (bs : List Byte) : (s.storeOver ins a bs).raced = s.raced := rfl
@[simp] theorem State.storeOver_unseen (s : State) (ins : List Range) (a : Nat) (bs : List Byte) : (s.storeOver ins a bs).unseen = s.unseen := rfl
@[simp] theorem State.storeOver_lateRaced (s : State) (ins : List Range) (a : Nat) (bs : List Byte) : (s.storeOver ins a bs).lateRaced = s.lateRaced := rfl
@[simp] theorem State.storeOver_busData (s : State) (ins : List Range) (a : Nat) (bs : List Byte) : (s.storeOver ins a bs).busData = s.busData := rfl

/-! ## setSlot -/

@[simp] theorem State.setSlot_params (s : State) (c : Ctx) (sl : Slot) : (s.setSlot c sl).params = s.params := rfl
@[simp] theorem State.setSlot_cmd (s : State) (c : Ctx) (sl : Slot) : (s.setSlot c sl).cmd = s.cmd := rfl
@[simp] theorem State.setSlot_ovr (s : State) (c : Ctx) (sl : Slot) : (s.setSlot c sl).ovr = s.ovr := rfl
@[simp] theorem State.setSlot_err (s : State) (c : Ctx) (sl : Slot) : (s.setSlot c sl).err = s.err := rfl
@[simp] theorem State.setSlot_result (s : State) (c : Ctx) (sl : Slot) : (s.setSlot c sl).result = s.result := rfl
@[simp] theorem State.setSlot_args (s : State) (c : Ctx) (sl : Slot) : (s.setSlot c sl).args = s.args := rfl
@[simp] theorem State.setSlot_pend (s : State) (c : Ctx) (sl : Slot) : (s.setSlot c sl).pend = s.pend := rfl
@[simp] theorem State.setSlot_slots (s : State) (c : Ctx) (sl : Slot) : (s.setSlot c sl).slots = s.slots.set c.toNat sl := rfl
@[simp] theorem State.setSlot_mem (s : State) (c : Ctx) (sl : Slot) : (s.setSlot c sl).mem = s.mem := rfl
@[simp] theorem State.setSlot_inputs (s : State) (c : Ctx) (sl : Slot) : (s.setSlot c sl).inputs = s.inputs := rfl
@[simp] theorem State.setSlot_raced (s : State) (c : Ctx) (sl : Slot) : (s.setSlot c sl).raced = s.raced := rfl
@[simp] theorem State.setSlot_unseen (s : State) (c : Ctx) (sl : Slot) : (s.setSlot c sl).unseen = s.unseen := rfl
@[simp] theorem State.setSlot_lateRaced (s : State) (c : Ctx) (sl : Slot) : (s.setSlot c sl).lateRaced = s.lateRaced := rfl
@[simp] theorem State.setSlot_draws (s : State) (c : Ctx) (sl : Slot) : (s.setSlot c sl).draws = s.draws := rfl
@[simp] theorem State.setSlot_busData (s : State) (c : Ctx) (sl : Slot) : (s.setSlot c sl).busData = s.busData := rfl

/-! ## complete -/

@[simp] theorem State.complete_params (s : State) (e : Err) (r : Word64) : (s.complete e r).params = s.params := rfl
@[simp] theorem State.complete_cmd (s : State) (e : Err) (r : Word64) : (s.complete e r).cmd = s.cmd := rfl
@[simp] theorem State.complete_ovr (s : State) (e : Err) (r : Word64) : (s.complete e r).ovr = s.ovr := rfl
@[simp] theorem State.complete_err (s : State) (e : Err) (r : Word64) : (s.complete e r).err = e := rfl
@[simp] theorem State.complete_result (s : State) (e : Err) (r : Word64) : (s.complete e r).result = r := rfl
@[simp] theorem State.complete_args (s : State) (e : Err) (r : Word64) : (s.complete e r).args = s.args := rfl
@[simp] theorem State.complete_pend (s : State) (e : Err) (r : Word64) : (s.complete e r).pend = none := rfl
@[simp] theorem State.complete_slots (s : State) (e : Err) (r : Word64) : (s.complete e r).slots = s.slots := rfl
@[simp] theorem State.complete_mem (s : State) (e : Err) (r : Word64) : (s.complete e r).mem = s.mem := rfl
@[simp] theorem State.complete_inputs (s : State) (e : Err) (r : Word64) : (s.complete e r).inputs = s.inputs := rfl
@[simp] theorem State.complete_raced (s : State) (e : Err) (r : Word64) : (s.complete e r).raced = [] := rfl
@[simp] theorem State.complete_unseen (s : State) (e : Err) (r : Word64) : (s.complete e r).unseen = s.pend.toList ++ s.unseen := rfl
@[simp] theorem State.complete_lateRaced (s : State) (e : Err) (r : Word64) : (s.complete e r).lateRaced = s.lateRaced := rfl
@[simp] theorem State.complete_draws (s : State) (e : Err) (r : Word64) : (s.complete e r).draws = s.draws := rfl
@[simp] theorem State.complete_busData (s : State) (e : Err) (r : Word64) : (s.complete e r).busData = s.busData := rfl

/-! ## finish -/

@[simp] theorem State.finish_params (s : State) (r : Word64) : (s.finish r).params = s.params := rfl
@[simp] theorem State.finish_cmd (s : State) (r : Word64) : (s.finish r).cmd = s.cmd := rfl
@[simp] theorem State.finish_ovr (s : State) (r : Word64) : (s.finish r).ovr = s.ovr := rfl
@[simp] theorem State.finish_err (s : State) (r : Word64) : (s.finish r).err = .ok := rfl
@[simp] theorem State.finish_result (s : State) (r : Word64) : (s.finish r).result = r := rfl
@[simp] theorem State.finish_args (s : State) (r : Word64) : (s.finish r).args = s.args := rfl
@[simp] theorem State.finish_pend (s : State) (r : Word64) : (s.finish r).pend = none := rfl
@[simp] theorem State.finish_slots (s : State) (r : Word64) : (s.finish r).slots = s.slots := rfl
@[simp] theorem State.finish_mem (s : State) (r : Word64) : (s.finish r).mem = s.mem := rfl
@[simp] theorem State.finish_inputs (s : State) (r : Word64) : (s.finish r).inputs = s.inputs := rfl
@[simp] theorem State.finish_raced (s : State) (r : Word64) : (s.finish r).raced = [] := rfl
@[simp] theorem State.finish_unseen (s : State) (r : Word64) : (s.finish r).unseen = s.pend.toList ++ s.unseen := rfl
@[simp] theorem State.finish_lateRaced (s : State) (r : Word64) : (s.finish r).lateRaced = s.lateRaced := rfl
@[simp] theorem State.finish_draws (s : State) (r : Word64) : (s.finish r).draws = s.draws := rfl
@[simp] theorem State.finish_busData (s : State) (r : Word64) : (s.finish r).busData = s.busData := rfl

/-! ## raise -/

@[simp] theorem State.raise_params (s : State) (e : Err) : (s.raise e).params = s.params := rfl
@[simp] theorem State.raise_cmd (s : State) (e : Err) : (s.raise e).cmd = s.cmd := rfl
@[simp] theorem State.raise_ovr (s : State) (e : Err) : (s.raise e).ovr = s.ovr := rfl
@[simp] theorem State.raise_err (s : State) (e : Err) : (s.raise e).err = e := rfl
@[simp] theorem State.raise_result (s : State) (e : Err) : (s.raise e).result = 0 := rfl
@[simp] theorem State.raise_args (s : State) (e : Err) : (s.raise e).args = s.args := rfl
@[simp] theorem State.raise_pend (s : State) (e : Err) : (s.raise e).pend = none := rfl
@[simp] theorem State.raise_slots (s : State) (e : Err) : (s.raise e).slots = s.slots := rfl
@[simp] theorem State.raise_mem (s : State) (e : Err) : (s.raise e).mem = s.mem := rfl
@[simp] theorem State.raise_inputs (s : State) (e : Err) : (s.raise e).inputs = s.inputs := rfl
@[simp] theorem State.raise_raced (s : State) (e : Err) : (s.raise e).raced = [] := rfl
@[simp] theorem State.raise_unseen (s : State) (e : Err) : (s.raise e).unseen = s.pend.toList ++ s.unseen := rfl
@[simp] theorem State.raise_lateRaced (s : State) (e : Err) : (s.raise e).lateRaced = s.lateRaced := rfl
@[simp] theorem State.raise_draws (s : State) (e : Err) : (s.raise e).draws = s.draws := rfl
@[simp] theorem State.raise_busData (s : State) (e : Err) : (s.raise e).busData = s.busData := rfl

/-! ## Operands after an update: they are read from PEND -/

@[simp] theorem State.memWrite_latched (s : State) (a : Nat) (bs : List Byte) :
    (s.memWrite a bs).latched = s.latched := rfl
@[simp] theorem State.memWrite_argW (s : State) (a : Nat) (bs : List Byte) (i : Fin 8) :
    (s.memWrite a bs).argW i = s.argW i := rfl
@[simp] theorem State.memWrite_arg (s : State) (a : Nat) (bs : List Byte) (i : Fin 8) :
    (s.memWrite a bs).arg i = s.arg i := rfl
@[simp] theorem State.memWrite_byteOperand (s : State) (a : Nat) (bs : List Byte) :
    (s.memWrite a bs).byteOperand = s.byteOperand := rfl
@[simp] theorem State.memWrite_inAddr (s : State) (a : Nat) (bs : List Byte) :
    (s.memWrite a bs).inAddr = s.inAddr := rfl
@[simp] theorem State.memWrite_outAddr (s : State) (a : Nat) (bs : List Byte) :
    (s.memWrite a bs).outAddr = s.outAddr := rfl
@[simp] theorem State.memWrite_len (s : State) (a : Nat) (bs : List Byte) :
    (s.memWrite a bs).len = s.len := rfl
@[simp] theorem State.memWrite_memSize (s : State) (a : Nat) (bs : List Byte) :
    (s.memWrite a bs).memSize = s.memSize := rfl

@[simp] theorem State.setSlot_latched (s : State) (c : Ctx) (sl : Slot) :
    (s.setSlot c sl).latched = s.latched := rfl
@[simp] theorem State.setSlot_argW (s : State) (c : Ctx) (sl : Slot) (i : Fin 8) :
    (s.setSlot c sl).argW i = s.argW i := rfl
@[simp] theorem State.setSlot_arg (s : State) (c : Ctx) (sl : Slot) (i : Fin 8) :
    (s.setSlot c sl).arg i = s.arg i := rfl
@[simp] theorem State.setSlot_byteOperand (s : State) (c : Ctx) (sl : Slot) :
    (s.setSlot c sl).byteOperand = s.byteOperand := rfl
@[simp] theorem State.setSlot_inAddr (s : State) (c : Ctx) (sl : Slot) :
    (s.setSlot c sl).inAddr = s.inAddr := rfl
@[simp] theorem State.setSlot_outAddr (s : State) (c : Ctx) (sl : Slot) :
    (s.setSlot c sl).outAddr = s.outAddr := rfl
@[simp] theorem State.setSlot_len (s : State) (c : Ctx) (sl : Slot) :
    (s.setSlot c sl).len = s.len := rfl
@[simp] theorem State.setSlot_memSize (s : State) (c : Ctx) (sl : Slot) :
    (s.setSlot c sl).memSize = s.memSize := rfl

@[simp] theorem State.setSlot_memRead (s : State) (c : Ctx) (sl : Slot) (a n : Nat) :
    (s.setSlot c sl).memRead a n = s.memRead a n := rfl

@[simp] theorem State.setSlot_readByte (s : State) (c : Ctx) (sl : Slot) (a : Nat) :
    (s.setSlot c sl).readByte a = s.readByte a := rfl

@[simp] theorem State.complete_readByte (s : State) (e : Err) (r : Word64) (a : Nat) :
    (s.complete e r).readByte a = s.readByte a := rfl

@[simp] theorem State.setSlot_nCtx (s : State) (c : Ctx) (sl : Slot) : (s.setSlot c sl).nCtx = s.nCtx := by
  simp [State.nCtx]

/-- Storing what is there changes no slot. -/
theorem State.setSlot_self {s : State} {c : Ctx} {sl : Slot} (h : s.slot? c = some sl) :
    s.setSlot c sl = s := by
  obtain ⟨hlt, hget⟩ := List.getElem?_eq_some_iff.mp h
  have : s.slots.set c.toNat sl = s.slots := by
    rw [← hget]
    exact List.set_getElem_self hlt
  simp only [State.setSlot, this]

theorem State.slot?_setSlot_self {s : State} {c : Ctx} {sl sl' : Slot} (h : s.slot? c = some sl) :
    (s.setSlot c sl').slot? c = some sl' := by
  obtain ⟨hlt, -⟩ := List.getElem?_eq_some_iff.mp h
  simp [State.slot?, State.setSlot, hlt]

theorem State.slot?_setSlot_ne {s : State} {c d : Ctx} {sl : Slot} (h : c ≠ d) :
    (s.setSlot c sl).slot? d = s.slot? d := by
  have : c.toNat ≠ d.toNat := fun e => h (BitVec.eq_of_toNat_eq e)
  simp [State.slot?, State.setSlot, List.getElem?_set_ne this]

/-! ## The families' slot updates are setSlot -/

@[simp] theorem State.putBuf_eq (s : State) (c : Ctx) (b : Inner × Bool × Option BufKeyed)
    (k : BufKeyed) : s.putBuf c b k = s.setSlot c (.buf b.1 b.2.1 (some k)) := rfl

@[simp] theorem State.putGcm_eq (s : State) (c : Ctx) (g : GcmSlot) (k : GcmKeyed) (m : Block) :
    s.putGcm c g k m = s.setSlot c (.gcm ⟨some k, m, g.lastKey, g.lastNonce⟩) := rfl

@[simp] theorem State.restartGcm_eq (s : State) (c : Ctx) (g : GcmSlot) (k : GcmKeyed) :
    s.restartGcm c g k = s.setSlot c (.gcm ⟨some (gcmRestart k), 0, g.lastKey, g.lastNonce⟩) := rfl

@[simp] theorem State.endGcm_eq (s : State) (c : Ctx) (g : GcmSlot) (k : GcmKeyed) :
    s.endGcm c g k = s.setSlot c (.gcm ⟨some (gcmRestart k), blockOf (gcmTagBytes (gcmTail k).2),
      g.lastKey, g.lastNonce⟩) := rfl

@[simp] theorem State.putCcm_eq (s : State) (c : Ctx) (g : CcmSlot) (k : CcmKeyed) (m : Block) :
    s.putCcm c g k m = s.setSlot c (.ccm ⟨some k, m, g.lastKey, g.lastNonce⟩) := rfl

@[simp] theorem State.restartCcm_eq (s : State) (c : Ctx) (g : CcmSlot) (k : CcmKeyed) :
    s.restartCcm c g k = s.setSlot c (.ccm ⟨some (ccmRestart k), 0, g.lastKey, g.lastNonce⟩) := rfl

@[simp] theorem State.putCmac_eq (s : State) (c : Ctx) (m : BitVec 5 × PadMode × Option CmacKeyed)
    (k : CmacKeyed) : s.putCmac c m k = s.setSlot c (.cmac m.1 m.2.1 (some k)) := rfl

theorem State.dropKey_eq {s : State} {c : Ctx} {sl : Slot} (h : s.slot? c = some sl) :
    s.dropKey c = s.setSlot c sl.unkeyed := by
  simp [State.dropKey, h]

end Sys2Proof.Machine
end

