-- ==== Sys2Proof/Laws/Ops.lean ====
section
/-! SUPPORT. One lemma per shared operation that says what it can do: the checks, the completion, and the
output under the overlap rule. -/

namespace Sys2Proof.Machine

open Host (Outcome)

variable {s t : State} {c : Ctx} {e : Err} {α : Type}

/-! ## The checks -/

theorem State.guard_pos {ok : Prop} [Decidable ok] (h : ok) (e : Err)
    (k : Outcome State Fault Refusal) : s.guard ok e k = k := if_pos h

theorem State.guard_neg {ok : Prop} [Decidable ok] (h : ¬ok) (e : Err)
    (k : Outcome State Fault Refusal) : s.guard ok e k = .next (s.raise e) := if_neg h

theorem State.onSlot_some {sel : Slot → Option α} {k : α → Outcome State Fault Refusal} {x : α}
    (h : (s.slot? c).bind sel = some x) : s.onSlot c sel k = k x := by
  simp [State.onSlot, h]

theorem State.onSlot_none {sel : Slot → Option α} {k : α → Outcome State Fault Refusal}
    (h : (s.slot? c).bind sel = none) : s.onSlot c sel k = .next (s.raise .illegalCommand) := by
  simp [State.onSlot, h]

/-- Admission of a slot that is there. -/
theorem State.onSlot_slot {sel : Slot → Option α} {k : α → Outcome State Fault Refusal} {sl : Slot}
    {x : α} (h : s.slot? c = some sl) (hx : sel sl = some x) : s.onSlot c sel k = k x :=
  State.onSlot_some (by simp [h, hx])

/-! ## Admission of a slot by its family -/

theorem State.onSlot_aes {key : Option AesKeyed}
    {k : Option AesKeyed → Outcome State Fault Refusal} (h : s.slot? c = some (.aes key)) :
    s.onSlot c Slot.aes? k = k key := State.onSlot_slot h rfl

theorem State.onSlot_cbc {key : Option CbcKeyed}
    {k : Option CbcKeyed → Outcome State Fault Refusal} (h : s.slot? c = some (.cbc key)) :
    s.onSlot c Slot.cbc? k = k key := State.onSlot_slot h rfl

theorem State.onSlot_ctr {key : Option CtrKeyed}
    {k : Option CtrKeyed → Outcome State Fault Refusal} (h : s.slot? c = some (.ctr key)) :
    s.onSlot c Slot.ctr? k = k key := State.onSlot_slot h rfl

theorem State.onSlot_buf {inner : Inner} {padded : Bool} {key : Option BufKeyed}
    {k : Inner × Bool × Option BufKeyed → Outcome State Fault Refusal} (h : s.slot? c = some (.buf inner padded key)) :
    s.onSlot c Slot.buf? k = k (inner, padded, key) := State.onSlot_slot h rfl

theorem State.onSlot_gcm {g : GcmSlot}
    {k : GcmSlot → Outcome State Fault Refusal} (h : s.slot? c = some (.gcm g)) :
    s.onSlot c Slot.gcm? k = k g := State.onSlot_slot h rfl

theorem State.onSlot_ccm {g : CcmSlot}
    {k : CcmSlot → Outcome State Fault Refusal} (h : s.slot? c = some (.ccm g)) :
    s.onSlot c Slot.ccm? k = k g := State.onSlot_slot h rfl

theorem State.onSlot_cmac {ms : BitVec 5} {pad : PadMode} {key : Option CmacKeyed}
    {k : BitVec 5 × PadMode × Option CmacKeyed → Outcome State Fault Refusal} (h : s.slot? c = some (.cmac ms pad key)) :
    s.onSlot c Slot.cmac? k = k (ms, pad, key) := State.onSlot_slot h rfl

theorem State.onSlot_digest {alg : DigestAlg} {d : Digest}
    {k : DigestAlg × Digest → Outcome State Fault Refusal} (h : s.slot? c = some (.digest alg d)) :
    s.onSlot c Slot.digest? k = k (alg, d) := State.onSlot_slot h rfl

theorem State.onSlot_hmac {dk : DigestAlg} {key : Option HmacKeyed}
    {k : DigestAlg × Option HmacKeyed → Outcome State Fault Refusal} (h : s.slot? c = some (.hmac dk key)) :
    s.onSlot c Slot.hmac? k = k (dk, key) := State.onSlot_slot h rfl

theorem State.require_some (x : α) (k : α → Outcome State Fault Refusal) :
    s.require (some x) k = k x := rfl

theorem State.require_none (k : α → Outcome State Fault Refusal) :
    s.require none k = .next (s.raise .notInitialized) := rfl

theorem State.loadKey_some (x : AesKey) (k : AesKey → Outcome State Fault Refusal) :
    s.loadKey (some x) k = k x := rfl

theorem State.loadKey_none (k : AesKey → Outcome State Fault Refusal) :
    s.loadKey none k = .next (s.raise .invalidParameter) := rfl

/-! ## Inversion: if a check answers a next state, it passed or raised -/

theorem State.guard_next {ok : Prop} [Decidable ok] {k : Outcome State Fault Refusal}
    (h : s.guard ok e k = .next t) : (ok ∧ k = .next t) ∨ (¬ok ∧ t = s.raise e) := by
  unfold State.guard at h
  split at h
  · exact .inl ⟨‹_›, h⟩
  · exact .inr ⟨‹_›, (Outcome.next.inj h).symm⟩

theorem State.onSlot_next {sel : Slot → Option α} {k : α → Outcome State Fault Refusal}
    (h : s.onSlot c sel k = .next t) :
    (∃ sl x, s.slot? c = some sl ∧ sel sl = some x ∧ k x = .next t) ∨
      ((s.slot? c).bind sel = none ∧ t = s.raise .illegalCommand) := by
  unfold State.onSlot at h
  split at h
  · rename_i x hx
    obtain ⟨sl, h1, h2⟩ := Option.bind_eq_some_iff.mp hx
    exact .inl ⟨sl, x, h1, h2, h⟩
  · exact .inr ⟨‹_›, (Outcome.next.inj h).symm⟩

theorem State.require_next {key : Option α} {k : α → Outcome State Fault Refusal}
    (h : s.require key k = .next t) :
    (∃ x, key = some x ∧ k x = .next t) ∨ (key = none ∧ t = s.raise .notInitialized) := by
  cases key with
  | some x => exact .inl ⟨x, rfl, h⟩
  | none => exact .inr ⟨rfl, (Outcome.next.inj h).symm⟩

theorem State.loadKey_next {key : Option AesKey} {k : AesKey → Outcome State Fault Refusal}
    (h : s.loadKey key k = .next t) :
    (∃ x, key = some x ∧ k x = .next t) ∨ (key = none ∧ t = s.raise .invalidParameter) := by
  cases key with
  | some x => exact .inl ⟨x, rfl, h⟩
  | none => exact .inr ⟨rfl, (Outcome.next.inj h).symm⟩

/-! ## What a command ends in: the checks read as rules over a property of the state after it -/

/-- The outcome is a next state with the property. -/
def EndsIn (o : Outcome State Fault Refusal) (P : State → Prop) : Prop := ∃ t, o = .next t ∧ P t

theorem EndsIn.next {P : State → Prop} (h : P t) : EndsIn (.next t) P := ⟨t, rfl, h⟩

theorem EndsIn.mono {o : Outcome State Fault Refusal} {P Q : State → Prop} (h : EndsIn o P)
    (hPQ : ∀ t, P t → Q t) : EndsIn o Q :=
  h.imp fun t ht => ⟨ht.1, hPQ t ht.2⟩

theorem EndsIn.of_next {o : Outcome State Fault Refusal} {P : State → Prop} (h : EndsIn o P)
    (ht : o = .next t) : P t := by
  obtain ⟨u, hu, hP⟩ := h
  exact Outcome.next.inj (ht.symm.trans hu) ▸ hP

theorem EndsIn.guard {ok : Prop} [Decidable ok] {k : Outcome State Fault Refusal} {P : State → Prop}
    (hk : ok → EndsIn k P) (he : ¬ok → P (s.raise e)) : EndsIn (s.guard ok e k) P := by
  by_cases h : ok
  · rw [State.guard_pos h]
    exact hk h
  · rw [State.guard_neg h]
    exact .next (he h)

theorem EndsIn.onSlot {sel : Slot → Option α} {k : α → Outcome State Fault Refusal} {P : State → Prop}
    (hk : ∀ sl x, s.slot? c = some sl → sel sl = some x → EndsIn (k x) P)
    (he : (s.slot? c).bind sel = none → P (s.raise .illegalCommand)) : EndsIn (s.onSlot c sel k) P := by
  rcases h : (s.slot? c).bind sel with _ | x
  · rw [State.onSlot_none h]
    exact .next (he h)
  · rw [State.onSlot_some h]
    obtain ⟨sl, h1, h2⟩ := Option.bind_eq_some_iff.mp h
    exact hk sl x h1 h2

theorem EndsIn.require {key : Option α} {k : α → Outcome State Fault Refusal} {P : State → Prop}
    (hk : ∀ x, key = some x → EndsIn (k x) P) (he : key = none → P (s.raise .notInitialized)) :
    EndsIn (s.require key k) P := by
  cases key with
  | some x => exact hk x rfl
  | none => exact .next (he rfl)

theorem EndsIn.loadKey {key : Option AesKey} {k : AesKey → Outcome State Fault Refusal}
    {P : State → Prop} (hk : ∀ x, key = some x → EndsIn (k x) P)
    (he : key = none → P (s.raise .invalidParameter)) : EndsIn (s.loadKey key k) P := by
  cases key with
  | some x => exact hk x rfl
  | none => exact .next (he rfl)

/-! ## Selectors name one slot form each -/

theorem Slot.aes?_eq {sl : Slot} {k : Option AesKeyed} (h : sl.aes? = some k) : sl = .aes k := by
  cases sl <;> simp_all [Slot.aes?]

theorem Slot.cbc?_eq {sl : Slot} {k : Option CbcKeyed} (h : sl.cbc? = some k) : sl = .cbc k := by
  cases sl <;> simp_all [Slot.cbc?]

theorem Slot.ctr?_eq {sl : Slot} {k : Option CtrKeyed} (h : sl.ctr? = some k) : sl = .ctr k := by
  cases sl <;> simp_all [Slot.ctr?]

theorem Slot.buf?_eq {sl : Slot} {b : Inner × Bool × Option BufKeyed} (h : sl.buf? = some b) :
    sl = .buf b.1 b.2.1 b.2.2 := by
  cases sl <;> simp_all [Slot.buf?]
  subst h
  exact ⟨rfl, rfl, rfl⟩

theorem Slot.gcm?_eq {sl : Slot} {g : GcmSlot} (h : sl.gcm? = some g) : sl = .gcm g := by
  cases sl <;> simp_all [Slot.gcm?]

theorem Slot.ccm?_eq {sl : Slot} {g : CcmSlot} (h : sl.ccm? = some g) : sl = .ccm g := by
  cases sl <;> simp_all [Slot.ccm?]

theorem Slot.cmac?_eq {sl : Slot} {m : BitVec 5 × PadMode × Option CmacKeyed}
    (h : sl.cmac? = some m) : sl = .cmac m.1 m.2.1 m.2.2 := by
  cases sl <;> simp_all [Slot.cmac?]
  subst h
  exact ⟨rfl, rfl, rfl⟩

theorem Slot.digest?_eq {sl : Slot} {d : DigestAlg × Digest} (h : sl.digest? = some d) :
    sl = .digest d.1 d.2 := by
  cases sl <;> simp_all [Slot.digest?]
  subst h
  exact ⟨rfl, rfl⟩

theorem Slot.hmac?_eq {sl : Slot} {d : DigestAlg × Option HmacKeyed} (h : sl.hmac? = some d) :
    sl = .hmac d.1 d.2 := by
  cases sl <;> simp_all [Slot.hmac?]
  subst h
  exact ⟨rfl, rfl⟩

/-! ## A family's selector admits just the ALG codes of R114 -/

theorem Slot.aes?_eq_none {sl : Slot} : sl.aes? = none ↔ sl.alg ∉ ([0x01] : List (BitVec 8)) := by
  rcases sl with _ | _ | _ | _ | _ | _ | _ | _ | ⟨_ | _ | _, _⟩ | _ <;>
    simp [Slot.aes?, Slot.alg, Slot.conf, AlgConf.algCode]

theorem Slot.cbc?_eq_none {sl : Slot} : sl.cbc? = none ↔ sl.alg ∉ ([0x02] : List (BitVec 8)) := by
  rcases sl with _ | _ | _ | _ | _ | _ | _ | _ | ⟨_ | _ | _, _⟩ | _ <;>
    simp [Slot.cbc?, Slot.alg, Slot.conf, AlgConf.algCode]

theorem Slot.ctr?_eq_none {sl : Slot} : sl.ctr? = none ↔ sl.alg ∉ ([0x03] : List (BitVec 8)) := by
  rcases sl with _ | _ | _ | _ | _ | _ | _ | _ | ⟨_ | _ | _, _⟩ | _ <;>
    simp [Slot.ctr?, Slot.alg, Slot.conf, AlgConf.algCode]

theorem Slot.buf?_eq_none {sl : Slot} : sl.buf? = none ↔ sl.alg ∉ ([0x04] : List (BitVec 8)) := by
  rcases sl with _ | _ | _ | _ | _ | _ | _ | _ | ⟨_ | _ | _, _⟩ | _ <;>
    simp [Slot.buf?, Slot.alg, Slot.conf, AlgConf.algCode]

theorem Slot.gcm?_eq_none {sl : Slot} : sl.gcm? = none ↔ sl.alg ∉ ([0x05] : List (BitVec 8)) := by
  rcases sl with _ | _ | _ | _ | _ | _ | _ | _ | ⟨_ | _ | _, _⟩ | _ <;>
    simp [Slot.gcm?, Slot.alg, Slot.conf, AlgConf.algCode]

theorem Slot.ccm?_eq_none {sl : Slot} : sl.ccm? = none ↔ sl.alg ∉ ([0x06] : List (BitVec 8)) := by
  rcases sl with _ | _ | _ | _ | _ | _ | _ | _ | ⟨_ | _ | _, _⟩ | _ <;>
    simp [Slot.ccm?, Slot.alg, Slot.conf, AlgConf.algCode]

theorem Slot.cmac?_eq_none {sl : Slot} : sl.cmac? = none ↔ sl.alg ∉ ([0x07] : List (BitVec 8)) := by
  rcases sl with _ | _ | _ | _ | _ | _ | _ | _ | ⟨_ | _ | _, _⟩ | _ <;>
    simp [Slot.cmac?, Slot.alg, Slot.conf, AlgConf.algCode]

theorem Slot.digest?_eq_none {sl : Slot} : sl.digest? = none ↔ sl.alg ∉ ([0x08, 0x09, 0x0A] : List (BitVec 8)) := by
  rcases sl with _ | _ | _ | _ | _ | _ | _ | _ | ⟨_ | _ | _, _⟩ | _ <;>
    simp [Slot.digest?, Slot.alg, Slot.conf, AlgConf.algCode]

theorem Slot.hmac?_eq_none {sl : Slot} : sl.hmac? = none ↔ sl.alg ∉ ([0x0B] : List (BitVec 8)) := by
  rcases sl with _ | _ | _ | _ | _ | _ | _ | _ | ⟨_ | _ | _, _⟩ | _ <;>
    simp [Slot.hmac?, Slot.alg, Slot.conf, AlgConf.algCode]

theorem Slot.blockSize?_eq_none {sl : Slot} : sl.blockSize? = none ↔ sl.alg ∉ ([0x01, 0x02, 0x03, 0x04, 0x05, 0x06, 0x07] : List (BitVec 8)) := by
  rcases sl with _ | _ | _ | _ | _ | _ | _ | _ | ⟨_ | _ | _, _⟩ | _ <;>
    simp [Slot.blockSize?, Slot.alg, Slot.conf, AlgConf.algCode]

theorem Slot.macSize?_eq_none {sl : Slot} : sl.macSize? = none ↔ sl.alg ∉ ([0x05, 0x06, 0x07, 0x0B] : List (BitVec 8)) := by
  rcases sl with _ | _ | _ | _ | _ | _ | _ | _ | ⟨_ | _ | _, _⟩ | _ <;>
    simp [Slot.macSize?, Slot.alg, Slot.conf, AlgConf.algCode]

/-! ## Completion -/

theorem SameRegs.refl (s : State) : SameRegs s s := ⟨rfl, rfl, rfl, rfl, rfl, rfl⟩

theorem SameRegs.trans {u : State} (h : SameRegs s t) (h' : SameRegs t u) : SameRegs s u :=
  ⟨h'.1.trans h.1, h'.2.trans h.2, h'.3.trans h.3, h'.4.trans h.4, h'.5.trans h.5, h'.6.trans h.6⟩

/-- `finish` alone answers. -/
theorem State.answers_finish (s : State) (r : Word64) : Answers s (s.finish r) r :=
  ⟨⟨⟨rfl, rfl, rfl, rfl, rfl, rfl⟩, rfl, rfl, rfl, rfl, rfl, rfl⟩, rfl, fun _ => rfl, rfl⟩

/-- A slot update that finishes. -/
theorem State.updates_finish (s : State) (c : Ctx) (sl : Slot) :
    Updates s ((s.setSlot c sl).finish 0) c sl :=
  ⟨⟨⟨rfl, rfl, rfl, rfl, rfl, rfl⟩, rfl, rfl, rfl, rfl, rfl, rfl⟩, rfl, fun _ => rfl, rfl⟩

/-- `raise` alone is precise. -/
theorem State.precise_raise (s : State) (e : Err) : Precise s (s.raise e) e :=
  ⟨⟨⟨rfl, rfl, rfl, rfl, rfl, rfl⟩, rfl, rfl, rfl, rfl, rfl, rfl⟩, rfl, rfl, rfl⟩

/-- A slot update that raises. -/
theorem State.fails_raise (s : State) (c : Ctx) (sl : Slot) (e : Err) :
    Fails s ((s.setSlot c sl).raise e) e c sl :=
  ⟨⟨⟨rfl, rfl, rfl, rfl, rfl, rfl⟩, rfl, rfl, rfl, rfl, rfl, rfl⟩, rfl, rfl, rfl⟩

theorem State.sizes_finishSize (s : State) (n : Nat) : Sizes s (s.finishSize n) n :=
  ⟨⟨rfl, rfl, rfl, rfl, rfl, rfl⟩, rfl, rfl, rfl, rfl, rfl, rfl, fun _ => rfl, rfl, fun h => if_pos h⟩

/-! ## Output -/

theorem State.readByte_memWrite (s : State) (a : Nat) (bs : List Byte) (b : Nat) :
    (s.memWrite a bs).readByte b =
      if a ≤ b ∧ b < a + bs.length then bs.getD (b - a) 0 else s.readByte b :=
  Memory.read_writeBytes s.mem a bs b

theorem State.stores_memWrite (s : State) (a : Nat) (bs : List Byte) :
    Stores s (s.memWrite a bs) a bs :=
  ⟨fun _ h => Memory.read_writeBytes_outside h, fun _ h => Memory.read_writeBytes_inside s.mem a h⟩

@[simp] theorem length_drawInside (rs : List Range) (a : Nat) (bs : List Byte) (d : Nat) :
    (drawInside rs a bs d).1.length = bs.length := by
  induction bs generalizing a d with
  | nil => rfl
  | cons b bs ih => simp only [drawInside]; split <;> simp [ih]

theorem drawInside_mono (rs : List Range) (a : Nat) (bs : List Byte) (d : Nat) :
    d ≤ (drawInside rs a bs d).2 := by
  induction bs generalizing a d with
  | nil => exact le_rfl
  | cons b bs ih =>
    simp only [drawInside]
    split
    · exact le_trans (Nat.le_succ d) (ih (a + 1) (d + 1))
    · exact ih (a + 1) d

theorem drawInside_outside {rs : List Range} {a : Nat} {bs : List Byte} (d : Nat) {i : Nat}
    (h : ¬ InRanges rs (a + i)) : (drawInside rs a bs d).1.getD i 0 = bs.getD i 0 := by
  induction bs generalizing a d i with
  | nil => rfl
  | cons b bs ih =>
    simp only [drawInside]
    cases i with
    | zero => rw [if_neg (show ¬ InRanges rs a from h)]; rfl
    | succ i =>
      have h' : ¬ InRanges rs (a + 1 + i) := by
        rwa [show a + 1 + i = a + (i + 1) by omega]
      split
      · simpa using ih (d + 1) h'
      · simpa using ih d h'

theorem drawInside_inside {rs : List Range} {a : Nat} {bs : List Byte} (d : Nat) {i : Nat}
    (hi : i < bs.length) (h : InRanges rs (a + i)) :
    ∃ n, d ≤ n ∧ n < (drawInside rs a bs d).2 ∧ (drawInside rs a bs d).1.getD i 0 = Config.freeByte n := by
  induction bs generalizing a d i with
  | nil => simp at hi
  | cons b bs ih =>
    simp only [drawInside]
    cases i with
    | zero =>
      rw [if_pos (show InRanges rs a from h)]
      exact ⟨d, le_rfl, drawInside_mono rs (a + 1) bs (d + 1), rfl⟩
    | succ i =>
      have h' : InRanges rs (a + 1 + i) := by
        rwa [show a + 1 + i = a + (i + 1) by omega]
      have hi' : i < bs.length := by simpa using hi
      split
      · obtain ⟨n, h1, h2, h3⟩ := ih (d + 1) hi' h'
        exact ⟨n, by omega, h2, by simpa using h3⟩
      · obtain ⟨n, h1, h2, h3⟩ := ih d hi' h'
        exact ⟨n, h1, h2, by simpa using h3⟩

theorem drawInside_draws_eq {rs : List Range} {a : Nat} {bs : List Byte} (d : Nat)
    (h : ∀ i, i < bs.length → ¬ InRanges rs (a + i)) : (drawInside rs a bs d).2 = d := by
  induction bs generalizing a with
  | nil => rfl
  | cons b bs ih =>
    have h0 : ¬ InRanges rs a := h 0 (by simp)
    simp only [drawInside, if_neg h0]
    refine ih fun i hi => ?_
    rw [show a + 1 + i = a + (i + 1) by omega]
    exact h (i + 1) (by simpa using hi)

/-- All `storeDrawing` does to DMEM: a byte outside the range stored to is as before, one inside is exact
away from `rs` and a draw within. -/
theorem State.readByte_storeDrawing (s : State) (rs : List Range) (a : Nat) (bs : List Byte) :
    SameDmemOutside ⟨a, bs.length⟩ s (s.storeDrawing rs a bs) ∧
    (∀ i, i < bs.length → ¬ InRanges rs (a + i) →
      (s.storeDrawing rs a bs).readByte (a + i) = bs.getD i 0) ∧
    (∀ i, i < bs.length → InRanges rs (a + i) → DrawnByte s (s.storeDrawing rs a bs) (a + i)) := by
  have hlen := length_drawInside rs a bs s.draws
  have hin {i : Nat} (hi : i < bs.length) := Memory.read_writeBytes_inside s.mem a (hlen.symm ▸ hi)
  refine ⟨fun b hb => Memory.read_writeBytes_outside (by rwa [hlen]),
    fun i hi h => (hin hi).trans (drawInside_outside _ h), fun i hi h => ?_⟩
  obtain ⟨n, h1, h2, h3⟩ := drawInside_inside s.draws hi h
  exact ⟨n, h1, h2, (hin hi).trans h3⟩

/-- The draw counter only goes up. -/
theorem State.storeDrawing_draws (s : State) (rs : List Range) (a : Nat) (bs : List Byte) :
    s.draws ≤ (s.storeDrawing rs a bs).draws := drawInside_mono rs a bs s.draws

/-- As far as its place and length go, `storeDrawing` is a plain write. -/
theorem State.storeDrawing_mem (s : State) (rs : List Range) (a : Nat) (bs : List Byte) :
    ∃ bs', bs'.length = bs.length ∧ (s.storeDrawing rs a bs).mem = s.mem.writeBytes a bs' :=
  ⟨_, length_drawInside rs a bs s.draws, rfl⟩

/-- Nothing is drawn where no byte falls in `rs`. -/
theorem State.storeDrawing_draws_eq {s : State} {rs : List Range} {a : Nat} {bs : List Byte}
    (h : ∀ i, i < bs.length → ¬ InRanges rs (a + i)) : (s.storeDrawing rs a bs).draws = s.draws :=
  drawInside_draws_eq s.draws h

theorem State.storeOver_draws (s : State) (ins : List Range) (a : Nat) (bs : List Byte) :
    s.draws ≤ (s.storeOver ins a bs).draws := s.storeDrawing_draws _ a bs

theorem State.storeOver_mem (s : State) (ins : List Range) (a : Nat) (bs : List Byte) :
    ∃ bs', bs'.length = bs.length ∧ (s.storeOver ins a bs).mem = s.mem.writeBytes a bs' :=
  s.storeDrawing_mem _ a bs

/-- All `storeOver` does to DMEM and the draws: it stores `bs` under the overlap rule. -/
theorem State.storesOver_storeOver (s : State) (ins : List Range) (a : Nat) (bs : List Byte) :
    StoresOver s (s.storeOver ins a bs) ins a bs := by
  obtain ⟨h1, h2, h3⟩ := s.readByte_storeDrawing (ins.filter fun r => r.base ≠ a) a bs
  have away {i : Nat} (h : ∀ r ∈ ins, r.base = a ∨ ¬ r.Contains (a + i)) :
      ¬ InRanges (ins.filter fun r => r.base ≠ a) (a + i) := by
    rintro ⟨r, hr, hc⟩
    obtain ⟨hr, hne⟩ : r ∈ ins ∧ r.base ≠ a := by simpa using hr
    exact (h r hr).elim hne fun hn => hn hc
  refine ⟨h1, fun i hi h => h2 i hi (away h), fun i hi h => h3 i hi ?_,
    fun h => storeDrawing_draws_eq fun i hi => away (h i hi)⟩
  obtain ⟨r, hr, hne, hc⟩ := h
  exact ⟨r, by simpa using ⟨hr, hne⟩, hc⟩

/-- All `emit` can do, after a slot update. -/
theorem State.emitsOver_emit (s : State) (c : Ctx) (sl : Slot) (k : Nat) (bs : List Byte) :
    EmitsOver s ((s.setSlot c sl).emit k bs) k (s.slots.set c.toNat sl) bs :=
  have h := State.storesOver_storeOver (s.setSlot c sl) [⟨s.inAddr, k⟩] s.outAddr bs
  ⟨⟨⟨rfl, rfl, rfl, rfl, rfl, rfl⟩, rfl, rfl, rfl, rfl, rfl, rfl⟩, rfl, ⟨h.outside, h.exact, h.drawn, h.draws⟩⟩

/-- All `emit` can do, with no slot update. -/
theorem State.emitsOver_emit_same (s : State) (k : Nat) (bs : List Byte) :
    EmitsOver s (s.emit k bs) k s.slots bs :=
  have h := State.storesOver_storeOver s [⟨s.inAddr, k⟩] s.outAddr bs
  ⟨⟨⟨rfl, rfl, rfl, rfl, rfl, rfl⟩, rfl, rfl, rfl, rfl, rfl, rfl⟩, rfl, ⟨h.outside, h.exact, h.drawn, h.draws⟩⟩

/-- All `emitOut` can do, after a slot update. -/
theorem State.emits_emitOut (s : State) (c : Ctx) (sl : Slot) (bs : List Byte) :
    Emits s ((s.setSlot c sl).emitOut bs) (s.slots.set c.toNat sl) bs := by
  have h := State.stores_memWrite s s.outAddr bs
  exact ⟨⟨⟨rfl, rfl, rfl, rfl, rfl, rfl⟩, rfl, rfl, rfl, rfl, rfl, rfl⟩, rfl, ⟨h.outside, h.bytes⟩, rfl⟩

/-- All `emitOut` can do, with no slot update. -/
theorem State.emits_emitOut_same (s : State) (bs : List Byte) : Emits s (s.emitOut bs) s.slots bs := by
  have h := State.stores_memWrite s s.outAddr bs
  exact ⟨⟨⟨rfl, rfl, rfl, rfl, rfl, rfl⟩, rfl, rfl, rfl, rfl, rfl, rfl⟩, rfl, ⟨h.outside, h.bytes⟩, rfl⟩

/-! ## The host's accesses -/

/-- What a race record holds after an access. -/
theorem mem_recordIn (seen : List Nat) (rs : List Range) (r : Range) (a : Nat) :
    a ∈ recordIn seen rs r ↔ a ∈ seen ∨ r.Contains a ∧ InRanges rs a := by
  simp only [recordIn, Range.addrs, List.mem_append, List.mem_filter, List.mem_map, List.mem_range,
    decide_eq_true_eq]
  constructor
  · rintro (h | ⟨⟨i, hi, rfl⟩, hc⟩)
    · exact .inl h
    · exact .inr ⟨⟨Nat.le_add_right _ _, Nat.add_lt_add_left hi _⟩, hc.1⟩
  · rintro (h | ⟨⟨h1, h2⟩, hc⟩)
    · exact .inl h
    · by_cases hs : a ∈ seen
      · exact .inl hs
      · exact .inr ⟨⟨a - r.base, by omega, by omega⟩, hc, hs⟩

/-- A host read draws only where it meets the running command's output. -/
theorem hostBytes_exact {s : State} {as : List Nat} (d : Nat) (h : ∀ a ∈ as, ¬ InRanges s.pendOut a) :
    hostBytes s as d = (as.map s.readByte, d) := by
  induction as with
  | nil => rfl
  | cons a as ih =>
    obtain ⟨ha, has⟩ := List.forall_mem_cons.mp h
    rw [hostBytes, if_neg ha, ih has]
    rfl

/-! ## Ranges -/

@[simp] theorem State.allInside_nil (s : State) : s.AllInside [] := by simp [State.AllInside]

@[simp] theorem State.allInside_cons (s : State) (r : Range) (rs : List Range) :
    s.AllInside (r :: rs) ↔ s.Inside r ∧ s.AllInside rs := by
  simp [State.AllInside]

end Sys2Proof.Machine
end

