-- ==== Sys2Proof/Laws/Lengths.lean ====
section
/-! SUPPORT. How many bytes each operation makes, and what the key schedule of an admitted key is. -/

namespace Sys2Proof.Machine

/-! ## Byte strings -/

@[simp] theorem length_toBytes {w : Nat} (v : BitVec w) : (toBytes v).length = w / 8 := by
  simp [toBytes]

@[simp] theorem length_beBytes (n v : Nat) : (beBytes n v).length = n := by simp [beBytes]

@[simp] theorem length_leBytes (n v : Nat) : (leBytes n v).length = n := by simp [leBytes]

@[simp] theorem length_zeros (n : Nat) : (zeros n).length = n := by simp [zeros]

@[simp] theorem length_xorBytes (a b : List Byte) : (xorBytes a b).length = min a.length b.length := by
  simp [xorBytes]

@[simp] theorem length_blocksOf (b : List Byte) : (blocksOf b).length = (b.length + 15) / 16 := by
  simp [blocksOf]

theorem length_pad16 (b : List Byte) : (pad16 b).length % 16 = 0 := by
  simp only [pad16, List.length_append, length_zeros]
  omega

@[simp] theorem State.length_memRead (s : State) (a n : Nat) : (s.memRead a n).length = n :=
  Memory.length_readBytes s.mem a n

@[simp] theorem State.length_inBytes (s : State) (k : Nat) : (s.inBytes k).length = k :=
  s.length_memRead s.inAddr k

@[simp] theorem State.length_keyBytes (s : State) : s.keyBytes.length = s.arg 1 := s.length_memRead _ _

@[simp] theorem State.length_ivBytes (s : State) : s.ivBytes.length = s.arg 3 := s.length_memRead _ _

/-! ## AES keys (42_aes.md R202) -/

theorem aesLoad_of_aesLen {key : List Byte} (h : AesLen key.length) (d : Dir) :
    aesLoad key d = some (keySchedule key d) := by
  unfold aesLoad
  cases d <;> exact if_pos h

theorem aesLoad_of_not_aesLen {key : List Byte} (h : ¬ AesLen key.length) (d : Dir) :
    aesLoad key d = none := if_neg h

@[simp] theorem length_roundKeys (nr : Nat) (ws : List Word32) : (roundKeys nr ws).length = nr + 1 := by
  simp [roundKeys]

@[simp] theorem length_keyExpansion (key : List Byte) : (keyExpansion key).length = key.length / 4 + 7 := by
  simp [keyExpansion]

@[simp] theorem length_decKeys (rk : List Block) : (decKeys rk).length = rk.length := by
  simp [decKeys]

/-- A schedule AESLoad built has 10, 12 or 14 rounds and the direction asked for. -/
theorem keySchedule_ok {key : List Byte} (h : AesLen key.length) (d : Dir) : (keySchedule key d).Ok d := by
  rcases h with h | h | h <;> cases d <;> exact ⟨by simp [AesKey.nr, keySchedule, h], rfl⟩

theorem aesLoad_ok {key : List Byte} {d : Dir} {k : AesKey} (h : aesLoad key d = some k) : k.Ok d := by
  by_cases hk : AesLen key.length
  · rw [aesLoad_of_aesLen hk] at h
    exact Option.some.inj h ▸ keySchedule_ok hk d
  · rw [aesLoad_of_not_aesLen hk] at h
    cases h

/-! ## Digests (43_digest.md R239, R252) -/

@[simp] theorem length_digestOut (alg : DigestAlg) (d : Digest) :
    (digestOut alg d).length = digestSize alg := by
  cases alg <;> simp [digestOut, digestSize, List.range_succ]

@[simp] theorem length_hmacResult (dk : DigestAlg) (k : HmacKeyed) :
    (hmacResult dk k).length = digestSize dk := length_digestOut _ _

/-! ## The wrapper (45_buffered.md R304, R305, R309) -/

@[simp] theorem length_blockOps (c : InnerCipher) (xs : List Block) :
    (blockOps c xs).1.length = 16 * xs.length := by
  induction xs generalizing c with
  | nil => rfl
  | cons x xs ih => simp [blockOps, ih]; omega

@[simp] theorem length_bufFlush (b : BufKeyed) (off : Nat) : (bufFlush b off).1.length = 16 := by
  simp [bufFlush]

@[simp] theorem bufFlush_bufOff (b : BufKeyed) (off : Nat) : (bufFlush b off).2.bufOff = off := rfl

@[simp] theorem bufFill_bufOff (b : BufKeyed) (xs : List Byte) :
    (bufFill b xs).bufOff = b.bufOff + xs.length := rfl

theorem length_bufByte (brst : Nat) (padded : Bool) (b : BufKeyed) (x : Byte) :
    (bufByte brst padded b x).1.length = bufByteSize padded b := by
  cases padded <;> simp only [bufByte, bufByteSize] <;> split <;> simp <;> omega

theorem length_bufSettle (padded : Bool) (b : BufKeyed) :
    (bufSettle padded b).1.length = if padded = false ∧ b.bufOff = 16 then 16 else 0 := by
  unfold bufSettle
  split <;> simp

/-- PBYTES writes as many bytes as GUOS says. -/
theorem length_bufBytes {padded : Bool} {b : BufKeyed} (h : b.bufOff ≤ if padded then 16 else 15)
    (data : List Byte) : (bufBytes padded b data).1.length = bufUpdateSize padded b.bufOff data.length := by
  unfold bufBytes bufUpdateSize
  dsimp only
  split
  · simp only [List.length_append, length_bufFlush, length_bufSettle, bufDirect, length_blockOps,
      length_blocksOf, List.length_take, bufFill_bufOff, List.length_drop]
    cases padded <;> simp at h ⊢ <;> (repeat' split) <;> omega
  · simp only [length_bufSettle, bufFill_bufOff]
    cases padded <;> simp at h ⊢ <;> (repeat' split) <;> omega

/-- PBYTES leaves a position the next command can start from. -/
theorem bufBytes_bufOff {padded : Bool} {b : BufKeyed} (h : b.bufOff ≤ if padded then 16 else 15)
    (data : List Byte) : (bufBytes padded b data).2.bufOff ≤ if padded then 16 else 15 := by
  unfold bufBytes
  dsimp only
  split
  · simp only [bufSettle, bufDirect, bufFill_bufOff, List.length_drop]
    cases padded <;> simp at h ⊢ <;> (repeat' split) <;> (try simp) <;> omega
  · simp only [bufSettle, bufFill_bufOff]
    cases padded <;> simp at h ⊢ <;> (repeat' split) <;> (try simp) <;> omega

/-! ## CTR (47_ctr.md R362) -/

@[simp] theorem length_ctrXor (c : CtrKeyed) (d : List Byte) : (ctrXor c d).length = d.length := by
  simp [ctrXor]

/-! ## GCM (48_gcm.md R398, R403, R409) -/

theorem length_gcmData (g : GcmKeyed) {x : List Byte} (h : x.length ≤ 16) :
    (gcmData g x).1.length = x.length := by
  simp [gcmData, h]

/-- The slot with one more byte in its buffer. -/
abbrev GcmKeyed.push (g : GcmKeyed) (b : Byte) : GcmKeyed :=
  { g with bufBlock := setByteAt g.bufBlock g.bufOff b, bufOff := g.bufOff + 1 }

theorem gcmByte_full {g : GcmKeyed} (h : g.bufOff + 1 = g.cap) (b : Byte) : gcmByte g b =
    ((gcmData (g.push b) ((toBytes (g.push b).bufBlock).take 16)).1,
      gcmRewind (gcmData (g.push b) ((toBytes (g.push b).bufBlock).take 16)).2) := if_pos h

theorem gcmByte_partial {g : GcmKeyed} (h : g.bufOff + 1 ≠ g.cap) (b : Byte) :
    gcmByte g b = ([], g.push b) := if_neg h

theorem length_gcmByte (g : GcmKeyed) (b : Byte) : (gcmByte g b).1.length = gcmByteSize g := by
  unfold gcmByteSize
  by_cases h : g.bufOff + 1 = g.cap
  · rw [if_pos h, gcmByte_full h]
    exact length_gcmData _ (by simp)
  · rw [if_neg h, gcmByte_partial h]
    rfl

/-- The fields no data byte changes. -/
structure GcmKeyed.SameKey (g g' : GcmKeyed) : Prop where
  init : g'.init = g.init
  enc : g'.enc = g.enc
  aes : g'.aes = g.aes
  macSize : g'.macSize = g.macSize
  h : g'.h = g.h
  j0 : g'.j0 = g.j0
  aad : g'.aad = g.aad
  snap : g'.snap = g.snap

theorem GcmKeyed.SameKey.trans {g g' g'' : GcmKeyed} (h : g.SameKey g') (h' : g'.SameKey g'') :
    g.SameKey g'' :=
  ⟨h'.1.trans h.1, h'.2.trans h.2, h'.3.trans h.3, h'.4.trans h.4, h'.5.trans h.5, h'.6.trans h.6,
    h'.7.trans h.7, h'.8.trans h.8⟩

theorem GcmKeyed.SameKey.cap {g g' : GcmKeyed} (h : g.SameKey g') : g'.cap = g.cap := by
  simp [GcmKeyed.cap, h.enc, h.macSize]

theorem gcmRewind_sameKey (g : GcmKeyed) : g.SameKey (gcmRewind g) := by
  unfold gcmRewind
  split <;> exact ⟨rfl, rfl, rfl, rfl, rfl, rfl, rfl, rfl⟩

theorem gcmByte_sameKey (g : GcmKeyed) (b : Byte) : g.SameKey (gcmByte g b).2 := by
  by_cases h : g.bufOff + 1 = g.cap
  · rw [gcmByte_full h]
    have h' := gcmRewind_sameKey (gcmData (g.push b) ((toBytes (g.push b).bufBlock).take 16)).2
    exact ⟨h'.1, h'.2, h'.3, h'.4, h'.5, h'.6, h'.7, h'.8⟩
  · rw [gcmByte_partial h]
    exact ⟨rfl, rfl, rfl, rfl, rfl, rfl, rfl, rfl⟩

theorem gcmBytes_sameKey (g : GcmKeyed) (bs : List Byte) : g.SameKey (gcmBytes g bs).2 := by
  induction bs generalizing g with
  | nil => exact ⟨rfl, rfl, rfl, rfl, rfl, rfl, rfl, rfl⟩
  | cons b bs ih => exact (gcmByte_sameKey g b).trans (ih _)

/-- What one data byte does to the counts. -/
theorem gcmByte_counts (g : GcmKeyed) (b : Byte) :
    (gcmByte g b).2.bufOff = (if g.bufOff + 1 = g.cap then (if g.enc then 0 else g.macSize) else g.bufOff + 1) ∧
    (gcmByte g b).2.blocksLeft = (if g.bufOff + 1 = g.cap then g.blocksLeft - 1 else g.blocksLeft) ∧
    (gcmByte g b).2.ctLen = (if g.bufOff + 1 = g.cap then g.ctLen + 16 else g.ctLen) := by
  by_cases h : g.bufOff + 1 = g.cap
  · rw [gcmByte_full h, if_pos h, if_pos h, if_pos h]
    unfold gcmRewind
    cases he : g.enc <;> simp [gcmData, he]
  · rw [gcmByte_partial h, if_neg h, if_neg h, if_neg h]
    exact ⟨rfl, rfl, rfl⟩

/-- The position in the buffer past the tag that is held back. -/
theorem gcmBytes_counts {g : GcmKeyed} (h : g.bufOff < g.cap) (bs : List Byte) :
    (gcmBytes g bs).2.bufOff < g.cap ∧
    (gcmBytes g bs).2.ctLen + (gcmBytes g bs).2.bufOff = g.ctLen + g.bufOff + bs.length ∧
    (gcmBytes g bs).1.length + g.ctLen = (gcmBytes g bs).2.ctLen ∧ 16 ∣ (gcmBytes g bs).1.length ∧
    (gcmBytes g bs).2.blocksLeft = g.blocksLeft - (gcmBytes g bs).1.length / 16 ∧
    (g.enc = false → (gcmBytes g bs).1.length = 0 ∨ g.macSize ≤ (gcmBytes g bs).2.bufOff) ∧
    (g.enc = false → g.macSize ≤ g.bufOff → g.macSize ≤ (gcmBytes g bs).2.bufOff) := by
  induction bs generalizing g with
  | nil => simp [gcmBytes, h]
  | cons b bs ih =>
    have hk := gcmByte_sameKey g b
    have hc := gcmByte_counts g b
    have hl := length_gcmByte g b
    have h' : (gcmByte g b).2.bufOff < (gcmByte g b).2.cap := by
      rw [hk.cap, hc.1]
      simp only [GcmKeyed.cap] at h ⊢
      split <;> split at h <;> split <;> omega
    obtain ⟨i1, i2, i3, i4, i5, i6, i7⟩ := ih h'
    rw [hk.cap] at i1
    rw [hk.enc, hk.macSize] at i6 i7
    simp only [gcmBytes, List.length_append, List.length_cons, hl, gcmByteSize]
    by_cases hf : g.bufOff + 1 = g.cap
    · simp only [if_pos hf] at hc ⊢
      obtain ⟨c1, c2, c3⟩ := hc
      rw [c1] at i2 i7
      rw [c3] at i2 i3
      rw [c2] at i5
      have hm : g.enc = false → g.macSize ≤ (gcmBytes (gcmByte g b).2 bs).2.bufOff :=
        fun he => i7 he (by simp [he])
      refine ⟨i1, ?_, by omega, by omega, by omega, fun he => .inr (hm he), fun he _ => hm he⟩
      simp only [GcmKeyed.cap] at hf
      split at hf <;> split at i2 <;> simp_all <;> omega
    · simp only [if_neg hf] at hc ⊢
      obtain ⟨c1, c2, c3⟩ := hc
      rw [c1] at i2 i7
      rw [c3] at i2 i3
      rw [c2] at i5
      exact ⟨i1, by omega, by omega, by omega, by simpa using i5, by simpa using i6,
        fun he hm => i7 he (by omega)⟩

/-- PBYTES writes as many bytes as GUOS says. -/
theorem length_gcmBytes {g : GcmKeyed} (h : g.bufOff < g.cap) (bs : List Byte) :
    (gcmBytes g bs).1.length = gcmUpdateSize g bs.length := by
  obtain ⟨i1, i2, i3, i4, i5, i6, i7⟩ := gcmBytes_counts h bs
  unfold gcmUpdateSize
  have hcap : g.cap = if g.enc then 16 else 16 + g.macSize := rfl
  cases he : g.enc
  · have := i6 he
    rw [he] at hcap
    simp only [Bool.false_eq_true, if_false] at hcap ⊢
    omega
  · rw [he] at hcap
    simp only [if_true] at hcap ⊢
    omega

/-! ## CCM (49_ccm_cbcmac.md R445) -/

theorem length_ccmMac {c : CcmKeyed} (h : c.macSize ≤ 16) (p : List Byte) :
    (ccmMac c p).length = c.macSize := by
  simp [ccmMac, h]

@[simp] theorem length_ccmXor (c : CcmKeyed) (x : List Byte) : (ccmXor c x).length = x.length := by
  simp [ccmXor, List.length_flatMap]
  omega

theorem length_ccmMask (c : CcmKeyed) {t : List Byte} (h : t.length ≤ 16) :
    (ccmMask c t).length = t.length := by
  simp [ccmMask, h]

/-- A packet that is not refused has the size FINAL and PPKT check for. -/
theorem length_ccmPacket {c : CcmKeyed} (h : c.macSize ≤ 16) {x : List Byte} {r : List Byte × List Byte}
    (hr : ccmPacket c x = some r) : r.1.length = ccmPacketSize c x.length := by
  unfold ccmPacket at hr
  unfold ccmPacketSize
  split at hr <;> rename_i he
  · obtain rfl := Option.some.inj hr
    simp [he, length_ccmMask c (length_ccmMac h x ▸ h), length_ccmMac h]
  · split at hr
    · cases hr
    · dsimp only at hr
      split at hr
      · obtain rfl := Option.some.inj hr
        simp [he]
      · cases hr

end Sys2Proof.Machine
end

