-- ==== Sys2Proof/Laws/SlotsOk.lean ====
section
/-! SUPPORT. The operations on a slot's fields keep the slot well formed (10_state.md R43 to R52). -/

namespace Sys2Proof.Machine

/-! ## What the slot a command admits is known to hold -/

section Admitted

variable {s : State} {c : Ctx} {sl : Slot} (h : s.SlotsOk) (hs : s.slot? c = some sl)
include h hs

theorem State.SlotsOk.slot : sl.Ok s.params := h sl (List.mem_of_getElem? hs)

theorem State.SlotsOk.aes {x : AesKeyed} (hx : sl.aes? = some (some x)) : x.aes.Ok (dirOf x.enc) := by
  have := h.slot hs
  rw [Slot.aes?_eq hx] at this
  exact this x rfl

theorem State.SlotsOk.cbc {x : CbcKeyed} (hx : sl.cbc? = some (some x)) : x.aes.Ok (dirOf x.enc) := by
  have := h.slot hs
  rw [Slot.cbc?_eq hx] at this
  exact this x rfl

theorem State.SlotsOk.ctr {x : CtrKeyed} (hx : sl.ctr? = some (some x)) : x.Ok := by
  have := h.slot hs
  rw [Slot.ctr?_eq hx] at this
  exact this x rfl

theorem State.SlotsOk.buf {b : Inner × Bool × Option BufKeyed} {x : BufKeyed} (hb : sl.buf? = some b)
    (hx : b.2.2 = some x) : x.cipher.Ok b.1 ∧ x.bufOff ≤ if b.2.1 then 16 else 15 := by
  have := h.slot hs
  rw [Slot.buf?_eq hb] at this
  exact this x hx

theorem State.SlotsOk.gcm {g : GcmSlot} {x : GcmKeyed} (hg : sl.gcm? = some g) (hx : g.key = some x) :
    x.Ok ∧ g.lastKey.isSome ∧ g.lastNonce.isSome := by
  have := h.slot hs
  rw [Slot.gcm?_eq hg] at this
  exact this x hx

theorem State.SlotsOk.ccm {g : CcmSlot} {x : CcmKeyed} (hg : sl.ccm? = some g) (hx : g.key = some x) :
    x.Ok s.params ∧ g.lastKey.isSome ∧ g.lastNonce = some x.nonce := by
  have := h.slot hs
  rw [Slot.ccm?_eq hg] at this
  exact this x hx

theorem State.SlotsOk.cmacSize {m : BitVec 5 × PadMode × Option CmacKeyed} (hm : sl.cmac? = some m) :
    m.1.toNat ≤ 16 := by
  have := h.slot hs
  rw [Slot.cmac?_eq hm] at this
  exact this.1

theorem State.SlotsOk.cmac {m : BitVec 5 × PadMode × Option CmacKeyed} {x : CmacKeyed}
    (hm : sl.cmac? = some m) (hx : m.2.2 = some x) : x.aes.Ok .E ∧ x.bufOff ≤ 16 := by
  have := h.slot hs
  rw [Slot.cmac?_eq hm] at this
  exact this.2 x hx

theorem State.SlotsOk.digest {d : DigestAlg × Digest} (hd : sl.digest? = some d) : d.2.Ok d.1 := by
  have := h.slot hs
  rwa [Slot.digest?_eq hd] at this

theorem State.SlotsOk.hmac {d : DigestAlg × Option HmacKeyed} {x : HmacKeyed} (hd : sl.hmac? = some d)
    (hx : d.2 = some x) : x.dg.Ok d.1 ∧ x.ipadState.Ok d.1 ∧ x.opadState.Ok d.1 := by
  have := h.slot hs
  rw [Slot.hmac?_eq hd] at this
  exact this x hx

end Admitted

/-! ## When a slot with its keyed fields is well formed -/

section Keyed

variable {p : Params}

@[simp] theorem Slot.ok_aes (k : AesKeyed) : (Slot.aes (some k)).Ok p ↔
    k.aes.Ok (dirOf k.enc) := by
  simp [Slot.Ok]

@[simp] theorem Slot.ok_cbc (k : CbcKeyed) : (Slot.cbc (some k)).Ok p ↔
    k.aes.Ok (dirOf k.enc) := by
  simp [Slot.Ok]

@[simp] theorem Slot.ok_ctr (k : CtrKeyed) : (Slot.ctr (some k)).Ok p ↔
    k.Ok := by
  simp [Slot.Ok]

@[simp] theorem Slot.ok_buf (inner : Inner) (padded : Bool) (k : BufKeyed) : (Slot.buf inner padded (some k)).Ok p ↔
    k.cipher.Ok inner ∧ k.bufOff ≤ (if padded then 16 else 15) := by
  simp [Slot.Ok]

@[simp] theorem Slot.ok_gcm (k : GcmKeyed) (m : Block) (lk ln : Option (List Byte)) : (Slot.gcm ⟨some k, m, lk, ln⟩).Ok p ↔
    k.Ok ∧ lk.isSome ∧ ln.isSome := by
  simp [Slot.Ok]

@[simp] theorem Slot.ok_ccm (k : CcmKeyed) (m : Block) (lk ln : Option (List Byte)) : (Slot.ccm ⟨some k, m, lk, ln⟩).Ok p ↔
    k.Ok p ∧ lk.isSome ∧ ln = some k.nonce := by
  simp [Slot.Ok]

@[simp] theorem Slot.ok_cmac (ms : BitVec 5) (pad : PadMode) (k : CmacKeyed) : (Slot.cmac ms pad (some k)).Ok p ↔
    ms.toNat ≤ 16 ∧ k.aes.Ok .E ∧ k.bufOff ≤ 16 := by
  simp [Slot.Ok]

@[simp] theorem Slot.ok_hmac (dk : DigestAlg) (k : HmacKeyed) : (Slot.hmac dk (some k)).Ok p ↔
    k.dg.Ok dk ∧ k.ipadState.Ok dk ∧ k.opadState.Ok dk := by
  simp [Slot.Ok]

@[simp] theorem Slot.ok_digest (alg : DigestAlg) (d : Digest) : (Slot.digest alg d).Ok p ↔ d.Ok alg :=
  Iff.rfl

/-- Dropping the key keeps a slot well formed. -/
theorem Slot.Ok.unkeyed {sl : Slot} (h : sl.Ok p) : sl.unkeyed.Ok p := by
  cases sl <;> first | exact h | simp [Slot.unkeyed, Slot.Ok]
  exact h.1

end Keyed

/-! ## Digests (43_digest.md R230) -/

theorem digestReset_ok (alg : DigestAlg) : (digestReset alg).Ok alg := by
  refine ⟨by cases alg <;> rfl, Nat.zero_lt_succ _, Nat.zero_lt_succ _, fun j h _ => ?_⟩
  simp [digestReset]

theorem length_digestCompress (alg : DigestAlg) (hs : List Word32) (x : Vector Word32 16) :
    (digestCompress alg hs x).length = digestSize alg / 4 := by
  cases alg <;> simp [digestCompress, digestSize, md5Compress, sha1Compress, sha256Compress]

/-- What ProcessWord leaves of the fields that Digest.Ok speaks of, `xBufOff` apart. -/
theorem processWord_ok {alg : DigestAlg} {d : Digest} (h1 : d.hs.length = digestSize alg / 4)
    (h2 : d.xOff < 16) (h3 : ∀ j (h : j < 16), d.xOff ≤ j → d.x[j] = 0) :
    (processWord alg d).hs.length = digestSize alg / 4 ∧ (processWord alg d).xOff < 16 ∧
      ∀ j (h : j < 16), (processWord alg d).xOff ≤ j → (processWord alg d).x[j] = 0 := by
  unfold processWord
  dsimp only
  split
  · refine ⟨length_digestCompress alg _ _, Nat.zero_lt_succ _, fun j hj _ => ?_⟩
    simp [processBlock]
  · refine ⟨h1, by dsimp only; omega, fun j hj hle => ?_⟩
    dsimp only at hle ⊢
    have hne : d.xOff ≠ j := by omega
    simpa [Vector.getElem_setIfInBounds, hne] using h3 j hj (by omega)

theorem digestAbsorb_ok {alg : DigestAlg} {d : Digest} (h : d.Ok alg) (b : Byte) :
    (digestAbsorb alg d b).Ok alg := by
  unfold digestAbsorb
  dsimp only
  split
  · obtain ⟨w1, w2, w3⟩ := processWord_ok
      (d := { d with xBuf := setByteAt d.xBuf d.xBufOff b, xBufOff := d.xBufOff + 1 }) h.words h.xOff h.clear
    exact ⟨w1, w2, Nat.zero_lt_succ _, w3⟩
  · have := h.xBufOff
    exact ⟨h.words, h.xOff, by dsimp only; omega, h.clear⟩

theorem digestAbsorbBytes_ok {alg : DigestAlg} {d : Digest} (h : d.Ok alg) (m : List Byte) :
    (digestAbsorbBytes alg d m).Ok alg := by
  induction m generalizing d with
  | nil => exact h
  | cons b m ih => exact ih (digestAbsorb_ok h b)

theorem hmacKey_ok (dk : DigestAlg) (key : List Byte) : (hmacKey dk key).1.Ok dk ∧ (hmacKey dk key).2.Ok dk :=
  ⟨digestAbsorbBytes_ok (digestReset_ok dk) _, digestAbsorbBytes_ok (digestReset_ok dk) _⟩

/-! ## Buffered ciphers (45_buffered.md R301, R304) -/

theorem cbcBlock_aes (c : CbcKeyed) (x : Block) :
    (cbcBlock c x).2.aes = c.aes ∧ (cbcBlock c x).2.enc = c.enc := by
  unfold cbcBlock
  split <;> exact ⟨rfl, rfl⟩

theorem blockOp_ok {inner : Inner} {c : InnerCipher} (h : c.Ok inner) (x : Block) :
    (blockOp c x).2.Ok inner := by
  cases c with
  | ecb k => exact h
  | cbc k =>
    have h' := cbcBlock_aes k x
    refine ⟨h.1, ?_⟩
    rw [h'.1, h'.2]
    exact h.2

theorem blockOp_enc (c : InnerCipher) (x : Block) : (blockOp c x).2.enc = c.enc := by
  cases c with
  | ecb k => rfl
  | cbc k => exact (cbcBlock_aes k x).2

theorem blockOps_ok {inner : Inner} {c : InnerCipher} (h : c.Ok inner) (xs : List Block) :
    (blockOps c xs).2.Ok inner := by
  induction xs generalizing c with
  | nil => exact h
  | cons x xs ih => exact ih (blockOp_ok h x)

theorem restart_ok {inner : Inner} {c : InnerCipher} (h : c.Ok inner) : c.restart.Ok inner := by
  cases c <;> exact h

theorem bufSettle_ok {inner : Inner} {b : BufKeyed} (h : b.cipher.Ok inner) (padded : Bool) :
    (bufSettle padded b).2.cipher.Ok inner := by
  unfold bufSettle
  split
  · exact blockOp_ok h _
  · exact h

theorem bufBytes_ok {inner : Inner} {b : BufKeyed} (h : b.cipher.Ok inner) (padded : Bool)
    (data : List Byte) : (bufBytes padded b data).2.cipher.Ok inner := by
  unfold bufBytes
  dsimp only
  split
  · exact bufSettle_ok (blockOps_ok (blockOp_ok h _) _) padded
  · exact bufSettle_ok (b := bufFill b data) h padded

theorem bufByte_ok {inner : Inner} {b : BufKeyed} (h : b.cipher.Ok inner) (brst : Nat) (padded : Bool)
    (x : Byte) : (bufByte brst padded b x).2.cipher.Ok inner := by
  cases padded <;> simp only [bufByte] <;> split
  · exact blockOp_ok h _
  · exact h
  · exact blockOp_ok h _
  · exact h

theorem bufByte_bufOff {padded : Bool} {b : BufKeyed} (h : b.bufOff ≤ if padded then 16 else 15)
    {brst : Nat} (hb : brst ≤ 15) (x : Byte) :
    (bufByte brst padded b x).2.bufOff ≤ if padded then 16 else 15 := by
  cases padded <;> simp only [bufByte] <;> split <;> simp at h ⊢ <;> omega

/-! ## CTR (47_ctr.md R361 to R364) -/

theorem CtrKeyed.Ok.tail_le {c : CtrKeyed} (h : c.Ok) : 16 * 2 ^ (8 * c.tail) ≤ 2 ^ 132 := by
  have h1 := h.ivLow
  have : 2 ^ (8 * c.tail) ≤ 2 ^ 64 := Nat.pow_le_pow_right (by decide) (by unfold CtrKeyed.tail; omega)
  omega

theorem ctrAdvance_ok {c : CtrKeyed} (h : c.Ok) {n : Nat} (hr : c.HasRoom n) : (ctrAdvance c n).Ok := by
  refine ⟨h.key, h.ivLow, h.ivHigh, Nat.mod_lt _ (by decide), fun ht => ?_⟩
  have ht' : c.tail ≠ 0 := ht
  have h1 := h.room ht'
  show (c.pos + n) % 2 ^ 132 ≤ 16 * 2 ^ (8 * c.tail)
  refine le_trans (Nat.mod_le _ _) ?_
  rcases hr with rfl | hr | hr
  · simpa using h1
  · exact absurd hr ht'
  · omega

theorem ctrSetPos_ok {c : CtrKeyed} (h : c.Ok) {p : Int} (hr : c.Settable p) : (ctrSetPos c p).Ok := by
  have h0 := h.tail_le
  by_cases ht : c.tail = 0
  · refine ⟨h.key, h.ivLow, h.ivHigh, ?_, fun ht' => absurd ht ht'⟩
    simp only [ctrSetPos, if_pos ht]
    omega
  · obtain ⟨h1, h2⟩ := hr.resolve_left ht
    have h3 : p.toNat < 16 * 2 ^ (8 * c.tail) := by
      rw [Int.toNat_lt h1]
      exact_mod_cast h2
    refine ⟨h.key, h.ivLow, h.ivHigh, ?_, fun _ => ?_⟩
    · simp only [ctrSetPos, if_neg ht]
      omega
    · show (if c.tail = 0 then (p % 2 ^ 132).toNat else p.toNat) ≤ 16 * 2 ^ (8 * c.tail)
      rw [if_neg ht]
      omega

/-! ## GCM (48_gcm.md R396 to R404) -/

theorem GcmKeyed.Ok.restart {g : GcmKeyed} (h : g.Ok) : (gcmRestart g).Ok :=
  ⟨h.key, h.macSize, Nat.lt_of_le_of_lt (Nat.zero_le _) h.bufOff, Nat.zero_add _⟩

theorem gcmBytes_ok {g : GcmKeyed} (h : g.Ok) {bs : List Byte}
    (hb : gcmUpdateSize g bs.length / 16 ≤ g.blocksLeft) : (gcmBytes g bs).2.Ok := by
  have hk := gcmBytes_sameKey g bs
  obtain ⟨i1, i2, i3, i4, i5, i6, i7⟩ := gcmBytes_counts h.bufOff bs
  have := length_gcmBytes h.bufOff bs
  have := h.blocks
  refine ⟨hk.aes ▸ h.key, hk.macSize ▸ h.macSize, hk.cap ▸ i1, ?_⟩
  omega

theorem gcmByte_ok {g : GcmKeyed} (h : g.Ok) {b : Byte} (hb : ¬(gcmByteSize g = 16 ∧ g.blocksLeft = 0)) :
    (gcmByte g b).2.Ok := by
  have hk := gcmByte_sameKey g b
  obtain ⟨c1, c2, c3⟩ := gcmByte_counts g b
  have h1 := h.blocks
  have h2 := h.bufOff
  have h3 := h.macSize
  refine ⟨hk.aes ▸ h.key, hk.macSize ▸ h.macSize, ?_, ?_⟩
  · rw [hk.cap, c1]
    have : g.cap = if g.enc then 16 else 16 + g.macSize := rfl
    split <;> split at this <;> (try split) <;> omega
  · rw [c2, c3]
    unfold gcmByteSize at hb
    split at hb <;> split <;> omega

/-! ## CBC-MAC (49_ccm_cbcmac.md R471) -/

theorem cmacAbsorb_ok {c : CmacKeyed} (h : c.aes.Ok .E ∧ c.bufOff ≤ 16) (b : Byte) :
    (cmacAbsorb c b).aes.Ok .E ∧ (cmacAbsorb c b).bufOff ≤ 16 := by
  unfold cmacAbsorb cmacChain
  dsimp only
  split
  · exact ⟨h.1, Nat.le_add_left 1 15⟩
  · exact ⟨h.1, by omega⟩

theorem cmacAbsorbBytes_ok {c : CmacKeyed} (h : c.aes.Ok .E ∧ c.bufOff ≤ 16) (bs : List Byte) :
    (cmacAbsorbBytes c bs).aes.Ok .E ∧ (cmacAbsorbBytes c bs).bufOff ≤ 16 := by
  induction bs generalizing c with
  | nil => exact h
  | cons b bs ih => exact ih (cmacAbsorb_ok h b)

end Sys2Proof.Machine
end

