-- ==== Sys2Proof/Laws/Effects.lean ====
section
/-! SUPPORT. Everything a command can do, said once: it succeeds, or raises a precise error, or fails as an
INIT, or fails as a FINAL that restarts its slot (60_exceptions.md R505, R506). -/

namespace Sys2Proof.Machine

/-- The slots after a success: unchanged, or the addressed one replaced by a well-formed slot. -/
def SlotStep (i : Instr) (s t : State) : Prop :=
  t.slots = s.slots ∨ ∃ c sl, i.ctx? = some c ∧ t.slots = s.slots.set c.toNat sl ∧
    (i.wf = true → s.SlotsOk → sl.Ok s.params)

/-- DMEM after a success: some bytes were written inside an output range. -/
def MemStep (i : Instr) (s t : State) : Prop :=
  ∃ a bs, t.mem = s.mem.writeBytes a bs ∧ (s.SlotsOk → bs = [] ∨
    ∃ r ∈ outRanges i s, r.base ≤ a ∧ a + bs.length ≤ r.base + r.len ∧ s.Inside r)

/-- What a success does. -/
structure Success (i : Instr) (s t : State) : Prop where
  regs : SameRegs s t
  err : t.err = .ok
  pend : t.pend = none
  raced : t.raced = []
  unseen : t.unseen = s.pend.toList ++ s.unseen
  lateRaced : t.lateRaced = s.lateRaced
  slots : SlotStep i s t
  mem : MemStep i s t
  draws : s.draws ≤ t.draws

/-- The errors of an INIT past RegionCheck (R156). -/
def initErrors : List Err := [.invalidParameter, .misuseDetected, .capacityExceeded]

/-- The four ends of a command. -/
inductive Effect (i : Instr) (s : State) : State → Prop where
  | success {t : State} (h : Success i s t) : Effect i s t
  | precise {e : Err} (he : e ≠ .ok) (hi : isInitCommand i = true → e ∉ initErrors)
      (hr : ∀ errs r, restarts i = some (errs, r) → e ∉ errs)
      (ha : e = .accessFault → ¬ s.AllInside (ranges i s)) : Effect i s (s.raise e)
  | failedInit {c : Ctx} {sl : Slot} {e : Err} (hc : i.ctx? = some c) (hs : s.slot? c = some sl)
      (hd : ∀ alg d, sl ≠ .digest alg d) (hi : isInitCommand i = true) (he : e ∈ initErrors) : Effect i s ((s.setSlot c sl.unkeyed).raise e)
  | failedFinal {c : Ctx} {sl : Slot} {e : Err} {r : Instr} (hc : i.ctx? = some c)
      (hi : isInitCommand i = false) (hr : exec r s = .next ((s.setSlot c sl).finish 0))
      (he : (∃ errs, restarts i = some (errs, r) ∧ e ∈ errs) ∨
        (i = .bufFinal c ∧ r = .bufReset c ∧ e = .outputTooShort))
      (hok : s.SlotsOk → sl.Ok s.params) : Effect i s ((s.setSlot c sl).raise e)

variable {i : Instr} {s : State} {c : Ctx}

/-! ## Successes -/

theorem Success.finish (r : Word64) : Success i s (s.finish r) :=
  ⟨⟨rfl, rfl, rfl, rfl, rfl, rfl⟩, rfl, rfl, rfl, rfl, rfl, .inl rfl, ⟨0, [], rfl, fun _ => .inl rfl⟩, le_rfl⟩

theorem Success.finishSize (n : Nat) : Success i s (s.finishSize n) := .finish _

theorem Success.setSlot {sl : Slot} (hc : i.ctx? = some c)
    (hok : i.wf = true → s.SlotsOk → sl.Ok s.params) (r : Word64) :
    Success i s ((s.setSlot c sl).finish r) :=
  ⟨⟨rfl, rfl, rfl, rfl, rfl, rfl⟩, rfl, rfl, rfl, rfl, rfl, .inr ⟨c, sl, hc, rfl, hok⟩,
    ⟨0, [], rfl, fun _ => .inl rfl⟩, le_rfl⟩

theorem Success.memWrite {a : Nat} {bs : List Byte} {r : Range} (hr : r ∈ outRanges i s) (hin : s.Inside r)
    (h1 : r.base ≤ a) (h2 : a + bs.length ≤ r.base + r.len) (v : Word64) :
    Success i s ((s.memWrite a bs).finish v) :=
  ⟨⟨rfl, rfl, rfl, rfl, rfl, rfl⟩, rfl, rfl, rfl, rfl, rfl, .inl rfl,
    ⟨a, bs, rfl, fun _ => .inr ⟨r, hr, h1, h2, hin⟩⟩, le_rfl⟩

/-- Output that OutCheck let through lies inside the output array. -/
theorem outFits_inside {n : Nat} {bs : List Byte} (hf : s.OutFits n) (hl : bs.length = n)
    (ho : s.outArray ∈ outRanges i s) (hin : s.Inside s.outArray) :
    bs = [] ∨ ∃ r ∈ outRanges i s, r.base ≤ s.outAddr ∧ s.outAddr + bs.length ≤ r.base + r.len ∧
      s.Inside r := by
  rcases hf with hf | hf
  · exact .inl (List.eq_nil_of_length_eq_zero (hl.trans hf))
  · refine .inr ⟨_, ho, Nat.le_add_right _ _, ?_, hin⟩
    simp only [State.outAddr, State.outArray, hl]
    omega

theorem Success.emitOut {n : Nat} {bs : List Byte} (hf : s.OutFits n)
    (hl : s.SlotsOk → bs.length = n) (ho : s.outArray ∈ outRanges i s) (hin : s.Inside s.outArray) :
    Success i s (s.emitOut bs) :=
  ⟨⟨rfl, rfl, rfl, rfl, rfl, rfl⟩, rfl, rfl, rfl, rfl, rfl, .inl rfl,
    ⟨_, _, rfl, fun h => outFits_inside hf (hl h) ho hin⟩, le_rfl⟩

theorem Success.setSlot_emitOut {sl : Slot} {n : Nat} {bs : List Byte} (hc : i.ctx? = some c)
    (hf : s.OutFits n) (hl : s.SlotsOk → bs.length = n) (ho : s.outArray ∈ outRanges i s)
    (hin : s.Inside s.outArray) (hok : i.wf = true → s.SlotsOk → sl.Ok s.params) :
    Success i s ((s.setSlot c sl).emitOut bs) :=
  ⟨⟨rfl, rfl, rfl, rfl, rfl, rfl⟩, rfl, rfl, rfl, rfl, rfl, .inr ⟨c, sl, hc, rfl, hok⟩,
    ⟨_, _, rfl, fun h => outFits_inside hf (hl h) ho hin⟩, le_rfl⟩

theorem Success.storeOver {ins : List Range} {a : Nat} {bs : List Byte} {r : Range} (hr : r ∈ outRanges i s)
    (hin : s.Inside r) (h1 : r.base ≤ a) (h2 : a + bs.length ≤ r.base + r.len) (v : Word64) :
    Success i s ((s.storeOver ins a bs).finish v) :=
  have ⟨bs', hl, hm⟩ := s.storeOver_mem ins a bs
  ⟨⟨rfl, rfl, rfl, rfl, rfl, rfl⟩, rfl, rfl, rfl, rfl, rfl, .inl rfl,
    ⟨a, bs', hm, fun _ => .inr ⟨r, hr, h1, hl.symm ▸ h2, hin⟩⟩, s.storeOver_draws _ _ _⟩

theorem Success.setSlot_emit {sl : Slot} {n k : Nat} {bs : List Byte} (hc : i.ctx? = some c)
    (hf : s.OutFits n) (hl : s.SlotsOk → bs.length = n) (ho : s.outArray ∈ outRanges i s)
    (hin : s.Inside s.outArray) (hok : i.wf = true → s.SlotsOk → sl.Ok s.params) :
    Success i s ((s.setSlot c sl).emit k bs) :=
  have ⟨bs', hl', hm⟩ := (s.setSlot c sl).storeOver_mem [⟨s.inAddr, k⟩] s.outAddr bs
  ⟨⟨rfl, rfl, rfl, rfl, rfl, rfl⟩, rfl, rfl, rfl, rfl, rfl, .inr ⟨c, sl, hc, rfl, hok⟩,
    ⟨_, bs', hm, fun h => outFits_inside hf (hl'.trans (hl h)) ho hin⟩,
    (s.setSlot c sl).storeOver_draws _ _ _⟩

theorem Success.emit {n k : Nat} {bs : List Byte} (hf : s.OutFits n) (hl : s.SlotsOk → bs.length = n)
    (ho : s.outArray ∈ outRanges i s) (hin : s.Inside s.outArray) : Success i s (s.emit k bs) :=
  have ⟨bs', hl', hm⟩ := s.storeOver_mem [⟨s.inAddr, k⟩] s.outAddr bs
  ⟨⟨rfl, rfl, rfl, rfl, rfl, rfl⟩, rfl, rfl, rfl, rfl, rfl, .inl rfl,
    ⟨_, bs', hm, fun h => outFits_inside hf (hl'.trans (hl h)) ho hin⟩, s.storeOver_draws _ _ _⟩

/-! ## Errors -/

/-- The commands that restart a slot, with their errors. -/
theorem restarts_cases {errs : List Err} {r : Instr} (h : restarts i = some (errs, r)) :
    (errs = [.dataTooShort, .authenticationFailed] ∧ ∃ c, i = .bufFinal c ∧ r = .bufReset c) ∨
    (errs = [.authenticationFailed] ∧ ((∃ c, i = .gcmFinal c ∧ r = .gcmReset c) ∨
      ∃ c, (i = .ccmFinal c ∨ i = .ccmPpkt c) ∧ r = .ccmReset c)) := by
  cases i <;> simp_all [restarts]

/-- A decode failure past step 4 is precise, whatever the command. -/
theorem Effect.illegal : Effect i s (s.raise .illegalCommand) := by
  refine .precise (by decide) (fun _ => by decide) ?_ (by simp)
  intro errs r h
  rcases restarts_cases h with ⟨rfl, -⟩ | ⟨rfl, -⟩ <;> decide

/-- So is an AccessFault. -/
theorem Effect.access {rs : List Range} (h : ¬ s.AllInside rs) (hsub : ∀ r ∈ rs, r ∈ ranges i s) :
    Effect i s (s.raise .accessFault) := by
  refine .precise (by decide) (fun _ => by decide) ?_ fun _ h' => h fun r hr => h' r (hsub r hr)
  intro errs r h
  rcases restarts_cases h with ⟨rfl, -⟩ | ⟨rfl, -⟩ <;> decide

/-- A failed INIT drops the key of the slot it addressed. -/
theorem Effect.dropped {sl : Slot} {e : Err} (hs : s.slot? c = some sl)
    (hd : ∀ alg d, sl ≠ .digest alg d) (hc : i.ctx? = some c) (hi : isInitCommand i = true) (he : e ∈ initErrors) : Effect i s ((s.dropKey c).raise e) :=
  State.dropKey_eq hs ▸ .failedInit hc hs hd hi he

/-- The errors of a command that is no INIT and restarts nothing are precise. -/
theorem Effect.plain {e : Err} (he : e ≠ .ok) (ha : e ≠ .accessFault) (hi : isInitCommand i = false)
    (hr : restarts i = none) : Effect i s (s.raise e) :=
  .precise he (fun h => by rw [hi] at h; cases h) (fun _ _ h => by rw [hr] at h; cases h)
    fun h => absurd h ha

/-! ## SYS and PACK -/

theorem execCfg_effect (c : Ctx) (conf : AlgConf) (s : State) :
    EndsIn (execCfg c conf s) (Effect (.cfg c conf) s) := by
  refine .onSlot (fun sl x hs hx => .next (.success (.setSlot rfl (fun hwf _ => ?_) _))) fun _ => .illegal
  cases conf with
  | cmac ms pad => exact ⟨by simpa [Instr.wf, AlgConf.wf] using hwf, by simp⟩
  | digest alg => exact digestReset_ok alg
  | _ => simp [freshSlot, Slot.Ok]

theorem execCopy_effect (c : Ctx) (s : State) : EndsIn (execCopy c s) (Effect (.copy c) s) := by
  refine .onSlot (fun sl x hs hx => ?_) fun _ => .illegal
  split
  · rename_i alg dg h
    refine .guard (fun _ => .next (.success (.setSlot rfl (fun _ hok => ?_) _))) fun _ => .illegal
    obtain ⟨src, h1, h2⟩ := Option.bind_eq_some_iff.mp h
    have := hok src (List.mem_of_getElem? h1)
    rwa [Slot.digest?_eq h2] at this
  · exact .next .illegal

theorem execGbs_effect (c : Ctx) (s : State) : EndsIn (execGbs c s) (Effect (.gbs c) s) :=
  .onSlot (fun _ _ _ _ => .next (.success (.finish _))) fun _ => .illegal

theorem execGms_effect (c : Ctx) (s : State) : EndsIn (execGms c s) (Effect (.gms c) s) :=
  .onSlot (fun _ _ _ _ => .require (fun _ _ => .next (.success (.finish _)))
    fun _ => .plain (by decide) (by decide) rfl rfl) fun _ => .illegal

theorem execGds_effect (c : Ctx) (s : State) : EndsIn (execGds c s) (Effect (.gds c) s) :=
  .onSlot (fun _ _ _ _ => .next (.success (.finish _))) fun _ => .illegal

theorem execGbl_effect (c : Ctx) (s : State) : EndsIn (execGbl c s) (Effect (.gbl c) s) :=
  .onSlot (fun _ _ _ _ => .next (.success (.finish _))) fun _ => .illegal

theorem packStore_effect {n : Nat} {bs : List Byte} (hl : bs.length = n)
    (h : outRanges i s = [s.packRange n]) : EndsIn (packStore s n bs) (Effect i s) :=
  .guard (fun hin => .next (.success (.memWrite (r := s.packRange n) (by simp [h]) hin le_rfl
    (by simp [State.packRange, hl]) _))) fun hin => .access (rs := [s.packRange n]) (by simpa using hin) (by simp [ranges, h])

theorem packLoad_effect {n : Nat} {val : List Byte → Nat} (h : inRanges i s = [s.packRange n]) :
    EndsIn (packLoad s n val) (Effect i s) :=
  .guard (fun _ => .next (.success (.finish _))) fun hin => .access (rs := [s.packRange n]) (by simpa using hin) (by simp [ranges, h])

theorem execSt16be_effect  (s : State) :
    EndsIn (execSt16be s) (Effect (.st16be) s) :=
  packStore_effect (by simp) rfl

theorem execSt16le_effect  (s : State) :
    EndsIn (execSt16le s) (Effect (.st16le) s) :=
  packStore_effect (by simp) rfl

theorem execSt32be_effect  (s : State) :
    EndsIn (execSt32be s) (Effect (.st32be) s) :=
  packStore_effect (by simp) rfl

theorem execSt32le_effect  (s : State) :
    EndsIn (execSt32le s) (Effect (.st32le) s) :=
  packStore_effect (by simp) rfl

theorem execSt64be_effect  (s : State) :
    EndsIn (execSt64be s) (Effect (.st64be) s) :=
  packStore_effect (by simp) rfl

theorem execSt64le_effect  (s : State) :
    EndsIn (execSt64le s) (Effect (.st64le) s) :=
  packStore_effect (by simp) rfl

theorem execLd16be_effect  (s : State) :
    EndsIn (execLd16be s) (Effect (.ld16be) s) :=
  packLoad_effect rfl

theorem execLd16le_effect  (s : State) :
    EndsIn (execLd16le s) (Effect (.ld16le) s) :=
  packLoad_effect rfl

theorem execLd32be_effect  (s : State) :
    EndsIn (execLd32be s) (Effect (.ld32be) s) :=
  packLoad_effect rfl

theorem execLd32le_effect  (s : State) :
    EndsIn (execLd32le s) (Effect (.ld32le) s) :=
  packLoad_effect rfl

theorem execLd64be_effect  (s : State) :
    EndsIn (execLd64be s) (Effect (.ld64be) s) :=
  packLoad_effect rfl

theorem execLd64le_effect  (s : State) :
    EndsIn (execLd64le s) (Effect (.ld64le) s) :=
  packLoad_effect rfl

/-! ## AES -/

theorem execAesInit_effect (c : Ctx) (pk : PKind) (rnd enc : Bool) (s : State) :
    EndsIn (execAesInit c pk rnd enc s) (Effect (.aesInit c pk rnd enc) s) := by
  refine .onSlot (fun _ _ hs hx => .guard (fun _ => .guard (fun _ => .loadKey (fun k hk => .next (.success (.setSlot rfl (fun _ _ => ?_) _)))
    (fun _ => .dropped hs (by rintro _ _ rfl; cases hx) rfl rfl (by decide)))
    (fun _ => .dropped hs (by rintro _ _ rfl; cases hx) rfl rfl (by decide)))
    (fun h => .access h (by simp [ranges, inRanges, outRanges])))
    (fun _ => .illegal)
  exact (Slot.ok_aes _).mpr (aesLoad_ok hk)

theorem execAesPblk_effect (c : Ctx) (s : State) :
    EndsIn (execAesPblk c s) (Effect (.aesPblk c) s) :=
  .onSlot (fun _ _ _ _ => .guard (fun hin => .require (fun k _ => .guard (fun _ => .guard (fun hf => .next (.success (.emit hf (fun _ => by simp) (by simp [outRanges]) (hin _ (by simp)))))
    (fun _ => .plain (by decide) (by decide) rfl rfl))
    (fun _ => .plain (by decide) (by decide) rfl rfl))
    (fun _ => .plain (by decide) (by decide) rfl rfl))
    (fun h => .access h (by simp [ranges, inRanges, outRanges])))
    (fun _ => .illegal)

theorem execAesReset_effect (c : Ctx) (s : State) :
    EndsIn (execAesReset c s) (Effect (.aesReset c) s) :=
  .onSlot (fun _ _ _ _ => .next (.success (.finish _)))
    (fun _ => .illegal)

/-! ## Digests and HMAC -/

theorem execDgUpd_effect (c : Ctx) (s : State) :
    EndsIn (execDgUpd c s) (Effect (.dgUpd c) s) := by
  refine .onSlot (fun _ _ hs hx => .next (.success (.setSlot rfl (fun _ hok => ?_) _)))
    (fun _ => .illegal)
  exact digestAbsorb_ok (hok.digest hs hx) _

theorem execDgUpds_effect (c : Ctx) (s : State) :
    EndsIn (execDgUpds c s) (Effect (.dgUpds c) s) := by
  refine .onSlot (fun _ _ hs hx => .guard (fun _ => .guard (fun _ => .next (.success (.setSlot rfl (fun _ hok => ?_) _)))
    (fun _ => .plain (by decide) (by decide) rfl rfl))
    (fun h => .access h (by simp [ranges, inRanges, outRanges])))
    (fun _ => .illegal)
  exact digestAbsorbBytes_ok (hok.digest hs hx) _

theorem execDgFinal_effect (c : Ctx) (s : State) :
    EndsIn (execDgFinal c s) (Effect (.dgFinal c) s) := by
  refine .onSlot (fun _ _ _ _ => .guard (fun hin => .guard (fun hf => .next (.success (.setSlot_emitOut rfl hf (fun _ => by simp) (by simp [outRanges])
      (hin _ (by simp)) fun _ _ => ?_)))
    (fun _ => .plain (by decide) (by decide) rfl rfl))
    (fun h => .access h (by simp [ranges, inRanges, outRanges])))
    (fun _ => .illegal)
  exact digestReset_ok _

theorem execDgReset_effect (c : Ctx) (s : State) :
    EndsIn (execDgReset c s) (Effect (.dgReset c) s) := by
  refine .onSlot (fun _ _ _ _ => .next (.success (.setSlot rfl (fun _ _ => ?_) _)))
    (fun _ => .illegal)
  exact digestReset_ok _

theorem execHmInit_effect (c : Ctx) (pk : PKind) (rnd : Bool) (s : State) :
    EndsIn (execHmInit c pk rnd s) (Effect (.hmInit c pk rnd) s) := by
  refine .onSlot (fun _ _ hs hx => .guard (fun _ => .guard (fun _ => .next (.success (.setSlot rfl (fun _ _ => ?_) _)))
    (fun _ => .dropped hs (by rintro _ _ rfl; cases hx) rfl rfl (by decide)))
    (fun h => .access h (by simp [ranges, inRanges, outRanges])))
    (fun _ => .illegal)
  exact (Slot.ok_hmac _ _).mpr ⟨(hmacKey_ok _ _).1, hmacKey_ok _ _⟩

theorem execHmUpd_effect (c : Ctx) (s : State) :
    EndsIn (execHmUpd c s) (Effect (.hmUpd c) s) := by
  refine .onSlot (fun _ _ hs hx => .require (fun k hk => .next (.success (.setSlot rfl (fun _ hok => ?_) _)))
    (fun _ => .plain (by decide) (by decide) rfl rfl))
    (fun _ => .illegal)
  have h := hok.hmac hs hx hk
  exact (Slot.ok_hmac _ _).mpr ⟨digestAbsorb_ok h.1 _, h.2⟩

theorem execHmUpds_effect (c : Ctx) (s : State) :
    EndsIn (execHmUpds c s) (Effect (.hmUpds c) s) := by
  refine .onSlot (fun _ _ hs hx => .guard (fun _ => .require (fun k hk => .guard (fun _ => .next (.success (.setSlot rfl (fun _ hok => ?_) _)))
    (fun _ => .plain (by decide) (by decide) rfl rfl))
    (fun _ => .plain (by decide) (by decide) rfl rfl))
    (fun h => .access h (by simp [ranges, inRanges, outRanges])))
    (fun _ => .illegal)
  have h := hok.hmac hs hx hk
  exact (Slot.ok_hmac _ _).mpr ⟨digestAbsorbBytes_ok h.1 _, h.2⟩

theorem execHmFinal_effect (c : Ctx) (s : State) :
    EndsIn (execHmFinal c s) (Effect (.hmFinal c) s) := by
  refine .onSlot (fun _ _ hs hx => .guard (fun hin => .require (fun k hk => .guard (fun hf => .next (.success (.setSlot_emitOut rfl hf (fun hok => by simp) (by simp [outRanges])
      (hin _ (by simp)) fun _ hok => ?_)))
    (fun _ => .plain (by decide) (by decide) rfl rfl))
    (fun _ => .plain (by decide) (by decide) rfl rfl))
    (fun h => .access h (by simp [ranges, inRanges, outRanges])))
    (fun _ => .illegal)
  have h := hok.hmac hs hx hk
  exact (Slot.ok_hmac _ _).mpr ⟨h.2.1, h.2⟩

theorem execHmReset_effect (c : Ctx) (s : State) :
    EndsIn (execHmReset c s) (Effect (.hmReset c) s) := by
  refine .onSlot (fun _ _ hs hx => .next (.success (.setSlot rfl (fun _ hok => ?_) _)))
    (fun _ => .illegal)
  intro y hy
  obtain ⟨k, hk, rfl⟩ := Option.map_eq_some_iff.mp hy
  have h := hok.hmac hs hx hk
  exact ⟨h.2.1, h.2⟩

/-! ## BUF and PAD -/

theorem execBufInit_effect (c : Ctx) (pk : PKind) (rnd enc : Bool) (s : State) :
    EndsIn (execBufInit c pk rnd enc s) (Effect (.bufInit c pk rnd enc) s) := by
  refine .onSlot (fun _ x hs hx => .guard (fun _ => .guard (fun _ => .guard (fun _ => .guard (fun _ => .loadKey (fun k hk => .next (.success (.setSlot rfl (fun _ _ => ?_) _)))
    (fun _ => .dropped hs (by rintro _ _ rfl; cases hx) rfl rfl (by decide)))
    (fun _ => .dropped hs (by rintro _ _ rfl; cases hx) rfl rfl (by decide)))
    (fun _ => .dropped hs (by rintro _ _ rfl; cases hx) rfl rfl (by decide)))
    (fun _ => .dropped hs (by rintro _ _ rfl; cases hx) rfl rfl (by decide)))
    (fun h => .access h (by simp [ranges, inRanges, outRanges])))
    (fun _ => .illegal)
  refine (Slot.ok_buf _ _ _).mpr ⟨restart_ok ?_, Nat.zero_le _⟩
  cases h : x.1 <;> exact ⟨rfl, aesLoad_ok hk⟩

theorem execBufPbyte_effect (c : Ctx) (s : State) :
    EndsIn (execBufPbyte c s) (Effect (.bufPbyte c) s) := by
  refine .onSlot (fun _ _ hs hx => .guard (fun hin => .require (fun k hk => .guard (fun hf => .next (.success (.setSlot_emitOut rfl hf (fun hok => length_bufByte _ _ _ _) (by simp [outRanges])
      (hin _ (by simp)) fun _ hok => ?_)))
    (fun _ => .plain (by decide) (by decide) rfl rfl))
    (fun _ => .plain (by decide) (by decide) rfl rfl))
    (fun h => .access h (by simp [ranges, inRanges, outRanges])))
    (fun _ => .illegal)
  have h := hok.buf hs hx hk
  refine (Slot.ok_buf _ _ _).mpr ⟨bufByte_ok h.1 _ _ _, bufByte_bufOff h.2 ?_ _⟩
  cases s.params.bufByteReset <;> decide

theorem execBufPbytes_effect (c : Ctx) (s : State) :
    EndsIn (execBufPbytes c s) (Effect (.bufPbytes c) s) := by
  refine .onSlot (fun _ _ hs hx => .guard (fun hin => .require (fun k hk => .guard (fun _ => .guard (fun hf => .next (.success (.setSlot_emit rfl hf (fun hok => (length_bufBytes (hok.buf hs hx hk).2 _).trans (by simp)) (by simp [outRanges])
      (hin _ (by simp)) fun _ hok => ?_)))
    (fun _ => .plain (by decide) (by decide) rfl rfl))
    (fun _ => .plain (by decide) (by decide) rfl rfl))
    (fun _ => .plain (by decide) (by decide) rfl rfl))
    (fun h => .access h (by simp [ranges, inRanges, outRanges])))
    (fun _ => .illegal)
  have h := hok.buf hs hx hk
  exact (Slot.ok_buf _ _ _).mpr ⟨bufBytes_ok h.1 _ _, bufBytes_bufOff h.2 _⟩

/-- The slot BUF.RESET leaves. -/
theorem execBufReset_of_keyed {s : State} {c : Ctx} {sl : Slot} {b : Inner × Bool × Option BufKeyed}
    {k : BufKeyed} (hs : s.slot? c = some sl) (hx : sl.buf? = some b) (hk : b.2.2 = some k) :
    exec (.bufReset c) s = .next ((s.setSlot c (.buf b.1 b.2.1 (some (bufReset k)))).finish 0) := by
  show execBufReset c s = _
  unfold execBufReset
  rw [State.onSlot_slot hs hx, hk]
  rfl

theorem bufReset_slotOk {s : State} {c : Ctx} {sl : Slot} {b : Inner × Bool × Option BufKeyed}
    {k : BufKeyed} (hok : s.SlotsOk) (hs : s.slot? c = some sl) (hx : sl.buf? = some b)
    (hk : b.2.2 = some k) : (Slot.buf b.1 b.2.1 (some (bufReset k))).Ok s.params :=
  (Slot.ok_buf _ _ _).mpr ⟨restart_ok (hok.buf hs hx hk).1, Nat.zero_le _⟩

theorem execBufFinal_effect (c : Ctx) (s : State) :
    EndsIn (execBufFinal c s) (Effect (.bufFinal c) s) := by
  refine .onSlot (fun _ _ hs hx => .guard (fun hin => .require (fun k hk => ?_)
    (fun _ => .precise (by decide) nofun (by simp [restarts]) (by simp)))
    (fun h => .access h (by simp [ranges, inRanges, outRanges])))
    (fun _ => .illegal)
  split
  · exact .guard (fun _ => .guard (fun _ => .next (.success (.setSlot rfl
      (fun _ hok => bufReset_slotOk hok hs hx hk) _))) (fun _ => .failedFinal rfl rfl (execBufReset_of_keyed hs hx hk) (.inl ⟨_, rfl, by decide⟩)
        fun hok => bufReset_slotOk hok hs hx hk))
      (fun _ => .precise (by decide) nofun (by simp [restarts]) (by simp))
  · refine .guard (fun hf => .next (.success (.setSlot_emitOut rfl hf (fun _ => ?_) (by simp [outRanges])
      (hin _ (by simp)) fun _ hok => bufReset_slotOk hok hs hx hk))) (fun _ => .precise (by decide) nofun (by simp [restarts]) (by simp))
    unfold bufFinalBytes
    split <;> simp_all
  · refine .guard (fun _ => ?_) (fun _ => .failedFinal rfl rfl (execBufReset_of_keyed hs hx hk) (.inl ⟨_, rfl, by decide⟩)
        fun hok => bufReset_slotOk hok hs hx hk)
    split
    · exact .guard (fun hf => .next (.success (.setSlot_emitOut rfl hf (fun _ => by simp) (by simp [outRanges])
        (hin _ (by simp)) fun _ hok => bufReset_slotOk hok hs hx hk))) (fun _ => .failedFinal rfl rfl (execBufReset_of_keyed hs hx hk) (.inr ⟨rfl, rfl, rfl⟩)
        fun hok => bufReset_slotOk hok hs hx hk)
    · exact .next (.failedFinal rfl rfl (execBufReset_of_keyed hs hx hk) (.inl ⟨_, rfl, by decide⟩)
        fun hok => bufReset_slotOk hok hs hx hk)

theorem execBufReset_effect (c : Ctx) (s : State) :
    EndsIn (execBufReset c s) (Effect (.bufReset c) s) := by
  refine .onSlot (fun _ _ hs hx => .next (.success (.setSlot rfl (fun _ hok => ?_) _)))
    (fun _ => .illegal)
  intro y hy
  obtain ⟨k, hk, rfl⟩ := Option.map_eq_some_iff.mp hy
  have h := hok.buf hs hx hk
  exact ⟨restart_ok h.1, Nat.zero_le _⟩

theorem execBufGos_effect (c : Ctx) (s : State) :
    EndsIn (execBufGos c s) (Effect (.bufGos c) s) :=
  .onSlot (fun _ _ _ _ => .require (fun k _ => .next (.success (.finishSize _)))
    (fun _ => .plain (by decide) (by decide) rfl rfl))
    (fun _ => .illegal)

theorem execBufGuos_effect (c : Ctx) (s : State) :
    EndsIn (execBufGuos c s) (Effect (.bufGuos c) s) :=
  .onSlot (fun _ _ _ _ => .require (fun k _ => .next (.success (.finishSize _)))
    (fun _ => .plain (by decide) (by decide) rfl rfl))
    (fun _ => .illegal)

theorem execPadAdd_effect  (s : State) :
    EndsIn (execPadAdd s) (Effect (.padAdd) s) :=
  .guard (fun hin => .guard (fun _ => 
    .next (.success (.memWrite (r := s.padRange) (by simp [outRanges]) (hin _ (by simp)) (Nat.le_add_right _ _)
      (by simp only [State.padRange, padTail, List.length_replicate]; omega) _)))
    (fun _ => .plain (by decide) (by decide) rfl rfl))
    (fun h => .access h (by simp [ranges, inRanges, outRanges]))

theorem execPadCnt_effect  (s : State) :
    EndsIn (execPadCnt s) (Effect (.padCnt) s) := by
  refine .guard (fun _ => .guard (fun _ => ?_)
    (fun _ => .plain (by decide) (by decide) rfl rfl))
    (fun h => .access h (by simp [ranges, inRanges, outRanges]))
  split
  · exact .next (.success (.finish _))
  · exact .next (.plain (by decide) (by decide) rfl rfl)

/-! ## CBC and CTR -/

theorem execCbcInit_effect (c : Ctx) (pk : PKind) (rnd enc : Bool) (s : State) :
    EndsIn (execCbcInit c pk rnd enc s) (Effect (.cbcInit c pk rnd enc) s) := by
  refine .onSlot (fun _ _ hs hx => .guard (fun _ => .guard (fun _ => .guard (fun _ => .loadKey (fun k hk => .next (.success (.setSlot rfl (fun _ _ => ?_) _)))
    (fun _ => .dropped hs (by rintro _ _ rfl; cases hx) rfl rfl (by decide)))
    (fun _ => .dropped hs (by rintro _ _ rfl; cases hx) rfl rfl (by decide)))
    (fun _ => .dropped hs (by rintro _ _ rfl; cases hx) rfl rfl (by decide)))
    (fun h => .access h (by simp [ranges, inRanges, outRanges])))
    (fun _ => .illegal)
  exact (Slot.ok_cbc _).mpr (aesLoad_ok hk)

theorem execCbcPblk_effect (c : Ctx) (s : State) :
    EndsIn (execCbcPblk c s) (Effect (.cbcPblk c) s) := by
  refine .onSlot (fun _ _ hs hx => .guard (fun hin => .require (fun k hk => .guard (fun _ => .guard (fun hf => .next (.success (.setSlot_emit rfl hf (fun hok => by simp) (by simp [outRanges])
      (hin _ (by simp)) fun _ hok => ?_)))
    (fun _ => .plain (by decide) (by decide) rfl rfl))
    (fun _ => .plain (by decide) (by decide) rfl rfl))
    (fun _ => .plain (by decide) (by decide) rfl rfl))
    (fun h => .access h (by simp [ranges, inRanges, outRanges])))
    (fun _ => .illegal)
  have h := hok.cbc hs (hk ▸ hx)
  rw [Slot.ok_cbc, (cbcBlock_aes _ _).1, (cbcBlock_aes _ _).2]
  exact h

theorem execCbcReset_effect (c : Ctx) (s : State) :
    EndsIn (execCbcReset c s) (Effect (.cbcReset c) s) := by
  refine .onSlot (fun _ _ hs hx => .next (.success (.setSlot rfl (fun _ hok => ?_) _)))
    (fun _ => .illegal)
  intro y hy
  obtain ⟨k, hk, rfl⟩ := Option.map_eq_some_iff.mp hy
  have h : k.aes.Ok (dirOf k.enc) := hok.cbc hs (hk ▸ hx)
  exact h

theorem execCtrInit_effect (c : Ctx) (pk : PKind) (rnd enc : Bool) (s : State) :
    EndsIn (execCtrInit c pk rnd enc s) (Effect (.ctrInit c pk rnd enc) s) := by
  refine .onSlot (fun _ _ hs hx => .guard (fun _ => .guard (fun _ => .guard (fun hiv => .loadKey (fun k hk => .next (.success (.setSlot rfl (fun _ _ => ?_) _)))
    (fun _ => .dropped hs (by rintro _ _ rfl; cases hx) rfl rfl (by decide)))
    (fun _ => .dropped hs (by rintro _ _ rfl; cases hx) rfl rfl (by decide)))
    (fun _ => .dropped hs (by rintro _ _ rfl; cases hx) rfl rfl (by decide)))
    (fun h => .access h (by simp [ranges, inRanges, outRanges])))
    (fun _ => .illegal)
  exact (Slot.ok_ctr _).mpr ⟨aesLoad_ok hk, hiv.1, hiv.2, Nat.two_pow_pos 132, fun _ => Nat.zero_le _⟩

theorem execCtrPblk_effect (c : Ctx) (s : State) :
    EndsIn (execCtrPblk c s) (Effect (.ctrPblk c) s) := by
  refine .onSlot (fun _ _ hs hx => .guard (fun hin => .require (fun k hk => .guard (fun _ => .guard (fun hf => .guard (fun hr => .next (.success (.setSlot_emit rfl hf (fun hok => by simp) (by simp [outRanges])
      (hin _ (by simp)) fun _ hok => ?_)))
    (fun _ => .plain (by decide) (by decide) rfl rfl))
    (fun _ => .plain (by decide) (by decide) rfl rfl))
    (fun _ => .plain (by decide) (by decide) rfl rfl))
    (fun _ => .plain (by decide) (by decide) rfl rfl))
    (fun h => .access h (by simp [ranges, inRanges, outRanges])))
    (fun _ => .illegal)
  exact (Slot.ok_ctr _).mpr (ctrAdvance_ok (hok.ctr hs (hk ▸ hx)) hr)

theorem execCtrPbyte_effect (c : Ctx) (s : State) :
    EndsIn (execCtrPbyte c s) (Effect (.ctrPbyte c) s) := by
  refine .onSlot (fun _ _ hs hx => .guard (fun hin => .require (fun k hk => .guard (fun hf => .guard (fun hr => .next (.success (.setSlot_emitOut rfl hf (fun hok => by simp) (by simp [outRanges])
      (hin _ (by simp)) fun _ hok => ?_)))
    (fun _ => .plain (by decide) (by decide) rfl rfl))
    (fun _ => .plain (by decide) (by decide) rfl rfl))
    (fun _ => .plain (by decide) (by decide) rfl rfl))
    (fun h => .access h (by simp [ranges, inRanges, outRanges])))
    (fun _ => .illegal)
  exact (Slot.ok_ctr _).mpr (ctrAdvance_ok (hok.ctr hs (hk ▸ hx)) hr)

theorem execCtrPbytes_effect (c : Ctx) (s : State) :
    EndsIn (execCtrPbytes c s) (Effect (.ctrPbytes c) s) := by
  refine .onSlot (fun _ _ hs hx => .guard (fun hin => .require (fun k hk => .guard (fun _ => .guard (fun hf => .guard (fun hr => .next (.success (.setSlot_emit rfl hf (fun hok => by simp) (by simp [outRanges])
      (hin _ (by simp)) fun _ hok => ?_)))
    (fun _ => .plain (by decide) (by decide) rfl rfl))
    (fun _ => .plain (by decide) (by decide) rfl rfl))
    (fun _ => .plain (by decide) (by decide) rfl rfl))
    (fun _ => .plain (by decide) (by decide) rfl rfl))
    (fun h => .access h (by simp [ranges, inRanges, outRanges])))
    (fun _ => .illegal)
  exact (Slot.ok_ctr _).mpr (ctrAdvance_ok (hok.ctr hs (hk ▸ hx)) hr)

theorem execCtrReset_effect (c : Ctx) (s : State) :
    EndsIn (execCtrReset c s) (Effect (.ctrReset c) s) := by
  refine .onSlot (fun _ _ hs hx => .next (.success (.setSlot rfl (fun _ hok => ?_) _)))
    (fun _ => .illegal)
  intro y hy
  obtain ⟨k, hk, rfl⟩ := Option.map_eq_some_iff.mp hy
  have h := hok.ctr hs (hk ▸ hx)
  exact ⟨h.key, h.ivLow, h.ivHigh, Nat.two_pow_pos 132, fun _ => Nat.zero_le _⟩

theorem execCtrSkip_effect (c : Ctx) (s : State) :
    EndsIn (execCtrSkip c s) (Effect (.ctrSkip c) s) := by
  refine .onSlot (fun _ _ hs hx => .require (fun k hk => .guard (fun hr => .next (.success (.setSlot rfl (fun _ hok => ?_) _)))
    (fun _ => .plain (by decide) (by decide) rfl rfl))
    (fun _ => .plain (by decide) (by decide) rfl rfl))
    (fun _ => .illegal)
  exact (Slot.ok_ctr _).mpr (ctrSetPos_ok (hok.ctr hs (hk ▸ hx)) hr)

theorem execCtrSeek_effect (c : Ctx) (s : State) :
    EndsIn (execCtrSeek c s) (Effect (.ctrSeek c) s) := by
  refine .onSlot (fun _ _ hs hx => .require (fun k hk => .guard (fun hr => .next (.success (.setSlot rfl (fun _ hok => ?_) _)))
    (fun _ => .plain (by decide) (by decide) rfl rfl))
    (fun _ => .plain (by decide) (by decide) rfl rfl))
    (fun _ => .illegal)
  exact (Slot.ok_ctr _).mpr (ctrSetPos_ok (hok.ctr hs (hk ▸ hx)) hr)

theorem execCtrGpos_effect (c : Ctx) (s : State) :
    EndsIn (execCtrGpos c s) (Effect (.ctrGpos c) s) :=
  .onSlot (fun _ _ _ _ => .require (fun k _ => .next (.success (.finish _)))
    (fun _ => .plain (by decide) (by decide) rfl rfl))
    (fun _ => .illegal)

/-! ## GCM and GF -/

theorem gcmInit_ok (enc : Bool) {k : AesKey} (hk : k.Ok .E) {n : Nat} (hn : n = 4 ∨ n = 8 ∨ n = 12 ∨ n = 16)
    (nonce iaad : List Byte) : (gcmInit enc k n nonce iaad).Ok := by
  refine ⟨hk, hn, ?_, Nat.zero_add _⟩
  cases enc <;> simp [gcmInit, gcmStart, GcmKeyed.cap]

/-- What RequireInit lets through. -/
theorem GcmSlot.ready_eq {g : GcmSlot} {k : GcmKeyed} (h : g.ready = some k) :
    g.key = some k ∧ k.init = true := Option.filter_eq_some_iff.mp h

theorem execGcmReset_of_keyed {s : State} {c : Ctx} {sl : Slot} {g : GcmSlot} {k : GcmKeyed}
    (hs : s.slot? c = some sl) (hx : sl.gcm? = some g) (hk : g.key = some k) :
    exec (.gcmReset c) s = .next ((s.restartGcm c g k).finish 0) := by
  show execGcmReset c s = _
  unfold execGcmReset
  rw [State.onSlot_slot hs hx]
  simp only [hk]

theorem restartGcm_slotOk {s : State} {c : Ctx} {sl : Slot} {g : GcmSlot} {k : GcmKeyed} (m : Block)
    (hok : s.SlotsOk) (hs : s.slot? c = some sl) (hx : sl.gcm? = some g) (hk : g.key = some k) :
    (Slot.gcm ⟨some (gcmRestart k), m, g.lastKey, g.lastNonce⟩).Ok s.params :=
  have h := hok.gcm hs hx hk
  (Slot.ok_gcm _ _ _ _).mpr ⟨h.1.restart, h.2⟩

theorem length_gcmTail (k : GcmKeyed) : k.bufOff < k.cap → (gcmTail k).1.length = gcmTailLen k := by
  intro h
  unfold gcmTail
  split <;> rename_i h0
  · exact h0.symm
  · have : gcmTailLen k ≤ 16 := by
      unfold gcmTailLen
      simp only [GcmKeyed.cap] at h
      split at h <;> simp_all <;> omega
    rw [length_gcmData _ (by simp [this])]
    simp
    omega

theorem gcmTail_macSize (k : GcmKeyed) : (gcmTail k).2.macSize = k.macSize := by
  unfold gcmTail gcmData
  split <;> rfl

theorem length_gcmTagBytes {k : GcmKeyed} (h : k.macSize ≤ 16) : (gcmTagBytes k).length = k.macSize := by
  simp [gcmTagBytes, h]

theorem GcmKeyed.Ok.macSize_le {k : GcmKeyed} (h : k.Ok) : k.macSize ≤ 16 := by
  have := h.macSize
  omega

theorem execGcmInit_effect (c : Ctx) (pk : PKind) (rnd enc : Bool) (s : State) :
    EndsIn (execGcmInit c pk rnd enc s) (Effect (.gcmInit c pk rnd enc) s) := by
  refine .onSlot (fun _ _ hs hx => .guard (fun _ => .guard (fun hp => .guard (fun hm => .guard (fun _ => .guard (fun _ => .loadKey (fun k hk => .guard (fun _ => .next (.success (.setSlot rfl (fun _ _ => ?_) _)))
    (fun _ => .dropped hs (by rintro _ _ rfl; cases hx) rfl rfl (by decide)))
    (fun _ => .dropped hs (by rintro _ _ rfl; cases hx) rfl rfl (by decide)))
    (fun _ => .dropped hs (by rintro _ _ rfl; cases hx) rfl rfl (by decide)))
    (fun _ => .dropped hs (by rintro _ _ rfl; cases hx) rfl rfl (by decide)))
    (fun _ => .dropped hs (by rintro _ _ rfl; cases hx) rfl rfl (by decide)))
    (fun _ => .dropped hs (by rintro _ _ rfl; cases hx) rfl rfl (by decide)))
    (fun h => .access h (by simp [ranges, inRanges, outRanges])))
    (fun _ => .illegal)
  refine (Slot.ok_gcm _ _ _ _).mpr ⟨gcmInit_ok enc (aesLoad_ok hk) ?_ _ _, rfl, rfl⟩
  cases pk with
  | key => exact absurd rfl hp
  | keyIv => exact .inr (.inr (.inr rfl))
  | aead =>
    have := hm rfl
    simp only [State.gcmMacSize]
    omega

theorem execGcmAad_effect (c : Ctx) (s : State) :
    EndsIn (execGcmAad c s) (Effect (.gcmAad c) s) := by
  refine .onSlot (fun _ _ hs hx => .require (fun k hk => .next (.success (.setSlot rfl (fun _ hok => ?_) _)))
    (fun _ => .plain (by decide) (by decide) rfl rfl))
    (fun _ => .illegal)
  have h := hok.gcm hs hx (GcmSlot.ready_eq hk).1
  exact (Slot.ok_gcm _ _ _ _).mpr ⟨⟨h.1.key, h.1.macSize, h.1.bufOff, h.1.blocks⟩, h.2⟩

theorem execGcmAads_effect (c : Ctx) (s : State) :
    EndsIn (execGcmAads c s) (Effect (.gcmAads c) s) := by
  refine .onSlot (fun _ _ hs hx => .guard (fun _ => .require (fun k hk => .guard (fun _ => .next (.success (.setSlot rfl (fun _ hok => ?_) _)))
    (fun _ => .plain (by decide) (by decide) rfl rfl))
    (fun _ => .plain (by decide) (by decide) rfl rfl))
    (fun h => .access h (by simp [ranges, inRanges, outRanges])))
    (fun _ => .illegal)
  have h := hok.gcm hs hx (GcmSlot.ready_eq hk).1
  exact (Slot.ok_gcm _ _ _ _).mpr ⟨⟨h.1.key, h.1.macSize, h.1.bufOff, h.1.blocks⟩, h.2⟩

theorem execGcmPbyte_effect (c : Ctx) (s : State) :
    EndsIn (execGcmPbyte c s) (Effect (.gcmPbyte c) s) := by
  refine .onSlot (fun _ _ hs hx => .guard (fun hin => .require (fun k hk => .guard (fun hf => .guard (fun hr => .next (.success (.setSlot_emitOut rfl hf (fun hok => length_gcmByte _ _) (by simp [outRanges])
      (hin _ (by simp)) fun _ hok => ?_)))
    (fun _ => .plain (by decide) (by decide) rfl rfl))
    (fun _ => .plain (by decide) (by decide) rfl rfl))
    (fun _ => .plain (by decide) (by decide) rfl rfl))
    (fun h => .access h (by simp [ranges, inRanges, outRanges])))
    (fun _ => .illegal)
  have h := hok.gcm hs hx (GcmSlot.ready_eq hk).1
  exact (Slot.ok_gcm _ _ _ _).mpr ⟨gcmByte_ok h.1 hr, h.2⟩

theorem execGcmPbytes_effect (c : Ctx) (s : State) :
    EndsIn (execGcmPbytes c s) (Effect (.gcmPbytes c) s) := by
  refine .onSlot (fun _ _ hs hx => .guard (fun hin => .require (fun k hk => .guard (fun _ => .guard (fun hf => .guard (fun hr => .next (.success (.setSlot_emit rfl hf (fun hok => (length_gcmBytes (hok.gcm hs hx (GcmSlot.ready_eq hk).1).1.bufOff _).trans (by simp)) (by simp [outRanges])
      (hin _ (by simp)) fun _ hok => ?_)))
    (fun _ => .plain (by decide) (by decide) rfl rfl))
    (fun _ => .plain (by decide) (by decide) rfl rfl))
    (fun _ => .plain (by decide) (by decide) rfl rfl))
    (fun _ => .plain (by decide) (by decide) rfl rfl))
    (fun h => .access h (by simp [ranges, inRanges, outRanges])))
    (fun _ => .illegal)
  have h := hok.gcm hs hx (GcmSlot.ready_eq hk).1
  exact (Slot.ok_gcm _ _ _ _).mpr ⟨gcmBytes_ok h.1 (by simpa using hr), h.2⟩

theorem execGcmFinal_effect (c : Ctx) (s : State) :
    EndsIn (execGcmFinal c s) (Effect (.gcmFinal c) s) := by
  refine .onSlot (fun _ _ hs hx => .guard (fun hin => .require (fun k hk => .guard (fun hf => .guard (fun _ => .guard (fun _ => ?_)
    (fun _ => .precise (by decide) nofun (by simp [restarts]) (by simp)))
    (fun _ => .failedFinal rfl rfl (execGcmReset_of_keyed hs hx (GcmSlot.ready_eq hk).1)
      (.inl ⟨_, rfl, by decide⟩) fun hok => restartGcm_slotOk 0 hok hs hx (GcmSlot.ready_eq hk).1))
    (fun _ => .precise (by decide) nofun (by simp [restarts]) (by simp)))
    (fun _ => .precise (by decide) nofun (by simp [restarts]) (by simp)))
    (fun h => .access h (by simp [ranges, inRanges, outRanges])))
    (fun _ => .illegal)
  have hk' := (GcmSlot.ready_eq hk).1
  split <;> rename_i he
  · refine .next (.success (.setSlot_emitOut rfl hf (fun hok => ?_) (by simp [outRanges]) (hin _ (by simp))
      fun _ hok => restartGcm_slotOk _ hok hs hx hk'))
    have h := (hok.gcm hs hx hk').1
    rw [List.length_append, length_gcmTail k h.bufOff, length_gcmTagBytes (gcmTail_macSize k ▸ h.macSize_le),
      gcmTail_macSize]
    simp [gcmOutputSize, gcmTailLen, he]
  · refine .guard (fun _ => .next (.success (.setSlot_emitOut rfl hf (fun hok => ?_) (by simp [outRanges])
      (hin _ (by simp)) fun _ hok => restartGcm_slotOk _ hok hs hx hk'))) (fun _ => .failedFinal rfl rfl (execGcmReset_of_keyed hs hx (GcmSlot.ready_eq hk).1)
        (.inl ⟨_, rfl, by decide⟩) fun hok => restartGcm_slotOk 0 hok hs hx (GcmSlot.ready_eq hk).1)
    rw [length_gcmTail k (hok.gcm hs hx hk').1.bufOff]
    simp [gcmOutputSize, gcmTailLen, he]

theorem execGcmGmac_effect (c : Ctx) (s : State) :
    EndsIn (execGcmGmac c s) (Effect (.gcmGmac c) s) := by
  refine .onSlot (fun _ _ hs hx => .guard (fun hin => .require (fun k hk => .guard (fun hf => .next (.success (.emitOut hf (fun hok => ?_) (by simp [outRanges]) (hin _ (by simp)))))
    (fun _ => .plain (by decide) (by decide) rfl rfl))
    (fun _ => .plain (by decide) (by decide) rfl rfl))
    (fun h => .access h (by simp [ranges, inRanges, outRanges])))
    (fun _ => .illegal)
  have := (hok.gcm hs hx hk).1.macSize_le
  simp [this]

theorem execGcmReset_effect (c : Ctx) (s : State) :
    EndsIn (execGcmReset c s) (Effect (.gcmReset c) s) := by
  refine .onSlot (fun _ _ hs hx => ?_)
    (fun _ => .illegal)
  split <;> rename_i hk
  · exact .next (.success (.setSlot rfl (fun _ hok => restartGcm_slotOk 0 hok hs hx hk) _))
  · exact .next (.success (.finish _))

theorem execGcmGos_effect (c : Ctx) (s : State) :
    EndsIn (execGcmGos c s) (Effect (.gcmGos c) s) :=
  .onSlot (fun _ _ _ _ => .require (fun k _ => .next (.success (.finishSize _)))
    (fun _ => .plain (by decide) (by decide) rfl rfl))
    (fun _ => .illegal)

theorem execGcmGuos_effect (c : Ctx) (s : State) :
    EndsIn (execGcmGuos c s) (Effect (.gcmGuos c) s) :=
  .onSlot (fun _ _ _ _ => .require (fun k _ => .next (.success (.finishSize _)))
    (fun _ => .plain (by decide) (by decide) rfl rfl))
    (fun _ => .illegal)

theorem execGfMul_effect  (s : State) :
    EndsIn (execGfMul s) (Effect (.gfMul) s) :=
  .guard (fun hin =>
    .next (.success (.storeOver (r := s.gfRange 4) (by simp [outRanges]) (hin _ (by simp)) le_rfl
      (by simp [State.gfRange]) _)))
    (fun h => .access h (by simp [ranges, inRanges, outRanges]))

/-! ## CCM and CMAC -/

/-- What RequireInit lets through. -/
theorem CcmSlot.ready_eq {g : CcmSlot} {k : CcmKeyed} (h : g.ready = some k) :
    g.key = some k ∧ k.init = true := Option.filter_eq_some_iff.mp h

theorem execCcmReset_of_keyed {s : State} {c : Ctx} {sl : Slot} {g : CcmSlot} {k : CcmKeyed}
    (hs : s.slot? c = some sl) (hx : sl.ccm? = some g) (hk : g.key = some k) :
    exec (.ccmReset c) s = .next ((s.restartCcm c g k).finish 0) := by
  show execCcmReset c s = _
  unfold execCcmReset
  rw [State.onSlot_slot hs hx]
  simp only [hk]

theorem restartCcm_slotOk {s : State} {c : Ctx} {sl : Slot} {g : CcmSlot} {k : CcmKeyed} (m : Block)
    (hok : s.SlotsOk) (hs : s.slot? c = some sl) (hx : sl.ccm? = some g) (hk : g.key = some k) :
    (Slot.ccm ⟨some (ccmRestart k), m, g.lastKey, g.lastNonce⟩).Ok s.params :=
  have h := hok.ccm hs hx hk
  (Slot.ok_ccm _ _ _ _).mpr ⟨⟨h.1.key, h.1.nonceLow, h.1.nonceHigh, h.1.macSize,
    le_trans (Nat.le_add_right _ _) h.1.aad, Nat.zero_le _⟩, h.2⟩

theorem CcmKeyed.Ok.macSize_le {p : Params} {k : CcmKeyed} (h : k.Ok p) : k.macSize ≤ 16 := by
  have := h.macSize
  simp only [List.mem_cons, List.not_mem_nil, or_false] at this
  omega

/-- The common end of FINAL and PPKT. -/
theorem ccmFinish_effect {i : Instr} {s : State} {c : Ctx} {sl : Slot} {g : CcmSlot} {k : CcmKeyed}
    {x : List Byte} {out : State → List Byte → State} (hs : s.slot? c = some sl) (hx : sl.ccm? = some g)
    (hk : g.key = some k) (hc : i.ctx? = some c) (hi : isInitCommand i = false)
    (hr : restarts i = some ([.authenticationFailed], .ccmReset c))
    (hout : ∀ r, ccmPacket k x = some r → ∀ sl', (i.wf = true → s.SlotsOk → sl'.Ok s.params) →
      Success i s (out (s.setSlot c sl') r.1)) : EndsIn (ccmFinish s c g k x out) (Effect i s) := by
  unfold ccmFinish
  split
  · exact .next (.success (hout _ ‹_› _ fun _ hok => restartCcm_slotOk _ hok hs hx hk))
  · exact .next (.failedFinal hc hi (execCcmReset_of_keyed hs hx hk) (.inl ⟨_, hr, by decide⟩)
      fun hok => restartCcm_slotOk 0 hok hs hx hk)

theorem execCcmInit_effect (c : Ctx) (pk : PKind) (rnd enc : Bool) (s : State) :
    EndsIn (execCcmInit c pk rnd enc s) (Effect (.ccmInit c pk rnd enc) s) := by
  refine .onSlot (fun _ _ hs hx => .guard (fun _ => .guard (fun hp => .guard (fun hm => .guard (fun hn => .loadKey (fun k hk => .guard (fun ha => .guard (fun _ => .next (.success (.setSlot rfl (fun _ _ => ?_) _)))
    (fun _ => .dropped hs (by rintro _ _ rfl; cases hx) rfl rfl (by decide)))
    (fun _ => .dropped hs (by rintro _ _ rfl; cases hx) rfl rfl (by decide)))
    (fun _ => .dropped hs (by rintro _ _ rfl; cases hx) rfl rfl (by decide)))
    (fun _ => .dropped hs (by rintro _ _ rfl; cases hx) rfl rfl (by decide)))
    (fun _ => .dropped hs (by rintro _ _ rfl; cases hx) rfl rfl (by decide)))
    (fun _ => .dropped hs (by rintro _ _ rfl; cases hx) rfl rfl (by decide)))
    (fun h => .access h (by simp [ranges, inRanges, outRanges])))
    (fun _ => .illegal)
  refine (Slot.ok_ccm _ _ _ _).mpr ⟨⟨aesLoad_ok hk, by simpa using hn.1, by simpa using hn.2, ?_, ?_,
    Nat.zero_le _⟩, rfl, rfl⟩ <;> cases pk
  · exact absurd rfl hp
  · simp [State.ccmMacSize]
  · have := hm rfl
    simp only [State.ccmMacSize, List.mem_cons, List.not_mem_nil, or_false]
    omega
  · exact absurd rfl hp
  · exact Nat.zero_le _
  · simpa [State.aadBytes] using ha rfl

theorem execCcmAad_effect (c : Ctx) (s : State) :
    EndsIn (execCcmAad c s) (Effect (.ccmAad c) s) := by
  refine .onSlot (fun _ _ hs hx => .require (fun k hk => .guard (fun hr => .next (.success (.setSlot rfl (fun _ hok => ?_) _)))
    (fun _ => .plain (by decide) (by decide) rfl rfl))
    (fun _ => .plain (by decide) (by decide) rfl rfl))
    (fun _ => .illegal)
  have h := hok.ccm hs hx (CcmSlot.ready_eq hk).1
  exact (Slot.ok_ccm _ _ _ _).mpr ⟨⟨h.1.key, h.1.nonceLow, h.1.nonceHigh, h.1.macSize,
    by simpa [Nat.add_assoc] using hr, h.1.msg⟩, h.2⟩

theorem execCcmAads_effect (c : Ctx) (s : State) :
    EndsIn (execCcmAads c s) (Effect (.ccmAads c) s) := by
  refine .onSlot (fun _ _ hs hx => .guard (fun _ => .require (fun k hk => .guard (fun _ => .guard (fun hr => .next (.success (.setSlot rfl (fun _ hok => ?_) _)))
    (fun _ => .plain (by decide) (by decide) rfl rfl))
    (fun _ => .plain (by decide) (by decide) rfl rfl))
    (fun _ => .plain (by decide) (by decide) rfl rfl))
    (fun h => .access h (by simp [ranges, inRanges, outRanges])))
    (fun _ => .illegal)
  have h := hok.ccm hs hx (CcmSlot.ready_eq hk).1
  exact (Slot.ok_ccm _ _ _ _).mpr ⟨⟨h.1.key, h.1.nonceLow, h.1.nonceHigh, h.1.macSize,
    by simpa [Nat.add_assoc] using hr, h.1.msg⟩, h.2⟩

theorem execCcmPbyte_effect (c : Ctx) (s : State) :
    EndsIn (execCcmPbyte c s) (Effect (.ccmPbyte c) s) := by
  refine .onSlot (fun _ _ hs hx => .require (fun k hk => .guard (fun hr => .next (.success (.setSlot rfl (fun _ hok => ?_) _)))
    (fun _ => .plain (by decide) (by decide) rfl rfl))
    (fun _ => .plain (by decide) (by decide) rfl rfl))
    (fun _ => .illegal)
  have h := hok.ccm hs hx (CcmSlot.ready_eq hk).1
  exact (Slot.ok_ccm _ _ _ _).mpr ⟨⟨h.1.key, h.1.nonceLow, h.1.nonceHigh, h.1.macSize, h.1.aad,
    by simpa using hr⟩, h.2⟩

theorem execCcmPbytes_effect (c : Ctx) (s : State) :
    EndsIn (execCcmPbytes c s) (Effect (.ccmPbytes c) s) := by
  refine .onSlot (fun _ _ hs hx => .guard (fun _ => .require (fun k hk => .guard (fun _ => .guard (fun hr => .next (.success (.setSlot rfl (fun _ hok => ?_) _)))
    (fun _ => .plain (by decide) (by decide) rfl rfl))
    (fun _ => .plain (by decide) (by decide) rfl rfl))
    (fun _ => .plain (by decide) (by decide) rfl rfl))
    (fun h => .access h (by simp [ranges, inRanges, outRanges])))
    (fun _ => .illegal)
  have h := hok.ccm hs hx (CcmSlot.ready_eq hk).1
  exact (Slot.ok_ccm _ _ _ _).mpr ⟨⟨h.1.key, h.1.nonceLow, h.1.nonceHigh, h.1.macSize, h.1.aad,
    by simpa using hr⟩, h.2⟩

theorem execCcmFinal_effect (c : Ctx) (s : State) :
    EndsIn (execCcmFinal c s) (Effect (.ccmFinal c) s) :=
  .onSlot (fun _ _ hs hx => .guard (fun hin => .require (fun k hk => .guard (fun hf => .guard (fun _ => ccmFinish_effect hs hx (CcmSlot.ready_eq hk).1 rfl rfl rfl
      fun r hr sl' hsl => .setSlot_emitOut rfl hf
        (fun hok => length_ccmPacket (hok.ccm hs hx (CcmSlot.ready_eq hk).1).1.macSize_le hr)
        (by simp [outRanges]) (hin _ (by simp)) hsl)
    (fun _ => .precise (by decide) nofun (by simp [restarts]) (by simp)))
    (fun _ => .precise (by decide) nofun (by simp [restarts]) (by simp)))
    (fun _ => .precise (by decide) nofun (by simp [restarts]) (by simp)))
    (fun h => .access h (by simp [ranges, inRanges, outRanges])))
    (fun _ => .illegal)

theorem execCcmPpkt_effect (c : Ctx) (s : State) :
    EndsIn (execCcmPpkt c s) (Effect (.ccmPpkt c) s) :=
  .onSlot (fun _ _ hs hx => .guard (fun hin => .require (fun k hk => .guard (fun _ => .guard (fun hf => .guard (fun _ => .guard (fun _ => ccmFinish_effect hs hx (CcmSlot.ready_eq hk).1 rfl rfl rfl
      fun r hr sl' hsl => .setSlot_emit rfl hf
        (fun hok => (length_ccmPacket (hok.ccm hs hx (CcmSlot.ready_eq hk).1).1.macSize_le hr).trans (by simp))
        (by simp [outRanges]) (hin _ (by simp)) hsl)
    (fun _ => .precise (by decide) nofun (by simp [restarts]) (by simp)))
    (fun _ => .precise (by decide) nofun (by simp [restarts]) (by simp)))
    (fun _ => .precise (by decide) nofun (by simp [restarts]) (by simp)))
    (fun _ => .precise (by decide) nofun (by simp [restarts]) (by simp)))
    (fun _ => .precise (by decide) nofun (by simp [restarts]) (by simp)))
    (fun h => .access h (by simp [ranges, inRanges, outRanges])))
    (fun _ => .illegal)

theorem execCcmGmac_effect (c : Ctx) (s : State) :
    EndsIn (execCcmGmac c s) (Effect (.ccmGmac c) s) := by
  refine .onSlot (fun _ _ hs hx => .guard (fun hin => .require (fun k hk => .guard (fun hf => .next (.success (.emitOut hf (fun hok => ?_) (by simp [outRanges]) (hin _ (by simp)))))
    (fun _ => .plain (by decide) (by decide) rfl rfl))
    (fun _ => .plain (by decide) (by decide) rfl rfl))
    (fun h => .access h (by simp [ranges, inRanges, outRanges])))
    (fun _ => .illegal)
  have := (hok.ccm hs hx hk).1.macSize_le
  simp [this]

theorem execCcmReset_effect (c : Ctx) (s : State) :
    EndsIn (execCcmReset c s) (Effect (.ccmReset c) s) := by
  refine .onSlot (fun _ _ hs hx => ?_)
    (fun _ => .illegal)
  split <;> rename_i hk
  · exact .next (.success (.setSlot rfl (fun _ hok => restartCcm_slotOk 0 hok hs hx hk) _))
  · exact .next (.success (.finish _))

theorem execCcmGos_effect (c : Ctx) (s : State) :
    EndsIn (execCcmGos c s) (Effect (.ccmGos c) s) :=
  .onSlot (fun _ _ _ _ => .require (fun k _ => .next (.success (.finishSize _)))
    (fun _ => .plain (by decide) (by decide) rfl rfl))
    (fun _ => .illegal)

theorem execCcmGuos_effect (c : Ctx) (s : State) :
    EndsIn (execCcmGuos c s) (Effect (.ccmGuos c) s) :=
  .onSlot (fun _ _ _ _ => .require (fun k _ => .next (.success (.finish _)))
    (fun _ => .plain (by decide) (by decide) rfl rfl))
    (fun _ => .illegal)

theorem execCmacInit_effect (c : Ctx) (pk : PKind) (rnd : Bool) (s : State) :
    EndsIn (execCmacInit c pk rnd s) (Effect (.cmacInit c pk rnd) s) := by
  refine .onSlot (fun _ _ hs hx => .guard (fun _ => .guard (fun _ => .loadKey (fun k hk => .next (.success (.setSlot rfl (fun _ hok => ?_) _)))
    (fun _ => .dropped hs (by rintro _ _ rfl; cases hx) rfl rfl (by decide)))
    (fun _ => .dropped hs (by rintro _ _ rfl; cases hx) rfl rfl (by decide)))
    (fun h => .access h (by simp [ranges, inRanges, outRanges])))
    (fun _ => .illegal)
  exact (Slot.ok_cmac _ _ _).mpr ⟨hok.cmacSize hs hx, aesLoad_ok hk, Nat.zero_le _⟩

theorem execCmacUpd_effect (c : Ctx) (s : State) :
    EndsIn (execCmacUpd c s) (Effect (.cmacUpd c) s) := by
  refine .onSlot (fun _ _ hs hx => .require (fun k hk => .next (.success (.setSlot rfl (fun _ hok => ?_) _)))
    (fun _ => .plain (by decide) (by decide) rfl rfl))
    (fun _ => .illegal)
  exact (Slot.ok_cmac _ _ _).mpr ⟨hok.cmacSize hs hx, cmacAbsorb_ok (hok.cmac hs hx hk) _⟩

theorem execCmacUpds_effect (c : Ctx) (s : State) :
    EndsIn (execCmacUpds c s) (Effect (.cmacUpds c) s) := by
  refine .onSlot (fun _ _ hs hx => .guard (fun _ => .require (fun k hk => .guard (fun _ => .next (.success (.setSlot rfl (fun _ hok => ?_) _)))
    (fun _ => .plain (by decide) (by decide) rfl rfl))
    (fun _ => .plain (by decide) (by decide) rfl rfl))
    (fun h => .access h (by simp [ranges, inRanges, outRanges])))
    (fun _ => .illegal)
  exact (Slot.ok_cmac _ _ _).mpr ⟨hok.cmacSize hs hx, cmacAbsorbBytes_ok (hok.cmac hs hx hk) _⟩

theorem cmacSize_le {ms : BitVec 5} (h : ms.toNat ≤ 16) : cmacSize ms ≤ 16 := by
  unfold cmacSize
  split
  · decide
  · exact h

theorem execCmacFinal_effect (c : Ctx) (s : State) :
    EndsIn (execCmacFinal c s) (Effect (.cmacFinal c) s) := by
  refine .onSlot (fun _ _ hs hx => .guard (fun hin => .require (fun k hk => .guard (fun hf => .next (.success (.setSlot_emitOut rfl hf (fun hok => ?_) (by simp [outRanges])
      (hin _ (by simp)) fun _ hok => ?_)))
    (fun _ => .plain (by decide) (by decide) rfl rfl))
    (fun _ => .plain (by decide) (by decide) rfl rfl))
    (fun h => .access h (by simp [ranges, inRanges, outRanges])))
    (fun _ => .illegal)
  · have := cmacSize_le (hok.cmacSize hs hx)
    simp [this]
  · exact (Slot.ok_cmac _ _ _).mpr ⟨hok.cmacSize hs hx, (hok.cmac hs hx hk).1, Nat.zero_le _⟩

theorem execCmacReset_effect (c : Ctx) (s : State) :
    EndsIn (execCmacReset c s) (Effect (.cmacReset c) s) := by
  refine .onSlot (fun _ _ hs hx => .next (.success (.setSlot rfl (fun _ hok => ?_) _)))
    (fun _ => .illegal)
  refine ⟨hok.cmacSize hs hx, ?_⟩
  intro y hy
  obtain ⟨k, hk, rfl⟩ := Option.map_eq_some_iff.mp hy
  exact ⟨(hok.cmac hs hx hk).1, Nat.zero_le _⟩

/-! ## Every command -/

/-- Everything a command can do. -/
theorem exec_effect (i : Instr) (s : State) : EndsIn (exec i s) (Effect i s) :=
  match i with
  | .cfg ctx conf => execCfg_effect ctx conf s
  | .copy ctx => execCopy_effect ctx s
  | .gbs ctx => execGbs_effect ctx s
  | .gms ctx => execGms_effect ctx s
  | .gds ctx => execGds_effect ctx s
  | .gbl ctx => execGbl_effect ctx s
  | .st16be => execSt16be_effect s
  | .st16le => execSt16le_effect s
  | .st32be => execSt32be_effect s
  | .st32le => execSt32le_effect s
  | .st64be => execSt64be_effect s
  | .st64le => execSt64le_effect s
  | .ld16be => execLd16be_effect s
  | .ld16le => execLd16le_effect s
  | .ld32be => execLd32be_effect s
  | .ld32le => execLd32le_effect s
  | .ld64be => execLd64be_effect s
  | .ld64le => execLd64le_effect s
  | .aesInit ctx pk rnd enc => execAesInit_effect ctx pk rnd enc s
  | .aesPblk ctx => execAesPblk_effect ctx s
  | .aesReset ctx => execAesReset_effect ctx s
  | .dgUpd ctx => execDgUpd_effect ctx s
  | .dgUpds ctx => execDgUpds_effect ctx s
  | .dgFinal ctx => execDgFinal_effect ctx s
  | .dgReset ctx => execDgReset_effect ctx s
  | .hmInit ctx pk rnd => execHmInit_effect ctx pk rnd s
  | .hmUpd ctx => execHmUpd_effect ctx s
  | .hmUpds ctx => execHmUpds_effect ctx s
  | .hmFinal ctx => execHmFinal_effect ctx s
  | .hmReset ctx => execHmReset_effect ctx s
  | .bufInit ctx pk rnd enc => execBufInit_effect ctx pk rnd enc s
  | .bufPbyte ctx => execBufPbyte_effect ctx s
  | .bufPbytes ctx => execBufPbytes_effect ctx s
  | .bufFinal ctx => execBufFinal_effect ctx s
  | .bufReset ctx => execBufReset_effect ctx s
  | .bufGos ctx => execBufGos_effect ctx s
  | .bufGuos ctx => execBufGuos_effect ctx s
  | .padAdd => execPadAdd_effect s
  | .padCnt => execPadCnt_effect s
  | .cbcInit ctx pk rnd enc => execCbcInit_effect ctx pk rnd enc s
  | .cbcPblk ctx => execCbcPblk_effect ctx s
  | .cbcReset ctx => execCbcReset_effect ctx s
  | .ctrInit ctx pk rnd enc => execCtrInit_effect ctx pk rnd enc s
  | .ctrPblk ctx => execCtrPblk_effect ctx s
  | .ctrPbyte ctx => execCtrPbyte_effect ctx s
  | .ctrPbytes ctx => execCtrPbytes_effect ctx s
  | .ctrReset ctx => execCtrReset_effect ctx s
  | .ctrSkip ctx => execCtrSkip_effect ctx s
  | .ctrSeek ctx => execCtrSeek_effect ctx s
  | .ctrGpos ctx => execCtrGpos_effect ctx s
  | .gcmInit ctx pk rnd enc => execGcmInit_effect ctx pk rnd enc s
  | .gcmAad ctx => execGcmAad_effect ctx s
  | .gcmAads ctx => execGcmAads_effect ctx s
  | .gcmPbyte ctx => execGcmPbyte_effect ctx s
  | .gcmPbytes ctx => execGcmPbytes_effect ctx s
  | .gcmFinal ctx => execGcmFinal_effect ctx s
  | .gcmGmac ctx => execGcmGmac_effect ctx s
  | .gcmReset ctx => execGcmReset_effect ctx s
  | .gcmGos ctx => execGcmGos_effect ctx s
  | .gcmGuos ctx => execGcmGuos_effect ctx s
  | .gfMul => execGfMul_effect s
  | .ccmInit ctx pk rnd enc => execCcmInit_effect ctx pk rnd enc s
  | .ccmAad ctx => execCcmAad_effect ctx s
  | .ccmAads ctx => execCcmAads_effect ctx s
  | .ccmPbyte ctx => execCcmPbyte_effect ctx s
  | .ccmPbytes ctx => execCcmPbytes_effect ctx s
  | .ccmFinal ctx => execCcmFinal_effect ctx s
  | .ccmPpkt ctx => execCcmPpkt_effect ctx s
  | .ccmGmac ctx => execCcmGmac_effect ctx s
  | .ccmReset ctx => execCcmReset_effect ctx s
  | .ccmGos ctx => execCcmGos_effect ctx s
  | .ccmGuos ctx => execCcmGuos_effect ctx s
  | .cmacInit ctx pk rnd => execCmacInit_effect ctx pk rnd s
  | .cmacUpd ctx => execCmacUpd_effect ctx s
  | .cmacUpds ctx => execCmacUpds_effect ctx s
  | .cmacFinal ctx => execCmacFinal_effect ctx s
  | .cmacReset ctx => execCmacReset_effect ctx s

end Sys2Proof.Machine
end

