-- ==== Sys2Proof/Laws/PerInstr.lean ====
section
/-! SUPPORT. Lemmas per constructor of Instr. Family OpcodeRow: a command's OPC is a row of R115's table, it is
context-free exactly when R118 says so, and the fields that R115 marks "0" are 0. -/

namespace Sys2Proof.Laws.OpcodeRow

open Sys2Proof.Machine

/-- The OPC of a command is assigned (R117), it names no slot exactly when its OPC is context-free (R118), and
A and B are 0 where the row is neither CFG nor an INIT (R115). -/
def Statement (i : Instr) : Prop :=
  ¬ reservedOpc i.opc.toNat ∧ (i.ctx? = none ↔ freeOpc i.opc.toNat) ∧
    (¬ directedInitOpc i.opc.toNat → ¬ plainInitOpc i.opc.toNat → i.opc ≠ 0x01 → i.fieldA = 0 ∧ i.fieldB = 0)

/-- The rows with CTX alone. -/
def slotRows : List (BitVec 8) :=
  [0x02, 0x03, 0x04, 0x05, 0x06, 0x21, 0x22, 0x30, 0x31, 0x32, 0x33, 0x41] ++
  [0x42, 0x43, 0x44, 0x51, 0x52, 0x53, 0x54, 0x55, 0x56, 0x61, 0x62, 0x71] ++
  [0x72, 0x73, 0x74, 0x75, 0x76, 0x77, 0x81, 0x82, 0x83, 0x84, 0x85, 0x86] ++
  [0x87, 0x88, 0x89, 0x91, 0x92, 0x93, 0x94, 0x95, 0x96, 0x97, 0x98, 0x99] ++
  [0x9A, 0xA1, 0xA2, 0xA3, 0xA4]

/-- The context-free rows. -/
def freeRows : List (BitVec 8) :=
  [0x10, 0x11, 0x12, 0x13, 0x14, 0x15, 0x18, 0x19, 0x1A, 0x1B, 0x1C, 0x1D] ++
  [0x58, 0x59, 0x8F]

/-- The INIT rows. -/
def initRows : List (BitVec 8) :=
  [0x20, 0x40, 0x50, 0x60, 0x70, 0x80, 0x90, 0xA0]

theorem slotRows_assigned : ∀ n ∈ slotRows, ¬ reservedOpc n.toNat ∧ ¬ freeOpc n.toNat := by
  unfold reservedOpc freeOpc; decide

theorem freeRows_assigned : ∀ n ∈ freeRows, ¬ reservedOpc n.toNat ∧ freeOpc n.toNat := by
  unfold reservedOpc freeOpc; decide

theorem initRows_assigned : ∀ n ∈ initRows,
    ¬ reservedOpc n.toNat ∧ ¬ freeOpc n.toNat ∧ (directedInitOpc n.toNat ∨ plainInitOpc n.toNat) := by
  unfold reservedOpc freeOpc directedInitOpc plainInitOpc; decide

theorem of_slot {i : Instr} (c : Ctx) (n : BitVec 8) (hn : i.opc = n) (h : n ∈ slotRows) (hc : i.ctx? = some c)
    (hz : i.fieldA = 0 ∧ i.fieldB = 0) : Statement i :=
  ⟨(slotRows_assigned _ (hn ▸ h)).1,
    ⟨fun e => (nomatch hc.symm.trans e), fun e => absurd e (slotRows_assigned _ (hn ▸ h)).2⟩, fun _ _ _ => hz⟩

theorem of_free {i : Instr} (n : BitVec 8) (hn : i.opc = n) (h : n ∈ freeRows) (hc : i.ctx? = none)
    (hz : i.fieldA = 0 ∧ i.fieldB = 0) : Statement i :=
  ⟨(freeRows_assigned _ (hn ▸ h)).1, ⟨fun _ => (freeRows_assigned _ (hn ▸ h)).2, fun _ => hc⟩, fun _ _ _ => hz⟩

theorem of_init {i : Instr} (c : Ctx) (n : BitVec 8) (hn : i.opc = n) (h : n ∈ initRows) (hc : i.ctx? = some c) : Statement i :=
  ⟨(initRows_assigned _ (hn ▸ h)).1,
    ⟨fun e => (nomatch hc.symm.trans e), fun e => absurd e (initRows_assigned _ (hn ▸ h)).2.1⟩,
    fun hd hp _ => ((initRows_assigned _ (hn ▸ h)).2.2.elim hd hp).elim⟩

theorem cfg (ctx : Ctx) (conf : AlgConf) : Statement (.cfg ctx conf) := by
  refine ⟨?_, ⟨fun e => (nomatch e), ?_⟩, fun _ _ e => absurd rfl e⟩
  · show ¬ reservedOpc 1
    unfold reservedOpc; decide
  · have h : ¬ freeOpc 1 := by unfold freeOpc; decide
    exact fun e => absurd e h

theorem copy (ctx : Ctx) : Statement (.copy ctx) :=
  of_slot ctx 0x02 rfl (by decide) rfl ⟨rfl, rfl⟩

theorem gbs (ctx : Ctx) : Statement (.gbs ctx) :=
  of_slot ctx 0x03 rfl (by decide) rfl ⟨rfl, rfl⟩

theorem gms (ctx : Ctx) : Statement (.gms ctx) :=
  of_slot ctx 0x04 rfl (by decide) rfl ⟨rfl, rfl⟩

theorem gds (ctx : Ctx) : Statement (.gds ctx) :=
  of_slot ctx 0x05 rfl (by decide) rfl ⟨rfl, rfl⟩

theorem gbl (ctx : Ctx) : Statement (.gbl ctx) :=
  of_slot ctx 0x06 rfl (by decide) rfl ⟨rfl, rfl⟩

theorem st16be : Statement .st16be :=
  of_free 0x10 rfl (by decide) rfl ⟨rfl, rfl⟩

theorem st16le : Statement .st16le :=
  of_free 0x11 rfl (by decide) rfl ⟨rfl, rfl⟩

theorem st32be : Statement .st32be :=
  of_free 0x12 rfl (by decide) rfl ⟨rfl, rfl⟩

theorem st32le : Statement .st32le :=
  of_free 0x13 rfl (by decide) rfl ⟨rfl, rfl⟩

theorem st64be : Statement .st64be :=
  of_free 0x14 rfl (by decide) rfl ⟨rfl, rfl⟩

theorem st64le : Statement .st64le :=
  of_free 0x15 rfl (by decide) rfl ⟨rfl, rfl⟩

theorem ld16be : Statement .ld16be :=
  of_free 0x18 rfl (by decide) rfl ⟨rfl, rfl⟩

theorem ld16le : Statement .ld16le :=
  of_free 0x19 rfl (by decide) rfl ⟨rfl, rfl⟩

theorem ld32be : Statement .ld32be :=
  of_free 0x1A rfl (by decide) rfl ⟨rfl, rfl⟩

theorem ld32le : Statement .ld32le :=
  of_free 0x1B rfl (by decide) rfl ⟨rfl, rfl⟩

theorem ld64be : Statement .ld64be :=
  of_free 0x1C rfl (by decide) rfl ⟨rfl, rfl⟩

theorem ld64le : Statement .ld64le :=
  of_free 0x1D rfl (by decide) rfl ⟨rfl, rfl⟩

theorem aesInit (ctx : Ctx) (pk : PKind) (rnd enc : Bool) : Statement (.aesInit ctx pk rnd enc) :=
  of_init ctx 0x20 rfl (by decide) rfl

theorem aesPblk (ctx : Ctx) : Statement (.aesPblk ctx) :=
  of_slot ctx 0x21 rfl (by decide) rfl ⟨rfl, rfl⟩

theorem aesReset (ctx : Ctx) : Statement (.aesReset ctx) :=
  of_slot ctx 0x22 rfl (by decide) rfl ⟨rfl, rfl⟩

theorem dgUpd (ctx : Ctx) : Statement (.dgUpd ctx) :=
  of_slot ctx 0x30 rfl (by decide) rfl ⟨rfl, rfl⟩

theorem dgUpds (ctx : Ctx) : Statement (.dgUpds ctx) :=
  of_slot ctx 0x31 rfl (by decide) rfl ⟨rfl, rfl⟩

theorem dgFinal (ctx : Ctx) : Statement (.dgFinal ctx) :=
  of_slot ctx 0x32 rfl (by decide) rfl ⟨rfl, rfl⟩

theorem dgReset (ctx : Ctx) : Statement (.dgReset ctx) :=
  of_slot ctx 0x33 rfl (by decide) rfl ⟨rfl, rfl⟩

theorem hmInit (ctx : Ctx) (pk : PKind) (rnd : Bool) : Statement (.hmInit ctx pk rnd) :=
  of_init ctx 0x40 rfl (by decide) rfl

theorem hmUpd (ctx : Ctx) : Statement (.hmUpd ctx) :=
  of_slot ctx 0x41 rfl (by decide) rfl ⟨rfl, rfl⟩

theorem hmUpds (ctx : Ctx) : Statement (.hmUpds ctx) :=
  of_slot ctx 0x42 rfl (by decide) rfl ⟨rfl, rfl⟩

theorem hmFinal (ctx : Ctx) : Statement (.hmFinal ctx) :=
  of_slot ctx 0x43 rfl (by decide) rfl ⟨rfl, rfl⟩

theorem hmReset (ctx : Ctx) : Statement (.hmReset ctx) :=
  of_slot ctx 0x44 rfl (by decide) rfl ⟨rfl, rfl⟩

theorem bufInit (ctx : Ctx) (pk : PKind) (rnd enc : Bool) : Statement (.bufInit ctx pk rnd enc) :=
  of_init ctx 0x50 rfl (by decide) rfl

theorem bufPbyte (ctx : Ctx) : Statement (.bufPbyte ctx) :=
  of_slot ctx 0x51 rfl (by decide) rfl ⟨rfl, rfl⟩

theorem bufPbytes (ctx : Ctx) : Statement (.bufPbytes ctx) :=
  of_slot ctx 0x52 rfl (by decide) rfl ⟨rfl, rfl⟩

theorem bufFinal (ctx : Ctx) : Statement (.bufFinal ctx) :=
  of_slot ctx 0x53 rfl (by decide) rfl ⟨rfl, rfl⟩

theorem bufReset (ctx : Ctx) : Statement (.bufReset ctx) :=
  of_slot ctx 0x54 rfl (by decide) rfl ⟨rfl, rfl⟩

theorem bufGos (ctx : Ctx) : Statement (.bufGos ctx) :=
  of_slot ctx 0x55 rfl (by decide) rfl ⟨rfl, rfl⟩

theorem bufGuos (ctx : Ctx) : Statement (.bufGuos ctx) :=
  of_slot ctx 0x56 rfl (by decide) rfl ⟨rfl, rfl⟩

theorem padAdd : Statement .padAdd :=
  of_free 0x58 rfl (by decide) rfl ⟨rfl, rfl⟩

theorem padCnt : Statement .padCnt :=
  of_free 0x59 rfl (by decide) rfl ⟨rfl, rfl⟩

theorem cbcInit (ctx : Ctx) (pk : PKind) (rnd enc : Bool) : Statement (.cbcInit ctx pk rnd enc) :=
  of_init ctx 0x60 rfl (by decide) rfl

theorem cbcPblk (ctx : Ctx) : Statement (.cbcPblk ctx) :=
  of_slot ctx 0x61 rfl (by decide) rfl ⟨rfl, rfl⟩

theorem cbcReset (ctx : Ctx) : Statement (.cbcReset ctx) :=
  of_slot ctx 0x62 rfl (by decide) rfl ⟨rfl, rfl⟩

theorem ctrInit (ctx : Ctx) (pk : PKind) (rnd enc : Bool) : Statement (.ctrInit ctx pk rnd enc) :=
  of_init ctx 0x70 rfl (by decide) rfl

theorem ctrPblk (ctx : Ctx) : Statement (.ctrPblk ctx) :=
  of_slot ctx 0x71 rfl (by decide) rfl ⟨rfl, rfl⟩

theorem ctrPbyte (ctx : Ctx) : Statement (.ctrPbyte ctx) :=
  of_slot ctx 0x72 rfl (by decide) rfl ⟨rfl, rfl⟩

theorem ctrPbytes (ctx : Ctx) : Statement (.ctrPbytes ctx) :=
  of_slot ctx 0x73 rfl (by decide) rfl ⟨rfl, rfl⟩

theorem ctrReset (ctx : Ctx) : Statement (.ctrReset ctx) :=
  of_slot ctx 0x74 rfl (by decide) rfl ⟨rfl, rfl⟩

theorem ctrSkip (ctx : Ctx) : Statement (.ctrSkip ctx) :=
  of_slot ctx 0x75 rfl (by decide) rfl ⟨rfl, rfl⟩

theorem ctrSeek (ctx : Ctx) : Statement (.ctrSeek ctx) :=
  of_slot ctx 0x76 rfl (by decide) rfl ⟨rfl, rfl⟩

theorem ctrGpos (ctx : Ctx) : Statement (.ctrGpos ctx) :=
  of_slot ctx 0x77 rfl (by decide) rfl ⟨rfl, rfl⟩

theorem gcmInit (ctx : Ctx) (pk : PKind) (rnd enc : Bool) : Statement (.gcmInit ctx pk rnd enc) :=
  of_init ctx 0x80 rfl (by decide) rfl

theorem gcmAad (ctx : Ctx) : Statement (.gcmAad ctx) :=
  of_slot ctx 0x81 rfl (by decide) rfl ⟨rfl, rfl⟩

theorem gcmAads (ctx : Ctx) : Statement (.gcmAads ctx) :=
  of_slot ctx 0x82 rfl (by decide) rfl ⟨rfl, rfl⟩

theorem gcmPbyte (ctx : Ctx) : Statement (.gcmPbyte ctx) :=
  of_slot ctx 0x83 rfl (by decide) rfl ⟨rfl, rfl⟩

theorem gcmPbytes (ctx : Ctx) : Statement (.gcmPbytes ctx) :=
  of_slot ctx 0x84 rfl (by decide) rfl ⟨rfl, rfl⟩

theorem gcmFinal (ctx : Ctx) : Statement (.gcmFinal ctx) :=
  of_slot ctx 0x85 rfl (by decide) rfl ⟨rfl, rfl⟩

theorem gcmGmac (ctx : Ctx) : Statement (.gcmGmac ctx) :=
  of_slot ctx 0x86 rfl (by decide) rfl ⟨rfl, rfl⟩

theorem gcmReset (ctx : Ctx) : Statement (.gcmReset ctx) :=
  of_slot ctx 0x87 rfl (by decide) rfl ⟨rfl, rfl⟩

theorem gcmGos (ctx : Ctx) : Statement (.gcmGos ctx) :=
  of_slot ctx 0x88 rfl (by decide) rfl ⟨rfl, rfl⟩

theorem gcmGuos (ctx : Ctx) : Statement (.gcmGuos ctx) :=
  of_slot ctx 0x89 rfl (by decide) rfl ⟨rfl, rfl⟩

theorem gfMul : Statement .gfMul :=
  of_free 0x8F rfl (by decide) rfl ⟨rfl, rfl⟩

theorem ccmInit (ctx : Ctx) (pk : PKind) (rnd enc : Bool) : Statement (.ccmInit ctx pk rnd enc) :=
  of_init ctx 0x90 rfl (by decide) rfl

theorem ccmAad (ctx : Ctx) : Statement (.ccmAad ctx) :=
  of_slot ctx 0x91 rfl (by decide) rfl ⟨rfl, rfl⟩

theorem ccmAads (ctx : Ctx) : Statement (.ccmAads ctx) :=
  of_slot ctx 0x92 rfl (by decide) rfl ⟨rfl, rfl⟩

theorem ccmPbyte (ctx : Ctx) : Statement (.ccmPbyte ctx) :=
  of_slot ctx 0x93 rfl (by decide) rfl ⟨rfl, rfl⟩

theorem ccmPbytes (ctx : Ctx) : Statement (.ccmPbytes ctx) :=
  of_slot ctx 0x94 rfl (by decide) rfl ⟨rfl, rfl⟩

theorem ccmFinal (ctx : Ctx) : Statement (.ccmFinal ctx) :=
  of_slot ctx 0x95 rfl (by decide) rfl ⟨rfl, rfl⟩

theorem ccmPpkt (ctx : Ctx) : Statement (.ccmPpkt ctx) :=
  of_slot ctx 0x96 rfl (by decide) rfl ⟨rfl, rfl⟩

theorem ccmGmac (ctx : Ctx) : Statement (.ccmGmac ctx) :=
  of_slot ctx 0x97 rfl (by decide) rfl ⟨rfl, rfl⟩

theorem ccmReset (ctx : Ctx) : Statement (.ccmReset ctx) :=
  of_slot ctx 0x98 rfl (by decide) rfl ⟨rfl, rfl⟩

theorem ccmGos (ctx : Ctx) : Statement (.ccmGos ctx) :=
  of_slot ctx 0x99 rfl (by decide) rfl ⟨rfl, rfl⟩

theorem ccmGuos (ctx : Ctx) : Statement (.ccmGuos ctx) :=
  of_slot ctx 0x9A rfl (by decide) rfl ⟨rfl, rfl⟩

theorem cmacInit (ctx : Ctx) (pk : PKind) (rnd : Bool) : Statement (.cmacInit ctx pk rnd) :=
  of_init ctx 0xA0 rfl (by decide) rfl

theorem cmacUpd (ctx : Ctx) : Statement (.cmacUpd ctx) :=
  of_slot ctx 0xA1 rfl (by decide) rfl ⟨rfl, rfl⟩

theorem cmacUpds (ctx : Ctx) : Statement (.cmacUpds ctx) :=
  of_slot ctx 0xA2 rfl (by decide) rfl ⟨rfl, rfl⟩

theorem cmacFinal (ctx : Ctx) : Statement (.cmacFinal ctx) :=
  of_slot ctx 0xA3 rfl (by decide) rfl ⟨rfl, rfl⟩

theorem cmacReset (ctx : Ctx) : Statement (.cmacReset ctx) :=
  of_slot ctx 0xA4 rfl (by decide) rfl ⟨rfl, rfl⟩

end Sys2Proof.Laws.OpcodeRow
end

