-- ==== Sys2Proof/Tests/Slice0.lean ====
section
/-! SUPPORT. Tests of the model against the spec's own words, examples and vectors (30_encoding.md R115, R123;
95_test_vectors.md), and a witness of the hypotheses of each obligation that has some. -/

namespace Sys2Proof.Tests

open Sys2Proof Sys2Proof.Machine

/- Kernel evaluations one after the other: side by side they would need a thread each. -/
set_option Elab.async false

/-! ## Helpers -/

/-- Eight argument registers; the ones not given are 0. -/
def argsOf (l : List Word64) : Args := Vector.ofFn fun i => l.getD i.val 0

/-- A memory that lists `bs` at `a`. -/
def bytesAt (a : Nat) (bs : List Byte) : Memory := bs.zipIdx.map fun x => (a + x.2, x.1)

/-- The bytes `a, a + 1, ..` (`n` of them). -/
def seqBytes (a n : Nat) : List Byte := (List.range n).map fun i => BitVec.ofNat 8 (a + i)

/-- A machine with the slots `slots` and the command `w` accepted with the arguments `args`. -/
def running (w : Word32) (slots : List Slot) (mem : Memory) (args : List Word64) : State :=
  { State.reset with slots := slots, mem := mem, pend := some ⟨w, argsOf args⟩, cmd := w }

/-- One step from `running` with one slot: ERR, RESULT and the `n` bytes of DMEM at `a`. -/
def outcome (w : Word32) (sl : Slot) (mem : Memory) (args : List Word64) (a n : Nat) :
    Option (Err × Word64 × List Byte) :=
  match step (running w [sl] mem args) with
  | .next t => some (t.err, t.result, t.memRead a n)
  | .fault _ => none
  | .refused _ => none

/-- One step from `running`: ERR and the slots. -/
def slotsAfter (w : Word32) (slots : List Slot) (mem : Memory) (args : List Word64) :
    Option (Err × List Slot) :=
  match step (running w slots mem args) with
  | .next t => some (t.err, t.slots)
  | .fault _ => none
  | .refused _ => none

/-- The common inputs of 95_test_vectors.md §1.1: key at 0x00, IV or nonce at 0x10, plaintext at 0x20. -/
def common : Memory := bytesAt 0 (seqBytes 0x01 16) ++ bytesAt 0x10 (seqBytes 0x11 16) ++ bytesAt 0x20 (seqBytes 0x25 16)

/-- The key `01..10`. -/
def key128 : List Byte := seqBytes 0x01 16

def keyE : AesKey := keySchedule key128 .E

def keyD : AesKey := keySchedule key128 .D

/-- The data descriptors used below: 16 bytes in at 0x20, up to 64 out at 0x100, ARG7 = 0x61. -/
def stdArgs : List Word64 := [0x20, 16, 0, 16, 0x100, 64, 0, 0x61]

/-- INIT operands: key at 0x00, a 12-byte nonce at 0x10, no associated data, a 32-bit MAC. -/
def initArgs : List Word64 := [0, 16, 0x10, 12, 0, 0, 32]

/-! ## Well-formedness and decoding -/

/-- 10_state.md R42: MS = 17..31 is invalid; every other operand type has no invalid value. -/
theorem test_cmac_ms_17_is_ill_formed : (Instr.cfg 0 (.cmac 17 .zero)).wf = false := by decide

theorem test_cmac_ms_16_is_well_formed : (Instr.cfg 0 (.cmac 16 .zero)).wf = true := by decide

/-- The words of CFG: OPC 0x01, CTX, ALG, OPT (30_encoding.md R115, 10_state.md R42). -/
theorem test_decode_cfg :
    decodeWord 0x01000000 = .ok (.cfg 0 .unconfigured) ∧ decodeWord 0x01070100 = .ok (.cfg 7 .aes) ∧
    decodeWord 0x01FF0200 = .ok (.cfg 255 .cbc) ∧ decodeWord 0x01020300 = .ok (.cfg 2 .ctr) ∧
    decodeWord 0x01030400 = .ok (.cfg 3 (.buf .ecb false)) ∧
    decodeWord 0x01030402 = .ok (.cfg 3 (.buf .ecb true)) ∧
    decodeWord 0x01030401 = .ok (.cfg 3 (.buf .cbc false)) ∧
    decodeWord 0x01000500 = .ok (.cfg 0 .gcm) ∧ decodeWord 0x01040600 = .ok (.cfg 4 .ccm) ∧
    decodeWord 0x01020710 = .ok (.cfg 2 (.cmac 16 .zero)) ∧
    decodeWord 0x01020730 = .ok (.cfg 2 (.cmac 16 .pkcs7)) ∧
    decodeWord 0x01000800 = .ok (.cfg 0 (.digest .md5)) ∧ decodeWord 0x01000900 = .ok (.cfg 0 (.digest .sha1)) ∧
    decodeWord 0x01000A00 = .ok (.cfg 0 (.digest .sha256)) ∧ decodeWord 0x01000B00 = .ok (.cfg 0 (.hmac .md5)) ∧
    decodeWord 0x01000B01 = .ok (.cfg 0 (.hmac .sha1)) :=
  ⟨rfl, rfl, rfl, rfl, rfl, rfl, rfl, rfl, rfl, rfl, rfl, rfl, rfl, rfl, rfl, rfl⟩

/-- The other words of 40_context.md, from the opcode map (R115) and the INIT fields (R113). -/
theorem test_decode_sys :
    decodeWord 0x02A50000 = .ok (.copy 0xA5) ∧ decodeWord 0x03A50000 = .ok (.gbs 0xA5) ∧
    decodeWord 0x04A50000 = .ok (.gms 0xA5) ∧ decodeWord 0x05A50000 = .ok (.gds 0xA5) ∧
    decodeWord 0x06A50000 = .ok (.gbl 0xA5) :=
  ⟨rfl, rfl, rfl, rfl, rfl⟩

/-- The other words of 41_bytepack.md, from the opcode map (R115) and the INIT fields (R113). -/
theorem test_decode_pack :
    decodeWord 0x10000000 = .ok (.st16be) ∧ decodeWord 0x11000000 = .ok (.st16le) ∧
    decodeWord 0x12000000 = .ok (.st32be) ∧ decodeWord 0x13000000 = .ok (.st32le) ∧
    decodeWord 0x14000000 = .ok (.st64be) ∧ decodeWord 0x15000000 = .ok (.st64le) ∧
    decodeWord 0x18000000 = .ok (.ld16be) ∧ decodeWord 0x19000000 = .ok (.ld16le) ∧
    decodeWord 0x1A000000 = .ok (.ld32be) ∧ decodeWord 0x1B000000 = .ok (.ld32le) ∧
    decodeWord 0x1C000000 = .ok (.ld64be) ∧ decodeWord 0x1D000000 = .ok (.ld64le) :=
  ⟨rfl, rfl, rfl, rfl, rfl, rfl, rfl, rfl, rfl, rfl, rfl, rfl⟩

/-- The other words of 42_aes.md, from the opcode map (R115) and the INIT fields (R113). -/
theorem test_decode_aes :
    decodeWord 0x20050A01 = .ok (.aesInit 5 .aead true true) ∧ decodeWord 0x20FF0100 = .ok (.aesInit 255 .keyIv false false) ∧
    decodeWord 0x21A50000 = .ok (.aesPblk 0xA5) ∧ decodeWord 0x22A50000 = .ok (.aesReset 0xA5) :=
  ⟨rfl, rfl, rfl, rfl⟩

/-- The other words of 43_digest.md, from the opcode map (R115) and the INIT fields (R113). -/
theorem test_decode_digest :
    decodeWord 0x30A50000 = .ok (.dgUpd 0xA5) ∧ decodeWord 0x31A50000 = .ok (.dgUpds 0xA5) ∧
    decodeWord 0x32A50000 = .ok (.dgFinal 0xA5) ∧ decodeWord 0x33A50000 = .ok (.dgReset 0xA5) :=
  ⟨rfl, rfl, rfl, rfl⟩

/-- The other words of 44_hmac.md, from the opcode map (R115) and the INIT fields (R113). -/
theorem test_decode_hmac :
    decodeWord 0x40050A00 = .ok (.hmInit 5 .aead true) ∧ decodeWord 0x40FF0000 = .ok (.hmInit 255 .key false) ∧
    decodeWord 0x41A50000 = .ok (.hmUpd 0xA5) ∧ decodeWord 0x42A50000 = .ok (.hmUpds 0xA5) ∧
    decodeWord 0x43A50000 = .ok (.hmFinal 0xA5) ∧ decodeWord 0x44A50000 = .ok (.hmReset 0xA5) :=
  ⟨rfl, rfl, rfl, rfl, rfl, rfl⟩

/-- The other words of 45_buffered.md, from the opcode map (R115) and the INIT fields (R113). -/
theorem test_decode_buf_pad :
    decodeWord 0x50050A01 = .ok (.bufInit 5 .aead true true) ∧ decodeWord 0x50FF0100 = .ok (.bufInit 255 .keyIv false false) ∧
    decodeWord 0x51A50000 = .ok (.bufPbyte 0xA5) ∧ decodeWord 0x52A50000 = .ok (.bufPbytes 0xA5) ∧
    decodeWord 0x53A50000 = .ok (.bufFinal 0xA5) ∧ decodeWord 0x54A50000 = .ok (.bufReset 0xA5) ∧
    decodeWord 0x55A50000 = .ok (.bufGos 0xA5) ∧ decodeWord 0x56A50000 = .ok (.bufGuos 0xA5) ∧
    decodeWord 0x58000000 = .ok (.padAdd) ∧ decodeWord 0x59000000 = .ok (.padCnt) :=
  ⟨rfl, rfl, rfl, rfl, rfl, rfl, rfl, rfl, rfl, rfl⟩

/-- The other words of 46_cbc.md, from the opcode map (R115) and the INIT fields (R113). -/
theorem test_decode_cbc :
    decodeWord 0x60050A01 = .ok (.cbcInit 5 .aead true true) ∧ decodeWord 0x60FF0100 = .ok (.cbcInit 255 .keyIv false false) ∧
    decodeWord 0x61A50000 = .ok (.cbcPblk 0xA5) ∧ decodeWord 0x62A50000 = .ok (.cbcReset 0xA5) :=
  ⟨rfl, rfl, rfl, rfl⟩

/-- The other words of 47_ctr.md, from the opcode map (R115) and the INIT fields (R113). -/
theorem test_decode_ctr :
    decodeWord 0x70050A01 = .ok (.ctrInit 5 .aead true true) ∧ decodeWord 0x70FF0100 = .ok (.ctrInit 255 .keyIv false false) ∧
    decodeWord 0x71A50000 = .ok (.ctrPblk 0xA5) ∧ decodeWord 0x72A50000 = .ok (.ctrPbyte 0xA5) ∧
    decodeWord 0x73A50000 = .ok (.ctrPbytes 0xA5) ∧ decodeWord 0x74A50000 = .ok (.ctrReset 0xA5) ∧
    decodeWord 0x75A50000 = .ok (.ctrSkip 0xA5) ∧ decodeWord 0x76A50000 = .ok (.ctrSeek 0xA5) ∧
    decodeWord 0x77A50000 = .ok (.ctrGpos 0xA5) :=
  ⟨rfl, rfl, rfl, rfl, rfl, rfl, rfl, rfl, rfl⟩

/-- The other words of 48_gcm.md, from the opcode map (R115) and the INIT fields (R113). -/
theorem test_decode_gcm :
    decodeWord 0x80050A01 = .ok (.gcmInit 5 .aead true true) ∧ decodeWord 0x80FF0100 = .ok (.gcmInit 255 .keyIv false false) ∧
    decodeWord 0x81A50000 = .ok (.gcmAad 0xA5) ∧ decodeWord 0x82A50000 = .ok (.gcmAads 0xA5) ∧
    decodeWord 0x83A50000 = .ok (.gcmPbyte 0xA5) ∧ decodeWord 0x84A50000 = .ok (.gcmPbytes 0xA5) ∧
    decodeWord 0x85A50000 = .ok (.gcmFinal 0xA5) ∧ decodeWord 0x86A50000 = .ok (.gcmGmac 0xA5) ∧
    decodeWord 0x87A50000 = .ok (.gcmReset 0xA5) ∧ decodeWord 0x88A50000 = .ok (.gcmGos 0xA5) ∧
    decodeWord 0x89A50000 = .ok (.gcmGuos 0xA5) ∧ decodeWord 0x8F000000 = .ok (.gfMul) :=
  ⟨rfl, rfl, rfl, rfl, rfl, rfl, rfl, rfl, rfl, rfl, rfl, rfl⟩

/-- The other words of 49_ccm_cbcmac.md, from the opcode map (R115) and the INIT fields (R113). -/
theorem test_decode_ccm_cmac :
    decodeWord 0x90050A01 = .ok (.ccmInit 5 .aead true true) ∧ decodeWord 0x90FF0100 = .ok (.ccmInit 255 .keyIv false false) ∧
    decodeWord 0x91A50000 = .ok (.ccmAad 0xA5) ∧ decodeWord 0x92A50000 = .ok (.ccmAads 0xA5) ∧
    decodeWord 0x93A50000 = .ok (.ccmPbyte 0xA5) ∧ decodeWord 0x94A50000 = .ok (.ccmPbytes 0xA5) ∧
    decodeWord 0x95A50000 = .ok (.ccmFinal 0xA5) ∧ decodeWord 0x96A50000 = .ok (.ccmPpkt 0xA5) ∧
    decodeWord 0x97A50000 = .ok (.ccmGmac 0xA5) ∧ decodeWord 0x98A50000 = .ok (.ccmReset 0xA5) ∧
    decodeWord 0x99A50000 = .ok (.ccmGos 0xA5) ∧ decodeWord 0x9AA50000 = .ok (.ccmGuos 0xA5) ∧
    decodeWord 0xA0050A00 = .ok (.cmacInit 5 .aead true) ∧ decodeWord 0xA0FF0000 = .ok (.cmacInit 255 .key false) ∧
    decodeWord 0xA1A50000 = .ok (.cmacUpd 0xA5) ∧ decodeWord 0xA2A50000 = .ok (.cmacUpds 0xA5) ∧
    decodeWord 0xA3A50000 = .ok (.cmacFinal 0xA5) ∧ decodeWord 0xA4A50000 = .ok (.cmacReset 0xA5) :=
  ⟨rfl, rfl, rfl, rfl, rfl, rfl, rfl, rfl, rfl, rfl, rfl, rfl, rfl, rfl, rfl, rfl, rfl, rfl⟩

/-- V-DEC-1 to V-DEC-9 and V-DEC-12: the reserved words, each refused by the step of R126 that names it. -/
theorem test_reserved_words :
    decodeWord 0x07000000 = .error .reservedOpcode ∧ decodeWord 0xFF000000 = .error .reservedOpcode ∧
    decodeWord 0x21000001 = .error .nonZeroField ∧ decodeWord 0x20000301 = .error .badParameterKind ∧
    decodeWord 0x20001001 = .error .badParameterKind ∧ decodeWord 0x20000002 = .error .badDirection ∧
    decodeWord 0x40000001 = .error .nonZeroField ∧ decodeWord 0x01000C00 = .error .badOption ∧
    decodeWord 0x01000101 = .error .badOption ∧ decodeWord 0x01000711 = .error .badOption ∧
    decodeWord 0x01000B03 = .error .badOption ∧ decodeWord 0x10010000 = .error .nonZeroField :=
  ⟨rfl, rfl, rfl, rfl, rfl, rfl, rfl, rfl, rfl, rfl, rfl, rfl⟩

/-! ## One step per command (95_test_vectors.md) -/

/-- V-CTX-1. -/
theorem test_cfg_gcm : slotsAfter 0x01000500 [.unconfigured] [] [] =
    some (.ok, [.gcm ⟨none, 0, none, none⟩]) := by decide +kernel

/-- V-CTX-2: CFG to NONE takes every field and the nonce history away. -/
theorem test_cfg_none : slotsAfter 0x01000000 [.gcm ⟨none, 5, some [1], some [2]⟩] [] [] =
    some (.ok, [.unconfigured]) := by decide +kernel

/-- V-CTX-12: slot 1 gets slot 0's state. -/
theorem test_copy : slotsAfter 0x02010000
    [.digest .sha256 (absorbed .sha256 [0x61, 0x62, 0x63]), .digest .sha256 (digestReset .sha256)] [] [0] =
    some (.ok, [.digest .sha256 (absorbed .sha256 [0x61, 0x62, 0x63]),
      .digest .sha256 (absorbed .sha256 [0x61, 0x62, 0x63])]) := by decide +kernel

/-- V-CTX-13: different algorithms. -/
theorem test_copy_of_another_algorithm : slotsAfter 0x02000000
    [.digest .sha256 (digestReset .sha256), .digest .sha1 (digestReset .sha1)] [] [1] =
    some (.illegalCommand, [.digest .sha256 (digestReset .sha256), .digest .sha1 (digestReset .sha1)]) := by
  decide +kernel

/-- V-CTX-4. -/
theorem test_gbs : outcome 0x03000000 (.gcm ⟨none, 0, none, none⟩) [] [] 0 0 = some (.ok, 16, []) := by
  decide +kernel

/-- V-CTX-5. -/
theorem test_gms_unkeyed : outcome 0x04000000 (.gcm ⟨none, 0, none, none⟩) [] [] 0 0 =
    some (.notInitialized, 0, []) := by decide +kernel

/-- V-CTX-7 and V-CTX-8. -/
theorem test_gms_hmac_cmac : outcome 0x04000000 (.hmac .sha1 none) [] [] 0 0 = some (.ok, 20, []) ∧
    outcome 0x04000000 (.cmac 0 .zero none) [] [] 0 0 = some (.ok, 8, []) := by decide +kernel

/-- V-CTX-9 and V-CTX-11. -/
theorem test_gds : outcome 0x05000000 (.digest .sha1 (digestReset .sha1)) [] [] 0 0 = some (.ok, 20, []) ∧
    outcome 0x05000000 (.aes none) [] [] 0 0 = some (.illegalCommand, 0, []) := by decide +kernel

/-- V-CTX-10. -/
theorem test_gbl : outcome 0x06000000 (.digest .md5 (digestReset .md5)) [] [] 0 0 = some (.ok, 64, []) := by
  decide +kernel

/-- V-PK-1 and V-PK-7: bits 63:16 of ARG1 are ignored. -/
theorem test_st16be : outcome 0x10000000 .unconfigured [] [0x100, 0xFFFFFFFFFFFF1234] 0x100 2 =
    some (.ok, 0, [0x12, 0x34]) := by decide +kernel

/-- V-PK-13: the last byte would lie outside DMEM. -/
theorem test_st16be_at_the_end : slotsAfter 0x10000000 [] [] [0xFFFF, 0] = some (.accessFault, []) := by
  decide +kernel

/-- V-PK-2. -/
theorem test_st16le : outcome 0x11000000 .unconfigured [] [0x100, 0x1234] 0x100 2 =
    some (.ok, 0, [0x34, 0x12]) := by decide +kernel

/-- V-PK-3: an unaligned address is legal. -/
theorem test_st32be : outcome 0x12000000 .unconfigured [] [3, 0xDEADBEEF] 3 4 =
    some (.ok, 0, [0xDE, 0xAD, 0xBE, 0xEF]) := by decide +kernel

/-- V-PK-4. -/
theorem test_st32le : outcome 0x13000000 .unconfigured [] [3, 0xDEADBEEF] 3 4 =
    some (.ok, 0, [0xEF, 0xBE, 0xAD, 0xDE]) := by decide +kernel

/-- V-PK-5. -/
theorem test_st64be : outcome 0x14000000 .unconfigured [] [0, 0x0102030405060708] 0 8 =
    some (.ok, 0, [1, 2, 3, 4, 5, 6, 7, 8]) := by decide +kernel

/-- V-PK-6. -/
theorem test_st64le : outcome 0x15000000 .unconfigured [] [0, 0x0102030405060708] 0 8 =
    some (.ok, 0, [8, 7, 6, 5, 4, 3, 2, 1]) := by decide +kernel

/-- V-PK-8: zero-extended. -/
theorem test_ld16be : outcome 0x18000000 .unconfigured (bytesAt 0x100 [0xFF, 0xFE]) [0x100] 0 0 =
    some (.ok, 0xFFFE, []) := by decide +kernel

/-- V-PK-9. -/
theorem test_ld16le : outcome 0x19000000 .unconfigured (bytesAt 0x100 [0xFF, 0xFE]) [0x100] 0 0 =
    some (.ok, 0xFEFF, []) := by decide +kernel

/-- V-PK-10. -/
theorem test_ld32be : outcome 0x1A000000 .unconfigured (bytesAt 3 [0xDE, 0xAD, 0xBE, 0xEF]) [3] 0 0 =
    some (.ok, 0xDEADBEEF, []) := by decide +kernel

/-- V-PK-10. -/
theorem test_ld32le : outcome 0x1B000000 .unconfigured (bytesAt 3 [0xDE, 0xAD, 0xBE, 0xEF]) [3] 0 0 =
    some (.ok, 0xEFBEADDE, []) := by decide +kernel

/-- V-PK-11 at the place of V-PK-15: the last eight bytes of DMEM. -/
theorem test_ld64be : outcome 0x1C000000 .unconfigured (bytesAt 0xFFF8 (seqBytes 1 8)) [0xFFF8] 0 0 =
    some (.ok, 0x0102030405060708, []) := by decide +kernel

/-- V-PK-14: the range is computed without wrap. -/
theorem test_ld64be_beyond : outcome 0x1C000000 .unconfigured [] [0xFFFFFFFFFFFFFFFF] 0 0 =
    some (.accessFault, 0, []) := by decide +kernel

/-- V-PK-11. -/
theorem test_ld64le : outcome 0x1D000000 .unconfigured (bytesAt 0 (seqBytes 1 8)) [0] 0 0 =
    some (.ok, 0x0807060504030201, []) := by decide +kernel

/-- FIPS-197 A.1 (95_test_vectors.md §2.1): round key 1. -/
theorem test_key_expansion :
    (keyExpansion (toBytes 0x2B7E151628AED2A6ABF7158809CF4F3C#128)).getD 1 0 =
      0xA0FAFE1788542CB123A339392A6C7605 := by decide +kernel

/-- V-AES-1, first command: Nr = 10. -/
theorem test_aesInit : slotsAfter 0x20000001 [.aes none] common initArgs = some (.ok, [.aes (some ⟨true, keyE⟩)]) ∧
    keyE.nr = 10 := by decide +kernel

/-- V-AES-4: the slot is left unkeyed. -/
theorem test_aesInit_bad_key : slotsAfter 0x20000001 [.aes (some ⟨true, keyE⟩)] common [0, 15] =
    some (.invalidParameter, [.aes none]) := by decide +kernel

/-- V-AES-1 (S-AES-1, FIPS-197 C.1). -/
theorem test_aesPblk_encrypt : outcome 0x21000000 (.aes (some ⟨true, keySchedule (seqBytes 0 16) .E⟩))
    (bytesAt 0x20 (toBytes 0x00112233445566778899AABBCCDDEEFF#128)) [0x20, 16, 0, 0, 0x40, 16, 0] 0x40 16 =
    some (.ok, 16, toBytes 0x69C4E0D86A7B0430D8CDB78070B4C55A#128) := by decide +kernel

/-- V-AES-2, in place (V-AES-10), with the 32-byte key of S-AES-3. -/
theorem test_aesPblk_decrypt : outcome 0x21000000 (.aes (some ⟨false, keySchedule (seqBytes 0 32) .D⟩))
    (bytesAt 0x20 (toBytes 0x8EA2B7CA516745BFEAFC49904B496089#128)) [0x20, 16, 0, 0, 0x20, 16, 0] 0x20 16 =
    some (.ok, 16, toBytes 0x00112233445566778899AABBCCDDEEFF#128) := by decide +kernel

/-- V-AES-12. -/
theorem test_aesReset : slotsAfter 0x22000000 [.aes none] [] [] = some (.ok, [.aes none]) := by
  decide +kernel

/-- V-CTX-3. -/
theorem test_dgUpd : slotsAfter 0x30000000 [.digest .sha256 (digestReset .sha256)] [] stdArgs =
    some (.ok, [.digest .sha256 { digestReset .sha256 with xBuf := 0x61000000, xBufOff := 1, byteCount := 1 }]) := by
  decide +kernel

/-- V-DG-2: byteCount = 3, xBufOff = 3, xBuf = 61 62 63. -/
theorem test_dgUpds : slotsAfter 0x31000000 [.digest .sha1 (digestReset .sha1)]
    (bytesAt 0x200 [0x61, 0x62, 0x63]) [0x200, 3, 0, 3] =
    some (.ok, [.digest .sha1 { digestReset .sha1 with xBuf := 0x61626300, xBufOff := 3, byteCount := 3 }]) := by
  decide +kernel

/-- V-DG-1 (S-DG-8). -/
theorem test_dgFinal_sha256 : outcome 0x32000000 (.digest .sha256 (absorbed .sha256 [0x61, 0x62, 0x63])) []
    [0, 0, 0, 0, 0x300, 32, 0] 0x300 32 =
    some (.ok, 32, toBytes 0xBA7816BF8F01CFEA414140DE5DAE2223B00361A396177A9CB410FF61F20015AD#256) := by
  decide +kernel

/-- V-DG-5: the padding spills into a second block. -/
theorem test_dgFinal_md5 : outcome 0x32000000 (.digest .md5 (absorbed .md5 (List.replicate 56 0x61))) []
    [0, 0, 0, 0, 0x300, 16, 0] 0x300 16 = some (.ok, 16, toBytes 0x3B0C8AC703F828B04C6C197006D17218#128) := by
  decide +kernel

/-- S-DG-5 through R251: the sha1 of `abc`. -/
theorem test_sha1 : digestOf .sha1 [0x61, 0x62, 0x63] = toBytes 0xA9993E364706816ABA3E25717850C26C9CD0D89D#160 := by
  decide +kernel

/-- V-DG-9: the reset state is the one CFG makes. -/
theorem test_dgReset : slotsAfter 0x33000000 [.digest .md5 (absorbed .md5 [0x61])] [] [] =
    some (.ok, [.digest .md5 ⟨[0x67452301, 0xEFCDAB89, 0x98BADCFE, 0x10325476], Vector.replicate 16 0, 0, 0, 0, 0⟩]) := by
  decide +kernel

/-- V-HM-1, first command. -/
theorem test_hmInit : (slotsAfter 0x40000000 [.hmac .sha256 none] common [0, 10]).map
    (fun r => (r.1, r.2.map Slot.isKeyed)) = some (.ok, [true]) := by decide +kernel

/-- V-HM-8. -/
theorem test_hmInit_keyIv : slotsAfter 0x40000100 [.hmac .sha256 none] common initArgs =
    some (.invalidParameter, [.hmac .sha256 none]) := by decide +kernel

/-- V-HM-7. -/
theorem test_hmUpd_unkeyed : slotsAfter 0x41000000 [.hmac .sha256 none] [] stdArgs =
    some (.notInitialized, [.hmac .sha256 none]) := by decide +kernel

/-- R285: a string of one byte moves the running digest as R232 says. -/
theorem test_hmUpds : slotsAfter 0x42000000 [.hmac .md5 (some ⟨digestReset .md5, digestReset .md5, digestReset .md5⟩)]
    (bytesAt 0 [0x61]) [0, 1, 0, 1] = some (.ok, [.hmac .md5 (some ⟨{ digestReset .md5 with
      xBuf := 0x61000000, xBufOff := 1, byteCount := 1 }, digestReset .md5, digestReset .md5⟩)]) := by
  decide +kernel

/-- S-HM-1 (V-HM-3): HMAC-MD5 of `Hi There`; the slot is the one HM.INIT and HM.UPDS leave. -/
theorem test_hmFinal : outcome 0x43000000
    (.hmac .md5 (some ⟨digestAbsorbBytes .md5 (hmacKey .md5 (List.replicate 16 0x0B)).1
      [0x48, 0x69, 0x20, 0x54, 0x68, 0x65, 0x72, 0x65],
      (hmacKey .md5 (List.replicate 16 0x0B)).1, (hmacKey .md5 (List.replicate 16 0x0B)).2⟩)) []
    [0, 0, 0, 0, 0x80, 16, 0] 0x80 16 = some (.ok, 16, toBytes 0x9294727A3638BB1C13F48EF8158BFC9D#128) := by
  decide +kernel

/-- V-HM-10. -/
theorem test_hmFinal_short : outcome 0x43000000 (.hmac .sha256 (some
    ⟨digestReset .sha256, digestReset .sha256, digestReset .sha256⟩)) [] [0, 0, 0, 0, 0x80, 31, 0] 0 0 =
    some (.outputTooShort, 0, []) := by decide +kernel

/-- V-HM-9: back to the ipad snapshot. -/
theorem test_hmReset : slotsAfter 0x44000000
    [.hmac .md5 (some ⟨absorbed .md5 [0x61], absorbed .md5 [1], absorbed .md5 [2]⟩)] [] [] =
    some (.ok, [.hmac .md5 (some ⟨absorbed .md5 [1], absorbed .md5 [1], absorbed .md5 [2]⟩)]) := by
  decide +kernel

/-- V-BUF-4, first command: CBC with its IV. -/
theorem test_bufInit : slotsAfter 0x50000101 [.buf .cbc true none] common [0, 16, 0x10, 16] =
    some (.ok, [.buf .cbc true (some ⟨.cbc ⟨true, keyE, 0x1112131415161718191A1B1C1D1E1F20,
      0x1112131415161718191A1B1C1D1E1F20, 0⟩, 0, 0⟩)]) := by decide +kernel

/-- V-BUF-13 and V-BUF-14. -/
theorem test_bufInit_bad_kind :
    slotsAfter 0x50000201 [.buf .cbc true none] common initArgs = some (.invalidParameter, [.buf .cbc true none]) ∧
    slotsAfter 0x50000101 [.buf .ecb true none] common [0, 16, 0x10, 16] =
      some (.invalidParameter, [.buf .ecb true none]) := by decide +kernel

/-- V-BUF-1: the sixteenth byte writes the block. -/
theorem test_bufPbyte : outcome 0x51000000 (.buf .ecb false (some ⟨.ecb ⟨true, keySchedule (seqBytes 0 16) .E⟩,
    0x00112233445566778899AABBCCDDEE00, 15⟩)) [] [0, 0, 0, 0, 0x100, 16, 0, 0xFF] 0x100 16 =
    some (.ok, 16, toBytes 0x69C4E0D86A7B0430D8CDB78070B4C55A#128) := by decide +kernel

/-- V-BUF-4: the last 16 bytes stay buffered. -/
theorem test_bufPbytes : slotsAfter 0x52000000 [.buf .ecb true (some ⟨.ecb ⟨true, keyE⟩, 0, 0⟩)] common stdArgs =
    some (.ok, [.buf .ecb true (some ⟨.ecb ⟨true, keyE⟩, 0x25262728292A2B2C2D2E2F3031323334, 16⟩)]) := by
  decide +kernel

/-- V-BUF-4 (K1): the last two blocks of CBC with PKCS7. -/
theorem test_bufFinal : outcome 0x53000000 (.buf .cbc true (some ⟨.cbc ⟨true, keyE,
    0x1112131415161718191A1B1C1D1E1F20, 0x1112131415161718191A1B1C1D1E1F20, 0⟩,
    0x25262728292A2B2C2D2E2F3031323334, 16⟩)) [] [0, 0, 0, 0, 0x100, 32, 0] 0x100 32 =
    some (.ok, 32, toBytes 0x4637805F9C4B84A727A1F0AED9E963888C4B7FDB71D48991A8D93AB8664D430C#256) := by decide +kernel

/-- V-BUF-7: a bad padding resets the slot. -/
theorem test_bufFinal_bad_padding : slotsAfter 0x53000000 [.buf .cbc true (some ⟨.cbc ⟨false, keyD, 1,
    0x4637805F9C4B84A727A1F0AED9E96388, 2⟩, 0x8C4B7FDB71D48991A8D93AB8664D430D, 16⟩)] [] stdArgs =
    some (.authenticationFailed, [.buf .cbc true (some ⟨.cbc ⟨false, keyD, 1, 1, 0⟩, 0, 0⟩)]) := by
  decide +kernel

/-- R307. -/
theorem test_bufReset : slotsAfter 0x54000000 [.buf .cbc true (some ⟨.cbc ⟨true, keyE, 1, 2, 3⟩, 4, 5⟩)] [] [] =
    some (.ok, [.buf .cbc true (some ⟨.cbc ⟨true, keyE, 1, 1, 0⟩, 0, 0⟩)]) := by decide +kernel

/-- V-BUF-9. -/
theorem test_bufGos : outcome 0x55000000 (.buf .ecb true (some ⟨.ecb ⟨true, keyE⟩, 0, 0⟩)) [] stdArgs 0 0 =
    some (.ok, 32, []) := by decide +kernel

/-- V-BUF-10 and V-BUF-11. -/
theorem test_bufGuos :
    outcome 0x56000000 (.buf .ecb false (some ⟨.ecb ⟨true, keyE⟩, 0, 10⟩)) [] [0, 0, 0, 7] 0 0 = some (.ok, 16, []) ∧
    outcome 0x56000000 (.buf .ecb true (some ⟨.ecb ⟨true, keyE⟩, 0, 16⟩)) [] [] 0 0 = some (.ok, 0, []) := by
  decide +kernel

/-- V-PAD-1. -/
theorem test_padAdd : outcome 0x58000000 .unconfigured (bytesAt 0x500 (zeros 16)) [0x500, 16, 13] 0x500 16 =
    some (.ok, 3, zeros 13 ++ [3, 3, 3]) := by decide +kernel

/-- V-PAD-6 and V-PAD-7. -/
theorem test_padAdd_edges :
    outcome 0x58000000 .unconfigured (bytesAt 0x500 (zeros 16)) [0x500, 16, 16] 0x500 16 =
      some (.ok, 0, zeros 16) ∧
    outcome 0x58000000 .unconfigured [] [0x500, 16, 17] 0 0 = some (.dataTooShort, 0, []) := by decide +kernel

/-- V-PAD-2 and V-PAD-8. -/
theorem test_padCnt :
    outcome 0x59000000 .unconfigured (bytesAt 0x500 (zeros 13 ++ [3, 3, 3])) [0x500, 16] 0 0 = some (.ok, 3, []) ∧
    outcome 0x59000000 .unconfigured (bytesAt 0x500 (List.replicate 16 0x10)) [0x500, 16] 0 0 =
      some (.ok, 16, []) := by decide +kernel

/-- V-PAD-3 to V-PAD-5. -/
theorem test_padCnt_bad : ∀ tail ∈ [[2, 3, 3], [3, 3, 0], [3, 3, 0x11]],
    outcome 0x59000000 .unconfigured (bytesAt 0x500 (zeros 13 ++ tail)) [0x500, 16] 0 0 =
      some (.authenticationFailed, 0, []) := by decide +kernel

/-- V-CBC-4. -/
theorem test_cbcInit_key : slotsAfter 0x60000001 [.cbc none] common initArgs =
    some (.ok, [.cbc (some ⟨true, keyE, 0, 0, 0⟩)]) := by decide +kernel

/-- V-CBC-5: an IV of 12 bytes; a slot keyed before is left unkeyed. -/
theorem test_cbcInit_short_iv : slotsAfter 0x60000101 [.cbc (some ⟨true, keyE, 0, 0, 0⟩)] common initArgs =
    some (.invalidParameter, [.cbc none]) := by decide +kernel

/-- V-CBC-1. -/
theorem test_cbcPblk_encrypt : outcome 0x61000000 (.cbc (some ⟨true, keyE, 0x1112131415161718191A1B1C1D1E1F20,
    0x1112131415161718191A1B1C1D1E1F20, 0⟩)) common stdArgs 0x100 16 =
    some (.ok, 16, toBytes 0x4637805F9C4B84A727A1F0AED9E96388#128) := by decide +kernel

/-- V-CBC-3, with the chaining value that R341 leaves. -/
theorem test_cbcPblk_decrypt : slotsAfter 0x61000000 [.cbc (some ⟨false, keyD, 0x1112131415161718191A1B1C1D1E1F20,
    0x1112131415161718191A1B1C1D1E1F20, 0⟩)] (bytesAt 0x20 (toBytes 0x4637805F9C4B84A727A1F0AED9E96388#128)) stdArgs =
    some (.ok, [.cbc (some ⟨false, keyD, 0x1112131415161718191A1B1C1D1E1F20, 0x4637805F9C4B84A727A1F0AED9E96388,
      0x1112131415161718191A1B1C1D1E1F20⟩)]) := by decide +kernel

/-- V-CBC-2: the chain restarts from the IV. -/
theorem test_cbcReset : slotsAfter 0x62000000 [.cbc (some ⟨true, keyE, 1, 2, 3⟩)] [] [] =
    some (.ok, [.cbc (some ⟨true, keyE, 1, 1, 0⟩)]) := by decide +kernel

/-- The CTR slot of 95_test_vectors.md §3.8, at a position. -/
def ctrSlot (pos : Nat) : Slot := .ctr (some ⟨true, keyE, 12, 0x1112131415161718191A1B1C00000000, pos⟩)

/-- §3.8's INIT: t = 4, pos = 0. -/
theorem test_ctrInit : slotsAfter 0x70000101 [.ctr none] common initArgs = some (.ok, [ctrSlot 0]) := by
  decide +kernel

/-- V-CTR-14 and V-CTR-15. -/
theorem test_ctrInit_bad :
    slotsAfter 0x70000101 [.ctr none] common [0, 16, 0x10, 7] = some (.invalidParameter, [.ctr none]) ∧
    slotsAfter 0x70000001 [.ctr none] common initArgs = some (.invalidParameter, [.ctr none]) := by decide +kernel

/-- V-CTR-1 (K3), its last three bytes. -/
theorem test_ctrPblk : outcome 0x71000000 (ctrSlot 0) common stdArgs 0x10D 3 =
    some (.ok, 16, [0x6B, 0x43, 0x3A]) := by decide +kernel

/-- V-CTR-3 and, at the position of V-CTR-4, keystream byte 5. -/
theorem test_ctrPbyte :
    outcome 0x72000000 (ctrSlot 0) [] [0, 0, 0, 0, 0x100, 1, 0, 0x25] 0x100 1 = some (.ok, 1, [0xCC]) ∧
    outcome 0x72000000 (ctrSlot 5) [] [0, 0, 0, 0, 0x100, 1, 0, 0] 0x100 1 = some (.ok, 1, [0xF3]) := by
  decide +kernel

/-- V-CTR-10: eight bytes up to the last position of t = 4. -/
theorem test_ctrPbytes_last : (slotsAfter 0x73000000 [ctrSlot 0xFFFFFFFF8] common [0x20, 16, 0, 8, 0x100, 64, 0]) =
    some (.ok, [ctrSlot 0x1000000000]) := by decide +kernel

/-- V-CTR-11: a ninth byte is misuse, and nothing changes. -/
theorem test_ctrPbytes_beyond : slotsAfter 0x73000000 [ctrSlot 0xFFFFFFFF8] common [0x20, 16, 0, 9, 0x100, 64, 0] =
    some (.misuseDetected, [ctrSlot 0xFFFFFFFF8]) := by decide +kernel

/-- V-CTR-7. -/
theorem test_ctrReset : slotsAfter 0x74000000 [ctrSlot 20] [] [] = some (.ok, [ctrSlot 0]) := by decide +kernel

/-- V-CTR-5 and V-CTR-8: a signed distance. -/
theorem test_ctrSkip : slotsAfter 0x75000000 [ctrSlot 0] [] [16] = some (.ok, [ctrSlot 16]) ∧
    slotsAfter 0x75000000 [ctrSlot 0] [] [0xFFFFFFFFFFFFFFFF] = some (.misuseDetected, [ctrSlot 0]) := by
  decide +kernel

/-- V-CTR-4 and V-CTR-9. -/
theorem test_ctrSeek : outcome 0x76000000 (ctrSlot 0) [] [5] 0 0 = some (.ok, 5, []) ∧
    outcome 0x76000000 (ctrSlot 0) [] [0x1000000000] 0 0 = some (.misuseDetected, 0, []) := by decide +kernel

/-- V-CTR-6. -/
theorem test_ctrGpos : outcome 0x77000000 (ctrSlot 20) [] [] 0 0 = some (.ok, 20, []) := by decide +kernel

/-- The GCM slot of the standard INIT (95_test_vectors.md §3.9), keyed for `n` MAC bytes. -/
def gcmSlot (enc : Bool) (n : Nat) : GcmKeyed := gcmInit enc keyE n (seqBytes 0x11 12) []

/-- A GCM slot with these keyed fields. -/
def gcmOf (k : GcmKeyed) : Slot := .gcm ⟨some k, 0, some key128, some (seqBytes 0x11 12)⟩

/-- V-GCM-1: macSize 4, H and J0 as K4 gives them. -/
theorem test_gcmInit : slotsAfter 0x80000201 [.gcm ⟨none, 0, none, none⟩] common initArgs =
    some (.ok, [gcmOf (gcmSlot true 4)]) ∧ (gcmSlot true 4).macSize = 4 ∧
    (gcmSlot true 4).h = 0xDBF184112EB9111659712BAFCFF2AB24 ∧
    (gcmSlot true 4).j0 = 0x1112131415161718191A1B1C00000001 := by decide +kernel

/-- V-GCM-4: nonce reuse; the slot is left unkeyed and keeps its history. -/
theorem test_gcmInit_nonce_reuse :
    slotsAfter 0x80000201 [gcmOf (gcmSlot true 4)] common initArgs =
      some (.misuseDetected, [.gcm ⟨none, 0, some key128, some (seqBytes 0x11 12)⟩]) := by decide +kernel

/-- R401: the first byte of associated data. -/
theorem test_gcmAad : slotsAfter 0x81000000 [gcmOf (gcmSlot true 4)] [] stdArgs =
    some (.ok, [gcmOf { gcmSlot true 4 with aad := ⟨0, 0x61#128 <<< 120, 1⟩ }]) := by decide +kernel

/-- R402: three bytes of associated data, less than a block. -/
theorem test_gcmAads : slotsAfter 0x82000000 [gcmOf (gcmSlot true 4)] (bytesAt 0 [0x61, 0x62, 0x63]) [0, 3, 0, 3] =
    some (.ok, [gcmOf { gcmSlot true 4 with aad := ⟨0, 0x616263#128 <<< 104, 3⟩ }]) := by decide +kernel

/-- V-GCM-3: the sixteenth byte. -/
theorem test_gcmPbyte : outcome 0x83000000 (gcmOf { gcmSlot true 4 with
    bufBlock := 0x25262728292A2B2C2D2E2F30313233#256 <<< 136, bufOff := 15 }) []
    [0, 0, 0, 0, 0x100, 16, 0, 0x34] 0x100 16 = some (.ok, 16, toBytes 0x123AF13F11F4E81CD652443388093151#128) := by
  decide +kernel

/-- V-GCM-2 (K4), the data. -/
theorem test_gcmPbytes : outcome 0x84000000 (gcmOf (gcmSlot true 4)) common stdArgs 0x100 16 =
    some (.ok, 16, toBytes 0x123AF13F11F4E81CD652443388093151#128) := by decide +kernel

/-- V-GCM-2 (K4), the tag. -/
theorem test_gcmFinal : outcome 0x85000000 (gcmOf (gcmBytes (gcmSlot true 4) (seqBytes 0x25 16)).2) []
    [0, 0, 0, 0, 0x100, 20, 16] 0x110 4 = some (.ok, 4, [0x50, 0x6D, 0x52, 0x7E]) := by decide +kernel

/-- V-GCM-7: a decrypting slot given three bytes; it restarts and stays initialised. -/
theorem test_gcmFinal_short : slotsAfter 0x85000000 [gcmOf (gcmBytes (gcmSlot false 4) [1, 2, 3]).2] []
    [0, 0, 0, 0, 0x100, 20, 0] = some (.authenticationFailed, [gcmOf (gcmSlot false 4)]) := by decide +kernel

/-- V-GCM-5, last command. -/
theorem test_gcmGmac : outcome 0x86000000
    (.gcm ⟨some (gcmSlot true 4), 0x506D527E#128 <<< 96, none, none⟩) [] stdArgs 0x100 4 =
    some (.ok, 4, [0x50, 0x6D, 0x52, 0x7E]) := by decide +kernel

/-- R407 with D16: an encrypting slot needs a new INIT. -/
theorem test_gcmReset : slotsAfter 0x87000000 [.gcm ⟨some (gcmBytes (gcmSlot true 4) [1, 2, 3]).2, 9, some [1], some [2]⟩] [] [] =
    some (.ok, [.gcm ⟨some { gcmSlot true 4 with init := false }, 0, some [1], some [2]⟩]) := by decide +kernel

/-- V-GCM-19. -/
theorem test_gcmGos : outcome 0x88000000 (gcmOf (gcmSlot true 4)) [] stdArgs 0 0 = some (.ok, 20, []) := by
  decide +kernel

/-- V-GCM-20. -/
theorem test_gcmGuos : outcome 0x89000000 (gcmOf (gcmSlot false 4)) [] [0, 0, 0, 20] 0 0 = some (.ok, 16, []) := by
  decide +kernel

/-- V-GF-1. -/
theorem test_gfMul : outcome 0x8F000000 .unconfigured (bytesAt 0 (toBytes
    0x66E94BD4EF8A2C3B884CFA59CA342B2E0388DACE60B6A392F328C2B971B2FE78#256)) [0, 0x10, 0, 0, 0x20] 0x20 16 =
    some (.ok, 16, toBytes 0x5E2EC746917062882C85B0685353DEB7#128) := by decide +kernel

/-- V-GF-4, in place (V-GF-5): x^127 times x. -/
theorem test_gfMul_in_place : outcome 0x8F000000 .unconfigured (bytesAt 0 (toBytes
    0x0000000000000000000000000000000140000000000000000000000000000000#256)) [0, 0x10, 0, 0, 0] 0 16 =
    some (.ok, 16, toBytes 0xE1000000000000000000000000000000#128) := by decide +kernel

/-- The CCM slot of 95_test_vectors.md §3.10. -/
def ccmSlot (enc : Bool) (n : Nat) (msg : List Byte) : CcmKeyed := ⟨true, enc, keyE, seqBytes 0x11 12, n, [], [], msg⟩

/-- A CCM slot with these keyed fields. -/
def ccmOf (k : CcmKeyed) : Slot := .ccm ⟨some k, 0, some key128, some (seqBytes 0x11 12)⟩

/-- V-CCM-1, first command. -/
theorem test_ccmInit : slotsAfter 0x90000201 [.ccm ⟨none, 0, none, none⟩] common initArgs =
    some (.ok, [ccmOf (ccmSlot true 4 [])]) := by decide +kernel

/-- V-CCM-7 and V-CCM-8. -/
theorem test_ccmInit_bad :
    (slotsAfter 0x90000201 [.ccm ⟨none, 0, none, none⟩] common [0, 16, 0x10, 14, 0, 0, 32]).map Prod.fst =
      some .invalidParameter ∧
    (slotsAfter 0x90000201 [.ccm ⟨none, 0, none, none⟩] common [0, 16, 0x10, 12, 0, 0, 24]).map Prod.fst =
      some .invalidParameter := by decide +kernel

/-- R448. -/
theorem test_ccmAad : slotsAfter 0x91000000 [ccmOf (ccmSlot true 4 [])] [] stdArgs =
    some (.ok, [ccmOf { ccmSlot true 4 [] with aad := [0x61] }]) := by decide +kernel

/-- R449. -/
theorem test_ccmAads : slotsAfter 0x92000000 [ccmOf (ccmSlot true 4 [])] (bytesAt 0 [0x61, 0x62, 0x63]) [0, 3, 0, 3] =
    some (.ok, [ccmOf { ccmSlot true 4 [] with aad := [0x61, 0x62, 0x63] }]) := by decide +kernel

/-- R450: nothing is written. -/
theorem test_ccmPbyte : slotsAfter 0x93000000 [ccmOf (ccmSlot true 4 [1])] [] stdArgs =
    some (.ok, [ccmOf (ccmSlot true 4 [1, 0x61])]) := by decide +kernel

/-- V-CCM-1, second command. -/
theorem test_ccmPbytes : outcome 0x94000000 (ccmOf (ccmSlot true 4 [])) common stdArgs 0 0 = some (.ok, 0, []) := by
  decide +kernel

/-- V-CCM-1 (K2). -/
theorem test_ccmFinal : outcome 0x95000000 (ccmOf (ccmSlot true 4 (seqBytes 0x25 16))) [] [0, 0, 0, 0, 0x100, 20, 0]
    0x100 20 = some (.ok, 20, toBytes 0x696B351EFE2C2F1E483F98B7725E93EAF5B7CF36#160) := by decide +kernel

/-- V-CCM-11: three bytes to decrypt; the slot restarts and stays initialised. -/
theorem test_ccmFinal_short : slotsAfter 0x95000000 [ccmOf (ccmSlot false 4 [1, 2, 3])] [] stdArgs =
    some (.authenticationFailed, [ccmOf (ccmSlot false 4 [])]) := by decide +kernel

/-- V-CCM-2. -/
theorem test_ccmPpkt_encrypt : outcome 0x96000000 (ccmOf (ccmSlot true 4 [])) common stdArgs 0x100 20 =
    some (.ok, 20, toBytes 0x696B351EFE2C2F1E483F98B7725E93EAF5B7CF36#160) := by decide +kernel

/-- V-CCM-3. -/
theorem test_ccmPpkt_decrypt : outcome 0x96000000 (ccmOf (ccmSlot false 4 []))
    (bytesAt 0x20 (toBytes 0x696B351EFE2C2F1E483F98B7725E93EAF5B7CF36#160)) [0x20, 20, 0, 20, 0x100, 16, 0] 0x100 16 =
    some (.ok, 16, seqBytes 0x25 16) := by decide +kernel

/-- V-CCM-1, last command. -/
theorem test_ccmGmac : outcome 0x97000000
    (.ccm ⟨some (ccmSlot true 4 []), 0xF5B7CF36#128 <<< 96, none, none⟩) [] stdArgs 0x100 4 =
    some (.ok, 4, [0xF5, 0xB7, 0xCF, 0x36]) := by decide +kernel

/-- R455. -/
theorem test_ccmReset : slotsAfter 0x98000000 [ccmOf { ccmSlot false 4 [1] with aad := [2] }] [] [] =
    some (.ok, [ccmOf (ccmSlot false 4 [])]) := by decide +kernel

/-- V-CCM-14. -/
theorem test_ccmGos : outcome 0x99000000 (ccmOf (ccmSlot true 4 [])) [] stdArgs 0 0 = some (.ok, 20, []) := by
  decide +kernel

/-- V-CCM-15. -/
theorem test_ccmGuos : outcome 0x9A000000 (ccmOf (ccmSlot true 4 [])) [] [0, 0, 0, 1000] 0 0 = some (.ok, 0, []) := by
  decide +kernel

/-- V-CM-1, first command. -/
theorem test_cmacInit : slotsAfter 0xA0000000 [.cmac 0 .zero none] common initArgs =
    some (.ok, [.cmac 0 .zero (some ⟨keyE, 0, 0, 0⟩)]) := by decide +kernel

/-- V-CM-9. -/
theorem test_cmacInit_keyIv : slotsAfter 0xA0000100 [.cmac 0 .zero none] common initArgs =
    some (.invalidParameter, [.cmac 0 .zero none]) := by decide +kernel

/-- R474. -/
theorem test_cmacUpd : slotsAfter 0xA1000000 [.cmac 0 .zero (some ⟨keyE, 0, 0, 0⟩)] [] stdArgs =
    some (.ok, [.cmac 0 .zero (some ⟨keyE, 0x61#128 <<< 120, 1, 0⟩)]) := by decide +kernel

/-- V-CM-1, second command: a full block waits in the buffer. -/
theorem test_cmacUpds : slotsAfter 0xA2000000 [.cmac 0 .zero (some ⟨keyE, 0, 0, 0⟩)] common stdArgs =
    some (.ok, [.cmac 0 .zero (some ⟨keyE, 0x25262728292A2B2C2D2E2F3031323334, 16, 0⟩)]) := by decide +kernel

/-- V-CM-1, third command: no padding block is added for a full block. -/
theorem test_cmacFinal_zero : outcome 0xA3000000 (.cmac 0 .zero (some ⟨keyE,
    0x25262728292A2B2C2D2E2F3031323334, 16, 0⟩)) [] stdArgs 0x100 8 =
    some (.ok, 8, [0x23, 0xCC, 0xF9, 0x18, 0xDE, 0x47, 0x41, 0xAC]) := by decide +kernel

/-- V-CM-2. -/
theorem test_cmacFinal_pkcs7 : outcome 0xA3000000 (.cmac 4 .pkcs7 (some ⟨keyE,
    0x25262728292A2B2C2D2E2F3031323334, 16, 0⟩)) [] stdArgs 0x100 4 =
    some (.ok, 4, [0x51, 0x74, 0x21, 0x28]) := by decide +kernel

/-- V-CM-8: the state of the empty message. -/
theorem test_cmacReset : slotsAfter 0xA4000000 [.cmac 0 .zero (some ⟨keyE, 0x61#128 <<< 120, 1, 7⟩)] [] [] =
    some (.ok, [.cmac 0 .zero (some ⟨keyE, 0, 0, 0⟩)]) := by decide +kernel

/-! ## The engine and the host -/

/-- V-DEC-1: a reserved word completes with IllegalCommand and leaves the slots alone. -/
theorem test_reserved_word_runs : slotsAfter 0x07000000 [.aes none] [] [] = some (.illegalCommand, [.aes none]) := by
  decide +kernel

/-- V-DEC-10 and V-DEC-11: no such slot; a slot of another family. -/
theorem test_unadmitted : slotsAfter 0x03080000 [.aes none] [] [] = some (.illegalCommand, [.aes none]) ∧
    slotsAfter 0x21000000 [.gcm ⟨none, 0, none, none⟩] [] [] =
      some (.illegalCommand, [.gcm ⟨none, 0, none, none⟩]) := by decide +kernel

/-- A reset machine with `BUF_BYTE_RESET` fixed. -/
def fixedReset (b : ByteReset) : State := { State.reset with params := { Config.defaults with bufByteReset := b } }

/-- V-HI-1, V-HI-2 and V-HI-3. -/
theorem test_id_and_caps : readReg (fixedReset .zero) 0x000 = 0x4B4D5531 ∧
    readReg (fixedReset .zero) 0x004 = 0x00100007 ∧ readReg (fixedReset .six) 0x004 = 0x00100107 := by decide +kernel

/-- V-HI-4. -/
theorem test_limits : readReg (fixedReset .zero) 0x018 = 64 ∧ readReg (fixedReset .zero) 0x01C = 65536 ∧
    readReg (fixedReset .zero) 0x020 = 1048576 := by decide +kernel

/-- 90_conflicts.md C11 and V-BUF-3: `BUF_BYTE_RESET` = 6 leaves six bytes buffered. -/
theorem test_buf_byte_reset : (bufByte ByteReset.six.val false ⟨.ecb ⟨true, keyE⟩, 0, 15⟩ 1).2.bufOff = 6 := by
  decide +kernel

/-- V-HI-6: a CMD write while BUSY = 1 sets OVR and changes nothing else. -/
theorem test_overrun : hostStep (.regWrite 0x008 4 0x01000100) (running 0x22000000 [.aes none] [] []) =
    .next { running 0x22000000 [.aes none] [] [] with ovr := true } := rfl

/-- V-HI-7. -/
theorem test_clear_ovr : hostStep (.regWrite 0x00C 4 2) { State.reset with ovr := true } = .next State.reset := rfl

/-- V-HI-8: the running command uses the latched arguments. -/
theorem test_arg_write_during_busy : (match step { running 0x10000000 [] [] [0x100, 0x1234] with
      inputs := [.host (.regWrite 0x048 4 0xFFFF)] } with
    | .next t => (t.args[1], t.argW 1)
    | .fault _ => (0, 0)
    | .refused _ => (0, 0)) = (0xFFFF, 0x1234) := by decide +kernel

/-- V-HI-9 and V-HI-10. -/
theorem test_window : hostStep (.regRead 0x00C 2) State.reset = .refused .windowAccess ∧
    readReg State.reset 0x800 = 0 := ⟨rfl, rfl⟩

/-- V-HI-11: a reset discards a pending GCM.FINAL. -/
theorem test_reset_during_busy : (match step { running 0x85000000 [gcmOf (gcmSlot true 4)] [] stdArgs with
      inputs := [.host .reset] } with
    | .next t => (t.pend, t.slots, t.mem)
    | .fault _ => (none, [], [(0, 0)])
    | .refused _ => (none, [], [(0, 0)])) = (none, [.unconfigured], []) := by decide +kernel

/-- 20_memory.md R92: an output that overlaps its input elsewhere than at its start draws the overlap and
nothing else. -/
theorem test_partial_overlap : (match step (running 0x71000000 [ctrSlot 0] common [0x20, 16, 0, 0, 0x2F, 16, 0]) with
    | .next t => (t.draws, t.memRead 0x30 2)
    | .fault _ => (0, [])
    | .refused _ => (0, [])) = (1, [0xB5, 0xA8]) := by decide +kernel

/-- V-GF-1 with z = 0x18, inside y: the eight bytes written there are draws (20_memory.md R92), the other eight
are the product's. -/
theorem test_gfMul_partial_overlap : (match step (running 0x8F000000 [.unconfigured] (bytesAt 0 (toBytes
      0x66E94BD4EF8A2C3B884CFA59CA342B2E0388DACE60B6A392F328C2B971B2FE78#256)) [0, 0x10, 0, 0, 0x18]) with
    | .next t => (t.err, t.result, t.draws, t.memRead 0x20 8)
    | .fault _ => (.ok, 0, 0, [])
    | .refused _ => (.ok, 0, 0, [])) = (.ok, 16, 8, [0x2C, 0x85, 0xB0, 0x68, 0x53, 0x53, 0xDE, 0xB7]) := by
  decide +kernel

/-- An AES.PBLK with the standard descriptors has completed, and the host has not read STATUS since. -/
def unseenState (inputs : List Input) : State :=
  { running 0 [.aes none] (bytesAt 0x13F [7, 8]) [] with
    pend := none, unseen := [⟨0x21000000, argsOf stdArgs⟩], inputs := inputs }

/-- 70_reset_and_hazards.md R550, R570: after the completion the host reads DMEM as it is, polled or not; what it
reads of the output before it has observed BUSY = 0 is recorded (20_memory.md R101). -/
theorem test_read_before_poll : (match step (unseenState [.host (.dmemRead 0x13F 2)]) with
    | .next t => (t.draws, t.busData, t.lateRaced)
    | .fault _ => (9, .nothing, [])
    | .refused _ => (9, .nothing, [])) = (0, .dmem [7, 8], [0x13F]) := rfl

/-- 20_memory.md R97: once the host has read STATUS with BUSY = 0 there is no duty left to break. -/
theorem test_read_after_poll : (match hostStep (.regRead 0x00C 4) (unseenState []) with
    | .next t => ((t.hostRead 0x13F 2).busData, (t.hostRead 0x13F 2).lateRaced)
    | .fault _ => (.nothing, [9])
    | .refused _ => (.nothing, [9])) = (.dmem [7, 8], []) := rfl

/-- 70_reset_and_hazards.md R555: while the command runs, a read of its output's last byte is a draw. -/
theorem test_read_during_busy : (match step { unseenState [.host (.dmemRead 0x13F 2)] with
      pend := some ⟨0x21000000, argsOf stdArgs⟩, unseen := [] } with
    | .next t => (t.draws, t.busData)
    | .fault _ => (0, .nothing)
    | .refused _ => (0, .nothing)) = (1, .dmem [Config.freeByte 0, 8]) := rfl

/-! ## Witnesses: for each obligation, states and operands that meet its hypotheses together, clause by clause -/

/-- `running` with one slot, the common bytes of DMEM and the standard descriptors. -/
def dataState (sl : Slot) : State := running 0 [sl] common stdArgs

/-- The same with INIT operands. -/
def initState (sl : Slot) (args : List Word64) : State := running 0 [sl] common args

/-- ResetEventClearsAllButDmem. -/
theorem witness_reset_event : ∃ s : State, ∃ rest, s.inputs = .host .reset :: rest ∧ s.pend ≠ none :=
  ⟨{ running 0x22000000 [.aes none] [] [] with inputs := [.host .reset, .engine] }, [.engine], rfl, nofun⟩

/-- DecodeInvertsEncode, at the largest MS. -/
theorem witness_wf : (Instr.cfg 255 (.cmac 16 .pkcs7)).wf = true := by decide

/-- EncodeInvertsDecode. -/
theorem witness_decodes : decodeWord 0x01FF0730 = .ok (.cfg 255 (.cmac 16 .pkcs7)) := rfl

/-- ReservedWordsAreIllegal: the ends of every gap of the opcode map. -/
theorem witness_reserved_opc : ∀ n ∈ [0x00, 0x07, 0x0F, 0x16, 0x17, 0x1E, 0x1F, 0x23, 0x2F, 0x34, 0x3F, 0x45, 0x4F] ++
    [0x57, 0x5A, 0x5F, 0x63, 0x6F, 0x78, 0x7F, 0x8A, 0x8E, 0x9B, 0x9F, 0xA5, 0xFF], reservedOpc n := by
  unfold reservedOpc; decide

/-- ReservedWordsAreIllegal: a word of each item of R117. -/
theorem witness_reserved : ReservedWord 0x07000000 ∧ ReservedWord 0xA5000000 ∧ ReservedWord 0x10010000 ∧
    ReservedWord 0x8F000001 ∧ ReservedWord 0x02000001 ∧ ReservedWord 0x20000300 ∧ ReservedWord 0x20001000 ∧
    ReservedWord 0x20000002 ∧ ReservedWord 0x40000300 ∧ ReservedWord 0x40000001 ∧ ReservedWord 0xA0001000 ∧
    ReservedWord 0x01000711 ∧ ReservedWord 0x01000404 ∧ ReservedWord 0x01000C00 := by
  refine ⟨?_, ?_, ?_, ?_, ?_, ?_, ?_, ?_, ?_, ?_, ?_, ?_, ?_, ?_⟩ <;>
    simp [ReservedWord, reservedOpc, freeOpc, directedInitOpc, plainInitOpc, LegalOption]

theorem witness_reserved_pending : (running 0x07000000 [.aes none] [] []).pend = some ⟨0x07000000, argsOf []⟩ := rfl

/-- UnadmittedSlotsAreIllegal: the first slot that does not exist. -/
theorem witness_no_such_slot : ¬ (dataState (.aes none)).Admits (.gbs 1) := fun h => by
  obtain ⟨_, h, _⟩ := h 1 rfl
  exact nomatch h

/-- UnadmittedSlotsAreIllegal: a slot of another family. -/
theorem witness_wrong_family : ¬ (dataState (.gcm ⟨none, 0, none, none⟩)).Admits (.aesPblk 0) := fun h => by
  obtain ⟨_, h, hm, _⟩ := h 0 rfl
  cases h
  exact absurd hm (by decide)

/-- UnadmittedSlotsAreIllegal: COPY from a slot of another algorithm. -/
theorem witness_copy_of_another : ¬ (running 0 [.digest .md5 (digestReset .md5), .digest .sha1 (digestReset .sha1)]
    [] [1]).Admits (.copy 0) := fun h => by
  obtain ⟨_, h, _, hs⟩ := h 0 rfl
  obtain ⟨_, h', hc⟩ := hs
  cases h
  cases h'
  exact absurd hc (by decide)

/-- StepRunsTheDecodedCommand: a pending command, with and without a token; an idle engine; a host operation. -/
theorem witness_step :
    (running 0x22000000 [.aes none] [] []).pend = some ⟨0x22000000, argsOf []⟩ ∧
    decodeWord 0x22000000 = .ok (.aesReset 0) ∧ (running 0x22000000 [.aes none] [] []).raced = [] ∧
    (running 0x22000000 [.aes none] [] []).inputs = [] ∧
    ({ running 0x22000000 [.aes none] [] [] with inputs := [.engine] } : State).inputs = .engine :: [] ∧
    State.reset.pend = none ∧ State.reset.inputs = [] ∧
    ({ State.reset with inputs := [.host (.regRead 0 4)] } : State).inputs = .host (.regRead 0 4) :: [] ∧
    (Instr.aesReset 0).wf = true := ⟨rfl, rfl, rfl, rfl, rfl, rfl, rfl, rfl, rfl⟩

/-- CmdWriteIsAcceptedOrSetsOvr: idle and busy. -/
theorem witness_cmd_write : State.reset.pend = none ∧
    (running 0x22000000 [.aes none] [] []).pend = some ⟨0x22000000, argsOf []⟩ := ⟨rfl, rfl⟩

/-- RegisterReadsFollowTheMap and WindowRefusesAndIgnoresWrites: aligned offsets at the ends of every range,
and accesses of the wrong width or alignment. -/
theorem witness_offsets :
    (∀ off ∈ ([0x000, 0x004, 0x008, 0x00C, 0x010, 0x014, 0x018, 0x01C, 0x020, 0x024, 0x03C, 0x040] ++
      [0x044, 0x078, 0x07C, 0x080, 0xFFC] : List Nat), (BitVec.ofNat 12 off).toNat % 4 = 0) ∧
    (∀ off ∈ ([0x000, 0x004, 0x010, 0x020, 0x024, 0x03C, 0x080, 0xFFC] : List Nat),
      BitVec.ofNat 12 off ≠ 0x008 ∧ BitVec.ofNat 12 off ≠ 0x00C ∧ ¬(0x040 ≤ off ∧ off < 0x080)) ∧
    ¬((2 : Nat) = 4 ∧ (0x00C : BitVec 12).toNat % 4 = 0) ∧ ¬((4 : Nat) = 4 ∧ (0x00E : BitVec 12).toNat % 4 = 0) := by
  decide

/-- ArgumentWritesDoNotReachTheRunningCommand: a command that answers. -/
theorem witness_argument_write : ∃ u, exec (.gbs 0) (dataState (.aes none)) = .next u := ⟨_, rfl⟩

/-- HostReachesDmemAsPlainMemory: a write up to the last byte of DMEM and a read of it; the last byte of an
output and the first beside it, of the running command and of an unseen one. -/
theorem witness_host_dmem : 0xFFFE + [1, 2].length ≤ (dataState (.aes none)).memSize ∧
    0xFFFE + 2 ≤ (dataState (.aes none)).memSize ∧
    (running 0x21000000 [.aes none] [] stdArgs).pendOut = [⟨0x100, 64⟩] ∧
    InRanges (running 0x21000000 [.aes none] [] stdArgs).pendOut 0x13F ∧
    ¬ InRanges (running 0x21000000 [.aes none] [] stdArgs).pendOut 0x140 ∧
    InRanges (unseenState []).unseenOut 0x13F ∧ ¬ InRanges (unseenState []).unseenOut 0x140 ∧
    InRanges (unseenState []).unseenIn 0x20 := by decide +kernel

/-- AccessesBeforeTheCompletionAreDraws: a read and a write of the last byte of a pending command's output. -/
theorem witness_access_before_completion (op : HostOp) :
    (let s : State := { running 0x21000000 [.aes none] [] stdArgs with inputs := [.host op, .engine] }
     s.pend = some ⟨0x21000000, argsOf stdArgs⟩ ∧ s.inputs = .host op :: .engine :: [] ∧
       InRanges (outRanges (.aesPblk 0) s) (0x13F + 0) ∧ 0x13F + 1 ≤ s.memSize) ∧
    decodeWord 0x21000000 = .ok (.aesPblk 0) :=
  ⟨⟨rfl, rfl, ⟨⟨0x100, 64⟩, .head _, by decide⟩, show 0x13F + 1 ≤ 2 ^ 16 by decide⟩, rfl⟩

/-- A pending AES.PBLK on an unkeyed slot, with a byte of its output (the last) and one of its input raced. -/
def racedState (raced : List Nat) : State := { running 0x21000000 [.aes none] [] stdArgs with raced := raced }

/-- RacedBytesAreDraws. -/
theorem witness_raced : (racedState [0x13F, 0x20]).pend = some ⟨0x21000000, argsOf stdArgs⟩ ∧
    decodeWord 0x21000000 = .ok (.aesPblk 0) ∧ (∃ t, engineStep (racedState [0x13F, 0x20]) = .next t) ∧
    InRanges (outRanges (.aesPblk 0) (racedState [0x13F, 0x20])) 0x13F ∧
    ¬ InRanges (outRanges (.aesPblk 0) (racedState [0x13F, 0x20])) 0x20 ∧
    (∀ a ∈ (racedState [0x13F]).raced, ¬ InRanges (inRanges (.aesPblk 0) (racedState [0x13F])) a) :=
  ⟨rfl, rfl, ⟨_, rfl⟩, by decide +kernel, by decide +kernel, by decide +kernel⟩

/-- ErrorsAreOfThreeClasses: a precise error, a failed INIT, a failed FINAL. -/
theorem witness_errors :
    (∃ t, exec (.aesPblk 0) (dataState (.aes none)) = .next t ∧ t.err = .notInitialized) ∧
    (∃ t, exec (.aesInit 0 .keyIv false true) (initState (.aes none) initArgs) = .next t ∧
      isInitCommand (.aesInit 0 .keyIv false true) = true ∧ t.err = .invalidParameter) ∧
    (∃ t, exec (.bufFinal 0) (dataState (.buf .ecb false (some ⟨.ecb ⟨true, keyE⟩, 0, 5⟩))) = .next t ∧
      restarts (.bufFinal 0) = some ([.dataTooShort, .authenticationFailed], .bufReset 0) ∧
      t.err = .dataTooShort) := by
  refine ⟨⟨_, rfl, rfl⟩, ⟨_, rfl, rfl, ?_⟩, ⟨_, rfl, rfl, ?_⟩⟩ <;> decide +kernel

/-- SlotsAreIndependent: slot 1 beside a command on slot 0; COPY from slot 0 with slot 2 replaced. -/
theorem witness_other_slot :
    (∀ c, (Instr.gbs 0).ctx? = some c → c.toNat ≠ 1) ∧
    (∃ t, exec (.gbs 0) (running 0 [.aes none, .cbc none] [] []) = .next t) ∧
    (∀ c, (Instr.copy 1).ctx? = some c → c.toNat ≠ 2) ∧
    (∀ c, Instr.copy 1 = .copy c → (running 0 [.digest .md5 (digestReset .md5),
      .digest .md5 (digestReset .md5), .aes none] [] []).arg 0 ≠ 2) :=
  ⟨fun _ h => by cases h; decide, ⟨_, rfl⟩, fun _ h => by cases h; decide, fun _ _ => by decide +kernel⟩

theorem aes_admits (k : Option AesKeyed) (args : List Word64) :
    (running 0 [.aes k] common args).Admits (.aesPblk 0) := fun _ h => by
  cases h; exact ⟨.aes k, rfl, by simp [admittedCodes, Slot.alg, Slot.conf, AlgConf.algCode], trivial⟩

/-- RangesOutsideDmemFault: an output array that ends one byte past DMEM. -/
theorem witness_outside : (running 0 [.aes none] common [0, 16, 0, 0, 0xFFF1, 16, 0]).Admits (.aesPblk 0) ∧
    ¬ (running 0 [.aes none] common [0, 16, 0, 0, 0xFFF1, 16, 0]).AllInside
      (ranges (.aesPblk 0) (running 0 [.aes none] common [0, 16, 0, 0, 0xFFF1, 16, 0])) ∧
    (∃ t, exec (.aesPblk 0) (running 0 [.aes none] common [0, 16, 0, 0, 0xFFF1, 16, 0]) = .next t ∧
      t.err = .accessFault) :=
  ⟨aes_admits _ _, by decide +kernel, _, rfl, by decide +kernel⟩

/-- ChecksFollowInOrder: not initialised; one input byte too few; one output byte too few. -/
theorem witness_checks :
    (¬ (dataState (.aes none)).Ready (.aesPblk 0) ∧
      (dataState (.aes none)).AllInside (ranges (.aesPblk 0) (dataState (.aes none))) ∧
      (dataState (.aes none)).Admits (.aesPblk 0)) ∧
    (let s := running 0 [.aes (some ⟨true, keyE⟩)] common [0x20, 15, 0, 0, 0x100, 16, 0]
     s.Admits (.aesPblk 0) ∧ s.AllInside (ranges (.aesPblk 0) s) ∧ s.Ready (.aesPblk 0) ∧
       inputLen (.aesPblk 0) s = some 16 ∧ s.arg 1 < s.arg 2 + 16) ∧
    (let s := running 0 [.aes (some ⟨true, keyE⟩)] common [0x20, 16, 0, 0, 0x100, 15, 0]
     s.Admits (.aesPblk 0) ∧ s.AllInside (ranges (.aesPblk 0) s) ∧ s.Ready (.aesPblk 0) ∧
       inputLen (.aesPblk 0) s = some 16 ∧ s.arg 2 + 16 ≤ s.arg 1 ∧
       outputLen (.aesPblk 0) s = some 16 ∧ s.arg 5 < s.arg 6 + 16) := by
  refine ⟨⟨fun h => ?_, by decide +kernel, aes_admits _ _⟩,
    ⟨aes_admits _ _, by decide +kernel, fun c sl h h' => ?_, rfl, by decide +kernel⟩,
    ⟨aes_admits _ _, by decide +kernel, fun c sl h h' => ?_, rfl, by decide +kernel, rfl, by decide +kernel⟩⟩
  · exact absurd ((h 0 (.aes none) rfl rfl).1 rfl) (by decide)
  · cases h; cases h'; exact ⟨fun _ => rfl, fun h => nomatch h⟩
  · cases h; cases h'; exact ⟨fun _ => rfl, fun h => nomatch h⟩

/-- CommandsStayInTheirRanges: well-formed slots, a command that reads and writes, and bytes just outside. -/
theorem witness_stay : State.SlotsOk (dataState (ctrSlot 0)) ∧
    (∃ t, exec (.ctrPblk 0) (dataState (ctrSlot 0)) = .next t) ∧
    ¬ InRanges (outRanges (.ctrPblk 0) (dataState (ctrSlot 0))) 0xFF ∧
    ¬ InRanges (outRanges (.ctrPblk 0) (dataState (ctrSlot 0))) 0x140 ∧
    ¬ InRanges (inRanges (.ctrPblk 0) (dataState (ctrSlot 0))) 0x1F ∧
    ¬ InRanges (inRanges (.ctrPblk 0) (dataState (ctrSlot 0))) 0x30 := by
  refine ⟨fun sl h => ?_, ⟨_, rfl⟩, by decide +kernel, by decide +kernel, by decide +kernel, by decide +kernel⟩
  rw [show (dataState (ctrSlot 0)).slots = [ctrSlot 0] from rfl, List.mem_singleton] at h
  subst h
  intro x hx
  cases hx
  exact ⟨⟨by decide +kernel, by decide +kernel⟩, by decide, by decide, by decide, fun _ => by decide⟩

/-- A state with a pending command, a raced byte and a written byte, for the invariant. -/
def invState : State := { fixedReset .six with
  slots := [.aes none, .gcm ⟨none, 0, none, none⟩], mem := [(0, 1), (0xFFFF, 2)],
  pend := some ⟨0x03000000, argsOf []⟩, cmd := 0x03000000, raced := [0xFFFF], lateRaced := [0] }

/-- EveryStepKeepsTheInvariant. -/
theorem witness_invariant : invState.Inv ∧ ∃ t, step invState = .next t := by
  refine ⟨⟨by decide, by decide, fun sl h => ?_, ⟨by decide, by decide⟩, fun p h => ?_, nofun, by decide, by decide⟩, _, rfl⟩
  · rw [show invState.slots = [.aes none, .gcm ⟨none, 0, none, none⟩] from rfl] at h
    simp only [List.mem_cons, List.not_mem_nil, or_false] at h
    rcases h with rfl | rfl <;> exact nofun
  · cases h; rfl

/-- CfgAndCopySetTheSlot: the last slot of 256; COPY from another slot and from itself. -/
theorem witness_cfg_copy :
    (255 : Ctx).toNat < (running 0 (List.replicate 256 .unconfigured) [] []).nCtx ∧
    (let s := running 0 [.digest .md5 (digestReset .md5), .digest .md5 (absorbed .md5 [1])] [] [1]
     s.slot? 0 = some (.digest .md5 (digestReset .md5)) ∧
       s.slots[s.arg 0]? = some (.digest .md5 (absorbed .md5 [1])) ∧ s.arg 0 ≠ (0 : Ctx).toNat ∧
       s.slot? 1 = some (.digest .md5 (absorbed .md5 [1]))) :=
  ⟨by decide +kernel, rfl, rfl, by decide +kernel, rfl⟩

/-- SizeQueriesAnswerTheSizes: each slot it names, keyed and not. -/
theorem witness_sizes :
    (∀ sl ∈ [Slot.aes none, .cbc none, .ctr none, .buf .ecb false none, .gcm ⟨none, 0, none, none⟩,
        .ccm ⟨none, 0, none, none⟩, .cmac 0 .zero none],
      (dataState sl).slot? 0 = some sl ∧ sl.alg.toNat ∈ [1, 2, 3, 4, 5, 6, 7]) ∧
    (dataState (gcmOf (gcmSlot true 4))).slot? 0 = some (gcmOf (gcmSlot true 4)) ∧
    (dataState (ccmOf (ccmSlot true 4 []))).slot? 0 = some (ccmOf (ccmSlot true 4 [])) ∧
    (dataState (.cmac 16 .zero none)).slot? 0 = some (.cmac 16 .zero none) ∧
    (dataState (.hmac .md5 none)).slot? 0 = some (.hmac .md5 none) ∧
    (dataState (.digest .md5 (digestReset .md5))).slot? 0 = some (.digest .md5 (digestReset .md5)) :=
  ⟨by decide +kernel, rfl, rfl, rfl, rfl, rfl⟩

/-- PackCommandsMoveTheBytes and PackLoadsInvertStores: the last place each width fits; a store that completes
and a state with its memory. -/
theorem witness_pack :
    (running 0 [] [] [0xFFFE]).arg 0 + 2 ≤ (running 0 [] [] [0xFFFE]).memSize ∧
    (running 0 [] [] [0xFFFC]).arg 0 + 4 ≤ (running 0 [] [] [0xFFFC]).memSize ∧
    (running 0 [] [] [0xFFF8]).arg 0 + 8 ≤ (running 0 [] [] [0xFFF8]).memSize ∧
    ∃ t u : State, exec .st64be (running 0 [] [] [0xFFF8, 7]) = .next t ∧ t.err = .ok ∧ u.mem = t.mem ∧
      u.params = t.params ∧ u.arg 0 = (running 0 [] [] [0xFFF8, 7]).arg 0 := by
  refine ⟨by decide +kernel, by decide +kernel, by decide +kernel, _,
    { running 0 [] [] [0xFFF8] with mem := [(0xFFF8, 0), (0xFFF9, 0), (0xFFFA, 0), (0xFFFB, 0), (0xFFFC, 0),
      (0xFFFD, 0), (0xFFFE, 0), (0xFFFF, 7)] }, rfl, ?_, ?_, ?_, ?_⟩
  · decide +kernel
  · decide +kernel
  · rfl
  · decide +kernel

/-- The three key lengths. -/
theorem witness_aesLen : AesLen 16 ∧ AesLen 24 ∧ AesLen 32 := ⟨.inl rfl, .inr (.inl rfl), .inr (.inr rfl)⟩

/-- AesDecryptionInvertsEncryption, CbcDecryptionInvertsEncryption. -/
theorem witness_key : AesLen key128.length := .inl rfl

/-- INIT operands of each kind that lie in DMEM, with an IV of 16 bytes. -/
def fullInit : List Word64 := [0, 16, 0x10, 16, 0x30, 3, 32]

/-- The INIT clauses of AesCommandsLoadAndCipher, HmacCommands.., BufInit.., Cbc.., Ctr.., Gcm.., Ccm.., Cmac..:
ranges inside DMEM, an AES key length, and each slot in place. -/
theorem witness_inits :
    (∀ pk ∈ [PKind.key, .keyIv, .aead], (initState (.aes none) fullInit).AllInside
      ((initState (.aes none) fullInit).initRanges pk)) ∧
    (initState (.aes none) fullInit).arg 1 = 16 ∧ (initState (.aes none) fullInit).arg 3 = 16 ∧
    (∀ sl ∈ [Slot.aes none, .hmac .md5 none, .buf .ecb true none, .buf .cbc true none, .cbc none, .ctr none,
        .gcm ⟨none, 0, none, none⟩, .ccm ⟨none, 0, none, none⟩, .cmac 0 .zero none],
      (initState sl fullInit).slot? 0 = some sl) := by decide +kernel

/-- The nonce and MAC lengths at their bounds: CTR 8 and 16, GCM up to GCM_NONCE_MAX, CCM 7 and 13 and the
largest AAD; and nonce histories that differ from the operands. -/
theorem witness_init_bounds :
    (8 ≤ (initState (.ctr none) [0, 16, 0x10, 8]).arg 3) ∧ ((initState (.ctr none) fullInit).arg 3 ≤ 16) ∧
    (initState (.aes none) [0, 16, 0, 64, 0, 0, 128]).arg 3 ≤
      (initState (.aes none) [0, 16, 0, 64, 0, 0, 128]).params.gcmNonceMax ∧
    (initState (.aes none) [0, 16, 0, 64, 0, 0, 128]).arg 6 ∈ [32, 64, 96, 128] ∧
    (7 ≤ (initState (.aes none) [0, 16, 0x10, 7]).arg 3) ∧ ((initState (.aes none) [0, 16, 0x10, 13]).arg 3 ≤ 13) ∧
    (initState (.aes none) [0, 16, 0x10, 13, 0, 0x10000, 128]).arg 5 ≤
      (initState (.aes none) [0, 16, 0x10, 13, 0, 0x10000, 128]).params.ccmMaxAad ∧
    (initState (.aes none) [0, 16, 0x10, 13, 0, 0x10000, 128]).AllInside
      ((initState (.aes none) [0, 16, 0x10, 13, 0, 0x10000, 128]).initRanges .aead) ∧
    (none : Option (List Byte)) ≠ some (seqBytes 0x11 12) := by decide +kernel

/-- The data clauses of the cipher, stream, digest and MAC statements: both arrays inside DMEM, the input fits
exactly, and every output up to 64 bytes. -/
theorem witness_data : (dataState (.aes none)).AllInside [(dataState (.aes none)).inArray, (dataState (.aes none)).outArray] ∧
    (dataState (.aes none)).InFits 16 ∧ (dataState (.aes none)).len = 16 ∧
    (∀ m ∈ [0, 1, 4, 8, 16, 20, 32], (dataState (.aes none)).OutFits m) ∧ (dataState (.aes none)).OutFits 64 ∧
    ¬ (dataState (.aes none)).OutFits 65 := by decide +kernel

/-- The slots of those clauses. -/
theorem witness_data_slots : ∀ sl : Slot, (dataState sl).slot? 0 = some sl := fun _ => rfl

/-- DigestIsTheStandardHash. -/
theorem witness_message_length : ([] : List Byte).length < 2 ^ 61 := by decide

/-- BufPbyteBuffersOneByte: the four cases at bufOff 14, 15 and 16. -/
theorem witness_bufPbyte : (14 : Nat) < 15 ∧ (dataState (.buf .ecb false (some ⟨.ecb ⟨true, keyE⟩, 0, 15⟩))).slot? 0 =
      some (.buf .ecb false (some ⟨.ecb ⟨true, keyE⟩, 0, 15⟩)) ∧
    (15 : Nat) < 16 ∧ (dataState (.buf .ecb true (some ⟨.ecb ⟨true, keyE⟩, 0, 16⟩))).slot? 0 =
      some (.buf .ecb true (some ⟨.ecb ⟨true, keyE⟩, 0, 16⟩)) := ⟨by decide, rfl, by decide, rfl⟩

/-- BufPbytesWritesTheUpdateSize and BufPbytesIsPbyteRepeated: the largest bufOff of each wrapper, and what they
then write. -/
theorem witness_bufPbytes : (15 : Nat) ≤ (if false then 16 else 15) ∧ (16 : Nat) ≤ (if true then 16 else 15) ∧
    (dataState (.aes none)).OutFits (16 + 15 - (16 + 15) % 16) ∧ (dataState (.aes none)).OutFits (16 + 16 - 16) := by
  decide +kernel

/-- BufFinalFinishesOrResets, the decrypting clauses: a good and a bad padding, and one too long for the output. -/
theorem witness_bufFinal :
    padCount (List.replicate 16 (0x10 : Byte)) = some 16 ∧ padCount (List.replicate 16 (0x11 : Byte)) = none ∧
    padCount (zeros 15 ++ [1]) = some 1 ∧
    ¬ (running 0 [.aes none] common [0, 0, 0, 0, 0x100, 14, 0]).OutFits (16 - 1) ∧
    (running 0 [.aes none] common [0, 0, 0, 0, 0x100, 15, 0]).OutFits (16 - 1) := by decide +kernel

/-- The inverse cipher's block of the clauses above: an ECB wrapper whose buffer decrypts to sixteen bytes 10. -/
theorem witness_bufFinal_block : padCount (toBytes (blockOp (.ecb ⟨false, keyD⟩)
    0x6CC00A66D2AD83FFD76E9A2BCAD89A01).1) = some 16 := by decide +kernel

/-- PadCommandsAddAndCount: `off` = n, `off` = n + 1, an empty block, a good and a bad one. -/
theorem witness_pad :
    (let s := running 0 [] [] [0xFFF0, 16, 16]; s.arg 0 + s.arg 1 ≤ s.memSize ∧ s.arg 2 ≤ s.arg 1) ∧
    (let s := running 0 [] [] [0xFFF0, 16, 17]; s.arg 0 + s.arg 1 ≤ s.memSize ∧ s.arg 1 < s.arg 2) ∧
    (let s := running 0 [] [] [0x10000, 0]; s.arg 0 + s.arg 1 ≤ s.memSize ∧ s.arg 1 = 0) ∧
    (let s := running 0 [] (bytesAt 0 [2, 2]) [0, 2]
     s.arg 1 ≠ 0 ∧ (s.readByte (s.arg 0 + s.arg 1 - 1)).toNat = 2 ∧ (s.readByte (s.arg 0)).toNat = 2) ∧
    (let s := running 0 [] (bytesAt 0 [2, 0]) [0, 2]
     s.arg 1 ≠ 0 ∧ (s.readByte (s.arg 0 + s.arg 1 - 1)).toNat = 0) := by decide +kernel

/-- PadCountInvertsPadAdd. -/
theorem witness_pad_law : (List.replicate 255 (0 : Byte)).length ≤ 255 ∧ 254 < (List.replicate 255 (0 : Byte)).length := by
  rw [List.length_replicate]; decide

/-- CtrInitAndPositionCommands and CtrStreamsXorTheKeystream: the last settable position of t = 4 and the first
that is not; room for the last byte and none after it. -/
theorem witness_ctr : (12 : Nat) ≤ 16 ∧ (0 : Int) ≤ 0xFFFFFFFFF ∧ (0xFFFFFFFFF : Int) < 16 * 2 ^ (8 * (16 - 12)) ∧
    ¬((12 : Nat) = 16 ∨ ((0 : Int) ≤ 0x1000000000 ∧ (0x1000000000 : Int) < 16 * 2 ^ (8 * (16 - 12)))) ∧
    ¬((12 : Nat) = 16 ∨ ((0 : Int) ≤ -1 ∧ (-1 : Int) < 16 * 2 ^ (8 * (16 - 12)))) ∧
    (0xFFFFFFFFF + 1 - 1) / 16 < 2 ^ (8 * (16 - 12)) ∧
    ¬((1 : Nat) = 0 ∨ (12 : Nat) = 16 ∨ (0x1000000000 + 1 - 1) / 16 < 2 ^ (8 * (16 - 12))) := by decide

/-- The GCM clauses: an initialised slot that meets its invariant. -/
theorem witness_gcm : (gcmSlot true 4).init = true ∧ (gcmSlot true 4).Ok ∧ (gcmSlot false 4).Ok ∧
    (dataState (gcmOf (gcmSlot true 4))).slot? 0 = some (gcmOf (gcmSlot true 4)) := by
  refine ⟨rfl, ⟨⟨?_, rfl⟩, .inl rfl, ?_, ?_⟩, ⟨⟨?_, rfl⟩, .inl rfl, ?_, ?_⟩, rfl⟩ <;> decide +kernel

/-- GcmStreamsWriteTheUpdateSize and GcmFinalMakesOrChecksTheTag: the budget used up, a buffer that is one byte
short of full, and a received tag that matches or does not. -/
theorem witness_gcm_clauses :
    ({ gcmSlot true 4 with blocksLeft := 0, bufOff := 15, ctLen := 16 * (2 ^ 32 - 2) } : GcmKeyed).Ok ∧
    ({ gcmSlot true 4 with blocksLeft := 0, bufOff := 15 } : GcmKeyed).bufOff + 1 = (gcmSlot true 4).cap ∧
    ((toBytes ({ gcmSlot false 4 with bufBlock := 0x9D4C65CF#256 <<< 224, bufOff := 4 } : GcmKeyed).bufBlock).take 4 =
      (toBytes (gcmTag (gcmSlot false 4))).take 4) ∧
    ((toBytes ({ gcmSlot false 4 with bufBlock := 0x9D4C65CE#256 <<< 224, bufOff := 4 } : GcmKeyed).bufBlock).take 4 ≠
      (toBytes (gcmTag (gcmSlot false 4))).take 4) := by
  refine ⟨⟨⟨?_, rfl⟩, .inl rfl, ?_, ?_⟩, ?_, ?_, ?_⟩ <;> decide +kernel

/-- GfMulWritesTheProduct: the last place an operand fits, with z on it. -/
theorem witness_gfMul : let s := running 0 [] [] [0xFFF0, 0, 0, 0, 0xFFF0]
    s.arg 0 + 16 ≤ s.memSize ∧ s.arg 1 + 16 ≤ s.memSize ∧ s.arg 4 + 16 ≤ s.memSize := by decide +kernel

/-- GcmIsTheClosedForm: every tag length, and associated data between two pieces of any data, the plaintext or
the ciphertext with its tag. -/
theorem witness_gcm_tag (x y : List Byte) : (∀ t ∈ [4, 8, 12, 16], t ∈ [4, 8, 12, 16]) ∧
    [([], x), ([1, 2, 3], y)].flatMap Prod.snd = x ++ y := ⟨fun _ h => h, by simp⟩

/-- CcmInitAndAbsorption: capacities met exactly and passed by one. -/
theorem witness_ccm_capacity :
    (let s : State := { dataState (.aes none) with params := { Config.defaults with ccmMaxAad := 1, ccmMaxMsg := 16 } }
     0 + 0 + 1 ≤ s.params.ccmMaxAad ∧ s.params.ccmMaxAad < 0 + 1 + 1 ∧
     (List.replicate 15 (0 : Byte)).length + 1 ≤ s.params.ccmMaxMsg ∧
     s.params.ccmMaxMsg < (List.replicate 16 (0 : Byte)).length + 1 ∧ s.params.ccmMaxMsg < 1 + s.len) ∧
    (ccmSlot true 4 []).init = true := by decide +kernel

/-- CcmFinalAndPacketProcess: PPKT's input passes the message capacity by one, and meets it exactly. -/
theorem witness_ccm_packet_capacity :
    let s (n : Word64) : State := { running 0 [ccmOf (ccmSlot true 4 [])] common [0x20, 32, 0, n, 0x100, 64] with
      params := { Config.defaults with ccmMaxMsg := 16 } }
    (s 17).slot? 0 = some (ccmOf (ccmSlot true 4 [])) ∧ (ccmSlot true 4 []).init = true ∧
      (s 17).AllInside [(s 17).inArray, (s 17).outArray] ∧ (s 17).InFits (s 17).len ∧
      (s 17).OutFits ((s 17).len + 4) ∧ (s 17).params.ccmMaxMsg < (s 17).len ∧
      (s 16).len ≤ (s 16).params.ccmMaxMsg := by
  refine ⟨rfl, rfl, ?_⟩
  decide +kernel

/-- CcmFinalAndPacketProcess: a packet that verifies, one that does not, and the shortest message two length
bytes cannot hold. -/
theorem witness_ccm_packet :
    ccmPacket (ccmSlot false 4 []) (toBytes 0x696B351EFE2C2F1E483F98B7725E93EAF5B7CF36#160) ≠ none ∧
    ccmPacket (ccmSlot false 4 []) [1, 2, 3] = none ∧
    (15 - (seqBytes 0 13).length < 4 ∧ 2 ^ (8 * (15 - (seqBytes 0 13).length)) ≤ 65536) ∧
    ¬(15 - (seqBytes 0 12).length < 4 ∧ 2 ^ (8 * (15 - (seqBytes 0 12).length)) ≤ 16) := by decide +kernel

/-- CcmDecryptionInvertsEncryption, with a tag that is not the packet's. -/
theorem witness_ccm_tag : (ccmSlot true 16 []).macSize ≤ 16 ∧
    ((ccmPacket (ccmSlot true 4 []) []).map fun r => r.2) ≠ some [0, 0, 0, 0] := by decide +kernel

/-- InitRejectsBadParameters: each bad operand at the bound, with its ranges inside DMEM. -/
theorem witness_bad_init :
    ¬ AesLen ((initState (.aes none) [0, 15]).arg 1) ∧ ¬ AesLen ((initState (.aes none) [0, 33]).arg 1) ∧
    (initState (.aes none) [0, 16, 0x10, 15]).arg 3 ≠ 16 ∧ (initState (.aes none) [0, 16, 0x10, 7]).arg 3 < 8 ∧
    16 < (initState (.aes none) [0, 16, 0x10, 17]).arg 3 ∧ (initState (.aes none) [0, 16, 0x10, 0]).arg 3 = 0 ∧
    (initState (.aes none) [0, 16, 0x10, 65]).params.gcmNonceMax < (initState (.aes none) [0, 16, 0x10, 65]).arg 3 ∧
    (initState (.aes none) [0, 16, 0x10, 12, 0, 0, 40]).arg 6 ∉ [32, 64, 96, 128] ∧
    (initState (.aes none) [0, 16, 0x10, 6]).arg 3 < 7 ∧ 13 < (initState (.aes none) [0, 16, 0x10, 14]).arg 3 ∧
    (initState (.aes none) [0, 65, 0x10, 65, 0, 65, 40]).AllInside
      ((initState (.aes none) [0, 65, 0x10, 65, 0, 65, 40]).initRanges .aead) ∧
    (initState (.aes none) [0, 0, 0x10, 0, 0, 0, 40]).AllInside
      ((initState (.aes none) [0, 0, 0x10, 0, 0, 0, 40]).initRanges .aead) ∧
    (let s : State := { initState (.aes none) [0, 16, 0x10, 12, 0, 2, 32] with
       params := { Config.defaults with ccmMaxAad := 1 } }
     s.params.ccmMaxAad < s.arg 5 ∧ s.AllInside (s.initRanges .aead)) ∧
    (initState (gcmOf (gcmSlot true 4)) initArgs).memRead 0x10 12 = seqBytes 0x11 12 ∧
    (initState (gcmOf (gcmSlot true 4)) initArgs).memRead 0 16 = key128 := by
  unfold AesLen; decide +kernel

end Sys2Proof.Tests
end

section
/-! SUPPORT. The decoder (30_encoding.md R115, R122, R126): what each word shape answers with, that only
well-formed commands are decoded, and that the word of a well-formed command decodes to it. -/

namespace Sys2Proof

/-! ## What each word shape answers with -/

section Shapes

variable {ctx a b : BitVec 8} {i : Instr}

@[simp] theorem decodeSlot_eq_ok {mk : Ctx → Instr} :
    decodeSlot mk ctx a b = .ok i ↔ (a = 0 ∧ b = 0) ∧ mk ctx = i := by
  unfold decodeSlot
  split <;> grind

@[simp] theorem decodeFree_eq_ok {j : Instr} :
    decodeFree j ctx a b = .ok i ↔ (ctx = 0 ∧ a = 0 ∧ b = 0) ∧ j = i := by
  unfold decodeFree
  split <;> grind

@[simp] theorem decodeCfg_eq_ok :
    decodeCfg ctx a b = .ok i ↔ ∃ conf, decodeConf a b = some conf ∧ .cfg ctx conf = i := by
  unfold decodeCfg
  split <;> simp [*]

@[simp] theorem decodeInit_eq_ok {mk : Ctx → PKind → Bool → Bool → Instr} :
    decodeInit mk ctx a b = .ok i ↔ (a.extractLsb' 4 4 = 0 ∧ b.extractLsb' 1 7 = 0) ∧
      ∃ pk, decodePKind (a.extractLsb' 0 3) = some pk ∧ mk ctx pk (a.getLsbD 3) (b.getLsbD 0) = i := by
  unfold decodeInit
  repeat' split
  all_goals grind

@[simp] theorem decodeInitNoDir_eq_ok {mk : Ctx → PKind → Bool → Instr} :
    decodeInitNoDir mk ctx a b = .ok i ↔ (b = 0 ∧ a.extractLsb' 4 4 = 0) ∧
      ∃ pk, decodePKind (a.extractLsb' 0 3) = some pk ∧ mk ctx pk (a.getLsbD 3) = i := by
  unfold decodeInitNoDir
  repeat' split
  all_goals grind

end Shapes

/-! ## Every command decoded is well formed -/

/-- The one option that could be ill formed is a CMAC's MS, and its row bounds it (R42). -/
theorem decodeConf_wf {a b : BitVec 8} {conf : AlgConf} (h : decodeConf a b = some conf) : conf.wf = true := by
  cases conf with
  | cmac ms pad =>
    unfold decodeConf at h
    split at h
    case h_8 =>
      obtain ⟨hms, rfl, -⟩ : (_ ∧ (b.extractLsb' 0 5).toNat ≤ 16) ∧ b.extractLsb' 0 5 = ms ∧ _ = pad := by
        simpa using h
      simpa [AlgConf.wf] using hms.2
    all_goals simp at h
  | _ => rfl

/-- The one command that could be ill formed is a CFG, and only the row of CFG decodes to it. -/
theorem decodeFields_wf {opc ctx a b : BitVec 8} {i : Instr} (h : decodeFields opc ctx a b = .ok i) :
    i.wf = true := by
  cases i with
  | cfg c conf =>
    unfold decodeFields at h
    split at h
    case h_1 =>
      obtain ⟨conf', hconf, heq⟩ := decodeCfg_eq_ok.mp h
      cases heq
      exact decodeConf_wf hconf
    all_goals simp at h
  | _ => rfl

theorem decodeWord_wf {w : Word32} {i : Instr} (h : decodeWord w = .ok i) : i.wf = true :=
  decodeFields_wf h

/-! ## A command's own word decodes to it -/

@[simp] theorem decodeDk_encodeDk (dk : DigestAlg) : decodeDk (encodeDk dk) = some dk := by
  cases dk <;> rfl

/-- The two fields of a CMAC's OPT byte are read back whole. -/
theorem decodeConf_cmac : ∀ ms : BitVec 5, ms.toNat ≤ 16 → ∀ pad : PadMode,
    decodeConf (AlgConf.cmac ms pad).algCode (AlgConf.cmac ms pad).optByte = some (.cmac ms pad) := by
  intro ms h pad
  revert ms
  cases pad <;> decide

theorem decodeConf_encode {conf : AlgConf} (h : conf.wf = true) :
    decodeConf conf.algCode conf.optByte = some conf := by
  cases conf with
  | cmac ms pad => exact decodeConf_cmac ms (by simpa [AlgConf.wf] using h) pad
  | buf inner padded => cases inner <;> cases padded <;> rfl
  | digest alg => cases alg <;> rfl
  | hmac dk => cases dk <;> rfl
  | _ => rfl

theorem decodeInit_encode (mk : Ctx → PKind → Bool → Bool → Instr) (ctx : Ctx) (pk : PKind) (rnd enc : Bool) :
    decodeInit mk ctx (initA pk rnd) (initB enc) = .ok (mk ctx pk rnd enc) := by
  cases pk <;> cases rnd <;> cases enc <;> rfl

theorem decodeInitNoDir_encode (mk : Ctx → PKind → Bool → Instr) (ctx : Ctx) (pk : PKind) (rnd : Bool) :
    decodeInitNoDir mk ctx (initA pk rnd) 0 = .ok (mk ctx pk rnd) := by
  cases pk <;> cases rnd <;> rfl

theorem decodeFields_encode {i : Instr} (h : i.wf = true) :
    decodeFields i.opc (i.ctx?.getD 0) i.fieldA i.fieldB = .ok i := by
  cases i with
  | cfg ctx conf => exact decodeCfg_eq_ok.mpr ⟨conf, decodeConf_encode h, rfl⟩
  | aesInit ctx pk rnd enc | bufInit ctx pk rnd enc | cbcInit ctx pk rnd enc | ctrInit ctx pk rnd enc
  | gcmInit ctx pk rnd enc | ccmInit ctx pk rnd enc => exact decodeInit_encode _ ctx pk rnd enc
  | hmInit ctx pk rnd | cmacInit ctx pk rnd => exact decodeInitNoDir_encode _ ctx pk rnd
  | _ => rfl

theorem decodeWord_encode {i : Instr} (h : i.wf = true) : decodeWord (encode i) = .ok i := by
  rw [encode, decodeWord_packWord, decodeFields_encode h]

end Sys2Proof
end

section
/-! SUPPORT. One equation per case of the engine's turn and of a step (10_state.md R59; 70_reset_and_hazards.md
R564, R570). -/

namespace Sys2Proof.Machine

open Host (Outcome)

variable {s t : State} {i : Instr} {p : Pend}

/-! ## The step takes the next input -/

theorem step_of_nil (h : s.inputs = []) : step s = engineStep s := by
  simp only [step, h]

theorem step_of_engine {rest : List Input} (h : s.inputs = .engine :: rest) :
    step s = engineStep { s with inputs := rest } := by
  simp only [step, h]

theorem step_of_host {op : HostOp} {rest : List Input} (h : s.inputs = .host op :: rest) :
    step s = hostStep op { s with inputs := rest } := by
  simp only [step, h]

/-! ## The engine's turn -/

theorem engineStep_of_idle (h : s.pend = none) : engineStep s = .next s := by
  simp only [engineStep, h]

theorem engineStep_of_decoded (h : s.pend = some p) (hd : decodeWord p.word = .ok i) :
    engineStep s = runCommand i s := by
  simp only [engineStep, h, hd]

theorem engineStep_of_illegal {e : DecodeError} (h : s.pend = some p) (hd : decodeWord p.word = .error e) :
    engineStep s = .next (s.raise .illegalCommand) := by
  simp only [engineStep, h, hd]

theorem runCommand_of_unraced (i : Instr) (h : s.raced = []) : runCommand i s = exec i s := if_pos h

theorem engineStep_of_unraced (h : s.pend = some p) (hd : decodeWord p.word = .ok i) (hr : s.raced = []) :
    engineStep s = exec i s := by
  rw [engineStep_of_decoded h hd, runCommand_of_unraced i hr]

/-- A command that runs to completion does what its meaning does, after the draws of the raced input and before
those of the raced output. -/
theorem runCommand_next (h : runCommand i s = .next t) :
    exec i s = .next t ∨ ∃ u, exec i (s.beforeRaces i) = .next u ∧ t = u.afterRaces s i := by
  unfold runCommand at h
  split at h
  · exact .inl h
  · split at h
    · exact .inr ⟨_, ‹_›, (Outcome.next.inj h).symm⟩
    · cases h
    · cases h

/-- What the engine's turn can do. -/
theorem engineStep_next (h : engineStep s = .next t) :
    t = s ∨ t = s.raise .illegalCommand ∨ ∃ i, i.wf = true ∧ runCommand i s = .next t := by
  cases hp : s.pend with
  | none => exact .inl (Outcome.next.inj (engineStep_of_idle hp ▸ h)).symm
  | some p =>
    cases hd : decodeWord p.word with
    | error e => exact .inr (.inl (Outcome.next.inj (engineStep_of_illegal hp hd ▸ h)).symm)
    | ok i => exact .inr (.inr ⟨i, decodeWord_wf hd, engineStep_of_decoded hp hd ▸ h⟩)

/-- What `withFetchWord` places: the word of a command, accepted, with its completion next. -/
theorem step_withFetchWord (s : State) (h : i.wf = true) : step (s.withFetchWord 32 (encode i).toNat) =
    exec i { s with pend := some ⟨encode i, s.args⟩, cmd := encode i, raced := [] } := by
  have hword : BitVec.ofNat 32 ((encode i).toNat % 2 ^ 32) = encode i := by
    rw [Nat.mod_eq_of_lt (encode i).isLt, BitVec.ofNat_toNat, BitVec.setWidth_eq]
  rw [step_of_engine (rest := s.inputs) rfl]
  simp only [State.withFetchWord, hword]
  exact engineStep_of_unraced rfl (decodeWord_encode h) rfl

end Sys2Proof.Machine
end

section
/-! SUPPORT. The register window (10_state.md R31 to R39): which register an offset names, what reading and
writing it does, and the fields of CAPS and STATUS. -/

namespace Sys2Proof.Machine

variable {s : State} {off : BitVec 12}

/-! ## Offsets -/

theorem argOfOffset_eq_none (h : ¬(0x040 ≤ off.toNat ∧ off.toNat < 0x080)) : argOfOffset off = none :=
  dif_neg h

theorem argOfOffset_lo {i : Fin 8} (h : off.toNat = 0x040 + 8 * i.val) : argOfOffset off = some (i, false) := by
  have hbit : off.getLsbD 2 = false := by
    simp only [BitVec.getLsbD, h, Nat.testBit_eq_decide_div_mod_eq, decide_eq_false_iff_not]
    omega
  have hi := i.isLt
  rw [argOfOffset, dif_pos (by omega), hbit]
  simp only [Option.some.injEq, Prod.mk.injEq, and_true, Fin.ext_iff]
  omega

theorem argOfOffset_hi {i : Fin 8} (h : off.toNat = 0x044 + 8 * i.val) : argOfOffset off = some (i, true) := by
  have hbit : off.getLsbD 2 = true := by
    simp only [BitVec.getLsbD, h, Nat.testBit_eq_decide_div_mod_eq, decide_eq_true_eq]
    omega
  have hi := i.isLt
  rw [argOfOffset, dif_pos (by omega), hbit]
  simp only [Option.some.injEq, Prod.mk.injEq, and_true, Fin.ext_iff]
  omega

/-! ## Reads -/

theorem readReg_of_arg {i : Fin 8} {hi : Bool} (h : argOfOffset off = some (i, hi)) :
    readReg s off = halfOf hi s.args[i] := by
  have hge : 0x040 ≤ off.toNat := by
    by_contra hlt
    rw [argOfOffset_eq_none (by omega)] at h
    cases h
  unfold readReg
  split
  case h_10 => rw [h]
  all_goals omega

theorem readReg_of_reserved (h : (0x024 ≤ off.toNat ∧ off.toNat < 0x040) ∨ 0x080 ≤ off.toNat) :
    readReg s off = 0 := by
  unfold readReg
  split
  case h_10 => rw [argOfOffset_eq_none (by omega)]
  all_goals omega

theorem hostStep_regRead (s : State) (h : off.toNat % 4 = 0) : hostStep (.regRead off 4) s =
    .next { s with busData := .reg (readReg s off), unseen := s.unseenAfter off } := if_pos ⟨rfl, h⟩

/-! ## Writes -/

theorem hostStep_regWrite (s : State) (h : off.toNat % 4 = 0) (v : Word32) :
    hostStep (.regWrite off 4 v) s = .next (writeReg s off v) := if_pos ⟨rfl, h⟩

/-- All that a write to the window can do. -/
theorem writeReg_cases (s : State) (off : BitVec 12) (v : Word32) :
    writeReg s off v = s.accept v ∨ ∃ ovr args, writeReg s off v = { s with ovr := ovr, args := args } := by
  unfold writeReg
  split
  · exact .inl rfl
  · split
    · exact .inr ⟨false, s.args, rfl⟩
    · exact .inr ⟨s.ovr, s.args, rfl⟩
  · split
    · exact .inr ⟨s.ovr, _, rfl⟩
    · exact .inr ⟨s.ovr, s.args, rfl⟩

/-- A write to a read-only or reserved offset is ignored (R91). -/
theorem writeReg_of_readOnly (hcmd : off ≠ 0x008) (hstatus : off ≠ 0x00C)
    (harg : ¬(0x040 ≤ off.toNat ∧ off.toNat < 0x080)) (v : Word32) : writeReg s off v = s := by
  unfold writeReg
  split
  · exact absurd (BitVec.eq_of_toNat_eq ‹off.toNat = 8›) hcmd
  · exact absurd (BitVec.eq_of_toNat_eq ‹off.toNat = 12›) hstatus
  · rw [argOfOffset_eq_none harg]

theorem accept_of_idle (h : s.pend = none) (w : Word32) :
    s.accept w = { s with pend := some ⟨w, s.args⟩, cmd := w, raced := [] } := by
  simp only [State.accept, h]

theorem accept_of_busy {p : Pend} (h : s.pend = some p) (w : Word32) : s.accept w = { s with ovr := true } := by
  simp only [State.accept, h]

/-! ## The fields of CAPS and STATUS -/

theorem capsWord_fields (s : State) :
    s.capsWord.extractLsb' 0 8 = BitVec.ofNat 8 (s.nCtx - 1) ∧
    s.capsWord.getLsbD 8 = (s.params.bufByteReset == .six) ∧
    s.capsWord.extractLsb' 9 7 = 0 ∧
    s.capsWord.extractLsb' 16 6 = BitVec.ofNat 6 s.params.memLog2 ∧
    s.capsWord.extractLsb' 22 10 = 0 := by
  unfold State.capsWord
  simp (disch := omega) only [BitVec.extractLsb'_append_eq_of_add_le, BitVec.extractLsb'_append_eq_of_le,
    BitVec.getLsbD_append]
  simp

theorem statusWord_fields (s : State) :
    s.statusWord.getLsbD 0 = s.pend.isSome ∧ s.statusWord.getLsbD 1 = s.ovr ∧
    s.statusWord.extractLsb' 2 6 = 0 ∧ s.statusWord.extractLsb' 8 4 = s.err.code ∧
    s.statusWord.extractLsb' 12 20 = 0 := by
  unfold State.statusWord State.busy
  simp (disch := omega) only [BitVec.extractLsb'_append_eq_of_add_le, BitVec.extractLsb'_append_eq_of_le,
    BitVec.getLsbD_append]
  simp

end Sys2Proof.Machine
end

section
/-! SUPPORT. The invariant of State.Inv (10_state.md R40 to R52, R59; 20_memory.md R81): what each operation on
the state keeps of it, then each end of a command, the engine's turn and each interaction of the host. -/

namespace Sys2Proof.Machine

open Host (Outcome)

variable {s t : State} {i : Instr}

/-! ## Operations on the state -/

/-- The invariant does not speak of these fields. -/
theorem State.Inv.with_free (h : s.Inv) {ovr : Bool} {args : Args} {inputs : List Input} {unseen : List Pend}
    {busData : BusData} :
    State.Inv { s with ovr := ovr, args := args, inputs := inputs, unseen := unseen, busData := busData } :=
  ⟨h.params, h.slotCount, h.slots, ⟨h.mem.wf, h.mem.below⟩,
    ⟨h.latch.word, h.latch.idle, h.latch.raced, h.latch.late⟩⟩

theorem State.Inv.with_mem (h : s.Inv) {m : Memory} (hwf : m.wf) (hbelow : m.below s.memSize) (draws : Nat) :
    State.Inv { s with mem := m, draws := draws } :=
  ⟨h.params, h.slotCount, h.slots, ⟨hwf, hbelow⟩,
    ⟨h.latch.word, h.latch.idle, h.latch.raced, h.latch.late⟩⟩

theorem State.Inv.with_byte (h : s.Inv) {a : Nat} (ha : a < s.memSize) (b : Byte) (draws : Nat) :
    State.Inv { s with mem := s.mem.write a b, draws := draws } :=
  h.with_mem (Memory.wf_write h.mem.wf a b) (Memory.below_write h.mem.below ha b) draws

theorem State.SlotsOk.set {sl : Slot} (h : s.SlotsOk) (hsl : sl.Ok s.params) (n : Nat) :
    ∀ x ∈ s.slots.set n sl, x.Ok s.params := fun x hx =>
  (List.mem_or_eq_of_mem_set hx).elim (h x) fun e => e ▸ hsl

theorem State.Inv.setSlot {sl : Slot} (h : s.Inv) (hsl : sl.Ok s.params) (c : Ctx) : (s.setSlot c sl).Inv :=
  ⟨h.params, s.setSlot_nCtx c sl ▸ h.slotCount, h.slots.set hsl _, ⟨h.mem.wf, h.mem.below⟩,
    ⟨h.latch.word, h.latch.idle, h.latch.raced, h.latch.late⟩⟩

/-- The completion empties PEND, so the latch has nothing left to agree with. -/
theorem State.Inv.complete (h : s.Inv) (e : Err) (r : Word64) : (s.complete e r).Inv :=
  ⟨h.params, h.slotCount, h.slots, ⟨h.mem.wf, h.mem.below⟩, ⟨nofun, fun _ => rfl, nofun, h.latch.late⟩⟩

theorem State.Inv.raise (h : s.Inv) (e : Err) : (s.raise e).Inv := h.complete e 0

/-! ## The end of a command -/

theorem State.memSize_congr (h : t.params = s.params) : t.memSize = s.memSize :=
  congrArg (fun p : Params => 2 ^ p.memLog2) h

theorem SlotStep.nCtx (h : SlotStep i s t) : t.nCtx = s.nCtx := by
  rcases h with h | ⟨c, sl, -, h, -⟩ <;> simp [State.nCtx, h]

theorem SlotStep.slotsOk (h : SlotStep i s t) (hwf : i.wf = true) (hs : s.SlotsOk) :
    ∀ sl ∈ t.slots, sl.Ok s.params := by
  rcases h with h | ⟨c, sl, -, h, hsl⟩
  · exact h ▸ hs
  · exact h ▸ hs.set (hsl hwf hs) _

theorem MemStep.memOk (h : MemStep i s t) (hs : s.SlotsOk) (hm : s.MemOk) :
    t.mem.wf ∧ t.mem.below s.memSize := by
  obtain ⟨a, bs, hmem, hin⟩ := h
  rw [hmem]
  refine ⟨Memory.wf_writeBytes hm.wf a bs, Memory.below_writeBytes hm.below ?_⟩
  rcases hin hs with hnil | ⟨r, -, -, hle, hinside⟩
  · exact .inl hnil
  · exact .inr (hle.trans hinside)

theorem Success.inv (h : Success i s t) (hwf : i.wf = true) (hs : s.Inv) : t.Inv := by
  have hparams := h.regs.params
  have hsize : t.memSize = s.memSize := State.memSize_congr hparams
  obtain ⟨hmwf, hmbelow⟩ := h.mem.memOk hs.slots hs.mem
  refine ⟨hparams ▸ hs.params, h.slots.nCtx ▸ hs.slotCount, ?_, ⟨hmwf, hsize ▸ hmbelow⟩, ?_⟩
  · unfold State.SlotsOk
    rw [hparams]
    exact h.slots.slotsOk hwf hs.slots
  · refine ⟨?_, fun _ => h.raced, ?_, ?_⟩
    · simp [h.pend]
    · simp [h.raced]
    · rw [h.lateRaced, hsize]
      exact hs.latch.late

theorem Effect.inv (h : Effect i s t) (hwf : i.wf = true) (hs : s.Inv) : t.Inv := by
  cases h with
  | success h => exact h.inv hwf hs
  | precise => exact hs.raise _
  | failedInit hc hslot => exact (hs.setSlot (hs.slots.slot hslot).unkeyed _).raise _
  | failedFinal hc hi hr he hok => exact (hs.setSlot (hok hs.slots) _).raise _

theorem Effect.params (h : Effect i s t) : t.params = s.params := by
  cases h with
  | success h => exact h.regs.params
  | _ => rfl

/-! ## The host's races -/

@[simp] theorem State.drawBytes_params (s : State) (as : List Nat) : (s.drawBytes as).params = s.params := by
  induction as generalizing s with
  | nil => rfl
  | cons a as ih => exact ih _

@[simp] theorem State.restoreBytes_params (s : State) (m : Memory) (as : List Nat) :
    (s.restoreBytes m as).params = s.params := by
  induction as generalizing s with
  | nil => rfl
  | cons a as ih => exact ih _

@[simp] theorem State.restoreBytes_memSize (s : State) (m : Memory) (as : List Nat) :
    (s.restoreBytes m as).memSize = s.memSize :=
  State.memSize_congr (s.restoreBytes_params m as)

theorem State.Inv.drawBytes (h : s.Inv) {as : List Nat} (ha : ∀ a ∈ as, a < s.memSize) :
    (s.drawBytes as).Inv := by
  induction as generalizing s with
  | nil => exact h
  | cons a as ih =>
    obtain ⟨ha, has⟩ := List.forall_mem_cons.mp ha
    exact ih (h.with_byte ha _ _) has

theorem State.Inv.restoreBytes (h : s.Inv) (m : Memory) {as : List Nat} (ha : ∀ a ∈ as, a < s.memSize) :
    (s.restoreBytes m as).Inv := by
  induction as generalizing s with
  | nil => exact h
  | cons a as ih =>
    obtain ⟨ha, has⟩ := List.forall_mem_cons.mp ha
    exact ih (h.with_byte ha _ s.draws) has

theorem State.Inv.beforeRaces (h : s.Inv) (i : Instr) : (s.beforeRaces i).Inv :=
  h.drawBytes fun a ha => h.latch.raced a (List.mem_filter.mp ha).1

theorem State.Inv.afterRaces (ht : t.Inv) (hs : s.Inv) (hsize : t.memSize = s.memSize) (i : Instr) :
    (t.afterRaces s i).Inv := by
  have hlt (q : Nat → Bool) : ∀ a ∈ s.raced.filter q, a < t.memSize := fun a ha =>
    hsize ▸ hs.latch.raced a (List.mem_filter.mp ha).1
  refine (ht.restoreBytes s.mem (hlt _)).drawBytes ?_
  rw [State.restoreBytes_memSize]
  exact hlt _

/-! ## The engine -/

theorem exec_inv (h : exec i s = .next t) (hwf : i.wf = true) (hs : s.Inv) : t.Inv :=
  (EndsIn.of_next (exec_effect i s) h).inv hwf hs

theorem exec_memSize (h : exec i s = .next t) : t.memSize = s.memSize :=
  State.memSize_congr (EndsIn.of_next (exec_effect i s) h).params

theorem runCommand_inv (h : runCommand i s = .next t) (hwf : i.wf = true) (hs : s.Inv) : t.Inv := by
  rcases runCommand_next h with h | ⟨u, hu, rfl⟩
  · exact exec_inv h hwf hs
  · have hsize : (s.beforeRaces i).memSize = s.memSize := State.memSize_congr (s.drawBytes_params _)
    exact (exec_inv hu hwf (hs.beforeRaces i)).afterRaces hs ((exec_memSize hu).trans hsize) i

theorem engineStep_inv (h : engineStep s = .next t) (hs : s.Inv) : t.Inv := by
  rcases engineStep_next h with rfl | rfl | ⟨i, hwf, h⟩
  · exact hs
  · exact hs.raise _
  · exact runCommand_inv h hwf hs

/-! ## The host -/

/-- A race record keeps to DMEM when the access does. -/
theorem recordIn_lt {seen : List Nat} {n addr len : Nat} (h : ∀ a ∈ seen, a < n) (hin : addr + len ≤ n)
    (rs : List Range) : ∀ a ∈ recordIn seen rs ⟨addr, len⟩, a < n := fun a ha =>
  ((mem_recordIn seen rs _ a).mp ha).elim (h a) fun hc => hc.1.2.trans_le hin

/-- Nothing is raced for while no command is pending. -/
theorem recordIn_pend_of_idle (h : s.pend = none) (seen : List Nat) (r : Range) :
    recordIn seen (s.pendIn ++ s.pendOut) r = seen := by
  simp [State.pendIn, State.pendOut, h, recordIn]

theorem State.Inv.accept (h : s.Inv) (w : Word32) : (s.accept w).Inv := by
  cases hp : s.pend with
  | none =>
    rw [accept_of_idle hp]
    refine ⟨h.params, h.slotCount, h.slots, ⟨h.mem.wf, h.mem.below⟩, ⟨fun p e => ?_, nofun, nofun, h.latch.late⟩⟩
    cases e
    rfl
  | some p =>
    rw [accept_of_busy hp]
    exact h.with_free

theorem State.Inv.writeReg (h : s.Inv) (off : BitVec 12) (v : Word32) : (writeReg s off v).Inv := by
  rcases writeReg_cases s off v with e | ⟨ovr, args, e⟩ <;> rw [e]
  · exact h.accept v
  · exact h.with_free

theorem State.Inv.hostRead (h : s.Inv) {addr len : Nat} (hin : s.Inside ⟨addr, len⟩) :
    (s.hostRead addr len).Inv :=
  ⟨h.params, h.slotCount, h.slots, ⟨h.mem.wf, h.mem.below⟩,
    ⟨h.latch.word, h.latch.idle, h.latch.raced, recordIn_lt h.latch.late hin _⟩⟩

theorem State.Inv.hostWrite (h : s.Inv) {addr : Nat} {data : List Byte} (hin : s.Inside ⟨addr, data.length⟩) :
    (s.hostWrite addr data).Inv :=
  ⟨h.params, h.slotCount, h.slots,
    ⟨Memory.wf_writeBytes h.mem.wf addr data, Memory.below_writeBytes h.mem.below (.inr hin)⟩,
    ⟨h.latch.word, fun hp => (recordIn_pend_of_idle hp _ _).trans (h.latch.idle hp),
      recordIn_lt h.latch.raced hin _, recordIn_lt h.latch.late hin _⟩⟩

theorem State.Inv.applyReset (h : s.Inv) : s.applyReset.Inv := by
  refine ⟨h.params, ?_, fun sl hsl => ?_, ⟨h.mem.wf, h.mem.below⟩, ⟨nofun, fun _ => rfl, nofun, h.latch.late⟩⟩
  · simpa [State.applyReset, State.nCtx] using h.slotCount
  · rw [List.eq_of_mem_replicate hsl]
    trivial

/-- An access that the CORE does not answer has no next state. -/
theorem next_of_ite {ok : Prop} [Decidable ok] {u : State} {o : Outcome State Fault Refusal}
    (h : (if ok then .next u else o) = .next t) (ho : o ≠ .next t) : ok ∧ t = u := by
  split at h
  · exact ⟨‹_›, (Outcome.next.inj h).symm⟩
  · exact absurd h ho

theorem hostStep_inv {op : HostOp} (h : hostStep op s = .next t) (hs : s.Inv) : t.Inv := by
  cases op with
  | regRead off width =>
    obtain ⟨-, rfl⟩ := next_of_ite h nofun
    exact hs.with_free
  | regWrite off width v =>
    obtain ⟨-, rfl⟩ := next_of_ite h nofun
    exact hs.writeReg off v
  | dmemRead addr len =>
    obtain ⟨hin, rfl⟩ := next_of_ite h nofun
    exact hs.hostRead hin
  | dmemWrite addr data =>
    obtain ⟨hin, rfl⟩ := next_of_ite h nofun
    exact hs.hostWrite hin
  | reset =>
    cases h
    exact hs.applyReset

/-! ## Every step -/

theorem step_inv (h : step s = .next t) (hs : s.Inv) : t.Inv := by
  cases hin : s.inputs with
  | nil => exact engineStep_inv (step_of_nil hin ▸ h) hs
  | cons x rest =>
    have hs' : State.Inv { s with inputs := rest } := hs.with_free
    cases x with
    | engine => exact engineStep_inv (step_of_engine hin ▸ h) hs'
    | host op => exact hostStep_inv (step_of_host hin ▸ h) hs'

theorem reset_inv : State.reset.Inv := by
  refine ⟨by decide, by decide, fun sl hsl => ?_, ⟨.nil, nofun⟩, ⟨nofun, fun _ => rfl, nofun, nofun⟩⟩
  rw [List.eq_of_mem_replicate hsl]
  trivial

end Sys2Proof.Machine
end

section
/-! The obligations about the state, the window and the step (10_state.md). -/

namespace Sys2Proof.Proofs

open Sys2Proof Sys2Proof.Machine

/-- Settles O23: each interaction of the host and each turn of the engine keeps the invariant. -/
theorem everyStepKeepsTheInvariant : Obligations.EveryStepKeepsTheInvariant :=
  fun _ _ hs h => step_inv h hs

/-- Settles O10: each clause fixes the register that the offset names, so what is left of it is that register's
fields, the argument register's half, or the reserved offset's 0. -/
theorem registerReadsFollowTheMap : Obligations.RegisterReadsFollowTheMap := by
  intro s off hal
  refine ⟨readReg s off, hostStep_regRead s hal, (· ▸ rfl), ?caps, (· ▸ rfl), ?status, (· ▸ rfl), (· ▸ rfl),
    (· ▸ rfl), (· ▸ rfl), (· ▸ rfl),
    fun i => ⟨fun h => readReg_of_arg (argOfOffset_lo h), fun h => readReg_of_arg (argOfOffset_hi h)⟩,
    fun h => readReg_of_reserved (by omega)⟩
  case caps =>
    rintro rfl
    exact capsWord_fields s
  case status =>
    rintro rfl
    obtain ⟨hbusy, hovr, hlow, herr, hhigh⟩ := statusWord_fields s
    exact ⟨hbusy, hovr, hlow, herr.trans (by cases s.err <;> rfl), hhigh⟩

/-- Settles O11: a wrong access takes the refusing branch, and at an offset that is reserved or read-only the window
holds no register to read or to write. -/
theorem windowRefusesAndIgnoresWrites : Obligations.WindowRefusesAndIgnoresWrites := by
  refine ⟨fun s off width v h => ⟨if_neg h, if_neg h⟩, fun s off v hal hcmd hstatus harg => ?_,
    fun s off hal h => ?_, fun s v => hostStep_regWrite s (by decide) v⟩
  · rw [hostStep_regWrite s hal, writeReg_of_readOnly hcmd hstatus harg]
  · have hne : off ≠ 0x00C := by
      rintro rfl
      revert h
      decide
    rw [hostStep_regRead s hal, readReg_of_reserved h, State.unseenAfter, if_neg fun h' => hne h'.1]

/-- Settles O1: every field is read off `State.reset`, and a reset event does not touch DMEM. -/
theorem resetLeavesEverythingClear : Obligations.ResetLeavesEverythingClear := by
  refine ⟨rfl, rfl, rfl, fun i => ?_, rfl, fun c sl h => ?_, fun a => rfl, fun s t a h => ?_,
    rfl, rfl, rfl, rfl, rfl⟩
  · simp [State.reset]
  · exact List.eq_of_mem_replicate (List.mem_of_getElem? h)
  · cases h
    rfl

/-- Settles O8, by the equations of `step` and `engineStep`; for `withFetchWord`, a command's own word decodes to
it. -/
theorem stepRunsTheDecodedCommand : Obligations.StepRunsTheDecodedCommand := by
  refine ⟨fun s p i hp hd hr => ⟨fun hin => ?_, fun rest hin => ?_⟩, fun s hp hin => ?_,
    fun s op rest hin => step_of_host hin, fun s i hwf => step_withFetchWord s hwf⟩
  · exact (step_of_nil hin).trans (engineStep_of_unraced hp hd hr)
  · exact (step_of_engine hin).trans (engineStep_of_unraced hp hd hr)
  · exact (step_of_nil hin).trans (engineStep_of_idle hp)

/-- Settles O9: the write reaches `State.accept`, which asks PEND. -/
theorem cmdWriteIsAcceptedOrSetsOvr : Obligations.CmdWriteIsAcceptedOrSetsOvr := by
  refine ⟨fun s w h => ?_, fun s w p h => ?_, fun s => hostStep_regRead s (by decide)⟩
  · exact (hostStep_regWrite s (by decide) w).trans (congrArg _ (accept_of_idle h w))
  · exact (hostStep_regWrite s (by decide) w).trans (congrArg _ (accept_of_busy h w))

/-- Settles O22: the default parameters are in range, no slot is configured, and DMEM and PEND are empty. -/
theorem resetMeetsTheInvariant : Obligations.ResetMeetsTheInvariant := reset_inv

end Sys2Proof.Proofs
end

section
/-! SUPPORT. A command's end is fixed by what it may look at (20_memory.md R85; 40_context.md R142): two states that
agree on PEND, the parameters, the slots the command names and the bytes of its input ranges get the same slot,
the same bytes stored at the same place, and the same ERR and RESULT. -/

namespace Sys2Proof.Machine

open Host (Outcome)

variable {i : Instr} {s s' t t' : State} {c : Ctx}

/-! ## What a command may look at -/

/-- The state with other argument registers, slots and DMEM. -/
def State.swapped (s : State) (args : Args) (slots : List Slot) (mem : Memory) : State :=
  { s with args := args, slots := slots, mem := mem }

/-- `s'` looks to the command `i` like `s`, whatever stands in the rest of DMEM, in the other slots and in the
argument registers. -/
structure SameView (i : Instr) (s s' : State) : Prop where
  others : ∃ args slots mem, s' = s.swapped args slots mem
  slot : ∀ c, i.ctx? = some c → s'.slot? c = s.slot? c
  source : ∀ c, i = .copy c → s'.slots[s'.arg 0]? = s.slots[s.arg 0]?
  input : ∀ a, InRanges (inRanges i s) a → s'.readByte a = s.readByte a

theorem SameView.latched (h : SameView i s s') : s'.latched = s.latched := by
  obtain ⟨args, slots, mem, rfl⟩ := h.others
  rfl

theorem SameView.arg (h : SameView i s s') (j : Fin 8) : s'.arg j = s.arg j := by
  rw [State.arg, State.arg, State.argW, State.argW, h.latched]

/-- Bytes inside an input range read alike. -/
theorem SameView.memRead (h : SameView i s s') {r : Range} (hr : r ∈ inRanges i s) {a n : Nat}
    (hlo : r.base ≤ a) (hhi : a + n ≤ r.base + r.len) : s'.memRead a n = s.memRead a n :=
  Memory.readBytes_congr fun b hb hb' => h.input b ⟨r, hr, by omega, by omega⟩

theorem SameView.readAt (h : SameView i s s') {j : Fin 8} {n : Nat} (hr : ⟨s.arg j, n⟩ ∈ inRanges i s) :
    s'.memRead (s'.arg j) n = s.memRead (s.arg j) n := by
  rw [h.arg]
  exact h.memRead hr le_rfl le_rfl

theorem SameView.readRange (h : SameView i s s') {j k : Fin 8} (hr : ⟨s.arg j, s.arg k⟩ ∈ inRanges i s) :
    s'.memRead (s'.arg j) (s'.arg k) = s.memRead (s.arg j) (s.arg k) := by
  rw [h.arg k]
  exact h.readAt hr

/-- InCheck lets a command read only inside its input array. -/
theorem SameView.inBytes (h : SameView i s s') (hr : s.inArray ∈ inRanges i s) {k : Nat} (hf : s.InFits k) :
    s'.inBytes k = s.inBytes k := by
  have haddr : s'.inAddr = s.inAddr := by rw [State.inAddr, State.inAddr, h.arg, h.arg]
  rw [State.inBytes, State.inBytes, haddr]
  refine h.memRead hr (Nat.le_add_right _ _) ?_
  simp only [State.inAddr, State.inArray]
  omega

theorem SameView.inBytes_len (h : SameView i s s') (hr : s.inArray ∈ inRanges i s) (hf : s.InFits s.len) :
    s'.inBytes s'.len = s.inBytes s.len := by
  rw [State.len, h.arg]
  exact h.inBytes hr hf

section Init

variable {pk : PKind} (h : SameView i s s') (hr : inRanges i s = s.initRanges pk)

include h hr

theorem SameView.keyBytes : s'.keyBytes = s.keyBytes :=
  h.readRange (j := 0) (k := 1) (by cases pk <;> simp [hr, State.initRanges, State.keyRange])

theorem SameView.ivBytes (hpk : pk ≠ .key) : s'.ivBytes = s.ivBytes := by
  refine h.readRange (j := 2) (k := 3) ?_
  cases pk with
  | key => exact absurd rfl hpk
  | _ => simp [hr, State.initRanges, State.ivRange]

theorem SameView.ivBlock : s'.ivBlock pk = s.ivBlock pk := by
  cases pk with
  | keyIv => exact congrArg blockOf (h.ivBytes hr (by decide))
  | _ => rfl

theorem SameView.aadBytes : s'.aadBytes pk = s.aadBytes pk := by
  cases pk with
  | aead => exact h.readRange (j := 4) (k := 5) (by simp [hr, State.initRanges, State.aadRange])
  | _ => rfl

end Init

/-! ## How a command ends -/

/-- What a command's end changes: the slot its CTX names, if any; bytes stored under the overlap rule with the
ranges `ins`; ERR and RESULT. -/
structure Ending where
  slot : Option Slot
  ins : List Range
  out : Nat
  bytes : List Byte
  err : Err
  result : Word64

/-- The state with the slot `c`, if there is one, replaced by `sl`, if there is one. -/
def State.putSlot (s : State) (c : Option Ctx) (sl : Option Slot) : State :=
  { s with slots := match sl, c with
    | some sl, some c => s.slots.set c.toNat sl
    | _, _ => s.slots }

/-- The state a command with the field CTX `c` leaves when it ends so. -/
def Ending.apply (e : Ending) (c : Option Ctx) (s : State) : State :=
  ((s.putSlot c e.slot).storeOver e.ins e.out e.bytes).complete e.err e.result

/-- From `s` and from `s'` the command `i` has the same ending. -/
def SameEnding (i : Instr) (s s' : State) (o o' : Outcome State Fault Refusal) : Prop :=
  ∃ e : Ending, o = .next (e.apply i.ctx? s) ∧ o' = .next (e.apply i.ctx? s')

/-- `t` and `t'` are `s` and `s'` with at most the slot of CTX replaced, in both by the same one. -/
def SameSlotPut (i : Instr) (s s' t t' : State) : Prop :=
  ∃ sl, t = s.putSlot i.ctx? sl ∧ t' = s'.putSlot i.ctx? sl

namespace SameSlotPut

theorem same : SameSlotPut i s s' s s' := ⟨none, rfl, rfl⟩

theorem setSlot (hc : i.ctx? = some c) {sl sl' : Slot} (hsl : sl' = sl) :
    SameSlotPut i s s' (s.setSlot c sl) (s'.setSlot c sl') :=
  ⟨some sl, by rw [hc]; rfl, by rw [hc, hsl]; rfl⟩

theorem dropKey (h : SameView i s s') (hc : i.ctx? = some c) :
    SameSlotPut i s s' (s.dropKey c) (s'.dropKey c) := by
  unfold State.dropKey
  rw [h.slot c hc]
  split
  · exact .setSlot hc rfl
  · exact .same

theorem latched (h : SameSlotPut i s s' t t') : t.latched = s.latched ∧ t'.latched = s'.latched := by
  obtain ⟨sl, rfl, rfl⟩ := h
  exact ⟨rfl, rfl⟩

end SameSlotPut

/-- A plain write is a store that no overlap rule bears on. -/
theorem State.storeOver_nil (s : State) (a : Nat) (bs : List Byte) : s.storeOver [] a bs = s.memWrite a bs := by
  have h (a : Nat) (d : Nat) : drawInside [] a bs d = (bs, d) := by
    induction bs generalizing a d with
    | nil => rfl
    | cons b bs ih => simp [drawInside, InRanges, ih]
  simp [State.storeOver, State.storeDrawing, h]
  rfl

namespace SameEnding

/-! Ends: the last step of a command -/

theorem complete (ht : SameSlotPut i s s' t t') {e : Err} {r r' : Word64} (hr : r' = r) :
    SameEnding i s s' (.next (t.complete e r)) (.next (t'.complete e r')) := by
  obtain ⟨sl, rfl, rfl⟩ := ht
  exact ⟨⟨sl, [], 0, [], e, r⟩, rfl, by rw [hr]; rfl⟩

theorem storeOver (ht : SameSlotPut i s s' t t') {ins : List Range} {a : Nat} {bs bs' : List Byte} {e : Err}
    {r : Word64} (hbs : bs' = bs) : SameEnding i s s' (.next ((t.storeOver ins a bs).complete e r))
      (.next ((t'.storeOver ins a bs').complete e r)) := by
  obtain ⟨sl, rfl, rfl⟩ := ht
  exact ⟨⟨sl, ins, a, bs, e, r⟩, rfl, by rw [hbs]; rfl⟩

theorem memWrite (ht : SameSlotPut i s s' t t') {a : Nat} {bs : List Byte} {e : Err} {r : Word64} :
    SameEnding i s s' (.next ((t.memWrite a bs).complete e r)) (.next ((t'.memWrite a bs).complete e r)) := by
  rw [← State.storeOver_nil, ← State.storeOver_nil]
  exact storeOver ht rfl

theorem emit (h : SameView i s s') (ht : SameSlotPut i s s' t t') {k : Nat} {bs bs' : List Byte} (hbs : bs' = bs) :
    SameEnding i s s' (.next (t.emit k bs)) (.next (t'.emit k bs')) := by
  subst hbs
  obtain ⟨hl, hl'⟩ := ht.latched
  have harg (j : Fin 8) : t'.arg j = t.arg j := by
    rw [State.arg, State.arg, State.argW, State.argW, hl', hl, h.latched]
  have hin : t'.inAddr = t.inAddr := by rw [State.inAddr, State.inAddr, harg, harg]
  have hout : t'.outAddr = t.outAddr := by rw [State.outAddr, State.outAddr, harg, harg]
  unfold State.emit
  rw [hin, hout]
  exact storeOver ht rfl

/-! Checks: both pass, or both raise the same error -/

theorem guard (ht : SameSlotPut i s s' t t') {ok ok' : Prop} [Decidable ok] [Decidable ok'] {e : Err}
    {k k' : Outcome State Fault Refusal} (hok : ok' ↔ ok) (hk : ok → SameEnding i s s' k k') :
    SameEnding i s s' (t.guard ok e k) (t'.guard ok' e k') := by
  by_cases h : ok
  · rw [State.guard_pos h, State.guard_pos (hok.mpr h)]
    exact hk h
  · rw [State.guard_neg h, State.guard_neg (mt hok.mp h)]
    exact complete ht rfl

theorem onSlot (h : SameView i s s') (hc : i.ctx? = some c) {α : Type} {sel : Slot → Option α}
    {k k' : α → Outcome State Fault Refusal} (hk : ∀ x, SameEnding i s s' (k x) (k' x)) :
    SameEnding i s s' (s.onSlot c sel k) (s'.onSlot c sel k') := by
  have hslot := congrArg (·.bind sel) (h.slot c hc)
  cases hx : (s.slot? c).bind sel with
  | none =>
    rw [State.onSlot_none hx, State.onSlot_none (hslot.trans hx)]
    exact complete .same rfl
  | some x =>
    rw [State.onSlot_some hx, State.onSlot_some (hslot.trans hx)]
    exact hk x

theorem require {α : Type} {key : Option α} {k k' : α → Outcome State Fault Refusal}
    (hk : ∀ x, SameEnding i s s' (k x) (k' x)) : SameEnding i s s' (s.require key k) (s'.require key k') := by
  cases key with
  | none => exact complete .same rfl
  | some x => exact hk x

theorem loadKey (ht : SameSlotPut i s s' t t') {key key' : Option AesKey}
    {k k' : AesKey → Outcome State Fault Refusal} (hkey : key' = key) (hk : ∀ x, SameEnding i s s' (k x) (k' x)) :
    SameEnding i s s' (t.loadKey key k) (t'.loadKey key' k') := by
  subst hkey
  cases key' with
  | none => exact complete ht rfl
  | some x => exact hk x

/-- The common end of CCM.FINAL and CCM.PPKT: the packet, or AuthenticationFailed. -/
theorem ccmFinish (hc : i.ctx? = some c) {g : CcmSlot} {k : CcmKeyed} {x : List Byte}
    {out out' : State → List Byte → State} (hout : ∀ sl bs,
      SameEnding i s s' (.next (out (s.setSlot c sl) bs)) (.next (out' (s'.setSlot c sl) bs))) :
    SameEnding i s s' (ccmFinish s c g k x out) (ccmFinish s' c g k x out') := by
  unfold Machine.ccmFinish
  cases ccmPacket k x with
  | none => exact complete (.setSlot hc rfl) rfl
  | some r => exact hout _ _

end SameEnding

/-! ## Every command -/

/-- A command's end is fixed by its view: its checks ask for nothing else, and nothing else goes into what it
stores. -/
theorem exec_sameEnding (h : SameView i s s') : SameEnding i s s' (exec i s) (exec i s') := by
  obtain ⟨args, slots, mem, rfl⟩ := h.others
  cases i with
  -- Commands that write no DMEM and read none
  | gbs c | gds c | gbl c | aesReset c => exact .onSlot h rfl fun _ => .complete .same rfl
  | cfg c | dgUpd c | dgReset c | hmReset c | bufReset c | cbcReset c | ctrReset c | cmacReset c =>
    exact .onSlot h rfl fun _ => .complete (.setSlot rfl rfl) rfl
  | gms c | bufGos c | bufGuos c | ctrGpos c | gcmGos c | gcmGuos c | ccmGos c | ccmGuos c =>
    exact .onSlot h rfl fun _ => .require fun _ => .complete .same rfl
  | hmUpd c | gcmAad c | cmacUpd c =>
    exact .onSlot h rfl fun _ => .require fun _ => .complete (.setSlot rfl rfl) rfl
  | ctrSkip c | ctrSeek c | ccmAad c | ccmPbyte c =>
    exact .onSlot h rfl fun _ => .require fun _ => .guard .same .rfl fun _ => .complete (.setSlot rfl rfl) rfl
  | gcmReset c | ccmReset c =>
    refine .onSlot h rfl fun g => ?_
    cases g.key with
    | none => exact .complete .same rfl
    | some k => exact .complete (.setSlot rfl rfl) rfl
  | copy c =>
    refine .onSlot h rfl fun d => ?_
    rw [h.source c rfl]
    cases (s.slots[s.arg 0]?).bind Slot.digest? with
    | none => exact .complete .same rfl
    | some src => exact .guard .same .rfl fun _ => .complete (.setSlot rfl rfl) rfl
  -- Commands that read DMEM and write none
  | ld16be | ld16le | ld32be | ld32le | ld64be | ld64le =>
    exact .guard .same .rfl fun _ => .complete .same (by rw [h.readAt (.head _)])
  | padCnt =>
    refine .guard .same .rfl fun _ => .guard .same .rfl fun _ => ?_
    rw [h.readRange (.head _)]
    cases padCount (s.memRead (s.arg 0) (s.arg 1)) with
    | none => exact .complete .same rfl
    | some n => exact .complete .same rfl
  | aesInit c | cmacInit c =>
    exact .onSlot h rfl fun _ => .guard .same .rfl fun _ => .guard (.dropKey h rfl) .rfl fun _ =>
      .loadKey (.dropKey h rfl) (by rw [h.keyBytes rfl]) fun _ => .complete (.setSlot rfl rfl) rfl
  | hmInit c =>
    exact .onSlot h rfl fun _ => .guard .same .rfl fun _ => .guard (.dropKey h rfl) .rfl fun _ =>
      .complete (.setSlot rfl (by rw [h.keyBytes rfl])) rfl
  | cbcInit c =>
    exact .onSlot h rfl fun _ => .guard .same .rfl fun _ => .guard (.dropKey h rfl) .rfl fun _ =>
      .guard (.dropKey h rfl) .rfl fun _ => .loadKey (.dropKey h rfl) (by rw [h.keyBytes rfl]) fun _ =>
      .complete (.setSlot rfl (by rw [h.ivBlock rfl])) rfl
  | ctrInit c =>
    exact .onSlot h rfl fun _ => .guard .same .rfl fun _ => .guard (.dropKey h rfl) .rfl fun hpk =>
      .guard (.dropKey h rfl) .rfl fun _ => .loadKey (.dropKey h rfl) (by rw [h.keyBytes rfl]) fun _ =>
      .complete (.setSlot rfl (by rw [h.ivBytes rfl (by simp [hpk])]; rfl)) rfl
  | bufInit c =>
    exact .onSlot h rfl fun _ => .guard .same .rfl fun _ => .guard (.dropKey h rfl) .rfl fun _ =>
      .guard (.dropKey h rfl) .rfl fun _ => .guard (.dropKey h rfl) .rfl fun _ =>
      .loadKey (.dropKey h rfl) (by rw [h.keyBytes rfl]) fun _ =>
      .complete (.setSlot rfl (by rw [h.ivBlock rfl])) rfl
  | gcmInit c =>
    refine .onSlot h rfl fun _ => .guard .same .rfl fun _ => .guard (.dropKey h rfl) .rfl fun hpk => ?_
    rw [h.keyBytes rfl, h.ivBytes rfl hpk, h.aadBytes rfl]
    exact .guard (.dropKey h rfl) .rfl fun _ => .guard (.dropKey h rfl) .rfl fun _ =>
      .guard (.dropKey h rfl) .rfl fun _ => .loadKey (.dropKey h rfl) rfl fun _ =>
      .guard (.dropKey h rfl) .rfl fun _ => .complete (.setSlot rfl rfl) rfl
  | ccmInit c =>
    refine .onSlot h rfl fun _ => .guard .same .rfl fun _ => .guard (.dropKey h rfl) .rfl fun hpk => ?_
    rw [h.keyBytes rfl, h.ivBytes rfl hpk, h.aadBytes rfl]
    exact .guard (.dropKey h rfl) .rfl fun _ => .guard (.dropKey h rfl) .rfl fun _ =>
      .loadKey (.dropKey h rfl) rfl fun _ => .guard (.dropKey h rfl) .rfl fun _ =>
      .guard (.dropKey h rfl) .rfl fun _ => .complete (.setSlot rfl rfl) rfl
  | dgUpds c =>
    exact .onSlot h rfl fun _ => .guard .same .rfl fun _ => .guard .same .rfl fun hf =>
      .complete (.setSlot rfl (by rw [h.inBytes_len (.head _) hf])) rfl
  | hmUpds c | cmacUpds c | gcmAads c =>
    exact .onSlot h rfl fun _ => .guard .same .rfl fun _ => .require fun _ => .guard .same .rfl fun hf =>
      .complete (.setSlot rfl (by rw [h.inBytes_len (.head _) hf])) rfl
  | ccmAads c | ccmPbytes c =>
    exact .onSlot h rfl fun _ => .guard .same .rfl fun _ => .require fun _ => .guard .same .rfl fun hf =>
      .guard .same .rfl fun _ => .complete (.setSlot rfl (by rw [h.inBytes_len (.head _) hf])) rfl
  -- Commands that write DMEM and read none
  | st16be | st16le | st32be | st32le | st64be | st64le =>
    exact .guard .same .rfl fun _ => .memWrite .same
  | padAdd => exact .guard .same .rfl fun _ => .guard .same .rfl fun _ => .memWrite .same
  | dgFinal c =>
    exact .onSlot h rfl fun _ => .guard .same .rfl fun _ => .guard .same .rfl fun _ => .memWrite (.setSlot rfl rfl)
  | hmFinal c | cmacFinal c | bufPbyte c =>
    exact .onSlot h rfl fun _ => .guard .same .rfl fun _ => .require fun _ => .guard .same .rfl fun _ =>
      .memWrite (.setSlot rfl rfl)
  | gcmPbyte c | ctrPbyte c =>
    exact .onSlot h rfl fun _ => .guard .same .rfl fun _ => .require fun _ => .guard .same .rfl fun _ =>
      .guard .same .rfl fun _ => .memWrite (.setSlot rfl rfl)
  | gcmGmac c | ccmGmac c =>
    exact .onSlot h rfl fun _ => .guard .same .rfl fun _ => .require fun _ => .guard .same .rfl fun _ =>
      .memWrite .same
  | bufFinal c =>
    refine .onSlot h rfl fun b => .guard .same .rfl fun _ => .require fun k => ?_
    generalize k.cipher.enc = enc
    cases b.2.1 with
    | false =>
      exact .guard .same .rfl fun _ => .guard (.setSlot rfl rfl) .rfl fun _ => .complete (.setSlot rfl rfl) rfl
    | true =>
      cases enc with
      | true => exact .guard .same .rfl fun _ => .memWrite (.setSlot rfl rfl)
      | false =>
        refine .guard (.setSlot rfl rfl) .rfl fun _ => ?_
        cases padCount (toBytes (blockOp k.cipher k.buf).1) with
        | none => exact .complete (.setSlot rfl rfl) rfl
        | some n => exact .guard (.setSlot rfl rfl) .rfl fun _ => .memWrite (.setSlot rfl rfl)
  | gcmFinal c =>
    refine .onSlot h rfl fun _ => .guard .same .rfl fun _ => .require fun k => .guard .same .rfl fun _ =>
      .guard (.setSlot rfl rfl) .rfl fun _ => .guard .same .rfl fun _ => ?_
    cases k.enc with
    | true => exact .memWrite (.setSlot rfl rfl)
    | false => exact .guard (.setSlot rfl rfl) .rfl fun _ => .memWrite (.setSlot rfl rfl)
  | ccmFinal c =>
    exact .onSlot h rfl fun _ => .guard .same .rfl fun _ => .require fun _ => .guard .same .rfl fun _ =>
      .guard .same .rfl fun _ => .ccmFinish rfl fun _ _ => .memWrite (.setSlot rfl rfl)
  -- Commands that read and write DMEM
  | aesPblk c =>
    exact .onSlot h rfl fun _ => .guard .same .rfl fun _ => .require fun _ => .guard .same .rfl fun hf =>
      .guard .same .rfl fun _ => .emit h .same (by rw [h.inBytes (.head _) hf])
  | cbcPblk c =>
    refine .onSlot h rfl fun _ => .guard .same .rfl fun _ => .require fun _ => .guard .same .rfl fun hf => ?_
    rw [h.inBytes (.head _) hf]
    exact .guard .same .rfl fun _ => .emit h (.setSlot rfl rfl) rfl
  | ctrPblk c =>
    refine .onSlot h rfl fun _ => .guard .same .rfl fun _ => .require fun _ => .guard .same .rfl fun hf => ?_
    rw [h.inBytes (.head _) hf]
    exact .guard .same .rfl fun _ => .guard .same .rfl fun _ => .emit h (.setSlot rfl rfl) rfl
  | bufPbytes c =>
    refine .onSlot h rfl fun _ => .guard .same .rfl fun _ => .require fun _ => .guard .same .rfl fun hf => ?_
    rw [h.inBytes_len (.head _) hf]
    exact .guard .same .rfl fun _ => .emit h (.setSlot rfl rfl) rfl
  | ctrPbytes c | gcmPbytes c =>
    refine .onSlot h rfl fun _ => .guard .same .rfl fun _ => .require fun _ => .guard .same .rfl fun hf => ?_
    rw [h.inBytes_len (.head _) hf]
    exact .guard .same .rfl fun _ => .guard .same .rfl fun _ => .emit h (.setSlot rfl rfl) rfl
  | ccmPpkt c =>
    refine .onSlot h rfl fun _ => .guard .same .rfl fun _ => .require fun _ => .guard .same .rfl fun hf => ?_
    rw [h.inBytes_len (.head _) hf]
    exact .guard .same .rfl fun _ => .guard .same .rfl fun _ => .guard .same .rfl fun _ =>
      .ccmFinish rfl fun _ _ => .emit h (.setSlot rfl rfl) rfl
  | gfMul =>
    exact .guard .same .rfl fun _ => .storeOver .same (by
      rw [h.readAt (.head _), h.readAt (.tail _ (.head _))])

/-! ## One byte of DMEM replaced -/

/-- A byte outside its input ranges is not in a command's view. -/
theorem SameView.withByte {a : Nat} (ha : ¬ InRanges (inRanges i s) a) (b : Byte) :
    SameView i s (s.withByte a b) :=
  ⟨⟨s.args, s.slots, s.mem.write a b, rfl⟩, fun _ _ => rfl, fun _ _ => rfl,
    fun _ ha' => Memory.read_write_of_ne s.mem b fun e => ha (e ▸ ha')⟩

/-- What an ending makes of one byte of DMEM rests on that byte and on the draws. -/
theorem Ending.readByte_apply_congr (e : Ending) (c : Option Ctx) (hd : s'.draws = s.draws) {a : Nat}
    (h : s'.readByte a = s.readByte a) : (e.apply c s').readByte a = (e.apply c s).readByte a := by
  have hread (s : State) : (e.apply c s).readByte a = (s.mem.writeBytes e.out
    (drawInside (e.ins.filter fun r => r.base ≠ e.out) e.out e.bytes s.draws).1).read a := rfl
  have h : s'.mem.read a = s.mem.read a := h
  rw [hread, hread, hd, Memory.read_writeBytes, Memory.read_writeBytes, h]

/-- A command writes DMEM inside its output ranges only (R85). -/
theorem exec_readByte_outside (hs : s.SlotsOk) (h : exec i s = .next t) {a : Nat}
    (ha : ¬ InRanges (outRanges i s) a) : t.readByte a = s.readByte a := by
  cases EndsIn.of_next (exec_effect i s) h with
  | success h =>
    obtain ⟨out, bs, hmem, hin⟩ := h.mem
    show t.mem.read a = s.mem.read a
    rw [hmem]
    refine Memory.read_writeBytes_outside fun hc => ?_
    rcases hin hs with rfl | ⟨r, hr, hlo, hhi, -⟩
    · simp [Range.Contains] at hc
      omega
    · exact ha ⟨r, hr, hlo.trans hc.1, hc.2.trans_le hhi⟩
  | _ => rfl

end Sys2Proof.Machine
end

section
/-! SUPPORT. The host's races (20_memory.md R101): what the engine makes of the raced bytes, and what every completion
leaves. -/

namespace Sys2Proof.Machine

open Host (Outcome)

variable {i : Instr} {s t u : State} {a : Nat}

/-! ## Drawing and restoring bytes -/

/-- `drawBytes` touches DMEM and the draw counter only, and the counter goes up. -/
theorem State.drawBytes_eq (s : State) (as : List Nat) :
    ∃ m d, s.draws ≤ d ∧ s.drawBytes as = { s with mem := m, draws := d } := by
  induction as generalizing s with
  | nil => exact ⟨s.mem, s.draws, le_rfl, rfl⟩
  | cons a as ih =>
    obtain ⟨m, d, hd, h⟩ := ih { s with mem := s.mem.write a (Config.freeByte s.draws), draws := s.draws + 1 }
    exact ⟨m, d, (Nat.le_succ _).trans hd, h⟩

theorem State.readByte_drawBytes_of_notMem {as : List Nat} (h : a ∉ as) :
    (s.drawBytes as).readByte a = s.readByte a := by
  induction as generalizing s with
  | nil => rfl
  | cons b as ih =>
    obtain ⟨hne, has⟩ := not_or.mp (mt List.mem_cons.mpr h)
    exact (ih has).trans (Memory.read_write_of_ne s.mem _ hne)

theorem State.drawnByte_drawBytes {as : List Nat} (h : a ∈ as) : DrawnByte s (s.drawBytes as) a := by
  induction as generalizing s with
  | nil => cases h
  | cons b as ih =>
    let s₁ : State := { s with mem := s.mem.write b (Config.freeByte s.draws), draws := s.draws + 1 }
    by_cases has : a ∈ as
    · obtain ⟨n, hlo, hhi, hn⟩ := ih (s := s₁) has
      exact ⟨n, (Nat.le_succ _).trans hlo, hhi, hn⟩
    · obtain rfl : a = b := (List.mem_cons.mp h).resolve_right has
      obtain ⟨m, d, hd, he⟩ := s₁.drawBytes_eq as
      refine ⟨s.draws, le_rfl, ?_, (State.readByte_drawBytes_of_notMem has).trans (Memory.read_write_self _ _ _)⟩
      show s.draws < (s₁.drawBytes as).draws
      rw [he]
      exact hd

/-- `restoreBytes` touches DMEM only. -/
theorem State.restoreBytes_eq (s : State) (m : Memory) (as : List Nat) :
    ∃ m', s.restoreBytes m as = { s with mem := m' } := by
  induction as generalizing s with
  | nil => exact ⟨s.mem, rfl⟩
  | cons a as ih => exact ih { s with mem := s.mem.write a (m.read a) }

theorem State.readByte_restoreBytes (s : State) (m : Memory) (as : List Nat) (a : Nat) :
    (s.restoreBytes m as).readByte a = if a ∈ as then m.read a else s.readByte a := by
  induction as generalizing s with
  | nil => rfl
  | cons b as ih =>
    have hw : State.readByte { s with mem := s.mem.write b (m.read b) } a =
      if a = b then m.read b else s.readByte a := Memory.read_write s.mem b a _
    rw [State.restoreBytes, ih, hw]
    grind

/-! ## The raced bytes after a completion -/

/-- After the races nothing but DMEM and the draw counter differs. -/
theorem State.afterRaces_eq (t s : State) (i : Instr) :
    ∃ m d, t.draws ≤ d ∧ t.afterRaces s i = { t with mem := m, draws := d } := by
  obtain ⟨m, hm⟩ := t.restoreBytes_eq s.mem (s.raced.filter fun a => ¬ InRanges (outRanges i s) a)
  unfold State.afterRaces
  rw [hm]
  exact State.drawBytes_eq { t with mem := m } _

/-- A raced byte of the output is a draw. -/
theorem State.drawnByte_afterRaces (t : State) (ha : a ∈ s.raced) (hout : InRanges (outRanges i s) a) :
    DrawnByte t (t.afterRaces s i) a := by
  obtain ⟨m, hm⟩ := t.restoreBytes_eq s.mem (s.raced.filter fun a => ¬ InRanges (outRanges i s) a)
  have h : DrawnByte _ (t.afterRaces s i) a := State.drawnByte_drawBytes (by simpa using ⟨ha, hout⟩)
  rwa [hm] at h

/-- A raced byte outside the output keeps what the host wrote. -/
theorem State.readByte_afterRaces_of_input (t : State) (ha : a ∈ s.raced) (hout : ¬ InRanges (outRanges i s) a) :
    (t.afterRaces s i).readByte a = s.readByte a := by
  unfold State.afterRaces
  rw [State.readByte_drawBytes_of_notMem fun h => hout (by simpa using (List.mem_filter.mp h).2),
    State.readByte_restoreBytes, if_pos (List.mem_filter.mpr ⟨ha, by simpa using hout⟩)]
  rfl

theorem State.readByte_afterRaces_of_unraced (t : State) (ha : a ∉ s.raced) :
    (t.afterRaces s i).readByte a = t.readByte a := by
  unfold State.afterRaces
  rw [State.readByte_drawBytes_of_notMem (by simp [ha]), State.readByte_restoreBytes, if_neg (by simp [ha])]

/-- Where no input byte was raced for, the command sees DMEM as it is. -/
theorem State.beforeRaces_of_no_input (h : ∀ a ∈ s.raced, ¬ InRanges (inRanges i s) a) : s.beforeRaces i = s := by
  unfold State.beforeRaces
  rw [List.filter_eq_nil_iff.mpr (by simpa using h)]
  rfl

/-! ## What every completion leaves -/

/-- `t` is some completion of `s`: PEND is empty, the registers are kept, and draws are only used up. -/
structure Completed (s t : State) : Prop where
  regs : SameRegs s t
  pend : t.pend = none
  draws : s.draws ≤ t.draws

theorem Effect.completed (h : Effect i s t) : Completed s t := by
  cases h with
  | success h => exact ⟨h.regs, h.pend, h.draws⟩
  | _ => exact ⟨⟨rfl, rfl, rfl, rfl, rfl, rfl⟩, rfl, le_rfl⟩

/-- The draws before a completion are draws too. -/
theorem exec_beforeRaces_completed (h : exec i (s.beforeRaces i) = .next u) : Completed s u := by
  obtain ⟨m, d, hd, he⟩ := s.drawBytes_eq (s.raced.filter fun a => InRanges (inRanges i s) a)
  have hc : Completed (s.beforeRaces i) u := (EndsIn.of_next (exec_effect i _) h).completed
  rw [State.beforeRaces, he] at hc
  obtain ⟨⟨hparams, hcmd, hovr, hargs, hinputs, hbus⟩, hpend, hdraws⟩ := hc
  exact ⟨⟨hparams, hcmd, hovr, hargs, hinputs, hbus⟩, hpend, hd.trans hdraws⟩

/-- So are those after it. -/
theorem Completed.afterRaces (h : Completed s t) (s₀ : State) (i : Instr) : Completed s (t.afterRaces s₀ i) := by
  obtain ⟨m, d, hd, he⟩ := t.afterRaces_eq s₀ i
  rw [he]
  obtain ⟨⟨hparams, hcmd, hovr, hargs, hinputs, hbus⟩, hpend, hdraws⟩ := h
  exact ⟨⟨hparams, hcmd, hovr, hargs, hinputs, hbus⟩, hpend, hdraws.trans hd⟩

/-- Running a command is its meaning between the two races, which do nothing where nothing was raced for. -/
theorem runCommand_of_exec (h : exec i (s.beforeRaces i) = .next u) : runCommand i s = .next (u.afterRaces s i) := by
  by_cases hr : s.raced = []
  · rw [State.beforeRaces_of_no_input (by simp [hr])] at h
    rw [runCommand_of_unraced i hr, h, State.afterRaces, hr]
    rfl
  · rw [runCommand, if_neg hr, h]

theorem runCommand_eq_afterRaces (h : runCommand i s = .next t) :
    ∃ u, exec i (s.beforeRaces i) = .next u ∧ t = u.afterRaces s i := by
  obtain ⟨u, hu, -⟩ := exec_effect i (s.beforeRaces i)
  exact ⟨u, hu, Outcome.next.inj (h.symm.trans (runCommand_of_exec hu))⟩

theorem runCommand_completed (i : Instr) (s : State) : ∃ t, runCommand i s = .next t ∧ Completed s t := by
  obtain ⟨u, hu, -⟩ := exec_effect i (s.beforeRaces i)
  exact ⟨_, runCommand_of_exec hu, (exec_beforeRaces_completed hu).afterRaces s i⟩

theorem DrawnByte.of_draws_le (h : DrawnByte u t a) (hd : s.draws ≤ u.draws) : DrawnByte s t a := by
  obtain ⟨n, hlo, hhi, hn⟩ := h
  exact ⟨n, hd.trans hlo, hhi, hn⟩

/-- A raced byte of the output is a draw of the completion. -/
theorem runCommand_drawnByte (h : runCommand i s = .next t) (ha : a ∈ s.raced) (hout : InRanges (outRanges i s) a) :
    DrawnByte s t a := by
  obtain ⟨u, hu, rfl⟩ := runCommand_eq_afterRaces h
  exact (State.drawnByte_afterRaces u ha hout).of_draws_le (exec_beforeRaces_completed hu).draws

/-- An access of the host and then the completion: two steps. -/
theorem step_host_then_engine {op : HostOp} {rest : List Input} {p : Pend}
    (hin : s.inputs = .host op :: .engine :: rest) (hop : hostStep op { s with inputs := .engine :: rest } = .next t)
    (ht : t.inputs = .engine :: rest) (hp : t.pend = some p) (hd : decodeWord p.word = .ok i) :
    ∃ u, step s = .next t ∧ step t = .next u ∧ runCommand i { t with inputs := rest } = .next u ∧
      Completed { t with inputs := rest } u := by
  obtain ⟨u, hrun, hc⟩ := runCommand_completed i { t with inputs := rest }
  have heng := engineStep_of_decoded (s := { t with inputs := rest }) hp hd
  exact ⟨u, (step_of_host hin).trans hop, (step_of_engine ht).trans (heng.trans hrun), hrun, hc⟩

end Sys2Proof.Machine
end

section
/-! SUPPORT. The host's accesses to DMEM (20_memory.md R82, R101). -/

namespace Sys2Proof.Machine

variable {s : State} {addr len : Nat} {data : List Byte}

/-- The addresses of a range, the first one apart. -/
theorem Range.addrs_succ (a n : Nat) : Range.addrs ⟨a, n + 1⟩ = a :: Range.addrs ⟨a + 1, n⟩ := by
  simp [Range.addrs, List.range_succ_eq_map, Nat.add_assoc, Nat.add_comm 1]

theorem Memory.readBytes_succ (m : Memory) (a n : Nat) :
    m.readBytes a (n + 1) = m.read a :: m.readBytes (a + 1) n := by
  simp [Memory.readBytes, List.range_succ_eq_map, Nat.add_assoc, Nat.add_comm 1]

/-- A host read returns DMEM's bytes, those inside the running command's output drawn: what a store draws inside
its ranges, a host read draws inside these. -/
theorem hostBytes_addrs (s : State) (a n d : Nat) :
    hostBytes s (Range.addrs ⟨a, n⟩) d = drawInside s.pendOut a (s.memRead a n) d := by
  induction n generalizing a d with
  | zero => rfl
  | succ n ih =>
    have hread : s.memRead a (n + 1) = s.readByte a :: s.memRead (a + 1) n := s.mem.readBytes_succ a n
    rw [Range.addrs_succ, hread, hostBytes, drawInside, ih, ih]

/-- What a host read does: DMEM and the race record of the running command stay. -/
theorem hostStep_dmemRead (h : addr + len ≤ s.memSize) : hostStep (.dmemRead addr len) s = .next { s with
    lateRaced := recordIn s.lateRaced s.unseenOut ⟨addr, len⟩
    busData := .dmem (drawInside s.pendOut addr (s.memRead addr len) s.draws).1
    draws := (drawInside s.pendOut addr (s.memRead addr len) s.draws).2 } := by
  rw [← hostBytes_addrs]
  exact if_pos h

theorem hostStep_dmemWrite (h : addr + data.length ≤ s.memSize) :
    hostStep (.dmemWrite addr data) s = .next (s.hostWrite addr data) := if_pos h

theorem State.getD_memRead (s : State) (a : Nat) {n j : Nat} (h : j < n) :
    (s.memRead a n).getD j 0 = s.readByte (a + j) := by
  have hj : j < (s.memRead a n).length := by simpa using h
  rw [List.getD_eq_getElem _ _ hj]
  exact Memory.getElem_readBytes s.mem a n j hj

/-- The pending command's output, when its word decodes. -/
theorem State.pendOut_of_decoded {p : Pend} {i : Instr} (h : s.pend = some p) (hd : decodeWord p.word = .ok i) :
    s.pendOut = outRanges i s := by
  simp only [State.pendOut, h, hd]

end Sys2Proof.Machine
end

section
/-! The obligations about DMEM (20_memory.md). -/

namespace Sys2Proof.Proofs

open Sys2Proof Sys2Proof.Machine

/-- Settles O21: outside its output ranges a command writes nothing; and with a byte outside its input ranges
replaced it has the same ending, which makes of every other byte what it made of it before. -/
theorem commandsStayInTheirRanges : Obligations.CommandsStayInTheirRanges := by
  intro i s t hok ht
  refine ⟨fun a ha => exec_readByte_outside hok ht ha, fun a b ha => ?_⟩
  obtain ⟨e, hs, hu⟩ := exec_sameEnding (SameView.withByte ha b)
  obtain rfl : t = e.apply i.ctx? s := Host.Outcome.next.inj (ht.symm.trans hs)
  refine ⟨_, hu, ⟨rfl, rfl, rfl, rfl, rfl, rfl⟩, rfl, rfl, rfl, rfl, rfl, rfl, fun a' hne => ?_, fun hout => ?_⟩
  · exact e.readByte_apply_congr (s := s) (s' := s.withByte a b) _ rfl (Memory.read_write_of_ne s.mem b hne)
  · exact (exec_readByte_outside (s := s.withByte a b) hok hu hout).trans (Memory.read_write_self s.mem a b)

/-- Settles O13: a host write is a plain store with two records beside it, and a host read is what `drawInside` makes
of DMEM's bytes for the running command's output. -/
theorem hostReachesDmemAsPlainMemory : Obligations.HostReachesDmemAsPlainMemory := by
  refine ⟨fun s addr data hin => ?_, fun s addr len hin => ?_⟩
  · have hst := s.stores_memWrite addr data
    exact ⟨_, hostStep_dmemWrite hin, ⟨hst.outside, hst.bytes⟩, ⟨rfl, rfl, rfl, rfl, rfl, rfl⟩, rfl, rfl, rfl, rfl,
      rfl, rfl, fun a => mem_recordIn _ _ _ a, fun a => mem_recordIn _ _ _ a⟩
  · have hlen : (s.memRead addr len).length = len := s.length_memRead addr len
    refine ⟨_, _, _, hostStep_dmemRead hin, ?_, fun j hj hopen => ?_, fun j hj hopen => ?_, fun h => ?_,
      fun a => mem_recordIn _ _ _ a⟩
    · rw [length_drawInside, hlen]
    · rw [drawInside_outside _ hopen, s.getD_memRead addr hj]
    · exact drawInside_inside _ (hlen.symm ▸ hj) hopen
    · exact drawInside_draws_eq _ fun j hj => h j (hlen ▸ hj)

/-- Settles O15: the completion is the command's meaning between two races. After it the raced bytes of the output
are drawn and the others restored; before it nothing is drawn where no input byte was written. -/
theorem racedBytesAreDraws : Obligations.RacedBytesAreDraws := by
  intro s t p i hp hd ht
  have hrun : runCommand i s = .next t := (engineStep_of_decoded hp hd).symm.trans ht
  obtain ⟨u, hu, rfl⟩ := runCommand_eq_afterRaces hrun
  refine ⟨fun a ha hout => runCommand_drawnByte hrun ha hout,
    fun a ha hout => State.readByte_afterRaces_of_input u ha hout, fun hno => ?_⟩
  rw [State.beforeRaces_of_no_input hno] at hu
  have hread (a : Nat) (ha : a ∉ s.raced) := State.readByte_afterRaces_of_unraced (i := i) u ha
  obtain ⟨m, d, -, he⟩ := u.afterRaces_eq s i
  rw [he] at hread ⊢
  exact ⟨u, hu, ⟨rfl, rfl, rfl, rfl, rfl, rfl⟩, rfl, rfl, rfl, rfl, rfl, rfl, hread⟩

/-- Settles O14: the access is one step and the completion the next, which draws further only. A byte of the output
that is read is drawn by the read; one that is written is raced for, and so drawn by the completion. -/
theorem accessesBeforeTheCompletionAreDraws : Obligations.AccessesBeforeTheCompletionAreDraws := by
  intro s p i rest hp hd
  refine ⟨fun addr len hin hsize => ?_, fun addr data hin hsize => ?_⟩
  · obtain ⟨u, hs, ht, -, hc⟩ := step_host_then_engine hin (hostStep_dmemRead hsize) rfl hp hd
    refine ⟨_, u, _, hs, ht, hc.regs.busData, hc.pend, hc.regs.inputs, fun j hj hout => ?_⟩
    have hopen : InRanges s.pendOut (addr + j) := State.pendOut_of_decoded hp hd ▸ hout
    obtain ⟨n, hlo, hhi, hn⟩ := drawInside_inside (bs := s.memRead addr len) s.draws (by simpa using hj) hopen
    exact ⟨n, hlo, hhi.trans_le hc.draws, hn⟩
  · obtain ⟨u, hs, ht, hrun, hc⟩ := step_host_then_engine hin (hostStep_dmemWrite hsize) rfl hp hd
    refine ⟨_, u, hs, ht, hc.pend, hc.regs.inputs, fun j hj hout => ?_⟩
    have hdrawn := runCommand_drawnByte (a := addr + j) hrun
    refine hdrawn ((mem_recordIn _ _ _ _).mpr (.inr ⟨?_, ?_⟩)) hout
    · exact ⟨Nat.le_add_right _ _, Nat.add_lt_add_left hj _⟩
    · obtain ⟨r, hr, hcontains⟩ := hout
      exact ⟨r, List.mem_append_right _ (State.pendOut_of_decoded hp hd ▸ hr), hcontains⟩

end Sys2Proof.Proofs
end

section
/-! SUPPORT. A word that decodes is the word of the command it decodes to (30_encoding.md R122, R126, R127): each word
shape is inverted once, and each row of R115 is one of the shapes. -/

namespace Sys2Proof

/-! ## A field is its parts, one after the other -/

theorem ofBool_getLsbD {w : Nat} (x : BitVec w) (i : Nat) : BitVec.ofBool (x.getLsbD i) = x.extractLsb' i 1 := by
  ext j hj
  simp [show j = 0 by omega]

/-- The bits above bit `k`, bit `k`, and the bits below it. -/
theorem append_bit_append (k n : Nat) (x : BitVec (n + 1 + k)) :
    x.extractLsb' (k + 1) n ++ BitVec.ofBool (x.getLsbD k) ++ x.extractLsb' 0 k = x := by
  rw [ofBool_getLsbD, BitVec.extractLsb'_append_extractLsb'_eq_extractLsb' rfl, BitVec.extractLsb'_append_extractLsb']

section Shapes

variable {ctx a b : BitVec 8} {i : Instr}

/-! ## The fields an operand was read from -/

theorem code_of_decodePKind {k : BitVec 3} {pk : PKind} (h : decodePKind k = some pk) : pk.code = k := by
  unfold decodePKind at h
  split_ifs at h with h0 h1 h2 <;> cases h
  · exact h0.symm
  · exact h1.symm
  · exact h2.symm

theorem encodeDk_of_decodeDk {k : BitVec 2} {dk : DigestAlg} (h : decodeDk k = some dk) : encodeDk dk = k := by
  unfold decodeDk at h
  split_ifs at h with h0 h1 h2 <;> cases h
  · exact h0.symm
  · exact h1.symm
  · exact h2.symm

theorem initA_of_decodePKind {pk : PKind} (ha : a.extractLsb' 4 4 = 0)
    (h : decodePKind (a.extractLsb' 0 3) = some pk) : initA pk (a.getLsbD 3) = a := by
  have hparts := append_bit_append 3 4 a
  rwa [ha, ← code_of_decodePKind h] at hparts

theorem initB_getLsbD (hb : b.extractLsb' 1 7 = 0) : initB (b.getLsbD 0) = b := by
  have hparts : b.extractLsb' 1 7 ++ b.extractLsb' 0 1 = b := BitVec.extractLsb'_append_extractLsb'
  rwa [hb, ← ofBool_getLsbD] at hparts

theorem optByte_buf (hb : b.extractLsb' 2 6 = 0) :
    (AlgConf.buf (if b.getLsbD 0 then .cbc else .ecb) (b.getLsbD 1)).optByte = b := by
  have hparts := append_bit_append 1 6 b
  rw [hb, ← ofBool_getLsbD] at hparts
  cases h : b.getLsbD 0 <;> rwa [h] at hparts

theorem optByte_cmac (hb : b.extractLsb' 6 2 = 0) :
    (AlgConf.cmac (b.extractLsb' 0 5) (if b.getLsbD 5 then .pkcs7 else .zero)).optByte = b := by
  have hparts := append_bit_append 5 2 b
  rw [hb] at hparts
  cases h : b.getLsbD 5 <;> rwa [h] at hparts

theorem optByte_hmac {dk : DigestAlg} (hb : b.extractLsb' 2 6 = 0) (h : decodeDk (b.extractLsb' 0 2) = some dk) :
    (AlgConf.hmac dk).optByte = b := by
  have hparts : b.extractLsb' 2 6 ++ b.extractLsb' 0 2 = b := BitVec.extractLsb'_append_extractLsb'
  rwa [hb, ← encodeDk_of_decodeDk h] at hparts

/-- The pair that a configuration was decoded from is its own (R42): B is read whole in the rows of BUF, CMAC and
HMAC, and is 0 in the others. -/
theorem decodeConf_fields {conf : AlgConf} (h : decodeConf a b = some conf) :
    conf.algCode = a ∧ conf.optByte = b := by
  unfold decodeConf at h
  split at h
  all_goals
    rename_i ha
    simp only [Option.ite_none_right_eq_some, Option.some.injEq, Option.map_eq_some_iff, reduceCtorEq] at h
  case h_5 =>
    obtain ⟨hb, rfl⟩ := h
    exact ⟨BitVec.eq_of_toNat_eq ha.symm, optByte_buf hb⟩
  case h_8 =>
    obtain ⟨⟨hb, -⟩, rfl⟩ := h
    exact ⟨BitVec.eq_of_toNat_eq ha.symm, optByte_cmac hb⟩
  case h_12 =>
    obtain ⟨hb, dk, hdk, rfl⟩ := h
    exact ⟨BitVec.eq_of_toNat_eq ha.symm, optByte_hmac hb hdk⟩
  all_goals
    obtain ⟨rfl, rfl⟩ := h
    exact ⟨BitVec.eq_of_toNat_eq ha.symm, rfl⟩

/-! ## Each row of R115 decodes to commands with its own fields -/

/-- The fields of the command's word (R122). -/
structure Instr.HasFields (i : Instr) (opc : Nat) (ctx a b : BitVec 8) : Prop where
  opc : i.opc.toNat = opc
  ctx : i.ctx?.getD 0 = ctx
  fieldA : i.fieldA = a
  fieldB : i.fieldB = b

/-- What decoding answers with, if a command, is a command with these fields. -/
structure KeepsFields (opc : Nat) (ctx a b : BitVec 8) (d : Except DecodeError Instr) : Prop where
  of_ok : ∀ i, d = .ok i → i.HasFields opc ctx a b

variable {opc : Nat}

theorem decodeSlot_keepsFields {mk : Ctx → Instr} (hmk : (mk ctx).HasFields opc ctx 0 0) :
    KeepsFields opc ctx a b (decodeSlot mk ctx a b) := by
  refine ⟨fun i h => ?_⟩
  obtain ⟨⟨rfl, rfl⟩, rfl⟩ := decodeSlot_eq_ok.mp h
  exact hmk

theorem decodeFree_keepsFields {j : Instr} (hj : j.HasFields opc 0 0 0) :
    KeepsFields opc ctx a b (decodeFree j ctx a b) := by
  refine ⟨fun i h => ?_⟩
  obtain ⟨⟨rfl, rfl, rfl⟩, rfl⟩ := decodeFree_eq_ok.mp h
  exact hj

theorem decodeInit_keepsFields {mk : Ctx → PKind → Bool → Bool → Instr}
    (hmk : ∀ pk rnd enc, (mk ctx pk rnd enc).HasFields opc ctx (initA pk rnd) (initB enc)) :
    KeepsFields opc ctx a b (decodeInit mk ctx a b) := by
  refine ⟨fun i h => ?_⟩
  obtain ⟨⟨ha, hb⟩, pk, hpk, rfl⟩ := decodeInit_eq_ok.mp h
  have hfields := hmk pk (a.getLsbD 3) (b.getLsbD 0)
  rwa [initA_of_decodePKind ha hpk, initB_getLsbD hb] at hfields

theorem decodeInitNoDir_keepsFields {mk : Ctx → PKind → Bool → Instr}
    (hmk : ∀ pk rnd, (mk ctx pk rnd).HasFields opc ctx (initA pk rnd) 0) :
    KeepsFields opc ctx a b (decodeInitNoDir mk ctx a b) := by
  refine ⟨fun i h => ?_⟩
  obtain ⟨⟨rfl, ha⟩, pk, hpk, rfl⟩ := decodeInitNoDir_eq_ok.mp h
  have hfields := hmk pk (a.getLsbD 3)
  rwa [initA_of_decodePKind ha hpk] at hfields

theorem decodeCfg_keepsFields : KeepsFields 0x01 ctx a b (decodeCfg ctx a b) := by
  refine ⟨fun i h => ?_⟩
  obtain ⟨conf, hconf, rfl⟩ := decodeCfg_eq_ok.mp h
  obtain ⟨ha, hb⟩ := decodeConf_fields hconf
  exact ⟨rfl, rfl, ha, hb⟩

theorem error_keepsFields (e : DecodeError) : KeepsFields opc ctx a b (.error e) := ⟨nofun⟩

end Shapes

/-- Each row by the rule of its shape; that its command has the row's OPC is read off. -/
theorem decodeFields_keepsFields (opc ctx a b : BitVec 8) :
    KeepsFields opc.toNat ctx a b (decodeFields opc ctx a b) := by
  unfold decodeFields
  generalize opc.toNat = n
  split
  all_goals apply_rules [decodeCfg_keepsFields, decodeSlot_keepsFields, decodeFree_keepsFields, decodeInit_keepsFields,
    decodeInitNoDir_keepsFields, error_keepsFields]
  all_goals
    intros
    exact ⟨rfl, rfl, rfl, rfl⟩

theorem decodeWord_hasFields {w : Word32} {i : Instr} (h : decodeWord w = .ok i) : i.HasFields
    (w.extractLsb' 24 8).toNat (w.extractLsb' 16 8) (w.extractLsb' 8 8) (w.extractLsb' 0 8) :=
  (decodeFields_keepsFields _ _ _ _).of_ok i h

theorem encode_of_decodeWord {w : Word32} {i : Instr} (h : decodeWord w = .ok i) : encode i = w := by
  obtain ⟨hopc, hctx, ha, hb⟩ := decodeWord_hasFields h
  rw [encode, BitVec.eq_of_toNat_eq hopc, hctx, ha, hb, packWord_of_fields]

end Sys2Proof
end

section
/-! SUPPORT. No reserved word decodes (30_encoding.md R117): the fields of every command are legal for its OPC. -/

namespace Sys2Proof.Machine

open Sys2Proof.Laws

variable {i : Instr}

/-! ## The fields of a command -/

/-- R115's row of every command. -/
theorem opcodeRow (i : Instr) : OpcodeRow.Statement i := by
  cases i with
  | cfg ctx conf => exact OpcodeRow.cfg ctx conf
  | aesInit | bufInit | cbcInit | ctrInit | gcmInit | ccmInit | hmInit | cmacInit =>
    exact OpcodeRow.of_init _ _ rfl (by simp [OpcodeRow.initRows, Instr.opc]) rfl
  | st16be | st16le | st32be | st32le | st64be | st64le | ld16be | ld16le | ld32be | ld32le | ld64be | ld64le
  | padAdd | padCnt | gfMul => exact OpcodeRow.of_free _ rfl (by decide) rfl ⟨rfl, rfl⟩
  | _ => exact OpcodeRow.of_slot _ _ rfl (by simp [OpcodeRow.slotRows, Instr.opc]) rfl ⟨rfl, rfl⟩

theorem fields_of_freeOpc (h : freeOpc i.opc.toNat) : i.ctx? = none ∧ i.fieldA = 0 ∧ i.fieldB = 0 := by
  obtain ⟨-, hfree, hzero⟩ := opcodeRow i
  refine ⟨hfree.mpr h, hzero ?_ ?_ ?_⟩
  · unfold freeOpc at h
    unfold directedInitOpc
    omega
  · unfold freeOpc at h
    unfold plainInitOpc
    omega
  · intro hcfg
    simp [hcfg, freeOpc] at h

theorem fields_of_directedInitOpc (h : directedInitOpc i.opc.toNat) :
    ∃ pk rnd enc, i.fieldA = initA pk rnd ∧ i.fieldB = initB enc := by
  cases i with
  | aesInit _ pk rnd enc | bufInit _ pk rnd enc | cbcInit _ pk rnd enc | ctrInit _ pk rnd enc
  | gcmInit _ pk rnd enc | ccmInit _ pk rnd enc => exact ⟨pk, rnd, enc, rfl, rfl⟩
  | _ => simp [directedInitOpc, Instr.opc] at h

theorem fields_of_plainInitOpc (h : plainInitOpc i.opc.toNat) :
    ∃ pk rnd, i.fieldA = initA pk rnd ∧ i.fieldB = 0 := by
  cases i with
  | hmInit _ pk rnd | cmacInit _ pk rnd => exact ⟨pk, rnd, rfl, rfl⟩
  | _ => simp [plainInitOpc, Instr.opc] at h

theorem eq_cfg_of_opc (h : i.opc.toNat = 0x01) : ∃ c conf, i = .cfg c conf := by
  cases i with
  | cfg c conf => exact ⟨c, conf, rfl⟩
  | _ => simp [Instr.opc] at h

/-! ## They are legal -/

theorem initA_legal (pk : PKind) (rnd : Bool) : (initA pk rnd).toNat % 8 ≤ 2 ∧ (initA pk rnd).toNat < 16 := by
  cases pk <;> cases rnd <;> decide

theorem initB_legal (enc : Bool) : (initB enc).toNat < 2 := by
  cases enc <;> decide

theorem legalOption_cmac (pad : PadMode) : ∀ ms : BitVec 5, ms.toNat ≤ 16 →
    LegalOption (AlgConf.cmac ms pad).algCode.toNat (AlgConf.cmac ms pad).optByte.toNat := by
  unfold LegalOption
  cases pad <;> decide

theorem legalOption_of_wf {conf : AlgConf} (h : conf.wf = true) :
    LegalOption conf.algCode.toNat conf.optByte.toNat := by
  cases conf with
  | cmac ms pad => exact legalOption_cmac pad ms (of_decide_eq_true h)
  | buf inner padded => unfold LegalOption; cases inner <;> cases padded <;> decide
  | digest alg => unfold LegalOption; cases alg <;> decide
  | hmac dk => unfold LegalOption; cases dk <;> decide
  | _ => unfold LegalOption; decide

/-- A word that decodes meets none of R117's items. -/
theorem not_reservedWord_of_decoded {w : Word32} (h : decodeWord w = .ok i) : ¬ ReservedWord w := by
  obtain ⟨hopc, hctx, ha, hb⟩ := decodeWord_hasFields h
  obtain ⟨hassigned, -, hzero⟩ := opcodeRow i
  unfold ReservedWord
  rw [← hopc, ← hctx, ← ha, ← hb]
  rintro (hres | ⟨hf, hne⟩ | ⟨-, -, hd, hp, hcfg, hne⟩ | ⟨hd, hne⟩ | ⟨hp, hne⟩ | ⟨hcfg, hne⟩)
  · exact hassigned hres
  · obtain ⟨hC, hA, hB⟩ := fields_of_freeOpc hf
    simp [hC, hA, hB] at hne
  · obtain ⟨hA, hB⟩ := hzero hd hp fun e => hcfg (congrArg BitVec.toNat e)
    simp [hA, hB] at hne
  · obtain ⟨pk, rnd, enc, hA, hB⟩ := fields_of_directedInitOpc hd
    have := initA_legal pk rnd
    have := initB_legal enc
    rw [hA, hB] at hne
    omega
  · obtain ⟨pk, rnd, hA, hB⟩ := fields_of_plainInitOpc hp
    have := initA_legal pk rnd
    rw [hA, hB] at hne
    simp at hne
    omega
  · obtain ⟨c, conf, rfl⟩ := eq_cfg_of_opc hcfg
    exact hne (legalOption_of_wf (decodeWord_wf h))

end Sys2Proof.Machine
end

section
/-! SUPPORT. Steps 5 to 7 of R126: a command whose slot does not exist or is not admitted raises IllegalCommand. -/

namespace Sys2Proof.Machine

open Host (Outcome)

variable {i : Instr} {s : State} {c : Ctx}

/-- A command whose one test of its slot is its family's selector (R114). -/
theorem State.onSlot_of_not_admits {α : Type} {sel : Slot → Option α} {k : α → Outcome State Fault Refusal}
    (h : ¬ s.Admits i) (hc : i.ctx? = some c) (hsrc : ∀ sl, s.SourceOk i sl)
    (hsel : ∀ {sl : Slot}, sel sl = none ↔ sl.alg ∉ admittedCodes i) :
    s.onSlot c sel k = .next (s.raise .illegalCommand) := by
  refine State.onSlot_none (Option.bind_eq_none_iff.mpr fun sl hs => hsel.mpr fun hmem => h fun c' hc' => ?_)
  obtain rfl : c' = c := Option.some.inj (hc'.symm.trans hc)
  exact ⟨sl, hs, hmem, hsrc sl⟩

/-- CFG admits a slot of every algorithm. -/
theorem Slot.some_eq_none {sl : Slot} : some sl = none ↔ sl.alg ∉ (List.range 12).map (BitVec.ofNat 8) := by
  rcases sl with _ | _ | _ | _ | _ | _ | _ | _ | ⟨_ | _ | _, _⟩ | _ <;>
    simp [Slot.alg, Slot.conf, AlgConf.algCode, List.range_succ]

theorem Slot.alg_mem_of_digest? {sl : Slot} {d : DigestAlg × Digest} (h : sl.digest? = some d) :
    sl.alg ∈ ([0x08, 0x09, 0x0A] : List (BitVec 8)) := by
  by_contra hmem
  exact nomatch h.symm.trans (Slot.digest?_eq_none.mpr hmem)

/-- COPY's three tests (R143): a digest slot, a source that is one, and both of one algorithm. -/
theorem execCopy_of_not_admits (h : ¬ s.Admits (.copy c)) : execCopy c s = .next (s.raise .illegalCommand) := by
  unfold execCopy
  rcases hd : (s.slot? c).bind Slot.digest? with _ | d
  · exact State.onSlot_none hd
  · obtain ⟨sl, hs, hsl⟩ := Option.bind_eq_some_iff.mp hd
    rw [State.onSlot_some hd]
    split
    case h_1 alg dg hdigest =>
      obtain ⟨src, hsrc, hdg⟩ := Option.bind_eq_some_iff.mp hdigest
      refine State.guard_neg (fun halg => h fun c' hc' => ?_) _ _
      cases hc'
      refine ⟨sl, hs, Slot.alg_mem_of_digest? hsl, src, hsrc, ?_⟩
      rw [Slot.digest?_eq hsl, Slot.digest?_eq hdg, ← halg]
      rfl
    case h_2 => rfl

theorem exec_of_not_admits (h : ¬ s.Admits i) : exec i s = .next (s.raise .illegalCommand) := by
  cases i with
  | cfg => exact State.onSlot_of_not_admits h rfl (fun _ => trivial) Slot.some_eq_none
  | copy => exact execCopy_of_not_admits h
  | gbs => exact State.onSlot_of_not_admits h rfl (fun _ => trivial) Slot.blockSize?_eq_none
  | gms => exact State.onSlot_of_not_admits h rfl (fun _ => trivial) Slot.macSize?_eq_none
  | aesInit | aesPblk | aesReset =>
    exact State.onSlot_of_not_admits h rfl (fun _ => trivial) Slot.aes?_eq_none
  | gds | gbl | dgUpd | dgUpds | dgFinal | dgReset =>
    exact State.onSlot_of_not_admits h rfl (fun _ => trivial) Slot.digest?_eq_none
  | hmInit | hmUpd | hmUpds | hmFinal | hmReset =>
    exact State.onSlot_of_not_admits h rfl (fun _ => trivial) Slot.hmac?_eq_none
  | bufInit | bufPbyte | bufPbytes | bufFinal | bufReset | bufGos | bufGuos =>
    exact State.onSlot_of_not_admits h rfl (fun _ => trivial) Slot.buf?_eq_none
  | cbcInit | cbcPblk | cbcReset =>
    exact State.onSlot_of_not_admits h rfl (fun _ => trivial) Slot.cbc?_eq_none
  | ctrInit | ctrPblk | ctrPbyte | ctrPbytes | ctrReset | ctrSkip | ctrSeek | ctrGpos =>
    exact State.onSlot_of_not_admits h rfl (fun _ => trivial) Slot.ctr?_eq_none
  | gcmInit | gcmAad | gcmAads | gcmPbyte | gcmPbytes | gcmFinal | gcmGmac | gcmReset | gcmGos | gcmGuos =>
    exact State.onSlot_of_not_admits h rfl (fun _ => trivial) Slot.gcm?_eq_none
  | ccmInit | ccmAad | ccmAads | ccmPbyte | ccmPbytes | ccmFinal | ccmPpkt | ccmGmac | ccmReset | ccmGos | ccmGuos =>
    exact State.onSlot_of_not_admits h rfl (fun _ => trivial) Slot.ccm?_eq_none
  | cmacInit | cmacUpd | cmacUpds | cmacFinal | cmacReset =>
    exact State.onSlot_of_not_admits h rfl (fun _ => trivial) Slot.cmac?_eq_none
  | _ => exact absurd (fun _ hc => nomatch hc) h

end Sys2Proof.Machine
end

section
/-! The obligations about the encoding (30_encoding.md). -/

namespace Sys2Proof.Proofs

open Sys2Proof Sys2Proof.Machine

/-- Settles O4: CTX, A and B of a command's word are read back by the shape of its row. -/
theorem decodeInvertsEncode : Obligations.DecodeInvertsEncode := fun _ h => decodeWord_encode h

/-- Settles O5: each row of R115 decodes to commands that have the row's OPC and the word's own fields. -/
theorem encodeInvertsDecode : Obligations.EncodeInvertsDecode :=
  fun _ _ h => ⟨decodeWord_wf h, encode_of_decodeWord h⟩

/-- Settles O6: a word that decodes meets none of R117's items, and one that does not decode raises. -/
theorem reservedWordsAreIllegal : Obligations.ReservedWordsAreIllegal := by
  intro s p hp hres
  cases hd : decodeWord p.word with
  | ok i => exact absurd hres (not_reservedWord_of_decoded hd)
  | error e => exact ⟨_, engineStep_of_illegal hp hd, s.precise_raise _⟩

/-- Settles O7: every command but the context-free ones, which are always admitted, asks its family's selector first,
and COPY its source too. -/
theorem unadmittedSlotsAreIllegal : Obligations.UnadmittedSlotsAreIllegal :=
  fun _ s h => ⟨_, exec_of_not_admits h, s.precise_raise _⟩

/-- Settles O3: the decoder is run on each word. -/
theorem decodesTheSpecsExampleWords : Obligations.DecodesTheSpecsExampleWords :=
  ⟨rfl, rfl, rfl, rfl, rfl, rfl, rfl, rfl, rfl, rfl, ⟨_, rfl⟩, ⟨_, rfl⟩⟩

end Sys2Proof.Proofs
end

section
/-! SUPPORT. Slots a command does not name (40_context.md R142): they are not in its view, and its end leaves them. -/

namespace Sys2Proof.Machine

variable {i : Instr} {s : State} {c : Ctx} {j : Nat} {sl : Slot}

/-! ## A slot beside the ones a command names -/

theorem State.slots_withSlot_ne {n : Nat} (h : n ≠ j) (sl : Slot) : (s.withSlot j sl).slots[n]? = s.slots[n]? :=
  List.getElem?_set_ne h.symm

/-- A slot that is neither the command's own nor COPY's source is not in its view. -/
theorem SameView.withSlot (hctx : ∀ c, i.ctx? = some c → c.toNat ≠ j) (hsrc : ∀ c, i = .copy c → s.arg 0 ≠ j)
    (sl : Slot) : SameView i s (s.withSlot j sl) :=
  ⟨⟨s.args, s.slots.set j sl, s.mem, rfl⟩, fun c hc => State.slots_withSlot_ne (hctx c hc) sl,
    fun c hc => State.slots_withSlot_ne (hsrc c hc) sl, fun _ _ => rfl⟩

/-- Every command ends in one of the ways of `Ending`. -/
theorem exec_ending (i : Instr) (s : State) : ∃ e : Ending, exec i s = .next (e.apply i.ctx? s) := by
  have hview : SameView i s s := ⟨⟨s.args, s.slots, s.mem, rfl⟩, fun _ _ => rfl, fun _ _ => rfl, fun _ _ => rfl⟩
  obtain ⟨e, he, -⟩ := exec_sameEnding hview
  exact ⟨e, he⟩

/-! ## An ending and the slots it does not replace -/

theorem Ending.slots_apply_ne (e : Ending) {c : Option Ctx} (h : ∀ d, c = some d → d.toNat ≠ j) (s : State) :
    (e.apply c s).slots[j]? = s.slots[j]? := by
  show (s.putSlot c e.slot).slots[j]? = _
  unfold State.putSlot
  split
  · exact List.getElem?_set_ne (h _ rfl)
  · rfl

theorem State.putSlot_withSlot {c : Option Ctx} (h : ∀ d, c = some d → d.toNat ≠ j) (s : State) (sl : Slot)
    (own : Option Slot) : (s.withSlot j sl).putSlot c own = (s.putSlot c own).withSlot j sl := by
  unfold State.putSlot State.withSlot
  split
  · rw [List.set_comm _ _ (h _ rfl).symm]
  · rfl

theorem Ending.apply_withSlot (e : Ending) {c : Option Ctx} (h : ∀ d, c = some d → d.toNat ≠ j) (s : State)
    (sl : Slot) : e.apply c (s.withSlot j sl) = (e.apply c s).withSlot j sl := by
  unfold Ending.apply
  rw [State.putSlot_withSlot h]
  rfl

end Sys2Proof.Machine
end

section
/-! SUPPORT. CFG, COPY and the size queries (40_context.md R140 to R148): what each answers on a slot it takes. -/

namespace Sys2Proof.Machine

variable {s : State} {c : Ctx} {sl : Slot}

/-! ## CFG and COPY -/

theorem exec_cfg (hs : s.slot? c = some sl) (conf : AlgConf) :
    exec (.cfg c conf) s = .next ((s.setSlot c (freshSlot conf)).finish 0) :=
  State.onSlot_slot hs rfl

theorem exec_copy {alg : DigestAlg} {old src : Digest} (hs : s.slot? c = some (.digest alg old))
    (hsrc : s.slots[s.arg 0]? = some (.digest alg src)) :
    exec (.copy c) s = .next ((s.setSlot c (.digest alg src)).finish 0) := by
  show execCopy c s = _
  unfold execCopy
  rw [State.onSlot_digest hs, hsrc]
  exact State.guard_pos rfl _ _

theorem freshSlot_conf (conf : AlgConf) : (freshSlot conf).conf = conf := by
  cases conf <;> rfl

theorem freshSlot_alg (conf : AlgConf) : (freshSlot conf).alg = conf.algCode := by
  rw [Slot.alg, freshSlot_conf]

theorem freshSlot_opt (conf : AlgConf) : (freshSlot conf).opt = conf.optByte := by
  rw [Slot.opt, freshSlot_conf]

theorem freshSlot_history (conf : AlgConf) : (freshSlot conf).history = (none, none) := by
  cases conf <;> rfl

/-- Only a digest slot has its state from CFG on (R141). -/
theorem freshSlot_isKeyed (conf : AlgConf) : (freshSlot conf).isKeyed = true ↔ ∃ alg, conf = .digest alg := by
  cases conf <;> simp [freshSlot, Slot.isKeyed]

theorem freshSlot_isInit (conf : AlgConf) : (freshSlot conf).isInit = (freshSlot conf).isKeyed := by
  cases conf <;> rfl

theorem freshSlot_isEnc (conf : AlgConf) : (freshSlot conf).isEnc = false := by
  cases conf <;> rfl

/-! ## Size queries -/

/-- Every algorithm with a block size has 16 (R144). -/
theorem Slot.blockSize?_of_alg (h : sl.alg.toNat ∈ [1, 2, 3, 4, 5, 6, 7]) : sl.blockSize? = some 16 := by
  cases sl with
  | unconfigured => simp [Slot.alg, Slot.conf, AlgConf.algCode] at h
  | digest alg => cases alg <;> simp [Slot.alg, Slot.conf, AlgConf.algCode] at h
  | hmac => simp [Slot.alg, Slot.conf, AlgConf.algCode] at h
  | _ => rfl

theorem exec_gbs {n : Nat} (hs : s.slot? c = some sl) (hn : sl.blockSize? = some n) :
    exec (.gbs c) s = .next (s.finish (BitVec.ofNat 64 n)) :=
  State.onSlot_slot hs hn

theorem exec_gms {n : Nat} (hs : s.slot? c = some sl) (hn : sl.macSize? = some (some n)) :
    exec (.gms c) s = .next (s.finish (BitVec.ofNat 64 n)) :=
  State.onSlot_slot hs hn

theorem exec_gms_of_unkeyed (hs : s.slot? c = some sl) (hn : sl.macSize? = some none) :
    exec (.gms c) s = .next (s.raise .notInitialized) :=
  State.onSlot_slot hs hn

theorem exec_gds {alg : DigestAlg} {d : Digest} (hs : s.slot? c = some (.digest alg d)) :
    exec (.gds c) s = .next (s.finish (BitVec.ofNat 64 (digestSize alg))) :=
  State.onSlot_digest hs

theorem exec_gbl {alg : DigestAlg} {d : Digest} (hs : s.slot? c = some (.digest alg d)) :
    exec (.gbl c) s = .next (s.finish (BitVec.ofNat 64 digestBlockLen)) :=
  State.onSlot_digest hs

/-- RESULT holds the size as a word. -/
theorem ofNat_cmacSize (ms : BitVec 5) : BitVec.ofNat 64 (cmacSize ms) = if ms = 0 then 8 else ms.setWidth 64 := by
  unfold cmacSize
  split
  · rfl
  · exact BitVec.ofNat_toNat 64 ms

end Sys2Proof.Machine
end

section
/-! SUPPORT. RequireInit, InCheck and OutCheck (40_context.md R149, R151; 60_exceptions.md R503 steps 2 to 4): past
RegionCheck every command makes those of the three that its rule lists, in this order. -/

namespace Sys2Proof.Machine

open Host (Outcome)

variable {i : Instr} {s : State} {c : Ctx} {o : Outcome State Fault Refusal}

/-- InCheck passes where the rule lists it. -/
def State.InputFits (s : State) (i : Instr) : Prop := ∀ k, inputLen i s = some k → s.InFits k

/-- OutCheck passes where the rule lists it with a size known before any processing. -/
def State.OutputFits (s : State) (i : Instr) : Prop := ∀ m, outputLen i s = some m → s.OutFits m

/-- The outcome `o` is the error of the first of the three checks that fails, if one does. -/
structure ChecksInOrder (i : Instr) (s : State) (o : Outcome State Fault Refusal) : Prop where
  ready : ¬ s.Ready i → o = .next (s.raise .notInitialized)
  input : s.Ready i → ¬ s.InputFits i → o = .next (s.raise .dataTooShort)
  output : s.Ready i → s.InputFits i → ¬ s.OutputFits i → o = .next (s.raise .outputTooShort)

/-! ## Whether a slot is ready -/

theorem State.ready_of_needsNothing (hi : needsInit i = false) (hk : needsKeyed i = false) : s.Ready i :=
  fun _ _ _ _ => by simp [hi, hk]

theorem State.ready_iff {sl : Slot} (hc : i.ctx? = some c) (hs : s.slot? c = some sl) : s.Ready i ↔
    (needsInit i = true → sl.isInit = true) ∧ (needsKeyed i = true → sl.isKeyed = true) := by
  refine ⟨fun h => h c sl hc hs, fun h c' sl' hc' hs' => ?_⟩
  obtain rfl : c' = c := Option.some.inj (hc'.symm.trans hc)
  obtain rfl : sl' = sl := Option.some.inj (hs'.symm.trans hs)
  exact h

/-- For a command that lists RequireInit only. -/
theorem State.ready_iff_isInit {sl : Slot} (hs : s.slot? c = some sl) (hc : i.ctx? = some c)
    (hi : needsInit i = true) (hk : needsKeyed i = false) : s.Ready i ↔ sl.isInit = true := by
  simp [State.ready_iff hc hs, hi, hk]

/-- For a command that lists RequireKeyed only. -/
theorem State.ready_iff_isKeyed {sl : Slot} (hs : s.slot? c = some sl) (hc : i.ctx? = some c)
    (hi : needsInit i = false) (hk : needsKeyed i = true) : s.Ready i ↔ sl.isKeyed = true := by
  simp [State.ready_iff hc hs, hi, hk]

theorem State.ready_gcm {g : GcmSlot} (hs : s.slot? c = some (.gcm g)) (hc : i.ctx? = some c)
    (hi : needsInit i = true) (hk : needsKeyed i = false) : s.Ready i ↔ g.ready.isSome = true := by
  rw [State.ready_iff_isInit hs hc hi hk, GcmSlot.ready, Option.isSome_filter]
  rfl

theorem State.ready_ccm {g : CcmSlot} (hs : s.slot? c = some (.ccm g)) (hc : i.ctx? = some c)
    (hi : needsInit i = true) (hk : needsKeyed i = false) : s.Ready i ↔ g.ready.isSome = true := by
  rw [State.ready_iff_isInit hs hc hi hk, CcmSlot.ready, Option.isSome_filter]
  rfl

/-! ## The checks one after the other -/

namespace ChecksInOrder

/-- A command is past all three. -/
theorem pass (hr : s.Ready i) (hi : s.InputFits i) (ho : s.OutputFits i) : ChecksInOrder i s o :=
  ⟨absurd hr, fun _ => absurd hi, fun _ _ => absurd ho⟩

/-- A command whose rule lists none of the three. -/
theorem of_none (hi : needsInit i = false) (hk : needsKeyed i = false) (hin : inputLen i s = none)
    (hout : outputLen i s = none) : ChecksInOrder i s o :=
  .pass (State.ready_of_needsNothing hi hk) (by simp [State.InputFits, hin]) (by simp [State.OutputFits, hout])

/-- An admitted command's slot has its family's form. -/
theorem onSlot {α : Type} {sel : Slot → Option α} {form : α → Slot} {k : α → Outcome State Fault Refusal}
    (ha : s.Admits i) (hc : i.ctx? = some c) (hnone : ∀ {sl}, sel sl = none ↔ sl.alg ∉ admittedCodes i)
    (hform : ∀ {sl x}, sel sl = some x → sl = form x)
    (hk : ∀ x, s.slot? c = some (form x) → ChecksInOrder i s (k x)) : ChecksInOrder i s (s.onSlot c sel k) := by
  obtain ⟨sl, hs, hmem, -⟩ := ha c hc
  cases hx : sel sl with
  | none => exact absurd hmem (hnone.mp hx)
  | some x =>
    rw [State.onSlot_slot hs hx]
    exact hk x (hform hx ▸ hs)

/-- RegionCheck has passed. -/
theorem region {ok : Prop} [Decidable ok] {e : Err} (h : ok) (hk : ChecksInOrder i s o) :
    ChecksInOrder i s (s.guard ok e o) := by
  rwa [State.guard_pos h]

theorem require {α : Type} {key : Option α} {k : α → Outcome State Fault Refusal}
    (hr : s.Ready i ↔ key.isSome = true) (hk : ∀ x, key = some x → s.Ready i → ChecksInOrder i s (k x)) :
    ChecksInOrder i s (s.require key k) := by
  cases key with
  | none =>
    have hnot : ¬ s.Ready i := by simp [hr]
    exact ⟨fun _ => rfl, fun h => absurd h hnot, fun h => absurd h hnot⟩
  | some x => exact hk x rfl (hr.mpr rfl)

theorem inCheck {n : Nat} (hr : s.Ready i) (hn : inputLen i s = some n)
    (hk : s.InputFits i → ChecksInOrder i s o) : ChecksInOrder i s (s.guard (s.InFits n) .dataTooShort o) := by
  have hfits : s.InputFits i ↔ s.InFits n := by simp [State.InputFits, hn]
  by_cases h : s.InFits n
  · rw [State.guard_pos h]
    exact hk (hfits.mpr h)
  · rw [State.guard_neg h]
    exact ⟨absurd hr, fun _ _ => rfl, fun _ hi => absurd (hfits.mp hi) h⟩

theorem outCheck {m : Nat} (hr : s.Ready i) (hi : s.InputFits i) (hm : outputLen i s = some m) :
    ChecksInOrder i s (s.guard (s.OutFits m) .outputTooShort o) := by
  have hfits : s.OutputFits i ↔ s.OutFits m := by simp [State.OutputFits, hm]
  by_cases h : s.OutFits m
  · exact .pass hr hi (hfits.mpr h)
  · rw [State.guard_neg h]
    exact ⟨absurd hr, fun _ => absurd hi, fun _ _ _ => rfl⟩

end ChecksInOrder

/-! ## Every command -/

theorem exec_checksInOrder (ha : s.Admits i) (hin : s.AllInside (ranges i s)) : ChecksInOrder i s (exec i s) := by
  cases i with
  | aesPblk c =>
    exact .onSlot ha rfl Slot.aes?_eq_none Slot.aes?_eq fun _ hs => .region hin <|
      .require (State.ready_iff_isInit hs rfl rfl rfl) fun _ _ hr => .inCheck hr rfl fun hi => .outCheck hr hi rfl
  | cbcPblk c =>
    exact .onSlot ha rfl Slot.cbc?_eq_none Slot.cbc?_eq fun _ hs => .region hin <|
      .require (State.ready_iff_isInit hs rfl rfl rfl) fun _ _ hr => .inCheck hr rfl fun hi => .outCheck hr hi rfl
  | ctrPblk c | ctrPbytes c =>
    exact .onSlot ha rfl Slot.ctr?_eq_none Slot.ctr?_eq fun _ hs => .region hin <|
      .require (State.ready_iff_isInit hs rfl rfl rfl) fun _ _ hr => .inCheck hr rfl fun hi => .outCheck hr hi rfl
  | ctrPbyte c =>
    exact .onSlot ha rfl Slot.ctr?_eq_none Slot.ctr?_eq fun _ hs => .region hin <|
      .require (State.ready_iff_isInit hs rfl rfl rfl) fun _ _ hr => .outCheck hr nofun rfl
  | ctrSkip c | ctrSeek c | ctrGpos c =>
    exact .onSlot ha rfl Slot.ctr?_eq_none Slot.ctr?_eq fun _ hs =>
      .require (State.ready_iff_isInit hs rfl rfl rfl) fun _ _ hr => .pass hr nofun nofun
  | dgUpds c =>
    exact .onSlot ha rfl Slot.digest?_eq_none Slot.digest?_eq fun _ _ => .region hin <|
      .inCheck (State.ready_of_needsNothing rfl rfl) rfl fun hi =>
        .pass (State.ready_of_needsNothing rfl rfl) hi nofun
  | dgFinal c =>
    exact .onSlot ha rfl Slot.digest?_eq_none Slot.digest?_eq fun _ hs => .region hin <|
      .outCheck (State.ready_of_needsNothing rfl rfl) nofun (by simp [outputLen, hs, Slot.digest?])
  | hmUpd c =>
    exact .onSlot ha rfl Slot.hmac?_eq_none Slot.hmac?_eq fun _ hs =>
      .require (State.ready_iff_isInit hs rfl rfl rfl) fun _ _ hr => .pass hr nofun nofun
  | hmUpds c =>
    exact .onSlot ha rfl Slot.hmac?_eq_none Slot.hmac?_eq fun _ hs => .region hin <|
      .require (State.ready_iff_isInit hs rfl rfl rfl) fun _ _ hr => .inCheck hr rfl fun hi => .pass hr hi nofun
  | hmFinal c =>
    exact .onSlot ha rfl Slot.hmac?_eq_none Slot.hmac?_eq fun _ hs => .region hin <|
      .require (State.ready_iff_isInit hs rfl rfl rfl) fun _ _ hr =>
        .outCheck hr nofun (by simp [outputLen, hs, Slot.hmac?])
  | cmacUpd c =>
    exact .onSlot ha rfl Slot.cmac?_eq_none Slot.cmac?_eq fun _ hs =>
      .require (State.ready_iff_isInit hs rfl rfl rfl) fun _ _ hr => .pass hr nofun nofun
  | cmacUpds c =>
    exact .onSlot ha rfl Slot.cmac?_eq_none Slot.cmac?_eq fun _ hs => .region hin <|
      .require (State.ready_iff_isInit hs rfl rfl rfl) fun _ _ hr => .inCheck hr rfl fun hi => .pass hr hi nofun
  | cmacFinal c =>
    exact .onSlot ha rfl Slot.cmac?_eq_none Slot.cmac?_eq fun _ hs => .region hin <|
      .require (State.ready_iff_isInit hs rfl rfl rfl) fun _ _ hr =>
        .outCheck hr nofun (by simp [outputLen, hs, Slot.cmac?])
  | bufPbyte c =>
    exact .onSlot ha rfl Slot.buf?_eq_none Slot.buf?_eq fun _ hs => .region hin <|
      .require (State.ready_iff_isInit hs rfl rfl rfl) fun _ hk hr =>
        .outCheck hr nofun (by simp [outputLen, hs, Slot.buf?, hk])
  | bufPbytes c =>
    exact .onSlot ha rfl Slot.buf?_eq_none Slot.buf?_eq fun _ hs => .region hin <|
      .require (State.ready_iff_isInit hs rfl rfl rfl) fun _ hk hr => .inCheck hr rfl fun hi =>
        .outCheck hr hi (by simp [outputLen, hs, Slot.buf?, hk])
  | bufFinal c =>
    refine .onSlot ha rfl Slot.buf?_eq_none Slot.buf?_eq fun b hs => .region hin <|
      .require (State.ready_iff_isInit hs rfl rfl rfl) fun k hk hr => ?_
    split
    case h_1 hpad => exact .outCheck hr nofun (by simp [outputLen, hs, Slot.buf?, hk, hpad])
    case h_2 hpad henc => exact .outCheck hr nofun (by simp [outputLen, hs, Slot.buf?, hk, hpad, henc])
    case h_3 hpad henc =>
      exact .pass hr nofun (by simp [State.OutputFits, outputLen, hs, Slot.buf?, hk, hpad, henc])
  | bufGos c | bufGuos c =>
    exact .onSlot ha rfl Slot.buf?_eq_none Slot.buf?_eq fun _ hs =>
      .require (State.ready_iff_isInit hs rfl rfl rfl) fun _ _ hr => .pass hr nofun nofun
  | gcmAad c =>
    exact .onSlot ha rfl Slot.gcm?_eq_none Slot.gcm?_eq fun _ hs =>
      .require (State.ready_gcm hs rfl rfl rfl) fun _ _ hr => .pass hr nofun nofun
  | gcmAads c =>
    exact .onSlot ha rfl Slot.gcm?_eq_none Slot.gcm?_eq fun _ hs => .region hin <|
      .require (State.ready_gcm hs rfl rfl rfl) fun _ _ hr => .inCheck hr rfl fun hi => .pass hr hi nofun
  | gcmPbyte c =>
    exact .onSlot ha rfl Slot.gcm?_eq_none Slot.gcm?_eq fun _ hs => .region hin <|
      .require (State.ready_gcm hs rfl rfl rfl) fun _ hk hr =>
        .outCheck hr nofun (by simp [outputLen, hs, Slot.gcm?, (GcmSlot.ready_eq hk).1])
  | gcmPbytes c =>
    exact .onSlot ha rfl Slot.gcm?_eq_none Slot.gcm?_eq fun _ hs => .region hin <|
      .require (State.ready_gcm hs rfl rfl rfl) fun _ hk hr => .inCheck hr rfl fun hi =>
        .outCheck hr hi (by simp [outputLen, hs, Slot.gcm?, (GcmSlot.ready_eq hk).1])
  | gcmFinal c =>
    exact .onSlot ha rfl Slot.gcm?_eq_none Slot.gcm?_eq fun _ hs => .region hin <|
      .require (State.ready_gcm hs rfl rfl rfl) fun _ hk hr =>
        .outCheck hr nofun (by simp [outputLen, hs, Slot.gcm?, (GcmSlot.ready_eq hk).1, gcmOutputSize])
  | gcmGmac c =>
    exact .onSlot ha rfl Slot.gcm?_eq_none Slot.gcm?_eq fun _ hs => .region hin <|
      .require (State.ready_iff_isKeyed hs rfl rfl rfl) fun _ hk hr =>
        .outCheck hr nofun (by simp [outputLen, hs, Slot.gcm?, hk])
  | gcmGos c | gcmGuos c =>
    exact .onSlot ha rfl Slot.gcm?_eq_none Slot.gcm?_eq fun _ hs =>
      .require (State.ready_iff_isKeyed hs rfl rfl rfl) fun _ _ hr => .pass hr nofun nofun
  | ccmAad c | ccmPbyte c =>
    exact .onSlot ha rfl Slot.ccm?_eq_none Slot.ccm?_eq fun _ hs =>
      .require (State.ready_ccm hs rfl rfl rfl) fun _ _ hr => .pass hr nofun nofun
  | ccmAads c | ccmPbytes c =>
    exact .onSlot ha rfl Slot.ccm?_eq_none Slot.ccm?_eq fun _ hs => .region hin <|
      .require (State.ready_ccm hs rfl rfl rfl) fun _ _ hr => .inCheck hr rfl fun hi => .pass hr hi nofun
  | ccmFinal c =>
    exact .onSlot ha rfl Slot.ccm?_eq_none Slot.ccm?_eq fun _ hs => .region hin <|
      .require (State.ready_ccm hs rfl rfl rfl) fun _ hk hr =>
        .outCheck hr nofun (by simp [outputLen, hs, Slot.ccm?, (CcmSlot.ready_eq hk).1, ccmPacketSize])
  | ccmPpkt c =>
    exact .onSlot ha rfl Slot.ccm?_eq_none Slot.ccm?_eq fun _ hs => .region hin <|
      .require (State.ready_ccm hs rfl rfl rfl) fun _ hk hr => .inCheck hr rfl fun hi =>
        .outCheck hr hi (by simp [outputLen, hs, Slot.ccm?, (CcmSlot.ready_eq hk).1, ccmPacketSize])
  | ccmGmac c =>
    exact .onSlot ha rfl Slot.ccm?_eq_none Slot.ccm?_eq fun _ hs => .region hin <|
      .require (State.ready_iff_isKeyed hs rfl rfl rfl) fun _ hk hr =>
        .outCheck hr nofun (by simp [outputLen, hs, Slot.ccm?, hk])
  | ccmGos c | ccmGuos c =>
    exact .onSlot ha rfl Slot.ccm?_eq_none Slot.ccm?_eq fun _ hs =>
      .require (State.ready_iff_isKeyed hs rfl rfl rfl) fun _ _ hr => .pass hr nofun nofun
  | _ => exact .of_none rfl rfl rfl rfl

end Sys2Proof.Machine
end

section
/-! The obligations about the context commands and the rules over every command (40_context.md). -/

namespace Sys2Proof.Proofs

open Sys2Proof Sys2Proof.Machine

/-- Settles O18: another slot is not in the command's view, so the ending is the same; and an ending replaces at most
the command's own slot. -/
theorem slotsAreIndependent : Obligations.SlotsAreIndependent := by
  intro i s t j hctx ht
  refine ⟨?_, fun sl hsrc => ?_⟩
  · obtain ⟨e, he⟩ := exec_ending i s
    obtain rfl : t = e.apply i.ctx? s := Host.Outcome.next.inj (ht.symm.trans he)
    exact e.slots_apply_ne hctx s
  · obtain ⟨e, he, he'⟩ := exec_sameEnding (SameView.withSlot hctx hsrc sl)
    obtain rfl : t = e.apply i.ctx? s := Host.Outcome.next.inj (ht.symm.trans he)
    rw [he', e.apply_withSlot hctx]

/-- Settles O20: past RegionCheck every command makes those of the three checks that its rule lists, in order. -/
theorem checksFollowInOrder : Obligations.ChecksFollowInOrder := by
  refine ⟨fun i s ha hin hr => ⟨_, (exec_checksInOrder ha hin).ready hr, s.precise_raise _⟩,
    fun i s ha hin hr => ⟨fun k hk hlt => ?_, fun m hm hfits hne hlt => ?_⟩⟩
  · have hnot : ¬ s.InputFits i := fun h => absurd (h k hk) (by omega)
    exact ⟨_, (exec_checksInOrder ha hin).input hr hnot, s.precise_raise _⟩
  · have hnot : ¬ s.OutputFits i := fun h => absurd (h m hm) (by omega)
    exact ⟨_, (exec_checksInOrder ha hin).output hr hfits hnot, s.precise_raise _⟩

/-- Settles O24: CFG puts `freshSlot` of the configuration, and COPY the source's state. -/
theorem cfgAndCopySetTheSlot : Obligations.CfgAndCopySetTheSlot := by
  refine ⟨fun s c conf hlt => ?_, fun s d alg old src hd hsrc => ?_⟩
  · have hs : s.slot? c = some s.slots[c.toNat] := List.getElem?_eq_getElem hlt
    exact ⟨_, _, exec_cfg hs conf, s.updates_finish c _, freshSlot_alg conf, freshSlot_opt conf,
      freshSlot_history conf, freshSlot_isKeyed conf, freshSlot_isInit conf, freshSlot_isEnc conf,
      fun h => h ▸ rfl, fun h => h ▸ rfl, fun _ _ h => h ▸ rfl, fun _ _ h => h ▸ rfl, fun _ h => h ▸ rfl,
      fun _ h => h ▸ rfl⟩
  · refine ⟨_, exec_copy hd hsrc, s.updates_finish d _, fun hne => ?_⟩
    exact (List.getElem?_set_ne hne.symm).trans hsrc

/-- Settles O25: each query by its equation, with the size as a word. -/
theorem sizeQueriesAnswerTheSizes : Obligations.SizeQueriesAnswerTheSizes := by
  refine ⟨fun s c sl hs halg => ⟨_, exec_gbs hs (Slot.blockSize?_of_alg halg), s.answers_finish _⟩,
    fun s c g hs => ⟨fun k hk => ?_, fun hk => ?_⟩, fun s c g hs => ⟨fun k hk => ?_, fun hk => ?_⟩,
    fun s c ms pad key hs => ?_, fun s c dk key hs => ?_, fun s c alg d hs => ⟨?_, ?_⟩⟩
  · exact ⟨_, exec_gms hs (by rw [Slot.macSize?, hk]; rfl), s.answers_finish _⟩
  · exact ⟨_, exec_gms_of_unkeyed hs (by rw [Slot.macSize?, hk]; rfl), s.precise_raise _⟩
  · exact ⟨_, exec_gms hs (by rw [Slot.macSize?, hk]; rfl), s.answers_finish _⟩
  · exact ⟨_, exec_gms_of_unkeyed hs (by rw [Slot.macSize?, hk]; rfl), s.precise_raise _⟩
  · exact ⟨_, exec_gms hs rfl, ofNat_cmacSize ms ▸ s.answers_finish _⟩
  · exact ⟨_, exec_gms hs rfl, by cases dk <;> exact s.answers_finish _⟩
  · exact ⟨_, exec_gds hs, by cases alg <;> exact s.answers_finish _⟩
  · exact ⟨_, exec_gbl hs, s.answers_finish _⟩

end Sys2Proof.Proofs
end

section
/-! SUPPORT. Byte strings as numbers (00_scope.md R12): the bytes of a word are its 8-bit parts, and reading bytes back
as a number undoes writing it modulo its width. -/

namespace Sys2Proof.Machine

/-! ## The bytes of a number -/

theorem ofNat_div_pow_eq_extractLsb' {w : Nat} (v : BitVec w) (j : Nat) :
    BitVec.ofNat 8 (v.toNat / 256 ^ j) = v.extractLsb' (8 * j) 8 := by
  apply BitVec.eq_of_toNat_eq
  rw [BitVec.toNat_ofNat, BitVec.extractLsb'_toNat, Nat.shiftRight_eq_div_pow, Nat.pow_mul]

theorem beBytes_toNat {w : Nat} (n : Nat) (v : BitVec w) :
    beBytes n v.toNat = (List.range n).map fun i => v.extractLsb' (8 * (n - 1 - i)) 8 :=
  List.map_congr_left fun i _ => ofNat_div_pow_eq_extractLsb' v (n - 1 - i)

theorem beBytes_succ (n v : Nat) : beBytes (n + 1) v = beBytes n (v / 256) ++ [BitVec.ofNat 8 v] := by
  have hinit : ∀ i ∈ List.range n, v / 256 ^ (n - i) = v / 256 / 256 ^ (n - 1 - i) := fun i hi => by
    have := List.mem_range.mp hi
    rw [Nat.div_div_eq_div_mul, ← Nat.pow_succ', show (n - 1 - i).succ = n - i by omega]
  simp only [beBytes, List.range_succ, List.map_append, List.map_cons, List.map_nil, Nat.add_sub_cancel,
    Nat.sub_self, Nat.pow_zero, Nat.div_one]
  rw [List.map_congr_left fun i hi => congrArg (BitVec.ofNat 8) (hinit i hi)]

/-! ## The number of some bytes -/

theorem beInt_concat (bs : List Byte) (x : Byte) : beInt (bs ++ [x]) = 256 * beInt bs + x.toNat :=
  List.foldl_append

theorem beInt_lt (bs : List Byte) : beInt bs < 256 ^ bs.length := by
  induction bs using List.reverseRecOn with
  | nil => exact Nat.one_pos
  | append_singleton bs x ih =>
    have hx : x.toNat < 256 := x.isLt
    rw [beInt_concat, List.length_append, List.length_singleton, Nat.pow_succ]
    omega

theorem beInt_beBytes (n v : Nat) : beInt (beBytes n v) = v % 256 ^ n := by
  induction n generalizing v with
  | zero => exact (Nat.mod_one v).symm
  | succ n ih =>
    rw [beBytes_succ, beInt_concat, ih, BitVec.toNat_ofNat, pow_succ' 256 n, Nat.mod_mul, Nat.add_comm]

/-- One more byte at the low end of a word and of its byte string. -/
theorem beInt_concat_eq_toNat {w : Nat} {bs : List Byte} {v : BitVec w} (h : beInt bs = v.toNat) (x : Byte) :
    beInt (bs ++ [x]) = (v ++ x).toNat := by
  rw [beInt_concat, h, BitVec.toNat_append, ← Nat.shiftLeft_add_eq_or_of_lt x.isLt, Nat.shiftLeft_eq]
  omega

theorem beInt_two (a b : Byte) : beInt [a, b] = (a ++ b).toNat :=
  beInt_concat_eq_toNat (bs := [a]) (Nat.zero_add _) b

theorem beInt_four (a b c d : Byte) : beInt [a, b, c, d] = (a ++ b ++ c ++ d).toNat :=
  beInt_concat_eq_toNat (bs := [a, b, c]) (beInt_concat_eq_toNat (bs := [a, b]) (beInt_two a b) c) d

theorem beInt_eight (a b c d e f g h : Byte) :
    beInt [a, b, c, d, e, f, g, h] = (a ++ b ++ c ++ d ++ e ++ f ++ g ++ h).toNat :=
  beInt_concat_eq_toNat (bs := [a, b, c, d, e, f, g]) (beInt_concat_eq_toNat (bs := [a, b, c, d, e, f])
    (beInt_concat_eq_toNat (bs := [a, b, c, d, e]) (beInt_concat_eq_toNat (bs := [a, b, c, d])
      (beInt_four a b c d) e) f) g) h

/-! ## The two byte orders -/

/-- The order of the bytes a PACK command moves. -/
inductive ByteOrder where
  | be
  | le

/-- The other order. -/
def ByteOrder.rev : ByteOrder → ByteOrder
  | .be => .le
  | .le => .be

/-- What a store of the order writes. -/
def ByteOrder.bytes : ByteOrder → Nat → Nat → List Byte
  | .be => beBytes
  | .le => leBytes

/-- What a load of the order reads its bytes as. -/
def ByteOrder.val : ByteOrder → List Byte → Nat
  | .be => beInt
  | .le => leInt

variable (o : ByteOrder)

@[simp] theorem ByteOrder.length_bytes (n v : Nat) : (o.bytes n v).length = n := by
  cases o
  · exact length_beBytes n v
  · exact length_leBytes n v

theorem ByteOrder.val_lt (bs : List Byte) : o.val bs < 256 ^ bs.length := by
  cases o
  · exact beInt_lt bs
  · exact bs.length_reverse ▸ beInt_lt bs.reverse

theorem ByteOrder.val_bytes (n v : Nat) : o.val (o.bytes n v) = v % 256 ^ n := by
  cases o
  · exact beInt_beBytes n v
  · show beInt (beBytes n v).reverse.reverse = _
    rw [List.reverse_reverse, beInt_beBytes]

/-- Read in the other order, a number is byte-reversed. -/
theorem ByteOrder.val_rev_bytes (n v : Nat) : o.rev.val (o.bytes n v) = beInt (leBytes n v) := by
  cases o <;> rfl

end Sys2Proof.Machine
end

section
/-! SUPPORT. The PACK commands (41_bytepack.md R170 to R185): what a store and a load inside DMEM do, and what a load
gives after a store. -/

namespace Sys2Proof.Machine

variable {s t u : State} {n : Nat} {bs : List Byte} {val : List Byte → Nat} {r : Word64}

theorem Stores.finish {a : Nat} (h : Stores s t a bs) (r : Word64) : Stores s (t.finish r) a bs :=
  ⟨h.outside, h.bytes⟩

theorem packStore_stores (bs : List Byte) (hin : s.arg 0 + bs.length ≤ s.memSize) :
    ∃ t, packStore s bs.length bs = .next t ∧ Completes s t .ok 0 ∧ t.slots = s.slots ∧ t.draws = s.draws ∧
      Stores s t (s.arg 0) bs :=
  ⟨_, State.guard_pos hin _ _, ⟨⟨rfl, rfl, rfl, rfl, rfl, rfl⟩, rfl, rfl, rfl, rfl, rfl, rfl⟩, rfl, rfl,
    (s.stores_memWrite (s.arg 0) bs).finish 0⟩

theorem packLoad_of_inside (hin : s.arg 0 + n ≤ s.memSize) (val : List Byte → Nat) :
    packLoad s n val = .next (s.finish (BitVec.ofNat 64 (val (s.memRead (s.arg 0) n)))) := State.guard_pos hin _ _

/-- A load whose bytes are those of a word: RESULT is the word, zero-extended. -/
theorem packLoad_answers {w : Nat} {v : BitVec w} (hin : s.arg 0 + n ≤ s.memSize)
    (hv : val (s.memRead (s.arg 0) n) = v.toNat) (hr : v.setWidth 64 = r) :
    ∃ t, packLoad s n val = .next t ∧ Answers s t r := by
  refine ⟨_, packLoad_of_inside hin val, ?_⟩
  rw [hv, BitVec.ofNat_toNat, hr]
  exact s.answers_finish r

/-- A store that raised nothing was inside DMEM, and wrote its bytes. -/
theorem eq_of_packStore_ok (h : packStore s n bs = .next t) (hok : t.err = .ok) :
    s.arg 0 + n ≤ s.memSize ∧ t = (s.memWrite (s.arg 0) bs).finish 0 := by
  obtain ⟨hin, hnext⟩ | ⟨-, rfl⟩ := State.guard_next h
  · exact ⟨hin, (Host.Outcome.next.inj hnext).symm⟩
  · cases hok

/-- A load of bytes whose value fits RESULT. -/
theorem packLoad_result (hin : u.arg 0 + n ≤ u.memSize) (hread : u.memRead (u.arg 0) n = bs)
    (hfits : val bs < 2 ^ 64) :
    ∃ w, packLoad u n val = .next w ∧ w.err = .ok ∧ w.result.toNat = val bs ∧ SameDmem u w := by
  refine ⟨_, packLoad_of_inside hin val, rfl, ?_, fun _ => rfl⟩
  rw [hread]
  exact (BitVec.toNat_ofNat _ _).trans (Nat.mod_eq_of_lt hfits)

/-- A load in either order from where a store has written. -/
theorem packLoad_after_packStore (h : packStore s n bs = .next t) (hok : t.err = .ok) (hlen : bs.length = n)
    (hn : n ≤ 8) (hmem : u.mem = t.mem) (hparams : u.params = t.params) (harg : u.arg 0 = s.arg 0) (o : ByteOrder) :
    ∃ w, packLoad u n o.val = .next w ∧ w.err = .ok ∧ w.result.toNat = o.val bs ∧ SameDmem u w := by
  obtain ⟨hin, rfl⟩ := eq_of_packStore_ok h hok
  subst hlen
  have hsize : u.memSize = s.memSize := State.memSize_congr hparams
  have hread : u.memRead (u.arg 0) bs.length = bs := by
    rw [State.memRead, hmem, harg]
    exact s.mem.readBytes_writeBytes (s.arg 0) bs
  have hfits : o.val bs < 2 ^ 64 := calc
    o.val bs < 256 ^ bs.length := o.val_lt bs
    _ ≤ 256 ^ 8 := Nat.pow_le_pow_right (by decide) hn
    _ = 2 ^ 64 := by decide
  exact packLoad_result (by rwa [harg, hsize]) hread hfits

end Sys2Proof.Machine
end

section
/-! The obligations about the PACK commands (41_bytepack.md). -/

namespace Sys2Proof.Proofs

open Sys2Proof Sys2Proof.Machine

/-- Settles O26: the bytes of ARG1 are its 8-bit parts, and the bytes read are the parts of the value loaded. -/
theorem packCommandsMoveTheBytes : Obligations.PackCommandsMoveTheBytes := by
  refine ⟨fun s i bs => ?_, fun s i n v => ?_⟩
  · intro w b hi hin
    have hexec : exec i s = packStore s bs.length bs := by
      have hbe (n : Nat) := beBytes_toNat n w
      have hle (n : Nat) := congrArg List.reverse (hbe n)
      rcases hi with ⟨rfl, rfl⟩ | ⟨rfl, rfl⟩ | ⟨rfl, rfl⟩ | ⟨rfl, rfl⟩ | ⟨rfl, rfl⟩ | ⟨rfl, rfl⟩
      · exact congrArg (packStore s 2) (hbe 2)
      · exact congrArg (packStore s 2) (hle 2)
      · exact congrArg (packStore s 4) (hbe 4)
      · exact congrArg (packStore s 4) (hle 4)
      · exact congrArg (packStore s 8) (hbe 8)
      · exact congrArg (packStore s 8) (hle 8)
    exact hexec ▸ packStore_stores bs hin
  · intro b hi hin
    rcases hi with ⟨rfl, rfl, rfl⟩ | ⟨rfl, rfl, rfl⟩ | ⟨rfl, rfl, rfl⟩ | ⟨rfl, rfl, rfl⟩ | ⟨rfl, rfl, rfl⟩ |
      ⟨rfl, rfl, rfl⟩
    · exact packLoad_answers hin (beInt_two (b 0) (b 1)) rfl
    · exact packLoad_answers hin (beInt_two (b 1) (b 0)) rfl
    · exact packLoad_answers hin (beInt_four (b 0) (b 1) (b 2) (b 3)) rfl
    · exact packLoad_answers hin (beInt_four (b 3) (b 2) (b 1) (b 0)) rfl
    · exact packLoad_answers hin (beInt_eight (b 0) (b 1) (b 2) (b 3) (b 4) (b 5) (b 6) (b 7))
        (BitVec.setWidth_eq _)
    · exact packLoad_answers hin (beInt_eight (b 7) (b 6) (b 5) (b 4) (b 3) (b 2) (b 1) (b 0))
        (BitVec.setWidth_eq _)

/-- Settles O27: the bytes a store left are read back in either order. -/
theorem packLoadsInvertStores : Obligations.PackLoadsInvertStores := by
  intro st ld ldRev n s t u h ht hok hmem hparams harg
  obtain ⟨o, hst, hld, hrev, hn⟩ : ∃ o : ByteOrder, exec st s = packStore s n (o.bytes n (s.arg 1)) ∧
      exec ld u = packLoad u n o.val ∧ exec ldRev u = packLoad u n o.rev.val ∧ n ≤ 8 := by
    rcases h with ⟨rfl, rfl, rfl, rfl⟩ | ⟨rfl, rfl, rfl, rfl⟩ | ⟨rfl, rfl, rfl, rfl⟩ | ⟨rfl, rfl, rfl, rfl⟩ |
      ⟨rfl, rfl, rfl, rfl⟩ | ⟨rfl, rfl, rfl, rfl⟩
    · exact ⟨.be, rfl, rfl, rfl, by decide⟩
    · exact ⟨.le, rfl, rfl, rfl, by decide⟩
    · exact ⟨.be, rfl, rfl, rfl, by decide⟩
    · exact ⟨.le, rfl, rfl, rfl, by decide⟩
    · exact ⟨.be, rfl, rfl, rfl, by decide⟩
    · exact ⟨.le, rfl, rfl, rfl, by decide⟩
  have hlen := o.length_bytes n (s.arg 1)
  have hstore := hst.symm.trans ht
  have hafter := packLoad_after_packStore hstore hok hlen hn hmem hparams harg
  refine ⟨?_, ?_, ?_⟩
  · obtain ⟨-, rfl⟩ := eq_of_packStore_ok hstore hok
    have houtside := ((s.stores_memWrite (s.arg 0) (o.bytes n (s.arg 1))).finish 0).outside
    rwa [hlen] at houtside
  · rw [hld, ← o.val_bytes]
    exact hafter o
  · rw [hrev, ← o.val_rev_bytes]
    exact hafter o.rev

end Sys2Proof.Proofs
end

section
/-! SUPPORT. Blocks byte by byte (00_scope.md R12): a block is fixed by its sixteen bytes, and `blockFn f` has the
bytes `f 0 .. f 15`. -/

namespace Sys2Proof.Machine

theorem beBytes_beInt (bs : List Byte) : beBytes bs.length (beInt bs) = bs := by
  induction bs using List.reverseRecOn with
  | nil => rfl
  | append_singleton bs x ih =>
    have hx : x.toNat < 256 := x.isLt
    have hinit : (256 * beInt bs + x.toNat) / 256 = beInt bs := by omega
    have hlast : BitVec.ofNat 8 (256 * beInt bs + x.toNat) = x :=
      BitVec.eq_of_toNat_eq (by rw [BitVec.toNat_ofNat]; omega)
    rw [List.length_append, List.length_singleton, beInt_concat, beBytes_succ, hinit, hlast, ih]

theorem byteAt_of_lt (x : Block) {i : Nat} (hi : i < 16) : byteAt x i = x.extractLsb' (8 * (15 - i)) 8 := by
  rw [byteAt, if_pos (by omega), show 128 - 8 * (i + 1) = 8 * (15 - i) by omega]

theorem toBytes_eq_beBytes (x : Block) : toBytes x = beBytes 16 x.toNat := by
  rw [beBytes_toNat]
  exact List.map_congr_left fun i hi => byteAt_of_lt x (List.mem_range.mp hi)

theorem toNat_blockOf {bs : List Byte} (h : bs.length = 16) : (blockOf bs).toNat = beInt bs := by
  have hlt : beInt bs < 2 ^ 128 := calc
    beInt bs < 256 ^ bs.length := beInt_lt bs
    _ = 2 ^ 128 := by rw [h]; decide
  rw [blockOf, List.take_left' h, BitVec.toNat_ofNat, Nat.mod_eq_of_lt hlt]

theorem toBytes_blockOf {bs : List Byte} (h : bs.length = 16) : toBytes (blockOf bs) = bs := by
  rw [toBytes_eq_beBytes, toNat_blockOf h, ← h, beBytes_beInt]

theorem blockOf_toBytes (x : Block) : blockOf (toBytes x) = x := by
  apply BitVec.eq_of_toNat_eq
  rw [toNat_blockOf (length_toBytes x), toBytes_eq_beBytes, beInt_beBytes]
  exact Nat.mod_eq_of_lt x.isLt

theorem byteAt_blockFn (f : Nat → Byte) {i : Nat} (hi : i < 16) : byteAt (blockFn f) i = f i := by
  have hbytes : toBytes (blockFn f) = (List.range 16).map f := toBytes_blockOf (by simp)
  exact List.map_inj_left.mp hbytes i (List.mem_range.mpr hi)

theorem byteAt_xor (x y : Block) {i : Nat} (hi : i < 16) : byteAt (x ^^^ y) i = byteAt x i ^^^ byteAt y i := by
  rw [byteAt_of_lt _ hi, byteAt_of_lt _ hi, byteAt_of_lt _ hi, BitVec.extractLsb'_xor]

theorem block_ext {x y : Block} (h : ∀ i < 16, byteAt x i = byteAt y i) : x = y := by
  have hbytes : toBytes x = toBytes y := List.map_congr_left fun i hi => h i (List.mem_range.mp hi)
  rw [← blockOf_toBytes x, hbytes, blockOf_toBytes]

end Sys2Proof.Machine
end

section
/-! SUPPORT. The AES rounds cell by cell (42_aes.md R194 to R197): multiplication in GF(2^8) is additive, and each
inverse transformation undoes its transformation. -/

namespace Sys2Proof.Machine

/-! ## GF(2^8) (R194) -/

theorem xtime_xor (a b : Byte) : xtime (a ^^^ b) = xtime a ^^^ xtime b := by
  have hcarry : (if (a ^^^ b).getLsbD 7 then (0x1B : Byte) else 0) =
      (if a.getLsbD 7 then 0x1B else 0) ^^^ (if b.getLsbD 7 then 0x1B else 0) := by
    rw [BitVec.getLsbD_xor]
    cases a.getLsbD 7 <;> cases b.getLsbD 7 <;> rfl
  rw [xtime, hcarry, BitVec.shiftLeft_xor_distrib, xtime, xtime]
  ac_rfl

theorem xtimes_xor (n : Nat) (a b : Byte) : xtimes n (a ^^^ b) = xtimes n a ^^^ xtimes n b := by
  induction n generalizing a b with
  | zero => rfl
  | succ n ih => rw [xtimes, xtime_xor, ih, xtimes, xtimes]

/-- Two folds whose steps add up. -/
theorem foldl_xor {f g h : Byte → Nat → Byte} (hstep : ∀ u v i, f (u ^^^ v) i = g u i ^^^ h v i) (is : List Nat)
    (u v : Byte) : is.foldl f (u ^^^ v) = is.foldl g u ^^^ is.foldl h v := by
  induction is generalizing u v with
  | nil => rfl
  | cons i is ih => rw [List.foldl_cons, hstep, ih, List.foldl_cons, List.foldl_cons]

theorem gfMul_xor (a b c : Byte) : gfMul a (b ^^^ c) = gfMul a b ^^^ gfMul a c :=
  foldl_xor (fun u v i => by
    split
    · rw [xtimes_xor]
      ac_rfl
    · rfl) (List.range 8) 0 0

/-! ## The state as four columns of four rows (R196) -/

/-- `s[r][c]`. -/
def cell (s : Block) (r c : Fin 4) : Byte := byteAt s (r + 4 * c)

theorem cell_ext {x y : Block} (h : ∀ r c, cell x r c = cell y r c) : x = y :=
  block_ext fun i hi => by
    have hcell := h ⟨i % 4, by omega⟩ ⟨i / 4, by omega⟩
    rwa [cell, cell, Nat.mod_add_div] at hcell

theorem cell_blockFn (f : Nat → Byte) (r c : Fin 4) : cell (blockFn f) r c = f (r + 4 * c) :=
  byteAt_blockFn f (by omega)

@[simp] theorem cell_xor (x y : Block) (r c : Fin 4) : cell (x ^^^ y) r c = cell x r c ^^^ cell y r c :=
  byteAt_xor x y (by omega)

@[simp] theorem cell_subBytes (s : Block) (r c : Fin 4) : cell (subBytes s) r c = sbox (cell s r c) :=
  cell_blockFn _ r c

@[simp] theorem cell_invSubBytes (s : Block) (r c : Fin 4) : cell (invSubBytes s) r c = invSbox (cell s r c) :=
  cell_blockFn _ r c

@[simp] theorem cell_shiftRows (s : Block) (r c : Fin 4) : cell (shiftRows s) r c = cell s r (c + r) := by
  rw [shiftRows, cell_blockFn, cell, Fin.val_add]
  congr 1
  omega

@[simp] theorem cell_invShiftRows (s : Block) (r c : Fin 4) : cell (invShiftRows s) r c = cell s r (c - r) := by
  rw [invShiftRows, cell_blockFn, cell, Fin.val_sub]
  congr 1
  omega

/-- R197: row r of the new column is the sum over k of `coef[(k - r) mod 4] • s[k][c]`. -/
theorem cell_mixWith (coef : Nat → Byte) (s : Block) (r c : Fin 4) : cell (mixWith coef s) r c =
    gfMul (coef ((0 + 4 - r) % 4)) (cell s 0 c) ^^^ gfMul (coef ((1 + 4 - r) % 4)) (cell s 1 c) ^^^
    gfMul (coef ((2 + 4 - r) % 4)) (cell s 2 c) ^^^ gfMul (coef ((3 + 4 - r) % 4)) (cell s 3 c) := by
  have hrow : (r + 4 * c) % 4 = (r : Nat) := by omega
  have hcol : (r + 4 * c) / 4 = (c : Nat) := by omega
  have hcell (k : Fin 4) : byteAt s (4 * c + k) = cell s k c := congrArg (byteAt s) (Nat.add_comm _ _)
  rw [mixWith, cell_blockFn, hrow, hcol, ← hcell 0, ← hcell 1, ← hcell 2, ← hcell 3]
  rfl

/-! ## The inverse transformations (R196, R197) -/

theorem invShiftRows_invSubBytes (s : Block) : invShiftRows (invSubBytes (shiftRows (subBytes s))) = s :=
  cell_ext fun r c => by simp [invSbox_sbox]

theorem mixWith_xor (coef : Nat → Byte) (x y : Block) : mixWith coef (x ^^^ y) = mixWith coef x ^^^ mixWith coef y :=
  cell_ext fun r c => by
    simp only [cell_mixWith, cell_xor, gfMul_xor]
    ac_rfl

theorem gfMul_mixCoef (b : Byte) : gfMul (mixCoef 0) b = xtime b ∧ gfMul (mixCoef 1) b = b ^^^ xtime b ∧
    gfMul (mixCoef 2) b = b ∧ gfMul (mixCoef 3) b = b := by
  simp [mixCoef, byteAt, gfMul, List.range_succ, xtimes]

theorem gfMul_invMixCoef (b : Byte) :
    gfMul (invMixCoef 0) b = xtime b ^^^ xtime (xtime b) ^^^ xtime (xtime (xtime b)) ∧
    gfMul (invMixCoef 1) b = b ^^^ xtime b ^^^ xtime (xtime (xtime b)) ∧
    gfMul (invMixCoef 2) b = b ^^^ xtime (xtime b) ^^^ xtime (xtime (xtime b)) ∧
    gfMul (invMixCoef 3) b = b ^^^ xtime (xtime (xtime b)) := by
  simp [invMixCoef, byteAt, gfMul, List.range_succ, xtimes]

/-- Entry (r, l) of InvMixColumns' matrix times MixColumns', applied to a byte. -/
def mixEntry (r l : Fin 4) (b : Byte) : Byte :=
  gfMul (invMixCoef ((0 + 4 - r) % 4)) (gfMul (mixCoef ((l + 4 - 0) % 4)) b) ^^^
  gfMul (invMixCoef ((1 + 4 - r) % 4)) (gfMul (mixCoef ((l + 4 - 1) % 4)) b) ^^^
  gfMul (invMixCoef ((2 + 4 - r) % 4)) (gfMul (mixCoef ((l + 4 - 2) % 4)) b) ^^^
  gfMul (invMixCoef ((3 + 4 - r) % 4)) (gfMul (mixCoef ((l + 4 - 3) % 4)) b)

/-- The product of the two matrices is the identity: as polynomials in `xtime` its entries are 1 and 0. -/
theorem mixEntry_eq (r l : Fin 4) (b : Byte) : mixEntry r l b = if l = r then b else 0 := by
  have hleft (u v w : Byte) : u ^^^ (v ^^^ w) = v ^^^ (u ^^^ w) := by ac_rfl
  fin_cases r <;> fin_cases l <;>
    simp [mixEntry, gfMul_mixCoef, gfMul_invMixCoef, xtime_xor, BitVec.xor_assoc, BitVec.xor_comm, hleft]

theorem invMixColumns_mixColumns (s : Block) : invMixColumns (mixColumns s) = s :=
  cell_ext fun r c => calc
    cell (invMixColumns (mixColumns s)) r c = mixEntry r 0 (cell s 0 c) ^^^ mixEntry r 1 (cell s 1 c) ^^^
        mixEntry r 2 (cell s 2 c) ^^^ mixEntry r 3 (cell s 3 c) := by
      simp only [invMixColumns, mixColumns, cell_mixWith, gfMul_xor, mixEntry]
      ac_rfl
    _ = cell s r c := by
      simp only [mixEntry_eq]
      fin_cases r <;> simp

end Sys2Proof.Machine
end

section
/-! SUPPORT. The cipher and the inverse cipher (42_aes.md R199, R200) on the round keys of one schedule. -/

namespace Sys2Proof.Machine

/-- One round of the cipher with all four transformations (R199). -/
def encRound (s k : Block) : Block := mixColumns (shiftRows (subBytes s)) ^^^ k

/-- One round of the inverse cipher with all four transformations (R200). -/
def decRound (s k : Block) : Block := invMixColumns (invShiftRows (invSubBytes s)) ^^^ k

theorem encRounds_concat (ks : List Block) (k s : Block) :
    encRounds (ks ++ [k]) s = shiftRows (subBytes (ks.foldl encRound s)) ^^^ k := by
  induction ks generalizing s with
  | nil => rfl
  | cons k' ks ih =>
    rw [List.foldl_cons, ← ih, List.cons_append, encRounds]
    · rfl
    · simp

theorem decRounds_concat (ks : List Block) (k s : Block) :
    decRounds (ks ++ [k]) s = invShiftRows (invSubBytes (ks.foldl decRound s)) ^^^ k := by
  induction ks generalizing s with
  | nil => rfl
  | cons k' ks ih =>
    rw [List.foldl_cons, ← ih, List.cons_append, decRounds]
    · rfl
    · simp

theorem invMixColumns_xor (x y : Block) : invMixColumns (x ^^^ y) = invMixColumns x ^^^ invMixColumns y :=
  mixWith_xor invMixCoef x y

/-- A round of the inverse cipher undoes a round of the cipher: what went into MixColumns comes out again. -/
theorem decRound_encRound (s k : Block) : decRound (shiftRows (subBytes (encRound s k))) (invMixColumns k) =
    shiftRows (subBytes s) := by
  rw [decRound, invShiftRows_invSubBytes, encRound, invMixColumns_xor, invMixColumns_mixColumns, xor_cancel_right]

/-- The rounds of the inverse cipher, with the keys transformed and in reverse, undo those of the cipher. -/
theorem foldl_decRound_foldl_encRound (ks : List Block) (s : Block) :
    (ks.map invMixColumns).reverse.foldl decRound (shiftRows (subBytes (ks.foldl encRound s))) =
      shiftRows (subBytes s) := by
  induction ks generalizing s with
  | nil => rfl
  | cons k ks ih =>
    simp only [List.map_cons, List.reverse_cons, List.foldl_append, List.foldl_cons, List.foldl_nil, ih,
      decRound_encRound]

/-- R202: the first and the last round key are kept, those between go through InvMixColumns. -/
theorem decKeys_eq (k₀ kₙ : Block) (ks : List Block) :
    decKeys (k₀ :: (ks ++ [kₙ])) = k₀ :: (ks.map invMixColumns ++ [kₙ]) := by
  refine List.ext_getElem (by simp) fun r hr _ => ?_
  have hlen : (k₀ :: (ks ++ [kₙ])).length = ks.length + 2 := by simp
  rw [length_decKeys, hlen] at hr
  simp only [decKeys, List.getElem_map, List.getElem_range, hlen]
  cases r with
  | zero => rfl
  | succ j =>
    obtain hlt | rfl : j < ks.length ∨ j = ks.length := by omega
    · rw [if_neg (by omega)]
      simp [hlt, List.getElem?_append_left]
    · simp

/-- R206 for any schedule of at least two round keys. -/
theorem aesD_decKeys_aesE {rk : List Block} (h : 2 ≤ rk.length) (x : Block) : aesD (decKeys rk) (aesE rk x) = x := by
  obtain ⟨k₀, rest, rfl⟩ : ∃ k₀ rest, rk = k₀ :: rest := List.exists_cons_of_length_pos (by omega)
  have hne : rest ≠ [] := fun hnil => by simp [hnil] at h
  obtain ⟨ks, kₙ, rfl⟩ : ∃ ks kₙ, rest = ks ++ [kₙ] := ⟨_, _, (List.dropLast_concat_getLast hne).symm⟩
  have hrev : (k₀ :: (ks.map invMixColumns ++ [kₙ])).reverse = kₙ :: ((ks.map invMixColumns).reverse ++ [k₀]) := by
    simp
  rw [decKeys_eq, aesD, hrev, aesE]
  simp only [encRounds_concat, xor_cancel_right, decRounds_concat, foldl_decRound_foldl_encRound,
    invShiftRows_invSubBytes]

/-- On the finite type of blocks a left inverse is a right inverse. -/
theorem aesE_aesD_decKeys {rk : List Block} (h : 2 ≤ rk.length) (x : Block) : aesE rk (aesD (decKeys rk) x) = x :=
  Function.LeftInverse.rightInverse_of_card_le (fun x => aesD_decKeys_aesE h x) le_rfl x

end Sys2Proof.Machine
end

section
/-! SUPPORT. What an INIT raises (60_exceptions.md R503): each of its checks read as a rule, and the key lengths that
pass AESLoad (42_aes.md R202). -/

namespace Sys2Proof.Machine

open Host (Outcome)

variable {s : State} {e e' : Err} {o : Outcome State Fault Refusal} {α : Type}

namespace Raises

theorem onSlot {c : Ctx} {sel : Slot → Option α} {k : α → Outcome State Fault Refusal} {sl : Slot} {x : α}
    (hs : s.slot? c = some sl) (hx : sel sl = some x) (hk : Raises (k x) e) : Raises (s.onSlot c sel k) e := by
  rwa [State.onSlot_slot hs hx]

/-- A check that passes. -/
theorem pass {ok : Prop} [Decidable ok] (h : ok) (ho : Raises o e) : Raises (s.guard ok e' o) e := by
  rwa [State.guard_pos h]

/-- A check of the error in question: it fails, or what follows it raises the same error. -/
theorem check {ok : Prop} [Decidable ok] (ho : ok → Raises o e) : Raises (s.guard ok e o) e :=
  EndsIn.guard ho fun _ => rfl

/-- A check of the error in question that fails. -/
theorem fail {ok : Prop} [Decidable ok] (h : ¬ ok) : Raises (s.guard ok e o) e := check fun hok => absurd hok h

/-- AESLoad of a key with a length AES takes. -/
theorem loadKey {f : State} {d : Dir} {k : AesKey → Outcome State Fault Refusal} (h : AesLen (s.arg 1))
    (hk : Raises (k (keySchedule s.keyBytes d)) e) : Raises (f.loadKey (aesLoad s.keyBytes d) k) e := by
  rwa [aesLoad_of_aesLen (s.length_keyBytes.symm ▸ h)]

/-- AESLoad of a key with another length. -/
theorem badKey {f : State} {d : Dir} {k : AesKey → Outcome State Fault Refusal} (h : ¬ AesLen (s.arg 1)) :
    Raises (f.loadKey (aesLoad s.keyBytes d) k) .invalidParameter := by
  rw [aesLoad_of_not_aesLen (s.length_keyBytes.symm ▸ h)]
  exact ⟨_, rfl, rfl⟩

end Raises

/-! ## GCM.INIT and CCM.INIT, check by check -/

theorem gcmMacBits_iff {n : Nat} : GcmMacBits n ↔ n ∈ [32, 64, 96, 128] := by simp

theorem ccmMacBits_iff {n : Nat} : CcmMacBits n ↔ n ∈ [32, 48, 64, 80, 96, 112, 128] := by simp

variable {c : Ctx} {pk : PKind} {rnd enc : Bool}

/-- GCM.INIT's checks before the nonce's capacity (R400). -/
structure GcmOperandsOk (s : State) (pk : PKind) : Prop where
  kind : pk ≠ .key
  mac : pk = .aead → GcmMacBits s.macBits
  nonce : s.arg 3 ≠ 0

theorem not_gcmOperandsOk_iff :
    ¬ GcmOperandsOk s pk ↔ pk = .key ∨ (pk = .aead ∧ s.arg 6 ∉ [32, 64, 96, 128]) ∨ s.arg 3 = 0 := by
  have hiff : GcmOperandsOk s pk ↔ pk ≠ .key ∧ (pk = .aead → s.arg 6 ∈ [32, 64, 96, 128]) ∧ s.arg 3 ≠ 0 :=
    ⟨fun h => ⟨h.kind, fun ha => gcmMacBits_iff.mp (h.mac ha), h.nonce⟩,
      fun ⟨hkind, hmac, hnonce⟩ => ⟨hkind, fun ha => gcmMacBits_iff.mpr (hmac ha), hnonce⟩⟩
  rw [hiff]
  tauto

/-- CCM.INIT's checks before the capacity of the associated data (R447). -/
structure CcmOperandsOk (s : State) (pk : PKind) : Prop where
  kind : pk ≠ .key
  mac : pk = .aead → CcmMacBits s.macBits
  nonce : 7 ≤ s.arg 3 ∧ s.arg 3 ≤ 13
  key : AesLen (s.arg 1)

theorem not_ccmOperandsOk_iff : ¬ CcmOperandsOk s pk ↔
    pk = .key ∨ (pk = .aead ∧ s.arg 6 ∉ [32, 48, 64, 80, 96, 112, 128]) ∨ s.arg 3 < 7 ∨ 13 < s.arg 3 ∨
      ¬ AesLen (s.arg 1) := by
  have hiff : CcmOperandsOk s pk ↔ pk ≠ .key ∧ (pk = .aead → s.arg 6 ∈ [32, 48, 64, 80, 96, 112, 128]) ∧
      (7 ≤ s.arg 3 ∧ s.arg 3 ≤ 13) ∧ AesLen (s.arg 1) :=
    ⟨fun h => ⟨h.kind, fun ha => ccmMacBits_iff.mp (h.mac ha), h.nonce, h.key⟩,
      fun ⟨hkind, hmac, hnonce, hkey⟩ => ⟨hkind, fun ha => ccmMacBits_iff.mpr (hmac ha), hnonce, hkey⟩⟩
  rw [hiff, ← not_le, ← not_le]
  tauto

section Gcm

variable {g : GcmSlot} (hs : s.slot? c = some (.gcm g)) (hin : s.AllInside (s.initRanges pk))
include hs hin

theorem gcmInit_raises_invalidParameter (h : ¬ GcmOperandsOk s pk) :
    Raises (exec (.gcmInit c pk rnd enc) s) .invalidParameter :=
  .onSlot hs rfl <| .pass hin <| .check fun hkind => .check fun hmac => .fail fun hnonce => h ⟨hkind, hmac, hnonce⟩

theorem gcmInit_raises_capacityExceeded (h : GcmOperandsOk s pk) (hlong : s.params.gcmNonceMax < s.arg 3) :
    Raises (exec (.gcmInit c pk rnd enc) s) .capacityExceeded :=
  .onSlot hs rfl <| .pass hin <| .pass h.kind <| .pass h.mac <| .pass h.nonce <| .fail (Nat.not_le.mpr hlong)

theorem gcmInit_raises_of_badKey (h : GcmOperandsOk s pk) (hlong : ¬ s.params.gcmNonceMax < s.arg 3)
    (hkey : ¬ AesLen (s.arg 1)) : Raises (exec (.gcmInit c pk rnd enc) s) .invalidParameter :=
  .onSlot hs rfl <| .pass hin <| .pass h.kind <| .pass h.mac <| .pass h.nonce <| .pass (Nat.not_lt.mp hlong) <|
    .badKey hkey

theorem gcmInit_raises_misuseDetected (h : GcmOperandsOk s pk) (hlong : ¬ s.params.gcmNonceMax < s.arg 3)
    (hkey : AesLen (s.arg 1)) (hreuse : enc = true ∧ g.lastNonce = some s.ivBytes ∧ g.lastKey = some s.keyBytes) :
    Raises (exec (.gcmInit c pk rnd enc) s) .misuseDetected :=
  .onSlot hs rfl <| .pass hin <| .pass h.kind <| .pass h.mac <| .pass h.nonce <| .pass (Nat.not_lt.mp hlong) <|
    .loadKey hkey <| .fail (not_not.mpr hreuse)

end Gcm

section Ccm

variable {g : CcmSlot} (hs : s.slot? c = some (.ccm g)) (hin : s.AllInside (s.initRanges pk))
include hs hin

theorem ccmInit_raises_invalidParameter (h : ¬ CcmOperandsOk s pk) :
    Raises (exec (.ccmInit c pk rnd enc) s) .invalidParameter :=
  .onSlot hs rfl <| .pass hin <| .check fun hkind => .check fun hmac => .check fun hnonce =>
    .badKey fun hkey => h ⟨hkind, hmac, hnonce, hkey⟩

theorem ccmInit_raises_capacityExceeded (h : CcmOperandsOk s pk) (hlong : pk = .aead ∧ s.params.ccmMaxAad < s.arg 5) :
    Raises (exec (.ccmInit c pk rnd enc) s) .capacityExceeded :=
  .onSlot hs rfl <| .pass hin <| .pass h.kind <| .pass h.mac <| .pass h.nonce <| .loadKey h.key <|
    .fail fun hfits => absurd (hfits hlong.1) (Nat.not_le.mpr hlong.2)

theorem ccmInit_raises_misuseDetected (h : CcmOperandsOk s pk)
    (hlong : ¬ (pk = .aead ∧ s.params.ccmMaxAad < s.arg 5))
    (hreuse : enc = true ∧ g.lastNonce = some s.ivBytes ∧ g.lastKey = some s.keyBytes) :
    Raises (exec (.ccmInit c pk rnd enc) s) .misuseDetected :=
  .onSlot hs rfl <| .pass hin <| .pass h.kind <| .pass h.mac <| .pass h.nonce <| .loadKey h.key <|
    .pass (fun ha => Nat.not_lt.mp fun hlt => hlong ⟨ha, hlt⟩) <| .fail (not_not.mpr hreuse)

end Ccm

end Sys2Proof.Machine
end

section
/-! SUPPORT. The AES commands (42_aes.md R203 to R205) past their checks. -/

namespace Sys2Proof.Machine

variable {s : State} {c : Ctx}

theorem exec_aesInit {old : Option AesKeyed} (hs : s.slot? c = some (.aes old))
    (hin : s.AllInside (s.initRanges .key)) (hlen : AesLen (s.arg 1)) (rnd enc : Bool) :
    exec (.aesInit c .key rnd enc) s =
      .next ((s.setSlot c (.aes (some ⟨enc, keySchedule s.keyBytes (dirOf enc)⟩))).finish 0) := by
  show execAesInit c .key rnd enc s = _
  rw [execAesInit, State.onSlot_aes hs, State.guard_pos hin, State.guard_pos rfl,
    aesLoad_of_aesLen (s.length_keyBytes.symm ▸ hlen), State.loadKey_some]

theorem exec_aesPblk {k : AesKeyed} (hs : s.slot? c = some (.aes (some k)))
    (hin : s.AllInside [s.inArray, s.outArray]) (hfits : s.InFits 16) (hout : s.OutFits 16) :
    exec (.aesPblk c) s = .next (s.emit 16 (toBytes (aesBlock k.aes (blockOf (s.inBytes 16))))) := by
  show execAesPblk c s = _
  rw [execAesPblk, State.onSlot_aes hs, State.guard_pos hin, State.require_some, State.guard_pos hfits,
    State.guard_pos hout]

theorem exec_aesReset {key : Option AesKeyed} (hs : s.slot? c = some (.aes key)) :
    exec (.aesReset c) s = .next (s.finish 0) :=
  State.onSlot_aes hs

end Sys2Proof.Machine
end

section
/-! The obligations about AES (42_aes.md), and the errors of the INIT commands. -/

namespace Sys2Proof.Proofs

open Sys2Proof Sys2Proof.Machine

/-- Settles O29: each inverse round undoes its round, and on blocks a left inverse is a right inverse. Of the key it
only matters that its schedule has a first and a last round key. -/
theorem aesDecryptionInvertsEncryption : Obligations.AesDecryptionInvertsEncryption := by
  intro key x _
  have hlen : 2 ≤ (keyExpansion key).length := by
    rw [length_keyExpansion]
    omega
  exact ⟨aesD_decKeys_aesE hlen x, aesE_aesD_decKeys hlen x⟩

/-- Settles O28: each command by its equation. -/
theorem aesCommandsLoadAndCipher : Obligations.AesCommandsLoadAndCipher :=
  ⟨fun s c rnd enc _ hs hin hlen => ⟨_, exec_aesInit hs hin hlen rnd enc, s.updates_finish c _⟩,
    fun s _ _ hs hin hfits hout => ⟨_, exec_aesPblk hs hin hfits hout, s.emitsOver_emit_same 16 _⟩,
    fun s _ _ hs => ⟨_, exec_aesReset hs, s.answers_finish 0⟩⟩

/-- Settles O59: each command makes its checks in its rule's order, and what passes them all is no bad operand. -/
theorem initRejectsBadParameters : Obligations.InitRejectsBadParameters := by
  intro s c pk rnd enc hin
  refine ⟨fun old hs hbad => ?aes, fun dk old hs hbad => ?hmac, fun ms pad old hs hbad => ?cmac,
    fun inner padded old hs hbad => ?buf, fun old hs hbad => ?cbc, fun old hs hbad => ?ctr, fun g hs => ?gcm,
    fun g hs => ?ccm⟩
  case aes | cmac =>
    exact .onSlot hs rfl <| .pass hin <| .check fun hkind => .badKey (hbad.resolve_left (absurd hkind))
  case hmac => exact .onSlot hs rfl <| .pass hin <| .fail hbad
  case buf =>
    exact .onSlot hs rfl <| .pass hin <| .check fun hkind => .check fun hecb => .check fun hcbc => .badKey (by tauto)
  case cbc => exact .onSlot hs rfl <| .pass hin <| .check fun hkind => .check fun hiv => .badKey (by tauto)
  case ctr =>
    refine .onSlot hs rfl <| .pass hin <| .check fun hkind => .check fun hiv => .badKey ?_
    exact ((hbad.resolve_left (absurd hkind)).resolve_left hiv.1.not_gt).resolve_left hiv.2.not_gt
  case gcm =>
    simp only [← not_gcmOperandsOk_iff, not_not]
    exact ⟨gcmInit_raises_invalidParameter hs hin, gcmInit_raises_capacityExceeded hs hin,
      gcmInit_raises_of_badKey hs hin, fun hok hlong hkey henc hn hk =>
        gcmInit_raises_misuseDetected hs hin hok hlong hkey ⟨henc, hn, hk⟩⟩
  case ccm =>
    simp only [← not_ccmOperandsOk_iff, not_not]
    exact ⟨ccmInit_raises_invalidParameter hs hin, ccmInit_raises_capacityExceeded hs hin,
      fun hok hlong henc hn hk => ccmInit_raises_misuseDetected hs hin hok hlong ⟨henc, hn, hk⟩⟩

end Sys2Proof.Proofs
end

section
/-! SUPPORT. Single bytes of a fixed-length string: what reads as what after `b[i] <- x` (00_scope.md R12). -/

namespace Sys2Proof.Machine

theorem byteAt_setByteAt {w : Nat} (v : BitVec w) {i j : Nat} (hi : 8 * (i + 1) ≤ w) (hj : 8 * (j + 1) ≤ w)
    (x : Byte) : byteAt (setByteAt v i x) j = if i = j then x else byteAt v j := by
  rw [byteAt, if_pos hj, setByteAt, if_pos hi, byteAt, if_pos hj]
  apply BitVec.eq_of_getLsbD_eq
  intro k hk
  have hwin (p : Nat) : (0xFF#8).getLsbD p = decide (p < 8) := by
    rw [show 0xFF#8 = BitVec.allOnes 8 from rfl, BitVec.getLsbD_allOnes]
  have hpos : w - 8 * (j + 1) + k < w := by omega
  simp only [BitVec.getLsbD_extractLsb', BitVec.getLsbD_or, BitVec.getLsbD_and, BitVec.getLsbD_not,
    BitVec.getLsbD_shiftLeft, BitVec.getLsbD_setWidth, hwin, hk, hpos, decide_true, Bool.true_and]
  split
  case isTrue hij =>
    subst hij
    have hkw : k < w := by omega
    simp [hk, hkw]
  case isFalse hij =>
    rw [BitVec.getLsbD_extractLsb', decide_eq_true hk, Bool.true_and]
    rcases Nat.lt_or_gt_of_ne hij with hlt | hgt
    · have hbelow : w - 8 * (j + 1) + k < w - 8 * (i + 1) := by omega
      simp [hbelow]
    · have habove : 8 ≤ w - 8 * (j + 1) + k - (w - 8 * (i + 1)) := by omega
      simp [habove.not_gt, BitVec.getLsbD_of_ge x _ habove]

/-- The bytes up to and with the one written. -/
theorem take_toBytes_setByteAt {w : Nat} (v : BitVec w) {i : Nat} (hi : 8 * (i + 1) ≤ w) (x : Byte) :
    (toBytes (setByteAt v i x)).take (i + 1) = (toBytes v).take i ++ [x] := by
  have hlen : i < w / 8 := by omega
  simp only [toBytes, ← List.map_take, List.take_range, Nat.min_eq_left hlen.le, Nat.min_eq_left hlen,
    List.range_succ, List.map_append, List.map_singleton]
  congr 1
  · refine List.map_congr_left fun j hj => ?_
    have := List.mem_range.mp hj
    rw [byteAt_setByteAt v hi (by omega), if_neg (by omega)]
  · rw [byteAt_setByteAt v hi hi, if_pos rfl]

end Sys2Proof.Machine
end

section
/-! SUPPORT. The streamed digest against its message (43_digest.md R235 to R238, R251): after any message the state
holds the hash of its whole blocks, the words of the block begun, and the bytes of the word begun. -/

namespace Sys2Proof.Machine

variable {alg : DigestAlg} {d : Digest} {q r b : List Byte}

/-! ## Words and blocks of a byte string -/

/-- The order of the bytes in a word of the algorithm (R236, R238). -/
def digestOrder : DigestAlg → ByteOrder
  | .md5 => .le
  | .sha1 | .sha256 => .be

/-- The word that four bytes are (R236). -/
def digestWord (alg : DigestAlg) (w : List Byte) : Word32 := BitVec.ofNat 32 ((digestOrder alg).val w)

theorem bufferWord_eq (alg : DigestAlg) (v : Word32) : bufferWord alg v = digestWord alg (toBytes v) := by
  cases alg <;> rfl

theorem blockWords_eq (alg : DigestAlg) (p : List Byte) (j : Nat) :
    blockWords alg p j = Vector.ofFn fun i : Fin 16 => digestWord alg ((p.drop (64 * j + 4 * i)).take 4) := by
  cases alg <;> rfl

theorem digestWord_zeros (alg : DigestAlg) (n : Nat) : digestWord alg (zeros n) = 0 := by
  have hbe : beInt (zeros n) = 0 := by
    induction n with
    | zero => rfl
    | succ n ih => simpa [beInt, zeros, List.replicate_succ] using ih
  have hle : leInt (zeros n) = 0 := by rw [leInt, zeros, List.reverse_replicate, ← zeros, hbe]
  cases alg
  · exact congrArg (BitVec.ofNat 32) hle
  · exact congrArg (BitVec.ofNat 32) hbe
  · exact congrArg (BitVec.ofNat 32) hbe

/-- A word that bytes write reads as the low 32 bits of the number. -/
theorem digestWord_bytes (alg : DigestAlg) (v : Nat) :
    digestWord alg ((digestOrder alg).bytes 4 v) = BitVec.ofNat 32 v := by
  rw [digestWord, ByteOrder.val_bytes]
  exact BitVec.eq_of_toNat_eq (by simp)

@[simp] theorem blockWords_nil (alg : DigestAlg) (j : Nat) : blockWords alg [] j = Vector.replicate 16 0 := by
  apply Vector.ext
  intro i hi
  rw [blockWords_eq, Vector.getElem_ofFn, Vector.getElem_replicate, List.drop_nil, List.take_nil]
  exact digestWord_zeros alg 0

/-- Four bytes of a byte string that goes on. -/
theorem take_drop_append {p : List Byte} (q : List Byte) {i : Nat} (h : i + 4 ≤ p.length) :
    ((p ++ q).drop i).take 4 = (p.drop i).take 4 := by
  rw [List.drop_append_of_le_length (by omega), List.take_append_of_le_length (by rw [List.length_drop]; omega)]

theorem blockWords_append_left (alg : DigestAlg) {p q : List Byte} {j : Nat} (h : 64 * j + 64 ≤ p.length) :
    blockWords alg (p ++ q) j = blockWords alg p j := by
  rw [blockWords_eq, blockWords_eq]
  congr 1
  funext i
  rw [take_drop_append _ (by omega)]

theorem blockWords_append_right (alg : DigestAlg) {p : List Byte} (q : List Byte) {j : Nat} (h : p.length = 64 * j) :
    blockWords alg (p ++ q) j = blockWords alg q 0 := by
  rw [blockWords_eq, blockWords_eq]
  congr 1
  funext i
  rw [← h, List.drop_append, List.drop_eq_nil_of_le (by omega)]
  simp

/-- One more word of a block. -/
theorem blockWords_append_word (alg : DigestAlg) {r w : List Byte} {k : Nat} (hr : r.length = 4 * k)
    (hw : w.length = 4) :
    blockWords alg (r ++ w) 0 = (blockWords alg r 0).setIfInBounds k (digestWord alg w) := by
  apply Vector.ext
  intro i hi
  rw [Vector.getElem_setIfInBounds, blockWords_eq, blockWords_eq, Vector.getElem_ofFn, Vector.getElem_ofFn]
  rcases lt_trichotomy i k with hik | rfl | hik
  · rw [if_neg (by omega)]
    dsimp only
    rw [take_drop_append _ (by omega)]
  · rw [if_pos rfl]
    dsimp only
    rw [Nat.mul_zero, Nat.zero_add, List.drop_left' hr, List.take_of_length_le hw.le]
  · rw [if_neg (by omega)]
    dsimp only
    rw [List.drop_eq_nil_of_le (by simp; omega), List.drop_eq_nil_of_le (by omega)]

/-- Words not there read as zeros. -/
theorem blockWords_append_zeros (alg : DigestAlg) {r : List Byte} {k : Nat} (hr : r.length = 4 * k) (n : Nat) :
    blockWords alg (r ++ zeros n) 0 = blockWords alg r 0 := by
  rw [blockWords_eq, blockWords_eq]
  congr 1
  funext i
  by_cases hik : (i : Nat) < k
  · rw [take_drop_append _ (by omega)]
  · rw [List.drop_append, List.drop_eq_nil_of_le (by omega)]
    simp only [zeros, List.drop_replicate, List.take_replicate, List.nil_append, List.take_nil]
    exact (digestWord_zeros alg _).trans (digestWord_zeros alg 0).symm

/-- The chaining value after the whole blocks of a byte string (R251). -/
def blocksHash (alg : DigestAlg) (p : List Byte) : List Word32 :=
  (List.range (p.length / 64)).foldl (fun h j => digestCompress alg h (blockWords alg p j)) (digestIV alg)

theorem blocksHash_append (alg : DigestAlg) (hq : 64 ∣ q.length) (hr : r.length = 64) :
    blocksHash alg (q ++ r) = digestCompress alg (blocksHash alg q) (blockWords alg r 0) := by
  obtain ⟨n, hn⟩ := hq
  have hq' : q.length / 64 = n := by omega
  have hqr : (q ++ r).length / 64 = n + 1 := by rw [List.length_append]; omega
  rw [blocksHash, hqr, List.range_succ, List.foldl_append, List.foldl_cons, List.foldl_nil,
    blockWords_append_right alg r hn, blocksHash, hq']
  refine congrArg (digestCompress alg · _) (List.foldl_ext _ _ _ fun h j hj => ?_)
  have := List.mem_range.mp hj
  rw [blockWords_append_left alg (by omega)]

/-! ## What a digest state holds -/

/-- The state has compressed the blocks `q` and holds the words `r` of the block begun. -/
structure HoldsWords (alg : DigestAlg) (q r : List Byte) (d : Digest) : Prop where
  blocks : 64 ∣ q.length
  words : r.length = 4 * d.xOff
  room : d.xOff < 16
  hs : d.hs = blocksHash alg q
  x : d.x = blockWords alg r 0

/-- The state holds besides the bytes `b` of the word begun. -/
structure HoldsBytes (alg : DigestAlg) (q r b : List Byte) (d : Digest) : Prop extends HoldsWords alg q r d where
  buf : (toBytes d.xBuf).take d.xBufOff = b
  bufOff : d.xBufOff < 4

/-- The state holds the message. -/
def Holds (alg : DigestAlg) (m : List Byte) (d : Digest) : Prop :=
  ∃ q r b, q ++ r ++ b = m ∧ HoldsBytes alg q r b d

theorem HoldsBytes.length_buf (h : HoldsBytes alg q r b d) : b.length = d.xBufOff := by
  have := h.bufOff
  rw [← h.buf, List.length_take, length_toBytes]
  omega

theorem Holds.xBufOff {m : List Byte} (h : Holds alg m d) : d.xBufOff = m.length % 4 := by
  obtain ⟨q, r, b, rfl, h⟩ := h
  have hq := h.blocks
  have hr := h.words
  have hb := h.length_buf
  have := h.bufOff
  simp only [List.length_append]
  omega

theorem holds_digestReset (alg : DigestAlg) : Holds alg [] (digestReset alg) :=
  ⟨[], [], [], rfl, ⟨⟨Nat.dvd_zero _, rfl, Nat.zero_lt_succ _, rfl, (blockWords_nil alg 0).symm⟩, rfl,
    Nat.zero_lt_succ _⟩⟩

/-! ## Absorbing -/

/-- A full block is compressed. -/
theorem holdsWords_processBlock (hq : 64 ∣ q.length) (hr : r.length = 64) (hhs : d.hs = blocksHash alg q)
    (hx : d.x = blockWords alg r 0) : HoldsWords alg (q ++ r) [] (processBlock alg d) where
  blocks := by rw [List.length_append]; omega
  words := rfl
  room := Nat.zero_lt_succ _
  hs := by
    rw [blocksHash_append alg hq hr, ← hhs, ← hx]
    rfl
  x := (blockWords_nil alg 0).symm

theorem HoldsWords.wordAbsorbed (h : HoldsWords alg q r d) :
    ∃ q' r', q' ++ r' = q ++ r ++ toBytes d.xBuf ∧ HoldsWords alg q' r' (processWord alg d) := by
  have hlen : (toBytes d.xBuf).length = 4 := length_toBytes _
  have hx : d.x.setIfInBounds d.xOff (bufferWord alg d.xBuf) = blockWords alg (r ++ toBytes d.xBuf) 0 := by
    rw [blockWords_append_word alg h.words hlen, ← h.x, bufferWord_eq]
  have hwords : (r ++ toBytes d.xBuf).length = 4 * (d.xOff + 1) := by
    rw [List.length_append, h.words, hlen]
    omega
  have hroom := h.room
  rw [processWord]
  dsimp only
  split
  · exact ⟨_, [], by simp, holdsWords_processBlock h.blocks (by omega) h.hs hx⟩
  · exact ⟨q, _, (List.append_assoc ..).symm, h.blocks, hwords, by dsimp only; omega, h.hs, hx⟩

theorem Holds.byteAbsorbed {m : List Byte} (h : Holds alg m d) (y : Byte) :
    Holds alg (m ++ [y]) (digestAbsorb alg d y) := by
  obtain ⟨q, r, b, rfl, h⟩ := h
  have hoff := h.bufOff
  have hbuf : (toBytes (setByteAt d.xBuf d.xBufOff y)).take (d.xBufOff + 1) = b ++ [y] := by
    rw [take_toBytes_setByteAt _ (by omega), h.buf]
  rw [digestAbsorb]
  dsimp only
  split
  case isTrue hfull =>
    have hword : HoldsWords alg q r { d with xBuf := setByteAt d.xBuf d.xBufOff y, xBufOff := d.xBufOff + 1 } :=
      ⟨h.blocks, h.words, h.room, h.hs, h.x⟩
    obtain ⟨q', r', hqr, h'⟩ := hword.wordAbsorbed
    rw [hfull, List.take_of_length_le (by simp)] at hbuf
    exact ⟨q', r', [], by simp [hqr, hbuf], ⟨h'.blocks, h'.words, h'.room, h'.hs, h'.x⟩, rfl,
      Nat.zero_lt_succ _⟩
  case isFalse hpart =>
    exact ⟨q, r, _, (List.append_assoc ..).symm, ⟨h.blocks, h.words, h.room, h.hs, h.x⟩, hbuf,
      by dsimp only; omega⟩

theorem Holds.bytesAbsorbed {m : List Byte} (h : Holds alg m d) (m' : List Byte) :
    Holds alg (m ++ m') (digestAbsorbBytes alg d m') := by
  induction m' generalizing m d with
  | nil => exact m.append_nil.symm ▸ h
  | cons y m' ih => exact List.append_cons .. ▸ ih (h.byteAbsorbed y)

theorem byteCount_digestAbsorbBytes (alg : DigestAlg) (d : Digest) (m : List Byte) :
    (digestAbsorbBytes alg d m).byteCount = d.byteCount + BitVec.ofNat 64 m.length := by
  induction m generalizing d with
  | nil => simp [digestAbsorbBytes]
  | cons y m ih =>
    show (digestAbsorbBytes alg (digestAbsorb alg d y) m).byteCount = _
    rw [ih, List.length_cons, digestAbsorb]
    dsimp only
    bv_omega

/-! ## Finishing (R237, R238) -/

/-- At most `n` zero bytes fill up the word begun. -/
theorem Holds.zeroFilled {m : List Byte} {n : Nat} (h : Holds alg m d)
    (hn : m.length % 4 = 0 ∨ 4 ≤ m.length % 4 + n) :
    ∃ k ≤ n, (m.length + k) % 4 = 0 ∧ Holds alg (m ++ zeros k) (digestZeroFill alg n d) := by
  induction n generalizing m d with
  | zero => exact ⟨0, le_rfl, by omega, m.append_nil.symm ▸ h⟩
  | succ n ih =>
    rw [digestZeroFill]
    split
    · exact ⟨0, Nat.zero_le _, by rwa [Nat.add_zero, ← h.xBufOff], m.append_nil.symm ▸ h⟩
    · have hoff : m.length % 4 ≠ 0 := by rwa [← h.xBufOff]
      obtain ⟨k, hk, hmod, hh⟩ := ih (h.byteAbsorbed 0) (by simp; omega)
      refine ⟨k + 1, by omega, by simp at hmod; omega, ?_⟩
      simpa [zeros, List.replicate_succ] using hh

theorem beBytes_eight (v : Nat) : beBytes 8 v = beBytes 4 (v / 2 ^ 32) ++ beBytes 4 v := by
  simp only [beBytes_succ, Nat.div_div_eq_div_mul]
  simp [beBytes]

theorem leBytes_eight (v : Nat) : leBytes 8 v = leBytes 4 v ++ leBytes 4 (v / 2 ^ 32) := by
  rw [leBytes, beBytes_eight, List.reverse_append, leBytes, leBytes]

theorem processLength_of_gt (l : Word64) (hoff : 14 < d.xOff) :
    processLength alg d l = processLength alg (processBlock alg d) l := by
  cases alg <;> simp [processLength, processBlock, hoff]

theorem setIfInBounds_eq_set (x : Vector Word32 16) {i : Nat} (hi : i < 16) (w : Word32) :
    x.setIfInBounds i w = x.set i w :=
  Vector.ext fun j hj => by rw [Vector.getElem_setIfInBounds, Vector.getElem_set]

/-- The two words that ProcessLength sets are those of the length's eight bytes (R238). -/
theorem processLength_of_le (l : Word64) (hoff : d.xOff ≤ 14) :
    ∃ w0 w1, w0.length = 4 ∧ w1.length = 4 ∧ w0 ++ w1 = (digestOrder alg).bytes 8 l.toNat ∧
      processLength alg d l =
        { d with x := (d.x.set 14 (digestWord alg w0)).set 15 (digestWord alg w1) } := by
  have hlow : l.extractLsb' 0 32 = digestWord alg ((digestOrder alg).bytes 4 l.toNat) := by
    rw [digestWord_bytes]
    exact BitVec.eq_of_toNat_eq (by simp)
  have hhigh : l.extractLsb' 32 32 = digestWord alg ((digestOrder alg).bytes 4 (l.toNat / 2 ^ 32)) := by
    rw [digestWord_bytes]
    exact BitVec.eq_of_toNat_eq (by simp [Nat.shiftRight_eq_div_pow])
  cases alg
  case md5 =>
    refine ⟨_, _, length_leBytes .., length_leBytes .., (leBytes_eight _).symm, ?_⟩
    rw [processLength, if_neg hoff.not_gt, hlow, hhigh]
    rfl
  case sha1 | sha256 =>
    refine ⟨_, _, length_beBytes .., length_beBytes .., (beBytes_eight _).symm, ?_⟩
    rw [processLength, if_neg hoff.not_gt, hlow, hhigh]
    rfl

/-- The length fits the block begun. -/
theorem HoldsWords.hs_finish_of_le (h : HoldsWords alg q r d) (l : Word64) (hoff : d.xOff ≤ 14) :
    (processBlock alg (processLength alg d l)).hs =
      blocksHash alg (q ++ r ++ zeros (56 - r.length) ++ (digestOrder alg).bytes 8 l.toNat) := by
  obtain ⟨w0, w1, hw0, hw1, hw, heq⟩ := processLength_of_le (alg := alg) l hoff
  have hr := h.words
  have hz : (r ++ zeros (56 - r.length)).length = 4 * 14 := by
    rw [List.length_append, length_zeros]
    omega
  have hlen : (r ++ zeros (56 - r.length) ++ w0 ++ w1).length = 64 := by
    rw [List.length_append, List.length_append, hz, hw0, hw1]
  have hblock : (processLength alg d l).x = blockWords alg (r ++ zeros (56 - r.length) ++ w0 ++ w1) 0 := by
    rw [blockWords_append_word alg (k := 15) (by rw [List.length_append, hz, hw0]) hw1,
      blockWords_append_word alg hz hw0, blockWords_append_zeros alg hr, ← h.x, heq,
      setIfInBounds_eq_set _ (by decide), setIfInBounds_eq_set _ (by decide)]
  have hhs : (processLength alg d l).hs = blocksHash alg q := by rw [heq, h.hs]
  rw [(holdsWords_processBlock h.blocks hlen hhs hblock).hs, ← hw]
  simp only [List.append_assoc]

/-- The padding of the words held: the length's eight bytes end the first block they fit in. -/
theorem HoldsWords.hs_finish (h : HoldsWords alg q r d) (l : Word64) :
    ∃ k ≤ 60, 64 ∣ (q ++ r).length + k + 8 ∧ (processBlock alg (processLength alg d l)).hs =
      blocksHash alg (q ++ r ++ zeros k ++ (digestOrder alg).bytes 8 l.toNat) := by
  have hq := h.blocks
  have hr := h.words
  have hroom := h.room
  rw [List.length_append]
  by_cases hoff : d.xOff ≤ 14
  · exact ⟨_, by omega, by omega, h.hs_finish_of_le l hoff⟩
  · have hnext : HoldsWords alg (q ++ (r ++ zeros 4)) [] (processBlock alg d) :=
      holdsWords_processBlock hq (by rw [List.length_append, length_zeros]; omega) h.hs
        (h.x.trans (blockWords_append_zeros alg hr 4).symm)
    refine ⟨60, le_rfl, by omega, ?_⟩
    rw [processLength_of_gt l (by omega), hnext.hs_finish_of_le l (Nat.zero_le _)]
    simp [zeros]

/-- The message with its padding and length (R251). -/
theorem Holds.hs_digestFinish {m : List Byte} (h : Holds alg m d) :
    (digestFinish alg d).hs = blocksHash alg
      (m ++ 0x80 :: zeros ((119 - m.length % 64) % 64) ++ (digestOrder alg).bytes 8 (d.byteCount * 8).toNat) := by
  obtain ⟨k, hk, hmod, q, r, b, hm, hh⟩ := (h.byteAbsorbed 0x80).zeroFilled (n := 3) (by omega)
  have hb : b = [] := by
    have hlen := congrArg List.length hm
    have := hh.length_buf
    have := hh.bufOff
    have := hh.blocks
    have := hh.words
    simp only [List.length_append, length_zeros] at hlen hmod
    exact List.eq_nil_of_length_eq_zero (by omega)
  rw [hb, List.append_nil] at hm
  obtain ⟨k', hk', hdvd, hhs⟩ := hh.hs_finish (d.byteCount * 8)
  have hzeros : zeros ((119 - m.length % 64) % 64) = zeros k ++ zeros k' := by
    simp only [hm, List.length_append, List.length_singleton, length_zeros] at hdvd
    rw [zeros, zeros, zeros, List.replicate_append_replicate]
    congr 1
    omega
  rw [digestFinish, hhs, hm, hzeros]
  simp only [List.append_assoc, List.cons_append, List.nil_append]

theorem digestOut_congr {d' : Digest} (h : d.hs = d'.hs) : digestOut alg d = digestOut alg d' := by
  cases alg <;> simp only [digestOut, h]

theorem hashOf_eq (alg : DigestAlg) (m : List Byte) :
    hashOf alg m = digestOut alg { digestReset alg with hs := blocksHash alg (paddedMessage alg m) } := rfl

theorem paddedMessage_eq (alg : DigestAlg) (m : List Byte) : paddedMessage alg m =
    m ++ 0x80 :: zeros ((119 - m.length % 64) % 64) ++ (digestOrder alg).bytes 8 (8 * m.length) := by
  cases alg <;> rfl

theorem holds_absorbed (alg : DigestAlg) (m : List Byte) : Holds alg m (absorbed alg m) :=
  (holds_digestReset alg).bytesAbsorbed m

theorem digestFinish_absorbed {m : List Byte} (hm : m.length < 2 ^ 61) :
    (digestFinish alg (absorbed alg m)).hs = blocksHash alg (paddedMessage alg m) := by
  have hlen : ((absorbed alg m).byteCount * 8).toNat = 8 * m.length := by
    rw [absorbed, byteCount_digestAbsorbBytes, digestReset]
    dsimp only
    bv_omega
  rw [(holds_absorbed alg m).hs_digestFinish, hlen, paddedMessage_eq]

theorem digestAbsorbBytes_absorbed (alg : DigestAlg) (m m' : List Byte) :
    digestAbsorbBytes alg (absorbed alg m) m' = absorbed alg (m ++ m') := List.foldl_append.symm

end Sys2Proof.Machine
end

section
/-! SUPPORT. The DG commands (43_digest.md R262 to R265) past their checks. -/

namespace Sys2Proof.Machine

variable {s : State} {c : Ctx} {alg : DigestAlg} {d : Digest}

theorem exec_dgUpd (hs : s.slot? c = some (.digest alg d)) :
    exec (.dgUpd c) s = .next ((s.setSlot c (.digest alg (digestAbsorb alg d s.byteOperand))).finish 0) :=
  State.onSlot_digest hs

theorem exec_dgUpds (hs : s.slot? c = some (.digest alg d)) (hin : s.AllInside [s.inArray]) (hfits : s.InFits s.len) :
    exec (.dgUpds c) s =
      .next ((s.setSlot c (.digest alg (digestAbsorbBytes alg d (s.inBytes s.len)))).finish 0) := by
  show execDgUpds c s = _
  rw [execDgUpds, State.onSlot_digest hs, State.guard_pos hin, State.guard_pos hfits]

theorem exec_dgFinal (hs : s.slot? c = some (.digest alg d)) (hout : s.AllInside [s.outArray])
    (hfits : s.OutFits (digestSize alg)) :
    exec (.dgFinal c) s = .next ((s.setSlot c (.digest alg (digestReset alg))).emitOut
      (digestOut alg (digestFinish alg d))) := by
  show execDgFinal c s = _
  rw [execDgFinal, State.onSlot_digest hs, State.guard_pos hout, State.guard_pos hfits]

theorem exec_dgReset (hs : s.slot? c = some (.digest alg d)) :
    exec (.dgReset c) s = .next ((s.setSlot c (.digest alg (digestReset alg))).finish 0) :=
  State.onSlot_digest hs

/-- RESULT after DG.FINAL (R252, R264). -/
theorem Emits.result_digestOut {t : State} {slots : List Slot} (h : Emits s t slots (digestOut alg d)) :
    t.result.toNat = digestSize alg := by
  rw [h.done.result, length_digestOut]
  cases alg <;> rfl

end Sys2Proof.Machine
end

section
/-! The obligations about the digests (43_digest.md). -/

namespace Sys2Proof.Proofs

open Sys2Proof Sys2Proof.Machine

/-- Settles O31: after any message the state holds it (`Holds`), and finishing appends the standard's padding to what
is held. -/
theorem digestIsTheStandardHash : Obligations.DigestIsTheStandardHash := by
  intro alg m hm
  refine ⟨?_, digestAbsorbBytes_absorbed alg m⟩
  rw [hashOf_eq]
  exact digestOut_congr (digestFinish_absorbed hm)

/-- Settles O30: each command by its equation. -/
theorem digestCommandsStreamAndFinish : Obligations.DigestCommandsStreamAndFinish := by
  intro s c alg d hs
  refine ⟨⟨_, exec_dgUpd hs, s.updates_finish c _⟩,
    fun hin hfits => ⟨_, exec_dgUpds hs hin hfits, s.updates_finish c _⟩,
    ⟨_, exec_dgReset hs, s.updates_finish c _⟩, fun hout hfits => ?final⟩
  have hemits := s.emits_emitOut c (.digest alg (digestReset alg)) (digestOut alg (digestFinish alg d))
  exact ⟨_, exec_dgFinal hs hout hfits, hemits, hemits.result_digestOut⟩

end Sys2Proof.Proofs
end

section
/-! SUPPORT. HMAC (44_hmac.md R282 to R288): the HM commands past their checks, and the snapshots as digests of the
padded key. -/

namespace Sys2Proof.Machine

variable {s : State} {c : Ctx} {dk : DigestAlg} {k : HmacKeyed}

/-! ## The HM commands (R283 to R287) -/

theorem exec_hmInit {old : Option HmacKeyed} (hs : s.slot? c = some (.hmac dk old))
    (hin : s.AllInside (s.initRanges .key)) (rnd : Bool) :
    exec (.hmInit c .key rnd) s = .next ((s.setSlot c (.hmac dk (some
      ⟨(hmacKey dk s.keyBytes).1, (hmacKey dk s.keyBytes).1, (hmacKey dk s.keyBytes).2⟩))).finish 0) := by
  show execHmInit c .key rnd s = _
  rw [execHmInit, State.onSlot_hmac hs, State.guard_pos hin, State.guard_pos rfl]

theorem exec_hmUpd (hs : s.slot? c = some (.hmac dk (some k))) :
    exec (.hmUpd c) s =
      .next ((s.setSlot c (.hmac dk (some { k with dg := digestAbsorb dk k.dg s.byteOperand }))).finish 0) :=
  State.onSlot_hmac hs

theorem exec_hmUpds (hs : s.slot? c = some (.hmac dk (some k))) (hin : s.AllInside [s.inArray])
    (hfits : s.InFits s.len) :
    exec (.hmUpds c) s = .next ((s.setSlot c (.hmac dk (some
      { k with dg := digestAbsorbBytes dk k.dg (s.inBytes s.len) }))).finish 0) := by
  show execHmUpds c s = _
  rw [execHmUpds, State.onSlot_hmac hs, State.guard_pos hin, State.require_some, State.guard_pos hfits]

theorem exec_hmFinal (hs : s.slot? c = some (.hmac dk (some k))) (hout : s.AllInside [s.outArray])
    (hfits : s.OutFits (digestSize dk)) :
    exec (.hmFinal c) s =
      .next ((s.setSlot c (.hmac dk (some { k with dg := k.ipadState }))).emitOut (hmacResult dk k)) := by
  show execHmFinal c s = _
  rw [execHmFinal, State.onSlot_hmac hs, State.guard_pos hout, State.require_some, State.guard_pos hfits]

theorem exec_hmReset {key : Option HmacKeyed} (hs : s.slot? c = some (.hmac dk key)) :
    exec (.hmReset c) s =
      .next ((s.setSlot c (.hmac dk (key.map fun k => { k with dg := k.ipadState }))).finish 0) :=
  State.onSlot_hmac hs

/-! ## The key and the MAC (R282, R286) -/

theorem hmacKey_eq_absorbed (dk : DigestAlg) (key : List Byte) : hmacKey dk key =
    (absorbed dk (xorBytes (hmacK0 dk key) (List.replicate 64 0x36)),
      absorbed dk (xorBytes (hmacK0 dk key) (List.replicate 64 0x5C))) := rfl

theorem digestOf_eq_absorbed (dk : DigestAlg) (m : List Byte) :
    digestOf dk m = digestOut dk (digestFinish dk (absorbed dk m)) := rfl

/-- The outer digest goes on from the opad snapshot with the inner digest. -/
theorem hmacResult_of_absorbed {inner outer : List Byte} (hdg : k.dg = absorbed dk inner)
    (hopad : k.opadState = absorbed dk outer) : hmacResult dk k = digestOf dk (outer ++ digestOf dk inner) := by
  rw [hmacResult, hdg, hopad, digestAbsorbBytes_absorbed, digestOf_eq_absorbed, digestOf_eq_absorbed]

end Sys2Proof.Machine
end

section
/-! The obligations about HMAC (44_hmac.md). -/

namespace Sys2Proof.Proofs

open Sys2Proof Sys2Proof.Machine

/-- Settles O33: the running digest has absorbed the ipad block and the message, and the opad snapshot the opad
block. -/
theorem hmacIsTheNestedHash : Obligations.HmacIsTheNestedHash := by
  intro dk key m k
  refine ⟨hmacResult_of_absorbed ?inner ?outer, length_hmacResult dk _⟩
  case inner => exact digestAbsorbBytes_absorbed dk _ m
  case outer => exact congrArg Prod.snd (hmacKey_eq_absorbed dk key)

/-- Settles O32: each command by its equation. -/
theorem hmacCommandsKeyStreamAndFinish : Obligations.HmacCommandsKeyStreamAndFinish := by
  refine ⟨fun s c rnd dk old hs hin => ?init, fun s c dk k hs => ?keyed,
    fun s c dk hs => ⟨_, exec_hmReset hs, s.updates_finish c _⟩⟩
  case init =>
    have hexec := exec_hmInit hs hin rnd
    rw [hmacKey_eq_absorbed] at hexec
    exact ⟨_, hexec, s.updates_finish c _⟩
  case keyed =>
    refine ⟨⟨_, exec_hmUpd hs, s.updates_finish c _⟩,
      fun hin hfits => ⟨_, exec_hmUpds hs hin hfits, s.updates_finish c _⟩,
      ⟨_, exec_hmReset hs, s.updates_finish c _⟩, fun hout hfits => ?final⟩
    have hemits := s.emits_emitOut c (.hmac dk (some { k with dg := k.ipadState })) (hmacResult dk k)
    exact ⟨_, exec_hmFinal hs hout hfits, hemits, hemits.result_digestOut⟩

end Sys2Proof.Proofs
end

section
/-! SUPPORT. Strings of whole blocks (00_scope.md R12), several bytes written into a fixed-length string, and the inner
cipher over the blocks of a string (45_buffered.md R301). -/

namespace Sys2Proof.Machine

/-- The bytes up to and with the ones written. -/
theorem take_toBytes_setBytesAt {w : Nat} (v : BitVec w) {i : Nat} (xs : List Byte) (h : 8 * (i + xs.length) ≤ w) :
    (toBytes (setBytesAt v i xs)).take (i + xs.length) = (toBytes v).take i ++ xs := by
  induction xs generalizing v i with
  | nil => rw [List.append_nil]; rfl
  | cons x xs ih =>
    have hlen : i + (x :: xs).length = i + 1 + xs.length := by
      rw [List.length_cons]
      omega
    rw [hlen] at h ⊢
    rw [setBytesAt, ih _ h, take_toBytes_setByteAt v (by omega), List.append_assoc, List.singleton_append]

theorem take_toBytes (x : Block) : (toBytes x).take 16 = toBytes x :=
  List.take_of_length_le (length_toBytes x).le

/-- Whole blocks in front of a string are cut off first. -/
theorem blocksOf_append {a : List Byte} (h : 16 ∣ a.length) (b : List Byte) :
    blocksOf (a ++ b) = blocksOf a ++ blocksOf b := by
  obtain ⟨n, hn⟩ := h
  have hcount : (a.length + 15) / 16 = n := by omega
  have htotal : ((a ++ b).length + 15) / 16 = n + (b.length + 15) / 16 := by
    rw [List.length_append]
    omega
  rw [blocksOf, htotal, List.range_add, List.map_append, List.map_map, blocksOf, hcount, blocksOf]
  refine congrArg₂ (· ++ ·) (List.map_congr_left fun i hi => ?left) (List.map_congr_left fun i _ => ?right)
  case left =>
    have := List.mem_range.mp hi
    rw [List.drop_append_of_le_length (by omega), List.take_append_of_le_length (by rw [List.length_drop]; omega)]
  case right =>
    have hdrop : 16 * (n + i) = a.length + 16 * i := by omega
    rw [Function.comp_apply, hdrop, List.drop_length_add_append]

theorem blocksOf_toBytes (x : Block) : blocksOf (toBytes x) = [x] := by
  rw [blocksOf, length_toBytes]
  show [blockOf ((toBytes x).take 16)] = [x]
  rw [take_toBytes, blockOf_toBytes]

theorem blockOps_append (c : InnerCipher) (xs ys : List Block) : blockOps c (xs ++ ys) =
    ((blockOps c xs).1 ++ (blockOps (blockOps c xs).2 ys).1, (blockOps (blockOps c xs).2 ys).2) := by
  induction xs generalizing c with
  | nil => rfl
  | cons x xs ih => rw [List.cons_append, blockOps, ih, blockOps, List.append_assoc]

end Sys2Proof.Machine
end

section
/-! SUPPORT. The wrapper as a stream (45_buffered.md R304, R305): the bytes held back and the bytes taken in are whole
blocks, which went through the inner cipher, and the bytes held back after them. -/

namespace Sys2Proof.Machine

variable {padded : Bool} {k : BufKeyed}

/-! ## PBYTE, case by case (R304) -/

theorem bufByte_unpadded_flush (h : k.bufOff = 15) (brst : Nat) (x : Byte) :
    bufByte brst false k x = bufFlush (bufFill k [x]) brst := if_pos (by rw [h])

theorem bufByte_unpadded_fill (h : k.bufOff ≠ 15) (brst : Nat) (x : Byte) :
    bufByte brst false k x = ([], bufFill k [x]) := if_neg (by omega)

theorem bufByte_padded_flush (h : k.bufOff = 16) (brst : Nat) (x : Byte) :
    bufByte brst true k x = ((bufFlush k 0).1, bufFill (bufFlush k 0).2 [x]) := if_pos h

theorem bufByte_padded_fill (h : k.bufOff ≠ 16) (brst : Nat) (x : Byte) :
    bufByte brst true k x = ([], bufFill k [x]) := if_neg h

/-- Unpadded, GUOS says the whole blocks (R309). -/
theorem bufUpdateSize_unpadded (bufOff len : Nat) : bufUpdateSize false bufOff len = 16 * ((len + bufOff) / 16) := by
  simp only [bufUpdateSize, if_true]
  omega

/-- Padded, GUOS says the whole blocks but the last bytes, which may fill one (R309). -/
theorem bufUpdateSize_padded (bufOff len : Nat) : bufUpdateSize true bufOff len = 16 * ((len + bufOff - 1) / 16) := by
  simp only [bufUpdateSize, Bool.true_eq_false, if_false]
  split <;> omega

/-- GUOS one byte later says what is left after that byte's PBYTE (R304, R309). -/
theorem bufByteSize_add_bufUpdateSize (padded : Bool) (k : BufKeyed) (x : Byte) (n : Nat) :
    bufByteSize padded k + bufUpdateSize padded (bufByte 0 padded k x).2.bufOff n =
      bufUpdateSize padded k.bufOff (n + 1) := by
  rw [bufByteSize]
  cases padded
  · rw [bufUpdateSize_unpadded, bufUpdateSize_unpadded]
    by_cases hfull : k.bufOff = 15
    · rw [if_pos (.inl ⟨rfl, hfull⟩), bufByte_unpadded_flush hfull, bufFlush_bufOff, hfull]
      omega
    · rw [if_neg (by simp [hfull]), bufByte_unpadded_fill hfull, bufFill_bufOff, List.length_singleton]
      omega
  · rw [bufUpdateSize_padded, bufUpdateSize_padded]
    by_cases hfull : k.bufOff = 16
    · rw [if_pos (.inr ⟨rfl, hfull⟩), bufByte_padded_flush hfull, bufFill_bufOff, bufFlush_bufOff,
        List.length_singleton, hfull]
      omega
    · rw [if_neg (by simp [hfull]), bufByte_padded_fill hfull, bufFill_bufOff, List.length_singleton]
      omega

/-- With no byte to come, GUOS says nothing is written. -/
theorem bufUpdateSize_zero (h : k.bufOff ≤ if padded then 16 else 15) : bufUpdateSize padded k.bufOff 0 = 0 := by
  cases padded
  · replace h : k.bufOff ≤ 15 := h
    rw [bufUpdateSize_unpadded]
    omega
  · replace h : k.bufOff ≤ 16 := h
    rw [bufUpdateSize_padded]
    omega

/-- PBYTE after PBYTE writes as many bytes as GUOS says (R309). -/
theorem length_bufByteRun (h : k.bufOff ≤ if padded then 16 else 15) (data : List Byte) :
    (bufByteRun padded k data).1.length = bufUpdateSize padded k.bufOff data.length := by
  induction data generalizing k with
  | nil => exact (bufUpdateSize_zero h).symm
  | cons x data ih =>
    rw [bufByteRun, List.length_append, length_bufByte, ih (bufByte_bufOff h (Nat.zero_le 15) x),
      bufByteSize_add_bufUpdateSize, List.length_cons]

/-! ## What a wrapper holds -/

/-- The bytes a wrapper holds back. -/
def BufKeyed.held (k : BufKeyed) : List Byte := (toBytes k.buf).take k.bufOff

theorem BufKeyed.length_held (h : k.bufOff ≤ 16) : k.held.length = k.bufOff := by
  rw [BufKeyed.held, List.length_take, length_toBytes]
  omega

theorem BufKeyed.held_of_full (h : k.bufOff = 16) : k.held = toBytes k.buf := by
  rw [BufKeyed.held, h, take_toBytes]

theorem BufKeyed.held_of_empty (h : k.bufOff = 0) : k.held = [] := by
  rw [BufKeyed.held, h, List.take_zero]

theorem held_bufFill {xs : List Byte} (h : k.bufOff + xs.length ≤ 16) : (bufFill k xs).held = k.held ++ xs :=
  take_toBytes_setBytesAt k.buf xs (by omega)

/-- From the wrapper `k` and the bytes `data`, the blocks `whole` went through the inner cipher; `y` is what was
written, and the wrapper after it, which holds the rest. -/
structure Streams (k : BufKeyed) (data whole : List Byte) (y : List Byte × BufKeyed) : Prop where
  blocks : 16 ∣ whole.length
  bytes : k.held ++ data = whole ++ y.2.held
  ops : blockOps k.cipher (blocksOf whole) = (y.1, y.2.cipher)
  fits : y.2.bufOff ≤ 16

namespace Streams

variable {data whole : List Byte} {y z : List Byte × BufKeyed}

/-- The output is as long as the blocks that went through the cipher. -/
theorem length_output (h : Streams k data whole y) : y.1.length = whole.length := by
  have hout : (blockOps k.cipher (blocksOf whole)).1 = y.1 := congrArg Prod.fst h.ops
  have hdvd := h.blocks
  rw [← hout, length_blockOps, length_blocksOf]
  omega

/-- What a stream writes and leaves is fixed by how much it writes. -/
theorem eq_of_length {whole' : List Byte} (hy : Streams k data whole y) (hz : Streams k data whole' z)
    (hlen : y.1.length = z.1.length) :
    y.1 = z.1 ∧ y.2.cipher = z.2.cipher ∧ y.2.bufOff = z.2.bufOff ∧ y.2.held = z.2.held := by
  have hwhole : whole.length = whole'.length := by rw [← hy.length_output, ← hz.length_output, hlen]
  obtain ⟨rfl, hheld⟩ := List.append_inj (hy.bytes.symm.trans hz.bytes) hwhole
  obtain ⟨hout, hcipher⟩ := Prod.ext_iff.mp (hy.ops.symm.trans hz.ops)
  refine ⟨hout, hcipher, ?_, hheld⟩
  rw [← BufKeyed.length_held hy.fits, hheld, BufKeyed.length_held hz.fits]

theorem trans {data' whole' : List Byte} (hy : Streams k data whole y) (hz : Streams y.2 data' whole' z) :
    Streams k (data ++ data') (whole ++ whole') (y.1 ++ z.1, z.2) where
  blocks := List.length_append ▸ Nat.dvd_add hy.blocks hz.blocks
  bytes := by rw [← List.append_assoc, hy.bytes, List.append_assoc, hz.bytes, List.append_assoc]
  ops := by rw [blocksOf_append hy.blocks, blockOps_append, hy.ops, hz.ops]
  fits := hz.fits

/-- Bytes that fit are only buffered, before a stream goes on. -/
theorem fill_trans {xs : List Byte} (h : k.bufOff + xs.length ≤ 16) (hy : Streams (bufFill k xs) data whole y) :
    Streams k (xs ++ data) whole y where
  blocks := hy.blocks
  bytes := by rw [← List.append_assoc, ← held_bufFill h, hy.bytes]
  ops := hy.ops
  fits := hy.fits

/-- Bytes that fit are only buffered, after a stream. -/
theorem trans_fill (hy : Streams k data whole y) {xs : List Byte} (h : y.2.bufOff + xs.length ≤ 16) :
    Streams k (data ++ xs) whole (y.1, bufFill y.2 xs) where
  blocks := hy.blocks
  bytes := by rw [← List.append_assoc, hy.bytes, List.append_assoc, held_bufFill h]
  ops := hy.ops
  fits := h

theorem refl (h : k.bufOff ≤ 16) : Streams k [] [] ([], k) := ⟨Nat.dvd_zero 16, List.append_nil _, rfl, h⟩

theorem fill {xs : List Byte} (h : k.bufOff + xs.length ≤ 16) : Streams k xs [] ([], bufFill k xs) :=
  (refl (by omega)).trans_fill h

/-- A full buffer goes through the cipher. -/
theorem flush (h : k.bufOff = 16) : Streams k [] (toBytes k.buf) (bufFlush k 0) where
  blocks := by rw [length_toBytes]
  bytes := by rw [k.held_of_full h, BufKeyed.held_of_empty rfl]
  ops := by
    rw [blocksOf_toBytes]
    exact Prod.ext (List.append_nil _) rfl
  fits := Nat.zero_le 16

/-- Whole blocks that meet an empty buffer go through the cipher from the input. -/
theorem direct (h : k.bufOff = 0) {xs : List Byte} (hxs : 16 ∣ xs.length) :
    Streams k xs xs ((blockOps k.cipher (blocksOf xs)).1, { k with cipher := (blockOps k.cipher (blocksOf xs)).2 }) where
  blocks := hxs
  bytes := by
    rw [BufKeyed.held_of_empty h, List.nil_append]
    exact (List.append_nil xs).symm.trans (congrArg (xs ++ ·) (BufKeyed.held_of_empty h).symm)
  ops := rfl
  fits := h.trans_le (Nat.zero_le 16)

/-- The last step of PBYTES takes in nothing. -/
theorem settle (hy : Streams k data whole y) (padded : Bool) :
    ∃ whole', Streams k data whole' (y.1 ++ (bufSettle padded y.2).1, (bufSettle padded y.2).2) := by
  have hlast : ∃ whole', Streams y.2 [] whole' (bufSettle padded y.2) := by
    unfold bufSettle
    split
    case isTrue hfull => exact ⟨_, .flush hfull.2⟩
    case isFalse => exact ⟨_, .refl hy.fits⟩
  obtain ⟨_, hlast⟩ := hlast
  have hstream := hy.trans hlast
  rw [List.append_nil] at hstream
  exact ⟨_, hstream⟩

end Streams

/-! ## PBYTE and PBYTES as streams -/

theorem bufByte_streams (h : k.bufOff ≤ if padded then 16 else 15) (x : Byte) :
    ∃ whole, Streams k [x] whole (bufByte 0 padded k x) := by
  cases padded
  · have hroom : k.bufOff + 1 ≤ 16 := Nat.succ_le_succ h
    by_cases hfull : k.bufOff = 15
    · rw [bufByte_unpadded_flush hfull]
      exact ⟨_, Streams.fill_trans (xs := [x]) hroom (.flush (congrArg (· + 1) hfull))⟩
    · rw [bufByte_unpadded_fill hfull]
      exact ⟨_, .fill hroom⟩
  · by_cases hfull : k.bufOff = 16
    · rw [bufByte_padded_flush hfull]
      exact ⟨_, (Streams.flush hfull).trans_fill (xs := [x]) (Nat.succ_le_succ (Nat.zero_le 15))⟩
    · have hroom : k.bufOff + 1 ≤ 16 := Nat.lt_of_le_of_ne h hfull
      rw [bufByte_padded_fill hfull]
      exact ⟨_, .fill hroom⟩

theorem bufOff_le_sixteen (h : k.bufOff ≤ if padded then 16 else 15) : k.bufOff ≤ 16 :=
  h.trans (by cases padded <;> decide)

theorem bufByteRun_streams (h : k.bufOff ≤ if padded then 16 else 15) (data : List Byte) :
    ∃ whole, Streams k data whole (bufByteRun padded k data) := by
  induction data generalizing k with
  | nil => exact ⟨_, .refl (bufOff_le_sixteen h)⟩
  | cons x data ih =>
    obtain ⟨_, hbyte⟩ := bufByte_streams h x
    obtain ⟨_, hrest⟩ := ih (bufByte_bufOff h (Nat.zero_le 15) x)
    exact ⟨_, hbyte.trans hrest⟩

theorem bufDirect_streams (h : k.bufOff = 0) (xs : List Byte) : ∃ whole, Streams k xs whole (bufDirect k xs) := by
  have hwhole : 16 ∣ (xs.take (16 * ((xs.length - 1) / 16))).length := by
    rw [List.length_take, Nat.min_eq_left (by omega)]
    exact Nat.dvd_mul_right ..
  have hrest : k.bufOff + (xs.drop (16 * ((xs.length - 1) / 16))).length ≤ 16 := by
    rw [h, List.length_drop]
    omega
  have hstream := (Streams.direct h hwhole).trans_fill hrest
  rw [List.take_append_drop] at hstream
  exact ⟨_, hstream⟩

theorem bufBytes_streams (h : k.bufOff ≤ if padded then 16 else 15) (data : List Byte) :
    ∃ whole, Streams k data whole (bufBytes padded k data) := by
  have hfits := bufOff_le_sixteen h
  by_cases hgap : 16 - k.bufOff < data.length
  · have hfull : k.bufOff + (data.take (16 - k.bufOff)).length = 16 := by
      rw [List.length_take]
      omega
    have hfirst := Streams.flush (k := bufFill k (data.take (16 - k.bufOff))) hfull
    obtain ⟨_, hrest⟩ := bufDirect_streams (bufFlush_bufOff (bufFill k (data.take (16 - k.bufOff))) 0)
      (data.drop (16 - k.bufOff))
    have hstream := Streams.fill_trans hfull.le (hfirst.trans hrest)
    rw [List.nil_append, List.take_append_drop] at hstream
    rw [bufBytes, if_pos hgap]
    exact hstream.settle padded
  · have hroom : k.bufOff + data.length ≤ 16 := by omega
    rw [bufBytes, if_neg hgap]
    exact (Streams.fill hroom).settle padded

end Sys2Proof.Machine
end

section
/-! SUPPORT. The BUF commands (45_buffered.md R303 to R309) past their checks. -/

namespace Sys2Proof.Machine

variable {s : State} {c : Ctx} {inner : Inner} {padded : Bool} {k : BufKeyed}

/-! ## BUF.INIT and BUF.RESET (R303, R307) -/

theorem exec_bufInit {pk : PKind} {old : Option BufKeyed} (hs : s.slot? c = some (.buf inner padded old))
    (hin : s.AllInside (s.initRanges pk)) (hlen : AesLen (s.arg 1)) (hkind : pk ≠ .aead)
    (hecb : inner = .ecb → pk ≠ .keyIv) (hiv : inner = .cbc → pk = .keyIv → s.arg 3 = 16) (rnd enc : Bool) :
    exec (.bufInit c pk rnd enc) s = .next ((s.setSlot c (.buf inner padded (some (bufReset
      ⟨innerInit inner enc (keySchedule s.keyBytes (dirOf enc)) (s.ivBlock pk), 0, 0⟩)))).finish 0) := by
  show execBufInit c pk rnd enc s = _
  rw [execBufInit, State.onSlot_buf hs, State.guard_pos hin, State.guard_pos hkind, State.guard_pos hecb,
    State.guard_pos hiv, aesLoad_of_aesLen (s.length_keyBytes.symm ▸ hlen), State.loadKey_some, State.putBuf_eq]

theorem exec_bufReset {key : Option BufKeyed} (hs : s.slot? c = some (.buf inner padded key)) :
    exec (.bufReset c) s = .next ((s.setSlot c (.buf inner padded (key.map bufReset))).finish 0) :=
  State.onSlot_buf hs

/-! ## The sizes (R308, R309) -/

theorem exec_bufGos (hs : s.slot? c = some (.buf inner padded (some k))) :
    exec (.bufGos c) s = .next (s.finishSize (bufOutputSize padded k.cipher.enc k.bufOff s.len)) :=
  State.onSlot_buf hs

theorem exec_bufGuos (hs : s.slot? c = some (.buf inner padded (some k))) :
    exec (.bufGuos c) s = .next (s.finishSize (bufUpdateSize padded k.bufOff s.len)) :=
  State.onSlot_buf hs

/-- GUOS with its two cases that round down to whole blocks taken together. -/
theorem bufUpdateSize_eq (padded : Bool) (bufOff len : Nat) : bufUpdateSize padded bufOff len =
    if padded = true ∧ (len + bufOff) % 16 = 0 then len + bufOff - 16 else len + bufOff - (len + bufOff) % 16 := by
  cases padded <;> simp [bufUpdateSize]

/-! ## BUF.PBYTE and BUF.PBYTES (R304, R305) -/

theorem exec_bufPbyte (hs : s.slot? c = some (.buf inner padded (some k))) (hout : s.AllInside [s.outArray])
    {y : List Byte × BufKeyed} (hy : bufByte s.params.bufByteReset.val padded k s.byteOperand = y)
    (hfits : s.OutFits y.1.length) :
    exec (.bufPbyte c) s = .next ((s.setSlot c (.buf inner padded (some y.2))).emitOut y.1) := by
  rw [← hy, length_bufByte] at hfits
  show execBufPbyte c s = _
  rw [execBufPbyte, State.onSlot_buf hs, State.guard_pos hout, State.require_some, State.guard_pos hfits, hy,
    State.putBuf_eq]

theorem exec_bufPbytes (hs : s.slot? c = some (.buf inner padded (some k)))
    (hin : s.AllInside [s.inArray, s.outArray]) (hfits : s.InFits s.len)
    (hout : s.OutFits (bufUpdateSize padded k.bufOff s.len)) :
    exec (.bufPbytes c) s = .next ((s.setSlot c (.buf inner padded (some
      (bufBytes padded k (s.inBytes s.len)).2))).emit s.len (bufBytes padded k (s.inBytes s.len)).1) := by
  show execBufPbytes c s = _
  rw [execBufPbytes, State.onSlot_buf hs, State.guard_pos hin, State.require_some, State.guard_pos hfits,
    State.guard_pos hout, State.putBuf_eq]

/-- A size that fits the output array fits RESULT. -/
theorem State.OutFits.lt {m : Nat} (h : s.OutFits m) : m < 2 ^ 64 := by
  have hsize : s.arg 5 < 2 ^ 64 := (s.argW 5).isLt
  obtain rfl | h := h
  · exact Nat.two_pow_pos 64
  · omega

/-! ## BUF.FINAL (R306) -/

section Final

variable (hs : s.slot? c = some (.buf inner padded (some k))) (hout : s.AllInside [s.outArray])
include hs hout

theorem exec_bufFinal_unpadded (hpad : padded = false) :
    exec (.bufFinal c) s = bufFinalPlain c (inner, padded, some k) k s := by
  subst hpad
  show execBufFinal c s = _
  rw [execBufFinal, State.onSlot_buf hs, State.guard_pos hout, State.require_some]

theorem exec_bufFinal_encrypting (hpad : padded = true) (henc : k.cipher.enc = true) :
    exec (.bufFinal c) s = bufFinalEnc c (inner, padded, some k) k s := by
  subst hpad
  show execBufFinal c s = _
  rw [execBufFinal, State.onSlot_buf hs, State.guard_pos hout, State.require_some, henc]

theorem exec_bufFinal_decrypting (hpad : padded = true) (henc : k.cipher.enc = false) :
    exec (.bufFinal c) s = bufFinalDec c (inner, padded, some k) k s := by
  subst hpad
  show execBufFinal c s = _
  rw [execBufFinal, State.onSlot_buf hs, State.guard_pos hout, State.require_some, henc]

end Final

end Sys2Proof.Machine
end

section
/-! SUPPORT. PKCS7 padding (45_buffered.md R302, R310, R311): the bytes PadAdd writes, and which blocks PadCount
accepts. -/

namespace Sys2Proof.Machine

variable {s : State} {blk : List Byte}

theorem padTail_eq (n off : Nat) : padTail n off = List.replicate (n - off) (BitVec.ofNat 8 (n - off)) :=
  congrArg (List.replicate (n - off)) (BitVec.eq_of_toNat_eq (Nat.mod_mod (n - off) 256))

@[simp] theorem length_padTail (n off : Nat) : (padTail n off).length = n - off := List.length_replicate

theorem getD_padTail {n off j : Nat} (h : j < n - off) : (padTail n off).getD j 0 = BitVec.ofNat 8 (n - off) := by
  rw [padTail_eq, List.getD_replicate _ h]

theorem length_padAdd {off : Nat} (h : off ≤ blk.length) : (padAdd blk off).length = blk.length := by
  rw [padAdd, List.length_append, List.length_take, length_padTail]
  omega

theorem take_padAdd {off : Nat} (h : off ≤ blk.length) : (padAdd blk off).take off = blk.take off :=
  List.take_left' (List.length_take_of_le h)

/-- Every byte from `off` on is the code. -/
theorem getD_padAdd {off j : Nat} (hj : off ≤ j) (hlt : j < blk.length) :
    (padAdd blk off).getD j 0 = BitVec.ofNat 8 (blk.length - off) := by
  have hlen : (blk.take off).length = off := List.length_take_of_le (by omega)
  rw [padAdd, List.getD_append_right _ _ _ _ (hlen.trans_le hj), hlen, getD_padTail (by omega)]

/-- The last byte of a block, which says how many pad bytes there are. -/
def padCode (blk : List Byte) : Nat := (blk.getD (blk.length - 1) 0).toNat

/-- The block ends in as many bytes equal to its last byte as that byte says. -/
def PadValid (blk : List Byte) : Prop :=
  1 ≤ padCode blk ∧ padCode blk ≤ blk.length ∧
    ∀ j, blk.length - padCode blk ≤ j → j < blk.length → (blk.getD j 0).toNat = padCode blk

theorem padCount_of_valid (h : PadValid blk) : padCount blk = some (padCode blk) := by
  obtain ⟨hpos, hle, hall⟩ := h
  refine if_pos ⟨hle, Nat.ne_of_gt hpos, fun i hi hc => ?_⟩
  replace hc : blk.length - i ≤ padCode blk := hc
  exact hall i (by omega) (List.mem_range.mp hi)

theorem padCount_of_not_valid (h : ¬ PadValid blk) : padCount blk = none := by
  refine if_neg fun ⟨hle, hne, hall⟩ => h ⟨Nat.pos_of_ne_zero hne, hle, fun j hj hlt => ?_⟩
  have hc : blk.length - j ≤ padCode blk := by omega
  exact hall j (List.mem_range.mpr hlt) hc

/-- A block PadAdd has filled, in a block length that the code's byte holds (R313). -/
theorem padValid_padAdd {off : Nat} (hlen : blk.length ≤ 255) (h : off < blk.length) :
    PadValid (padAdd blk off) ∧ padCode (padAdd blk off) = blk.length - off := by
  have hbyte {j : Nat} (hj : off ≤ j) (hlt : j < blk.length) :
      ((padAdd blk off).getD j 0).toNat = blk.length - off := by
    rw [getD_padAdd hj hlt, BitVec.toNat_ofNat]
    omega
  have hcode : padCode (padAdd blk off) = blk.length - off := by
    rw [padCode, length_padAdd h.le]
    exact hbyte (by omega) (by omega)
  refine ⟨?_, hcode⟩
  rw [PadValid, hcode, length_padAdd h.le]
  exact ⟨by omega, by omega, fun j hj hlt => hbyte (by omega) hlt⟩

/-! ## The PAD commands (R310, R311) -/

section Commands

variable (hin : s.arg 0 + s.arg 1 ≤ s.memSize)
include hin

theorem State.allInside_padRange : s.AllInside [s.padRange] :=
  (s.allInside_cons s.padRange []).mpr ⟨hin, s.allInside_nil⟩

theorem exec_padAdd (hoff : s.arg 2 ≤ s.arg 1) :
    exec .padAdd s = .next ((s.memWrite (s.arg 0 + s.arg 2) (padTail (s.arg 1) (s.arg 2))).finish
      (BitVec.ofNat 64 (s.arg 1 - s.arg 2))) := by
  show execPadAdd s = _
  rw [execPadAdd, State.guard_pos (State.allInside_padRange hin), State.guard_pos hoff]

theorem exec_padAdd_of_lt (hoff : s.arg 1 < s.arg 2) : exec .padAdd s = .next (s.raise .dataTooShort) := by
  show execPadAdd s = _
  rw [execPadAdd, State.guard_pos (State.allInside_padRange hin), State.guard_neg hoff.not_ge]

theorem exec_padCnt_of_empty (hn : s.arg 1 = 0) : exec .padCnt s = .next (s.raise .dataTooShort) := by
  show execPadCnt s = _
  rw [execPadCnt, State.guard_pos (State.allInside_padRange hin), State.guard_neg (not_not.mpr hn)]

theorem exec_padCnt_of_valid (hn : s.arg 1 ≠ 0) (h : PadValid (s.memRead (s.arg 0) (s.arg 1))) :
    exec .padCnt s = .next (s.finish (BitVec.ofNat 64 (padCode (s.memRead (s.arg 0) (s.arg 1))))) := by
  show execPadCnt s = _
  rw [execPadCnt, State.guard_pos (State.allInside_padRange hin), State.guard_pos hn, padCount_of_valid h]

theorem exec_padCnt_of_not_valid (hn : s.arg 1 ≠ 0) (h : ¬ PadValid (s.memRead (s.arg 0) (s.arg 1))) :
    exec .padCnt s = .next (s.raise .authenticationFailed) := by
  show execPadCnt s = _
  rw [execPadCnt, State.guard_pos (State.allInside_padRange hin), State.guard_pos hn, padCount_of_not_valid h]

end Commands

/-! ## A block in DMEM -/

theorem padCode_memRead (a : Nat) {n : Nat} (hn : n ≠ 0) :
    padCode (s.memRead a n) = (s.readByte (a + n - 1)).toNat := by
  rw [padCode, s.length_memRead, s.getD_memRead a (by omega), Nat.add_sub_assoc (by omega)]

theorem padValid_memRead (a : Nat) {n : Nat} (hn : n ≠ 0) : PadValid (s.memRead a n) ↔
    (let last := (s.readByte (a + n - 1)).toNat
     1 ≤ last ∧ last ≤ n ∧ ∀ j, n - last ≤ j → j < n → (s.readByte (a + j)).toNat = last) := by
  rw [PadValid, padCode_memRead a hn, s.length_memRead]
  refine and_congr_right' (and_congr_right' (forall_congr' fun j => forall_congr' fun _ => forall_congr' fun hj => ?_))
  rw [s.getD_memRead a hj]

/-! ## What an encrypting FINAL writes (R306) -/

theorem bufFinalBytes_partial {k : BufKeyed} (h : k.bufOff < 16) : bufFinalBytes k =
    toBytes (blockOp k.cipher (blockOf ((toBytes k.buf).take k.bufOff ++
      List.replicate (16 - k.bufOff) (BitVec.ofNat 8 (16 - k.bufOff))))).1 := by
  rw [bufFinalBytes, if_neg h.ne, padAdd, length_toBytes, padTail_eq]
  rfl

theorem bufFinalBytes_full {k : BufKeyed} (h : k.bufOff = 16) : bufFinalBytes k =
    toBytes (blockOp k.cipher k.buf).1 ++
      toBytes (blockOp (blockOp k.cipher k.buf).2 (blockOf (List.replicate 16 0x10))).1 := by
  rw [bufFinalBytes, if_pos h, padAdd, length_toBytes, bufFlush_bufOff, padTail_eq]
  rfl

end Sys2Proof.Machine
end

section
/-! The obligations about the buffered wrapper and the padding (45_buffered.md). -/

namespace Sys2Proof.Proofs

open Sys2Proof Sys2Proof.Machine

/-- Settles O37: both stream the bytes, and both write as many as GUOS says. -/
theorem bufPbytesIsPbyteRepeated : Obligations.BufPbytesIsPbyteRepeated := by
  intro padded k data h
  obtain ⟨_, hbytes⟩ := bufBytes_streams h data
  obtain ⟨_, hrun⟩ := bufByteRun_streams h data
  have hlen := (length_bufBytes h data).trans (length_bufByteRun h data).symm
  obtain ⟨hout, hcipher, hoff, hheld⟩ := hbytes.eq_of_length hrun hlen
  exact ⟨hout, hcipher, hoff, hheld.trans (congrArg (List.take · _) hoff.symm)⟩

/-- Settles O34: each command by its equation. -/
theorem bufInitResetAndSizes : Obligations.BufInitResetAndSizes := by
  refine ⟨fun s c pk rnd enc padded inner old hs hin hlen => ⟨?ecb, ?cbcZero, ?cbcIv⟩,
    fun s c inner padded k hs => ⟨?reset, ?gos, ?guos⟩,
    fun s c inner padded hs => ⟨_, exec_bufReset hs, s.updates_finish c _⟩⟩
  case ecb | cbcZero =>
    rintro rfl rfl
    exact ⟨_, exec_bufInit hs hin hlen nofun nofun nofun rnd enc, s.updates_finish c _⟩
  case cbcIv =>
    rintro rfl rfl hiv
    refine ⟨_, exec_bufInit hs hin hlen nofun nofun (fun _ _ => hiv) rnd enc, ?_⟩
    rw [State.ivBlock, State.ivBytes, hiv]
    exact s.updates_finish c _
  case reset => exact ⟨_, exec_bufReset hs, s.updates_finish c _⟩
  case gos => exact ⟨_, exec_bufGos hs, s.sizes_finishSize _⟩
  case guos =>
    refine ⟨_, exec_bufGuos hs, ?_⟩
    rw [bufUpdateSize_eq]
    exact s.sizes_finishSize _

/-- Settles O35: PBYTE case by case. -/
theorem bufPbyteBuffersOneByte : Obligations.BufPbyteBuffersOneByte := by
  intro s c inner padded k hs hout
  refine ⟨?unpaddedFill, ?unpaddedFlush, ?paddedFill, ?paddedFlush⟩
  case unpaddedFill =>
    rintro rfl hoff
    exact ⟨_, exec_bufPbyte hs hout (bufByte_unpadded_fill hoff.ne _ _) (.inl rfl), s.emits_emitOut c _ _⟩
  case unpaddedFlush =>
    rintro rfl hoff hfits
    rw [← length_bufFlush (bufFill k [s.byteOperand]) s.params.bufByteReset.val] at hfits
    exact ⟨_, exec_bufPbyte hs hout (bufByte_unpadded_flush hoff _ _) hfits, s.emits_emitOut c _ _⟩
  case paddedFill =>
    rintro rfl hoff
    exact ⟨_, exec_bufPbyte hs hout (bufByte_padded_fill hoff.ne _ _) (.inl rfl), s.emits_emitOut c _ _⟩
  case paddedFlush =>
    rintro rfl hoff hfits
    rw [← length_bufFlush k 0] at hfits
    exact ⟨_, exec_bufPbyte hs hout (bufByte_padded_flush hoff _ _) hfits, s.emits_emitOut c _ _⟩

/-- Settles O36: the output is as long as GUOS says, and what fits the output array fits RESULT. -/
theorem bufPbytesWritesTheUpdateSize : Obligations.BufPbytesWritesTheUpdateSize := by
  intro s c inner padded k hs hoff hin hfits
  dsimp only
  rw [← bufUpdateSize_eq]
  intro hout
  have hlen := length_bufBytes hoff (s.inBytes s.len)
  have hemits := s.emitsOver_emit c (.buf inner padded (some (bufBytes padded k (s.inBytes s.len)).2)) s.len
    (bufBytes padded k (s.inBytes s.len)).1
  refine ⟨_, exec_bufPbytes hs hin hfits hout, hemits, ?_⟩
  rw [hemits.done.result, hlen, s.length_inBytes, BitVec.toNat_ofNat, Nat.mod_eq_of_lt hout.lt]

/-- Settles O38: FINAL form by form; every error past its precise checks is raised in the reset slot. -/
theorem bufFinalFinishesOrResets : Obligations.BufFinalFinishesOrResets := by
  intro s c inner padded k hs hout
  refine ⟨fun hpad hfits hoff => ?whole, fun hpad hfits hoff => ?leftover, fun hpad henc hoff hfits => ?encPartial,
    fun hpad henc hoff hfits => ?encFull, fun hpad henc hoff => ?decPartial, fun hpad henc hoff hcount => ?decBad,
    fun n hpad henc hoff hcount => ⟨fun hfits => ?decGood, fun hfits => ?decLong⟩⟩
  case whole =>
    refine ⟨_, ?_, s.updates_finish c _⟩
    rw [exec_bufFinal_unpadded hs hout hpad, bufFinalPlain, State.guard_pos hfits, State.guard_pos hoff]
    rfl
  case leftover =>
    refine ⟨_, ?_, s.fails_raise c _ _⟩
    rw [exec_bufFinal_unpadded hs hout hpad, bufFinalPlain, State.guard_pos hfits, State.guard_neg hoff]
    rfl
  case encPartial =>
    refine ⟨_, ?_, s.emits_emitOut c _ _⟩
    rw [exec_bufFinal_encrypting hs hout hpad henc, bufFinalEnc, if_neg hoff.ne, State.guard_pos hfits,
      bufFinalBytes_partial hoff]
    rfl
  case encFull =>
    refine ⟨_, ?_, s.emits_emitOut c _ _⟩
    rw [exec_bufFinal_encrypting hs hout hpad henc, bufFinalEnc, if_pos hoff, State.guard_pos hfits,
      bufFinalBytes_full hoff]
    rfl
  case decPartial =>
    refine ⟨_, ?_, s.fails_raise c _ _⟩
    rw [exec_bufFinal_decrypting hs hout hpad henc, bufFinalDec, State.guard_neg hoff]
    rfl
  case decBad =>
    refine ⟨_, ?_, s.fails_raise c _ _⟩
    rw [exec_bufFinal_decrypting hs hout hpad henc, bufFinalDec, State.guard_pos hoff, hcount]
    rfl
  case decGood =>
    refine ⟨_, ?_, s.emits_emitOut c _ _⟩
    rw [exec_bufFinal_decrypting hs hout hpad henc, bufFinalDec, State.guard_pos hoff, hcount]
    exact State.guard_pos hfits _ _
  case decLong =>
    refine ⟨_, ?_, s.fails_raise c _ _⟩
    rw [exec_bufFinal_decrypting hs hout hpad henc, bufFinalDec, State.guard_pos hoff, hcount]
    exact State.guard_neg hfits _ _

/-- Settles O39: PAD.ADD writes `padTail`, and PAD.CNT accepts just the blocks that are `PadValid`. -/
theorem padCommandsAddAndCount : Obligations.PadCommandsAddAndCount := by
  intro s hin
  refine ⟨fun hoff => ?add, fun hoff => ⟨_, exec_padAdd_of_lt hin hoff, s.precise_raise _⟩,
    fun hn => ⟨_, exec_padCnt_of_empty hin hn, s.precise_raise _⟩, fun hn => ?count⟩
  case add =>
    obtain ⟨houtside, hbytes⟩ := s.stores_memWrite (s.arg 0 + s.arg 2) (padTail (s.arg 1) (s.arg 2))
    rw [length_padTail] at houtside hbytes
    refine ⟨_, exec_padAdd hin hoff, ⟨⟨rfl, rfl, rfl, rfl, rfl, rfl⟩, rfl, rfl, rfl, rfl, rfl, rfl⟩, rfl, houtside,
      fun j hj hlt => ?_⟩
    have haddr : s.arg 0 + j = s.arg 0 + s.arg 2 + (j - s.arg 2) := by omega
    have hlast : j - s.arg 2 < s.arg 1 - s.arg 2 := by omega
    rw [haddr, ← getD_padTail hlast]
    exact hbytes _ hlast
  case count =>
    dsimp only
    rw [← padValid_memRead (s.arg 0) hn, ← padCode_memRead (s.arg 0) hn]
    exact ⟨fun h => ⟨_, exec_padCnt_of_valid hin hn h, s.answers_finish _⟩,
      fun h => ⟨_, exec_padCnt_of_not_valid hin hn h, s.precise_raise _⟩⟩

/-- Settles O40: a block PadAdd has filled is `PadValid`. -/
theorem padCountInvertsPadAdd : Obligations.PadCountInvertsPadAdd := by
  intro blk off hlen hoff
  obtain ⟨hvalid, hcode⟩ := padValid_padAdd hlen hoff
  exact ⟨hcode ▸ padCount_of_valid hvalid, take_padAdd hoff.le⟩

end Sys2Proof.Proofs
end

section
/-! SUPPORT. CBC chaining (46_cbc.md R341, R345, R346): a block in each direction, and the decrypting slot that follows
an encrypting one. -/

namespace Sys2Proof.Machine

theorem cbcBlock_encrypting {k : CbcKeyed} (h : k.enc = true) (x : Block) : cbcBlock k x =
    (aesE k.aes.rk (k.cbcV ^^^ x), { k with cbcV := aesE k.aes.rk (k.cbcV ^^^ x) }) := if_pos h

theorem cbcBlock_decrypting {k : CbcKeyed} (h : k.enc = false) (x : Block) : cbcBlock k x =
    (aesD k.aes.rk x ^^^ k.cbcV, { k with cbcV := x, cbcNextV := k.cbcV }) := if_neg (by rw [h]; decide)

/-- `d` decrypts what `e` encrypts: it holds the inverse cipher's keys of the same schedule and stands at the same
chaining block. -/
structure CbcFollows (e d : CbcKeyed) : Prop where
  encrypting : e.enc = true
  decrypting : d.enc = false
  rounds : 2 ≤ e.aes.rk.length
  keys : d.aes.rk = decKeys e.aes.rk
  chain : d.cbcV = e.cbcV

namespace CbcFollows

variable {e d : CbcKeyed}

/-- R342: two slots keyed alike, one to encrypt and one to decrypt, before any block. -/
theorem initial (key : List Byte) (iv next : Block) :
    CbcFollows ⟨true, keySchedule key .E, iv, iv, next⟩ ⟨false, keySchedule key .D, iv, iv, next⟩ where
  encrypting := rfl
  decrypting := rfl
  rounds := (length_keyExpansion key).symm ▸ by omega
  keys := rfl
  chain := rfl

/-- One block there and back: the inverse cipher gives the block the chain was added to, and both slots now chain on
the ciphertext. -/
theorem cbcBlock_inverts (h : CbcFollows e d) (x : Block) : (cbcBlock d (cbcBlock e x).1).1 = x ∧
    CbcFollows (cbcBlock e x).2 (cbcBlock d (cbcBlock e x).1).2 := by
  rw [cbcBlock_encrypting h.encrypting, cbcBlock_decrypting h.decrypting]
  refine ⟨?_, h.encrypting, h.decrypting, h.rounds, h.keys, rfl⟩
  show aesD d.aes.rk (aesE e.aes.rk (e.cbcV ^^^ x)) ^^^ d.cbcV = x
  rw [h.keys, aesD_decKeys_aesE h.rounds, h.chain, BitVec.xor_comm e.cbcV, xor_cancel_right]

theorem cbcRun_inverts (h : CbcFollows e d) (xs : List Block) : (cbcRun d (cbcRun e xs).1).1 = xs := by
  induction xs generalizing e d with
  | nil => rfl
  | cons x xs ih =>
    obtain ⟨hblock, hnext⟩ := h.cbcBlock_inverts x
    exact congrArg₂ List.cons hblock (ih hnext)

end CbcFollows

end Sys2Proof.Machine
end

section
/-! SUPPORT. The CBC commands (46_cbc.md R342 to R344) past their checks. -/

namespace Sys2Proof.Machine

variable {s : State} {c : Ctx}

theorem exec_cbcInit {pk : PKind} {old : Option CbcKeyed} (hs : s.slot? c = some (.cbc old))
    (hin : s.AllInside (s.initRanges pk)) (hlen : AesLen (s.arg 1)) (hkind : pk ≠ .aead)
    (hiv : pk = .keyIv → s.arg 3 = 16) (rnd enc : Bool) :
    exec (.cbcInit c pk rnd enc) s = .next ((s.setSlot c (.cbc (some (cbcRestart
      ⟨enc, keySchedule s.keyBytes (dirOf enc), s.ivBlock pk, 0, 0⟩)))).finish 0) := by
  show execCbcInit c pk rnd enc s = _
  rw [execCbcInit, State.onSlot_cbc hs, State.guard_pos hin, State.guard_pos hkind, State.guard_pos hiv,
    aesLoad_of_aesLen (s.length_keyBytes.symm ▸ hlen), State.loadKey_some]

theorem exec_cbcPblk {k : CbcKeyed} (hs : s.slot? c = some (.cbc (some k)))
    (hin : s.AllInside [s.inArray, s.outArray]) (hfits : s.InFits 16) (hout : s.OutFits 16)
    {y : Block × CbcKeyed} (hy : cbcBlock k (blockOf (s.inBytes 16)) = y) :
    exec (.cbcPblk c) s = .next ((s.setSlot c (.cbc (some y.2))).emit 16 (toBytes y.1)) := by
  show execCbcPblk c s = _
  rw [execCbcPblk, State.onSlot_cbc hs, State.guard_pos hin, State.require_some, State.guard_pos hfits,
    State.guard_pos hout, hy]

theorem exec_cbcReset {key : Option CbcKeyed} (hs : s.slot? c = some (.cbc key)) :
    exec (.cbcReset c) s = .next ((s.setSlot c (.cbc (key.map cbcRestart))).finish 0) :=
  State.onSlot_cbc hs

end Sys2Proof.Machine
end

section
/-! The obligations about CBC mode (46_cbc.md). -/

namespace Sys2Proof.Proofs

open Sys2Proof Sys2Proof.Machine

/-- Settles O42: the decrypting slot follows the encrypting one from the IV on, block by block. -/
theorem cbcDecryptionInvertsEncryption : Obligations.CbcDecryptionInvertsEncryption :=
  fun key iv ps _ => (CbcFollows.initial key iv 0).cbcRun_inverts ps

/-- Settles O41: each command by its equation. -/
theorem cbcCommandsChain : Obligations.CbcCommandsChain := by
  refine ⟨fun s c pk rnd enc old hs hin hlen => ⟨?initZero, ?initIv⟩,
    fun s c k hs hin hfits hout => ⟨fun henc => ?encrypt, fun henc => ?decrypt⟩,
    fun s c k hs => ⟨_, exec_cbcReset hs, s.updates_finish c _⟩,
    fun s c hs => ⟨_, exec_cbcReset hs, s.updates_finish c _⟩⟩
  case initZero =>
    rintro rfl
    exact ⟨_, exec_cbcInit hs hin hlen nofun nofun rnd enc, s.updates_finish c _⟩
  case initIv =>
    rintro rfl hiv
    refine ⟨_, exec_cbcInit hs hin hlen nofun (fun _ => hiv) rnd enc, ?_⟩
    rw [State.ivBlock, State.ivBytes, hiv]
    exact s.updates_finish c _
  case encrypt =>
    exact ⟨_, exec_cbcPblk hs hin hfits hout (cbcBlock_encrypting henc _), s.emitsOver_emit c _ 16 _⟩
  case decrypt =>
    exact ⟨_, exec_cbcPblk hs hin hfits hout (cbcBlock_decrypting henc _), s.emitsOver_emit c _ 16 _⟩

end Sys2Proof.Proofs
end

section
/-! SUPPORT. The CTR keystream (47_ctr.md R361, R362, R373): it is periodic in the position as the position itself is
kept, and xor with it undoes itself and may be split. -/

namespace Sys2Proof.Machine

/-! ## Byte strings -/

theorem xorBytes_xorBytes {a b : List Byte} (h : a.length = b.length) : xorBytes (xorBytes a b) b = a :=
  List.ext_getElem (by simp [h]) fun i _ _ => by simp [xorBytes]

theorem blockOf_append_zeros (b : List Byte) (n : Nat) : blockOf (b ++ zeros n) = blockOf b := by
  have hfill : (b ++ zeros n ++ zeros 16).take 16 = (b ++ zeros 16).take 16 := by
    simp only [zeros, List.append_assoc, List.replicate_append_replicate, List.take_append, List.take_replicate]
    congr 2
    omega
  rw [blockOf, hfill, ← blockOf]

/-! ## The keystream -/

variable (k : CtrKeyed)

theorem ctrXor_eq (d : List Byte) : ctrXor k d = xorBytes d (keystream k k.pos d.length) := rfl

@[simp] theorem length_keystream (p n : Nat) : (keystream k p n).length = n := by simp [keystream]

theorem keystream_add (p m n : Nat) : keystream k p (m + n) = keystream k p m ++ keystream k (p + m) n := by
  simp [keystream, List.range_add, Nat.add_assoc]

/-- R361, R362: positions are kept modulo 2^132, the counter block adds modulo 2^128, and a block has 16 bytes. -/
theorem ctrKeystream_congr {p q : Nat} (h : p % 2 ^ 132 = q % 2 ^ 132) : ctrKeystream k p = ctrKeystream k q := by
  have hblock : BitVec.ofNat 128 (p / 16) = BitVec.ofNat 128 (q / 16) := BitVec.eq_of_toNat_eq (by
    rw [BitVec.toNat_ofNat, BitVec.toNat_ofNat]
    omega)
  have hbyte : p % 16 = q % 16 := by omega
  rw [ctrKeystream, ctrBlock, hblock, hbyte, ← ctrBlock, ← ctrKeystream]

theorem keystream_ctrAdvance (m n : Nat) :
    keystream (ctrAdvance k m) (ctrAdvance k m).pos n = keystream k (k.pos + m) n :=
  List.map_congr_left fun i _ => ctrKeystream_congr k (Nat.mod_add_mod (k.pos + m) _ i)

/-! ## Xor with the keystream -/

theorem ctrXor_ctrXor (d : List Byte) : ctrXor k (ctrXor k d) = d := by
  rw [ctrXor_eq, length_ctrXor, ctrXor_eq, xorBytes_xorBytes (length_keystream k k.pos d.length).symm]

theorem ctrXor_append (d e : List Byte) : ctrXor k (d ++ e) = ctrXor k d ++ ctrXor (ctrAdvance k d.length) e := by
  rw [ctrXor_eq, List.length_append, keystream_add, ctrXor_eq, ctrXor_eq, keystream_ctrAdvance]
  exact List.zipWith_append (length_keystream k k.pos d.length).symm

theorem ctrAdvance_ctrAdvance (m n : Nat) : ctrAdvance (ctrAdvance k m) n = ctrAdvance k (m + n) := by
  have hpos : ((k.pos + m) % 2 ^ 132 + n) % 2 ^ 132 = (k.pos + (m + n)) % 2 ^ 132 := by
    rw [Nat.mod_add_mod, Nat.add_assoc]
  exact congrArg (fun p => { k with pos := p }) hpos

end Sys2Proof.Machine
end

section
/-! SUPPORT. The CTR commands (47_ctr.md R364 to R372) past their checks, with the room and the settable positions in
terms of the IV's length. -/

namespace Sys2Proof.Machine

open Host (Outcome)

variable {s : State} {c : Ctx} {k : CtrKeyed}

/-! ## The counter's tail (R360) -/

theorem CtrKeyed.tail_eq_zero (h : k.ivLen ≤ 16) : k.tail = 0 ↔ k.ivLen = 16 := by
  rw [CtrKeyed.tail]
  omega

theorem CtrKeyed.hasRoom_iff (h : k.ivLen ≤ 16) (n : Nat) : k.HasRoom n ↔
    n = 0 ∨ k.ivLen = 16 ∨ (k.pos + n - 1) / 16 < 2 ^ (8 * (16 - k.ivLen)) := by
  rw [CtrKeyed.HasRoom, CtrKeyed.InRange, CtrKeyed.tail_eq_zero h, CtrKeyed.tail]

theorem CtrKeyed.settable_iff (h : k.ivLen ≤ 16) (p : Int) : k.Settable p ↔
    k.ivLen = 16 ∨ (0 ≤ p ∧ p < 16 * 2 ^ (8 * (16 - k.ivLen))) := by
  rw [CtrKeyed.Settable, CtrKeyed.tail_eq_zero h, CtrKeyed.tail]

theorem ctrSetPos_eq (h : k.ivLen ≤ 16) (p : Int) : ctrSetPos k p =
    { k with pos := if k.ivLen = 16 then (p % 2 ^ 132).toNat else p.toNat } := by
  simp only [ctrSetPos, CtrKeyed.tail_eq_zero h]

/-! ## CTR.INIT, CTR.RESET and CTR.GPOS (R365, R369, R372) -/

theorem exec_ctrInit {old : Option CtrKeyed} (hs : s.slot? c = some (.ctr old))
    (hin : s.AllInside (s.initRanges .keyIv)) (hlen : AesLen (s.arg 1)) (hiv : 8 ≤ s.arg 3 ∧ s.arg 3 ≤ 16)
    (rnd enc : Bool) : exec (.ctrInit c .keyIv rnd enc) s = .next ((s.setSlot c
      (.ctr (some ⟨enc, keySchedule s.keyBytes .E, s.arg 3, blockOf s.ivBytes, 0⟩))).finish 0) := by
  show execCtrInit c .keyIv rnd enc s = _
  rw [execCtrInit, State.onSlot_ctr hs, State.guard_pos hin, State.guard_pos rfl, State.guard_pos hiv,
    aesLoad_of_aesLen (s.length_keyBytes.symm ▸ hlen), State.loadKey_some]

theorem exec_ctrReset {key : Option CtrKeyed} (hs : s.slot? c = some (.ctr key)) : exec (.ctrReset c) s =
    .next ((s.setSlot c (.ctr (key.map fun k => { k with pos := 0 }))).finish 0) :=
  State.onSlot_ctr hs

theorem exec_ctrGpos (hs : s.slot? c = some (.ctr (some k))) :
    exec (.ctrGpos c) s = .next (s.finish (BitVec.ofNat 64 k.pos)) :=
  State.onSlot_ctr hs

/-! ## CTR.SKIP and CTR.SEEK (R370, R371) -/

/-- What SKIP and SEEK do once they know the position to set: the check of R364, and the position set. -/
def ctrMoveTo (s : State) (c : Ctx) (k : CtrKeyed) (p : Int) : Outcome State Fault Refusal :=
  s.guard (k.Settable p) .misuseDetected <|
  .next ((s.setSlot c (.ctr (some (ctrSetPos k p)))).finish (s.argW 0))

theorem exec_ctrSkip (hs : s.slot? c = some (.ctr (some k))) :
    exec (.ctrSkip c) s = ctrMoveTo s c k (k.pos + (s.argW 0).toInt) :=
  State.onSlot_ctr hs

theorem exec_ctrSeek (hs : s.slot? c = some (.ctr (some k))) : exec (.ctrSeek c) s = ctrMoveTo s c k (s.arg 0) :=
  State.onSlot_ctr hs

theorem ctrMoveTo_of_settable {p : Int} (h : k.Settable p) : ∃ t, ctrMoveTo s c k p = .next t ∧
    Completes s t .ok (s.argW 0) ∧ t.slots = s.slots.set c.toNat (.ctr (some (ctrSetPos k p))) ∧ SameDmem s t :=
  ⟨_, State.guard_pos h _ _, ⟨⟨rfl, rfl, rfl, rfl, rfl, rfl⟩, rfl, rfl, rfl, rfl, rfl, rfl⟩, rfl, fun _ => rfl⟩

theorem ctrMoveTo_of_not_settable {p : Int} (h : ¬ k.Settable p) :
    ∃ t, ctrMoveTo s c k p = .next t ∧ Precise s t .misuseDetected :=
  ⟨_, State.guard_neg h _ _, s.precise_raise _⟩

/-! ## CTR.PBLK, CTR.PBYTE and CTR.PBYTES (R366 to R368) -/

theorem exec_ctrPblk (hs : s.slot? c = some (.ctr (some k))) (hin : s.AllInside [s.inArray, s.outArray])
    (hfits : s.InFits 16) (hout : s.OutFits 16) :
    exec (.ctrPblk c) s = ctrStream s c k (s.inBytes 16) fun t bs => t.emit 16 bs := by
  show execCtrPblk c s = _
  rw [execCtrPblk, State.onSlot_ctr hs, State.guard_pos hin, State.require_some, State.guard_pos hfits,
    State.guard_pos hout]

theorem exec_ctrPbyte (hs : s.slot? c = some (.ctr (some k))) (hin : s.AllInside [s.outArray]) (hout : s.OutFits 1) :
    exec (.ctrPbyte c) s = ctrStream s c k [s.byteOperand] fun t bs => t.emitOut bs := by
  show execCtrPbyte c s = _
  rw [execCtrPbyte, State.onSlot_ctr hs, State.guard_pos hin, State.require_some, State.guard_pos hout]

theorem exec_ctrPbytes (hs : s.slot? c = some (.ctr (some k))) (hin : s.AllInside [s.inArray, s.outArray])
    (hfits : s.InFits s.len) (hout : s.OutFits s.len) :
    exec (.ctrPbytes c) s = ctrStream s c k (s.inBytes s.len) fun t bs => t.emit s.len bs := by
  show execCtrPbytes c s = _
  rw [execCtrPbytes, State.onSlot_ctr hs, State.guard_pos hin, State.require_some, State.guard_pos hfits,
    State.guard_pos hout]

/-- The part PBLK and PBYTES share: `n` bytes of the input array xored under the overlap rule. -/
theorem ctrStream_inBytes_of_room {n : Nat} (h : k.HasRoom n) :
    ∃ t, ctrStream s c k (s.inBytes n) (fun t bs => t.emit n bs) = .next t ∧
      EmitsOver s t n (s.slots.set c.toNat (.ctr (some (ctrAdvance k n))))
        (xorBytes (s.inBytes n) (keystream k k.pos n)) := by
  refine ⟨_, State.guard_pos (by rwa [s.length_inBytes]) _ _, ?_⟩
  rw [ctrXor_eq, s.length_inBytes]
  exact s.emitsOver_emit c _ n _

theorem ctrStream_byte_of_room {b : Byte} (h : k.HasRoom 1) :
    ∃ t, ctrStream s c k [b] (fun t bs => t.emitOut bs) = .next t ∧
      Emits s t (s.slots.set c.toNat (.ctr (some (ctrAdvance k 1)))) [b ^^^ ctrKeystream k k.pos] :=
  ⟨_, State.guard_pos h _ _, s.emits_emitOut c _ _⟩

theorem ctrStream_of_not_room {data : List Byte} {n : Nat} (hlen : data.length = n) (h : ¬ k.HasRoom n)
    (out : State → List Byte → State) :
    ∃ t, ctrStream s c k data out = .next t ∧ Precise s t .misuseDetected :=
  ⟨_, State.guard_neg (hlen ▸ h) _ _, s.precise_raise _⟩

end Sys2Proof.Machine
end

section
/-! The obligations about CTR mode (47_ctr.md). -/

namespace Sys2Proof.Proofs

open Sys2Proof Sys2Proof.Machine

/-- Settles O43: each command by its equation; SKIP and SEEK move to a position where it is settable. -/
theorem ctrInitAndPositionCommands : Obligations.CtrInitAndPositionCommands := by
  refine ⟨fun s c rnd enc old hs hin hlen hlow hhigh => ?init, fun s c k hs hiv => ?position,
    fun s c hs => ⟨_, exec_ctrReset hs, s.updates_finish c _⟩⟩
  case init =>
    rw [blockOf_append_zeros]
    exact ⟨_, exec_ctrInit hs hin hlen ⟨hlow, hhigh⟩ rnd enc, s.updates_finish c _⟩
  case position =>
    dsimp only
    simp only [← CtrKeyed.settable_iff hiv, ← ctrSetPos_eq hiv]
    rw [exec_ctrSkip hs, exec_ctrSeek hs]
    exact ⟨⟨_, exec_ctrReset hs, s.updates_finish c _⟩, ctrMoveTo_of_settable, ctrMoveTo_of_not_settable,
      ctrMoveTo_of_settable, ctrMoveTo_of_not_settable, ⟨_, exec_ctrGpos hs, s.answers_finish _⟩⟩

/-- Settles O44: past its checks each command is `ctrStream`, which has two cases. -/
theorem ctrStreamsXorTheKeystream : Obligations.CtrStreamsXorTheKeystream := by
  intro s c k hs room put
  have hroom (hiv : k.ivLen ≤ 16) (n : Nat) : room n ↔ k.HasRoom n := (CtrKeyed.hasRoom_iff hiv n).symm
  refine ⟨fun hiv hin hfits hout => ?block, fun hiv hin hout => ?byte, fun hiv hin hfits hout => ?bytes⟩
  case block =>
    rw [exec_ctrPblk hs hin hfits hout, hroom hiv]
    exact ⟨ctrStream_inBytes_of_room, fun h => ctrStream_of_not_room (s.length_inBytes 16) h _⟩
  case byte =>
    rw [exec_ctrPbyte hs hin hout, hroom hiv]
    exact ⟨ctrStream_byte_of_room, fun h => ctrStream_of_not_room rfl h _⟩
  case bytes =>
    rw [exec_ctrPbytes hs hin hfits hout, hroom hiv]
    exact ⟨ctrStream_inBytes_of_room, fun h => ctrStream_of_not_room (s.length_inBytes s.len) h _⟩

/-- Settles O45: the direction is not in the keystream, and positions are kept modulo its period. -/
theorem ctrIsSelfInverseAndSplits : Obligations.CtrIsSelfInverseAndSplits := by
  intro k enc d e
  refine ⟨ctrXor_ctrXor k d, ctrXor_append k d e, ?_⟩
  rw [ctrAdvance_ctrAdvance, List.length_append]

end Sys2Proof.Proofs
end

section
/-! SUPPORT. GF(2^128) (48_gcm.md R390 to R394): GMUL is additive, multiplication by one block commutes with
multiplication by another, and GHASH goes on after a string. -/

namespace Sys2Proof.Machine

/-! ## Multiplication by x (R391) -/

theorem gfHalve_xor (v w : Block) : gfHalve (v ^^^ w) = gfHalve v ^^^ gfHalve w := by
  have hmove (r : Block) : v >>> 1 ^^^ w >>> 1 ^^^ r = v >>> 1 ^^^ r ^^^ w >>> 1 := by ac_rfl
  have hcancel (r : Block) : v >>> 1 ^^^ r ^^^ (w >>> 1 ^^^ r) = v >>> 1 ^^^ w >>> 1 := by
    rw [← BitVec.xor_assoc, ← hmove, xor_cancel_right]
  rw [gfHalve, BitVec.getLsbD_xor, BitVec.ushiftRight_xor_distrib, gfHalve, gfHalve]
  cases v.getLsbD 0 <;> cases w.getLsbD 0
  · rfl
  · exact BitVec.xor_assoc ..
  · exact hmove _
  · exact (hcancel _).symm

/-- A power of x that is not the last bit is only shifted. -/
theorem gfHalve_twoPow {i : Nat} (h : i + 1 < 128) : gfHalve (BitVec.twoPow 128 (i + 1)) = BitVec.twoPow 128 i := by
  have hlow : ¬ (BitVec.twoPow 128 (i + 1)).getLsbD 0 = true := by simp
  rw [gfHalve, if_neg hlow]
  refine BitVec.eq_of_getLsbD_eq fun j _ => ?_
  simp only [BitVec.getLsbD_ushiftRight, BitVec.getLsbD_twoPow]
  grind

/-! ## The loop of GMUL (R391) -/

/-- A map of blocks that is additive and commutes with multiplication by x. -/
structure GfLinear (f : Block → Block) : Prop where
  xor : ∀ v w, f (v ^^^ w) = f v ^^^ f w
  halve : ∀ v, f (gfHalve v) = gfHalve (f v)

theorem GfLinear.gmulLoop {f : Block → Block} (hf : GfLinear f) (i : Nat) (x v z : Block) :
    f (gmulLoop i x v z) = gmulLoop i x (f v) (f z) := by
  induction i generalizing v z with
  | zero => rfl
  | succ i ih =>
    rw [Machine.gmulLoop, ih, hf.halve, Machine.gmulLoop]
    split
    · rw [hf.xor]
    · rfl

theorem gmulLoop_xor (i : Nat) (x v w z u : Block) :
    gmulLoop i x (v ^^^ w) (z ^^^ u) = gmulLoop i x v z ^^^ gmulLoop i x w u := by
  induction i generalizing v w z u with
  | zero => rfl
  | succ i ih =>
    rw [gmulLoop, gmulLoop, gmulLoop, ← ih, gfHalve_xor]
    congr 1
    split
    · ac_rfl
    · rfl

/-- One turn of the loop at a power of x sets the operand's bit. -/
theorem getLsbD_gmul_turn {i : Nat} (hi : i < 128) (x z : Block) (j : Nat) :
    (if x.getLsbD i then z ^^^ BitVec.twoPow 128 i else z).getLsbD j =
      (z.getLsbD j ^^ (decide (i = j) && x.getLsbD i)) := by
  cases x.getLsbD i
  · simp
  · simp [BitVec.getLsbD_twoPow, hi]

/-- Over the powers of x the loop adds up the operand's own bits. -/
theorem getLsbD_gmulLoop_twoPow {i : Nat} (hi : i < 128) (x z : Block) (j : Nat) :
    (gmulLoop (i + 1) x (BitVec.twoPow 128 i) z).getLsbD j = (z.getLsbD j ^^ (decide (j ≤ i) && x.getLsbD j)) := by
  induction i generalizing z with
  | zero =>
    rw [gmulLoop, gmulLoop, getLsbD_gmul_turn hi]
    grind
  | succ i ih =>
    rw [gmulLoop, gfHalve_twoPow hi, ih (by omega), getLsbD_gmul_turn hi]
    grind

/-! ## The field (R390, R391) -/

theorem gfLinear_gmul (x : Block) : GfLinear (gmul x) where
  xor v w := gmulLoop_xor 128 x v w 0 0
  halve v := by
    have hhalve : GfLinear gfHalve := ⟨gfHalve_xor, fun _ => rfl⟩
    exact (hhalve.gmulLoop 128 x v 0).symm

theorem gmul_xor (x y z : Block) : gmul x (y ^^^ z) = gmul x y ^^^ gmul x z := (gfLinear_gmul x).xor y z

theorem gmul_zero (x : Block) : gmul x 0 = 0 := by
  have h := gmul_xor x 0 0
  rw [BitVec.xor_self, BitVec.xor_self] at h
  exact h

/-- Multiplications by two blocks commute. -/
theorem gmul_left_comm (x y z : Block) : gmul x (gmul y z) = gmul y (gmul x z) := by
  have h := (gfLinear_gmul x).gmulLoop 128 y z 0
  rw [gmul_zero] at h
  exact h

theorem gmul_one (x : Block) : gmul x gfOne = x := by
  refine BitVec.eq_of_getLsbD_eq fun j hj => ?_
  refine (getLsbD_gmulLoop_twoPow (by decide) x 0 j).trans ?_
  simp [Nat.le_of_lt_succ hj]

theorem gmul_comm (x y : Block) : gmul x y = gmul y x := by
  have h := gmul_left_comm x y gfOne
  rwa [gmul_one, gmul_one] at h

theorem gmul_assoc (x y z : Block) : gmul (gmul x y) z = gmul x (gmul y z) := by
  rw [gmul_comm, gmul_left_comm, gmul_comm z y]

theorem one_gmul (x : Block) : gmul gfOne x = x := by rw [gmul_comm, gmul_one]

theorem xor_gmul (x y z : Block) : gmul (x ^^^ y) z = gmul x z ^^^ gmul y z := by
  rw [gmul_comm, gmul_xor, gmul_comm z x, gmul_comm z y]

/-- The element x is the one multiplication by which `gfHalve` is. -/
theorem gmul_gfHalve_one (x : Block) : gmul x (gfHalve gfOne) = gfHalve x := by
  rw [(gfLinear_gmul x).halve, gmul_one]

/-! ## GHASH (R392, R394) -/

theorem ghash_concat (h : Block) (xs : List Block) (x : Block) :
    ghash h (xs ++ [x]) = gmul (ghash h xs ^^^ x) h := by
  rw [ghash, List.foldl_append, List.foldl_cons, List.foldl_nil, ← ghash]

/-- GHASH of a string after another: the first one's, times a power of H, and the second one's. -/
theorem ghash_append (h : Block) (xs ys : List Block) :
    ghash h (xs ++ ys) = gmul (ghash h xs) (hpow h ys.length) ^^^ ghash h ys := by
  induction ys using List.reverseRecOn with
  | nil =>
    rw [List.append_nil]
    exact (gmul_one _).symm.trans (BitVec.xor_zero).symm
  | append_singleton ys y ih =>
    rw [← List.append_assoc, ghash_concat, ih, ghash_concat, List.length_append, List.length_singleton, hpow,
      BitVec.xor_assoc, xor_gmul, gmul_assoc]

end Sys2Proof.Machine
end

section
/-! SUPPORT. The associated data of a GCM slot (48_gcm.md R397): what the accumulator holds after any bytes, and what
folding makes of it. -/

namespace Sys2Proof.Machine

theorem blocksOf_of_length_le {b : List Byte} (hpos : 0 < b.length) (hle : b.length ≤ 16) :
    blocksOf b = [blockOf b] := by
  rw [blocksOf, show (b.length + 15) / 16 = 1 by omega]
  show [blockOf (b.take 16)] = [blockOf b]
  rw [List.take_of_length_le hle]

/-- The block with its last byte set is the bytes before it and the byte. -/
theorem blockOf_setByteAt_last (v : Block) (b : Byte) : blockOf ((toBytes v).take 15 ++ [b]) = setByteAt v 15 b := by
  rw [← take_toBytes_setByteAt v (by decide), take_toBytes, blockOf_toBytes]

/-- The accumulator has absorbed `a` under the hash key `H`: the whole blocks `whole` of it are hashed, and the rest
waits. -/
structure AadHolds (H : Block) (a whole : List Byte) (st : AadState) : Prop where
  blocks : 16 ∣ whole.length
  bytes : a = whole ++ (toBytes st.atBlock).take (a.length % 16)
  hash : st.sAt = ghash H (blocksOf whole)
  count : st.aadLen = BitVec.ofNat 64 a.length

namespace AadHolds

variable {H : Block} {a whole : List Byte} {st : AadState}

theorem initial (H : Block) : AadHolds H [] [] ⟨0, 0, 0⟩ := ⟨Nat.dvd_zero 16, rfl, rfl, rfl⟩

theorem aadLen_mod (h : AadHolds H a whole st) : st.aadLen.toNat % 16 = a.length % 16 := by
  rw [h.count, BitVec.toNat_ofNat]
  omega

theorem aadLen_succ (h : AadHolds H a whole st) (b : Byte) :
    st.aadLen + 1 = BitVec.ofNat 64 (a ++ [b]).length := by
  rw [h.count, List.length_append, BitVec.ofNat_add]
  rfl

theorem absorb (h : AadHolds H a whole st) (b : Byte) :
    ∃ whole', AadHolds H (a ++ [b]) whole' (aadAbsorb H st b) := by
  have hcount := h.aadLen_succ b
  have hlen : (a ++ [b]).length = a.length + 1 := List.length_append
  have hnext : (st.aadLen + 1).toNat % 16 = (a.length + 1) % 16 := by
    rw [hcount, BitVec.toNat_ofNat, hlen]
    omega
  rw [aadAbsorb, h.aadLen_mod, hnext]
  by_cases hfull : a.length % 16 = 15
  · have hzero : (a ++ [b]).length % 16 = 0 := by omega
    have hlast : blocksOf ((toBytes st.atBlock).take 15 ++ [b]) = [setByteAt st.atBlock 15 b] := by
      rw [blocksOf_of_length_le (by simp) (by simp), blockOf_setByteAt_last]
    have hbytes := h.bytes
    rw [hfull] at hbytes
    rw [if_pos (by omega), hfull]
    refine ⟨a ++ [b], Nat.dvd_of_mod_eq_zero hzero, ?_, ?_, hcount⟩
    · rw [hzero, List.take_zero, List.append_nil]
    · rw [hbytes, List.append_assoc, blocksOf_append h.blocks, hlast, ghash_concat, h.hash]
  · have hsucc : (a ++ [b]).length % 16 = a.length % 16 + 1 := by omega
    rw [if_neg (by omega)]
    refine ⟨whole, h.blocks, ?_, h.hash, hcount⟩
    rw [hsucc, take_toBytes_setByteAt _ (by omega), ← List.append_assoc, ← h.bytes]

theorem absorbBytes (h : AadHolds H a whole st) (bs : List Byte) :
    ∃ whole', AadHolds H (a ++ bs) whole' (aadAbsorbBytes H st bs) := by
  induction bs generalizing a whole st with
  | nil =>
    rw [List.append_nil]
    exact ⟨whole, h⟩
  | cons b bs ih =>
    obtain ⟨_, hbyte⟩ := h.absorb b
    rw [← List.singleton_append, ← List.append_assoc]
    exact ih hbyte

/-- Folding hashes the rest, filled up with zeros. -/
theorem fold (h : AadHolds H a whole st) : aadFold H st = ghash H (blocksOf a) := by
  have hbytes := h.bytes
  rw [aadFold, h.aadLen_mod]
  by_cases hnone : a.length % 16 = 0
  · rw [hnone, List.take_zero, List.append_nil] at hbytes
    rw [if_pos hnone, h.hash, ← hbytes]
  · have hrest : ((toBytes st.atBlock).take (a.length % 16)).length = a.length % 16 := by
      rw [List.length_take, length_toBytes]
      omega
    have hlast := blocksOf_of_length_le (hrest.symm ▸ Nat.pos_of_ne_zero hnone) (hrest.trans_le (by omega))
    have hblocks := congrArg blocksOf hbytes
    rw [blocksOf_append h.blocks, hlast] at hblocks
    rw [if_neg hnone, hblocks, ghash_concat, h.hash]

end AadHolds

end Sys2Proof.Machine
end

section
/-! SUPPORT. The data of a GCM slot (48_gcm.md R396, R398, R403, R404): the counter-mode cipher, what the slot has
processed of its data, and what it holds back. -/

namespace Sys2Proof.Machine

/-! ## The counter-mode cipher (R398, R411) -/

theorem xorBytes_xorBytes_of_le {a b : List Byte} (h : a.length ≤ b.length) : xorBytes (xorBytes a b) b = a :=
  List.ext_getElem (by simp [h]) fun i _ _ => by simp [xorBytes]

theorem length_flatMap_toBytes (f : Nat → Block) (n : Nat) :
    ((List.range n).flatMap fun i => toBytes (f i)).length = 16 * n := by
  simp [List.length_flatMap, Nat.mul_comm]

section Cipher

variable (rk : List Block) (j : Block)

/-- The keystream of `n` blocks after the counter block `j`. -/
def gcmStream (n : Nat) : List Byte := (List.range n).flatMap fun i => toBytes (aesE rk (inc32^[i + 1] j))

theorem length_gcmStream (n : Nat) : (gcmStream rk j n).length = 16 * n :=
  length_flatMap_toBytes (fun i => aesE rk (inc32^[i + 1] j)) n

theorem gcmStream_add (m n : Nat) : gcmStream rk j (m + n) = gcmStream rk j m ++ gcmStream rk (inc32^[m] j) n := by
  have hctr (i : Nat) : inc32^[m + i + 1] j = inc32^[i + 1] (inc32^[m] j) := by
    rw [← Function.iterate_add_apply, Nat.add_comm (i + 1), Nat.add_assoc]
  rw [gcmStream, List.range_add, List.flatMap_append, List.flatMap_map]
  simp only [hctr]
  rfl

theorem gcmCipher_eq (d : List Byte) : gcmCipher rk j d = xorBytes d (gcmStream rk j ((d.length + 15) / 16)) := rfl

@[simp] theorem length_gcmCipher (d : List Byte) : (gcmCipher rk j d).length = d.length := by
  rw [gcmCipher_eq, length_xorBytes, length_gcmStream]
  omega

theorem gcmCipher_gcmCipher (d : List Byte) : gcmCipher rk j (gcmCipher rk j d) = d := by
  rw [gcmCipher_eq, length_gcmCipher, gcmCipher_eq, xorBytes_xorBytes_of_le]
  rw [length_gcmStream]
  omega

/-- After whole blocks the counter goes on where they left it. -/
theorem gcmCipher_append {d : List Byte} (hd : 16 ∣ d.length) (e : List Byte) :
    gcmCipher rk j (d ++ e) = gcmCipher rk j d ++ gcmCipher rk (inc32^[d.length / 16] j) e := by
  have hsplit : ((d ++ e).length + 15) / 16 = d.length / 16 + (e.length + 15) / 16 := by
    rw [List.length_append]
    omega
  have hwhole : (d.length + 15) / 16 = d.length / 16 := by omega
  have hlen : d.length = (gcmStream rk j (d.length / 16)).length := by
    rw [length_gcmStream]
    omega
  rw [gcmCipher_eq, hsplit, gcmStream_add, gcmCipher_eq, hwhole, gcmCipher_eq]
  exact List.zipWith_append hlen

/-- One block, which may be short. -/
theorem gcmCipher_of_length_le {x : List Byte} (hpos : 0 < x.length) (hle : x.length ≤ 16) :
    gcmCipher rk j x = xorBytes x (toBytes (aesE rk (inc32 j))) := by
  rw [gcmCipher_eq, show (x.length + 15) / 16 = 1 by omega]
  exact congrArg (xorBytes x) (List.append_nil _)

end Cipher

/-! ## What a slot has processed (R398) -/

/-- What is hashed of the input `x`: its ciphertext. -/
def GcmKeyed.hashed (g : GcmKeyed) (x : List Byte) : List Byte :=
  if g.enc then gcmCipher g.aes.rk g.j0 x else x

theorem GcmKeyed.length_hashed (g : GcmKeyed) (x : List Byte) : (g.hashed x).length = x.length := by
  unfold GcmKeyed.hashed
  split
  · exact length_gcmCipher ..
  · rfl

/-- The slot has processed the input `x` to the output `out`. -/
structure GcmDone (g : GcmKeyed) (x out : List Byte) : Prop where
  output : out = gcmCipher g.aes.rk g.j0 x
  hash : g.s = ghash g.h (blocksOf (g.hashed x))
  count : g.ctLen = x.length

variable {g : GcmKeyed} {x m whole out : List Byte}

theorem gcmData_sameKey (g : GcmKeyed) (x : List Byte) : g.SameKey (gcmData g x).2 :=
  ⟨rfl, rfl, rfl, rfl, rfl, rfl, rfl, rfl⟩

theorem gcmData_s (g : GcmKeyed) (x : List Byte) :
    (gcmData g x).2.s = gmul (g.s ^^^ blockOf (if g.enc then (gcmData g x).1 else x)) g.h := by
  rw [gcmData]

theorem GcmKeyed.hashed_append (hw : 16 ∣ whole.length) (x : List Byte) (hctr : g.ctr = inc32^[whole.length / 16] g.j0) :
    g.hashed (whole ++ x) = g.hashed whole ++ if g.enc then gcmCipher g.aes.rk g.ctr x else x := by
  unfold GcmKeyed.hashed
  split
  · rw [gcmCipher_append _ _ hw, hctr]
  · rfl

theorem GcmKeyed.SameKey.hashed {g' : GcmKeyed} (h : g.SameKey g') (x : List Byte) : g'.hashed x = g.hashed x := by
  rw [GcmKeyed.hashed, h.enc, h.aes, h.j0, GcmKeyed.hashed]

/-- GCMData after whole blocks, on one block, which may be short. -/
theorem GcmDone.data (hd : GcmDone g whole out) (hw : 16 ∣ whole.length)
    (hctr : g.ctr = inc32^[whole.length / 16] g.j0) (hpos : 0 < x.length) (hle : x.length ≤ 16) :
    GcmDone (gcmData g x).2 (whole ++ x) (out ++ (gcmData g x).1) := by
  have hout : (gcmData g x).1 = gcmCipher g.aes.rk g.ctr x := (gcmCipher_of_length_le _ _ hpos hle).symm
  have hlen : (if g.enc then (gcmData g x).1 else x).length = x.length := by
    split
    · exact length_gcmData g hle
    · rfl
  have hlast := blocksOf_of_length_le (hpos.trans_eq hlen.symm) (hlen.trans_le hle)
  refine ⟨?_, ?_, ?_⟩
  · rw [hd.output, hout, hctr]
    exact (gcmCipher_append _ _ hw x).symm
  · rw [(gcmData_sameKey g x).hashed, GcmKeyed.hashed_append hw x hctr, ← hout,
      blocksOf_append (g.length_hashed whole ▸ hw), hlast, (gcmData_sameKey g x).h, ghash_concat, ← hd.hash, gcmData_s]
  · rw [List.length_append, ← hd.count]
    rfl

/-! ## What a slot holds (R403, R404) -/

/-- The bytes a slot holds back: less than a block, and decrypting what may be the tag. -/
def GcmKeyed.held (g : GcmKeyed) : List Byte := (toBytes g.bufBlock).take g.bufOff

/-- The slot has taken in the data `m`: it has processed the whole blocks `whole` of it and holds the rest back. -/
structure GcmHolds (g : GcmKeyed) (m whole out : List Byte) : Prop extends GcmDone g whole out where
  blocks : 16 ∣ whole.length
  ctr : g.ctr = inc32^[whole.length / 16] g.j0
  bytes : m = whole ++ g.held
  room : g.bufOff < g.cap
  mac : g.macSize ≤ 16
  kept : g.enc = true ∨ whole = [] ∨ g.macSize ≤ g.bufOff

theorem GcmKeyed.cap_encrypting (h : g.enc = true) : g.cap = 16 := if_pos h

theorem GcmKeyed.cap_decrypting (h : g.enc = false) : g.cap = 16 + g.macSize := if_neg (by rw [h]; decide)

theorem GcmKeyed.cap_le (h : g.macSize ≤ 16) : 16 ≤ g.cap ∧ g.cap ≤ 32 := by
  unfold GcmKeyed.cap
  split <;> omega

theorem GcmKeyed.length_held (h : g.bufOff ≤ 32) : g.held.length = g.bufOff := by
  rw [GcmKeyed.held, List.length_take, length_toBytes]
  omega

theorem GcmKeyed.held_push (h : g.bufOff < 32) (b : Byte) : (g.push b).held = g.held ++ [b] :=
  take_toBytes_setByteAt g.bufBlock (by omega) b

theorem gcmRewind_encrypting (h : g.enc = true) : gcmRewind g = { g with bufOff := 0 } := if_pos h

theorem gcmRewind_decrypting (h : g.enc = false) : gcmRewind g = { g with
    bufBlock := setBytesAt g.bufBlock 0 (((toBytes g.bufBlock).drop 16).take g.macSize)
    bufOff := g.macSize } := if_neg (by rw [h]; decide)

/-- After a block, what is held beyond it moves to the front. -/
theorem held_gcmRewind (hfull : g.bufOff = g.cap) (hmac : g.macSize ≤ 16) : (gcmRewind g).held = g.held.drop 16 := by
  cases henc : g.enc
  · have hlen : (((toBytes g.bufBlock).drop 16).take g.macSize).length = g.macSize := by
      rw [List.length_take, List.length_drop, length_toBytes]
      omega
    have hfront := take_toBytes_setBytesAt g.bufBlock (i := 0) (((toBytes g.bufBlock).drop 16).take g.macSize)
      (by omega)
    rw [hlen, Nat.zero_add, List.take_zero, List.nil_append] at hfront
    rw [gcmRewind_decrypting henc, GcmKeyed.held, hfront, GcmKeyed.held, hfull, g.cap_decrypting henc, List.drop_take,
      Nat.add_sub_cancel_left]
  · rw [gcmRewind_encrypting henc, GcmKeyed.held, List.take_zero, List.drop_of_length_le]
    rw [GcmKeyed.held, hfull, g.cap_encrypting henc]
    exact List.length_take_le ..

theorem GcmDone.rewind (h : GcmDone g x out) : GcmDone (gcmRewind g) x out := by
  cases henc : g.enc
  · rw [gcmRewind_decrypting henc]
    exact ⟨h.output, h.hash, h.count⟩
  · rw [gcmRewind_encrypting henc]
    exact ⟨h.output, h.hash, h.count⟩

theorem gcmRewind_ctr (g : GcmKeyed) : (gcmRewind g).ctr = g.ctr := by
  unfold gcmRewind
  split <;> rfl

/-- A byte that fills the buffer sends a block through. -/
theorem GcmHolds.byte_full (h : GcmHolds g m whole out) (b : Byte) (hfull : g.bufOff + 1 = g.cap) :
    GcmHolds (gcmByte g b).2 (m ++ [b]) (whole ++ (g.push b).held.take 16) (out ++ (gcmByte g b).1) := by
  have hcap := g.cap_le h.mac
  have hkey := gcmByte_sameKey g b
  have hoff := (gcmByte_counts g b).1
  rw [if_pos hfull] at hoff
  have hblock : (toBytes (g.push b).bufBlock).take 16 = (g.push b).held.take 16 := by
    rw [GcmKeyed.held, List.take_take, Nat.min_eq_left (hcap.1.trans_eq hfull.symm)]
  have hlen : ((g.push b).held.take 16).length = 16 := by
    rw [← hblock, List.length_take, length_toBytes]
    rfl
  have hdata := GcmDone.data (g := g.push b) ⟨h.output, h.hash, h.count⟩ h.blocks h.ctr
    (hlen.symm ▸ by decide) hlen.le
  have hheld : (gcmByte g b).2.held = (g.push b).held.drop 16 := by
    rw [gcmByte_full hfull]
    exact held_gcmRewind hfull h.mac
  have hbytes : m ++ [b] = whole ++ (g.push b).held.take 16 ++ (g.push b).held.drop 16 := by
    rw [List.append_assoc, List.take_append_drop, h.bytes, g.held_push (by omega), List.append_assoc]
  have hcount : (whole ++ (g.push b).held.take 16).length / 16 = whole.length / 16 + 1 := by
    rw [List.length_append, hlen]
    omega
  have hroom : (gcmByte g b).2.bufOff < (gcmByte g b).2.cap := by
    rw [hoff, hkey.cap, GcmKeyed.cap]
    split <;> omega
  refine ⟨?_, ?_, ?_, hheld ▸ hbytes, hroom, hkey.macSize ▸ h.mac, ?_⟩
  · rw [gcmByte_full hfull, hblock]
    exact hdata.rewind
  · rw [List.length_append, hlen]
    exact Nat.dvd_add h.blocks (Nat.dvd_refl 16)
  · rw [gcmByte_full hfull, gcmRewind_ctr, hcount, Function.iterate_succ_apply', ← gcmByte_full hfull, hkey.j0,
      ← h.ctr]
    rfl
  · rw [hoff, hkey.enc, hkey.macSize]
    cases g.enc
    · exact .inr (.inr le_rfl)
    · exact .inl rfl

theorem GcmHolds.byte_partial (h : GcmHolds g m whole out) (b : Byte) (hroom : g.bufOff + 1 ≠ g.cap) :
    GcmHolds (gcmByte g b).2 (m ++ [b]) whole (out ++ (gcmByte g b).1) := by
  have hlt : g.bufOff + 1 < g.cap := Nat.lt_of_le_of_ne h.room hroom
  have hcap := g.cap_le h.mac
  have hbytes : m ++ [b] = whole ++ (g.push b).held := by
    rw [h.bytes, g.held_push (by omega), List.append_assoc]
  rw [gcmByte_partial hroom, List.append_nil]
  exact ⟨⟨h.output, h.hash, h.count⟩, h.blocks, h.ctr, hbytes, hlt, h.mac,
    h.kept.imp id (Or.imp id Nat.le_succ_of_le)⟩

theorem GcmHolds.byte (h : GcmHolds g m whole out) (b : Byte) :
    ∃ whole', GcmHolds (gcmByte g b).2 (m ++ [b]) whole' (out ++ (gcmByte g b).1) := by
  by_cases hfull : g.bufOff + 1 = g.cap
  · exact ⟨_, h.byte_full b hfull⟩
  · exact ⟨_, h.byte_partial b hfull⟩

theorem GcmHolds.bytes_append (h : GcmHolds g m whole out) (bs : List Byte) :
    ∃ whole', GcmHolds (gcmBytes g bs).2 (m ++ bs) whole' (out ++ (gcmBytes g bs).1) := by
  induction bs generalizing g m whole out with
  | nil =>
    rw [gcmBytes, List.append_nil, List.append_nil]
    exact ⟨whole, h⟩
  | cons b bs ih =>
    obtain ⟨_, hbyte⟩ := h.byte b
    rw [gcmBytes, ← List.append_assoc, ← List.singleton_append, ← List.append_assoc]
    exact ih hbyte

end Sys2Proof.Machine
end

section
/-! SUPPORT. A GCM slot against its closed form (48_gcm.md R405, R411): what FINAL makes of a slot, and of a whole
message in any pieces. -/

namespace Sys2Proof.Machine

variable {g : GcmKeyed} {x m a whole out : List Byte}

/-! ## FINAL (R405) -/

theorem gcmTailLen_encrypting (h : g.enc = true) : gcmTailLen g = g.bufOff := if_pos h

theorem gcmTailLen_decrypting (h : g.enc = false) : gcmTailLen g = g.bufOff - g.macSize := if_neg (by rw [h]; decide)

theorem gcmTailLen_le (h : g.bufOff < g.cap) : gcmTailLen g ≤ g.bufOff ∧ gcmTailLen g ≤ 16 := by
  cases henc : g.enc
  · rw [g.cap_decrypting henc] at h
    rw [gcmTailLen_decrypting henc]
    omega
  · rw [g.cap_encrypting henc] at h
    rw [gcmTailLen_encrypting henc]
    omega

theorem gcmTail_sameKey (g : GcmKeyed) : g.SameKey (gcmTail g).2 := by
  unfold gcmTail
  split
  · exact ⟨rfl, rfl, rfl, rfl, rfl, rfl, rfl, rfl⟩
  · exact gcmData_sameKey g _

/-- FINAL processes what is held back but the tag. -/
theorem GcmHolds.tail (h : GcmHolds g m whole out) :
    GcmDone (gcmTail g).2 (whole ++ g.held.take (gcmTailLen g)) (out ++ (gcmTail g).1) := by
  have hle := gcmTailLen_le h.room
  have htail : g.held.take (gcmTailLen g) = (toBytes g.bufBlock).take (gcmTailLen g) := by
    rw [GcmKeyed.held, List.take_take, Nat.min_eq_left hle.1]
  rw [gcmTail]
  split
  case isTrue hnone =>
    rw [hnone, List.take_zero, List.append_nil, List.append_nil]
    exact h.toGcmDone
  case isFalse hsome =>
    have hlen : ((toBytes g.bufBlock).take (gcmTailLen g)).length = gcmTailLen g := by
      rw [List.length_take, length_toBytes]
      omega
    rw [htail]
    exact h.toGcmDone.data h.blocks h.ctr (by omega) (by omega)

theorem length_gcmTagOf (rk : List Block) (h j : Block) (a c : List Byte) {t : Nat} (ht : t ≤ 16) :
    (gcmTagOf rk h j a c t).length = t := by
  rw [gcmTagOf, List.length_take, length_toBytes]
  omega

/-- The tag of a slot that has processed `x` is the closed form's. -/
theorem GcmDone.tag (hd : GcmDone g x out) (ha : AadHolds g.h a whole g.aad) :
    gcmTagBytes g = gcmTagOf g.aes.rk g.h g.j0 a (g.hashed x) g.macSize := by
  have hlen : (blocksOf (g.hashed x)).length = (g.ctLen + 15) / 16 := by
    rw [length_blocksOf, g.length_hashed, hd.count]
  have hbits : 8 * g.aad.aadLen = BitVec.ofNat 64 (8 * a.length) := by
    rw [ha.count, BitVec.ofNat_mul]
    rfl
  rw [gcmTagBytes, gcmTag, gcmTagOf, ghash_concat, ghash_append, hlen, ha.fold, hd.hash, hbits, g.length_hashed,
    hd.count]

/-- All but the tag of what a slot has taken in is processed by FINAL; what is held back behind it is the tag. -/
theorem GcmHolds.final (h : GcmHolds g m whole out) {rest : List Byte} (hm : m = x ++ rest)
    (hrest : rest.length = if g.enc then 0 else g.macSize) :
    GcmDone (gcmTail g).2 x (out ++ (gcmTail g).1) ∧ g.held.drop (gcmTailLen g) = rest ∧
      gcmTailLen g + rest.length = g.bufOff := by
  have hcap := g.cap_le h.mac
  have hroom := h.room
  have hheld := g.length_held (by omega)
  have hlen : gcmTailLen g + rest.length = g.bufOff := by
    cases henc : g.enc
    case true =>
      rw [gcmTailLen_encrypting henc, hrest, henc]
      rfl
    case false =>
      replace hrest : rest.length = g.macSize := by rw [hrest, henc, if_neg (by decide)]
      have hkept : g.macSize ≤ g.bufOff := by
        obtain hk | rfl | hk := h.kept
        · exact absurd hk (by simp [henc])
        · rw [← hheld, ← hrest, ← List.nil_append g.held, ← h.bytes, hm, List.length_append]
          exact Nat.le_add_left ..
        · exact hk
      rw [gcmTailLen_decrypting henc, hrest, Nat.sub_add_cancel hkept]
  have hsplit : x ++ rest = whole ++ g.held.take (gcmTailLen g) ++ g.held.drop (gcmTailLen g) := by
    rw [← hm, h.bytes, List.append_assoc, List.take_append_drop]
  obtain ⟨hx, htag⟩ := List.append_inj' hsplit (by rw [List.length_drop, hheld]; omega)
  exact ⟨hx ▸ h.tail, htag.symm, hlen⟩

theorem gcmReceivedTag_eq (h : gcmTailLen g + g.macSize = g.bufOff) :
    gcmReceivedTag g = g.held.drop (gcmTailLen g) := by
  rw [gcmReceivedTag, GcmKeyed.held, List.drop_take, ← h, Nat.add_sub_cancel_left]

/-! ## A whole message (R411) -/

theorem gcmInit_holds (enc : Bool) (k : AesKey) {t : Nat} (ht : t ≤ 16) (nonce a : List Byte) :
    GcmHolds (gcmInit enc k t nonce a) [] [] [] where
  output := rfl
  hash := by
    rw [List.eq_nil_of_length_eq_zero (GcmKeyed.length_hashed _ [])]
    rfl
  count := rfl
  blocks := Nat.dvd_zero 16
  ctr := rfl
  bytes := rfl
  room := by cases enc <;> simp [gcmInit, gcmStart, GcmKeyed.cap]
  mac := ht
  kept := .inr (.inl rfl)

theorem gcmInit_aad (enc : Bool) (k : AesKey) (t : Nat) (nonce a : List Byte) :
    ∃ whole, AadHolds (aesE k.rk 0) a whole (gcmInit enc k t nonce a).aad :=
  (AadHolds.initial _).absorbBytes a

theorem gcmRun_sameKey (g : GcmKeyed) (xs : List (List Byte × List Byte)) :
    GcmKeyed.SameKey { g with aad := (gcmRun g xs).2.aad } (gcmRun g xs).2 := by
  induction xs generalizing g with
  | nil => exact ⟨rfl, rfl, rfl, rfl, rfl, rfl, rfl, rfl⟩
  | cons p xs ih =>
    have hfirst := gcmBytes_sameKey { g with aad := aadAbsorbBytes g.h g.aad p.1 } p.2
    have hrest := ih (gcmBytes { g with aad := aadAbsorbBytes g.h g.aad p.1 } p.2).2
    exact ⟨hrest.init.trans hfirst.init, hrest.enc.trans hfirst.enc, hrest.aes.trans hfirst.aes,
      hrest.macSize.trans hfirst.macSize, hrest.h.trans hfirst.h, hrest.j0.trans hfirst.j0, rfl,
      hrest.snap.trans hfirst.snap⟩

/-- However associated data and data are interleaved, the slot has taken in all of both. -/
theorem GcmHolds.run (h : GcmHolds g m whole out) {w : List Byte} (ha : AadHolds g.h a w g.aad)
    (xs : List (List Byte × List Byte)) :
    (∃ whole', GcmHolds (gcmRun g xs).2 (m ++ xs.flatMap Prod.snd) whole' (out ++ (gcmRun g xs).1)) ∧
    ∃ w', AadHolds (gcmRun g xs).2.h (a ++ xs.flatMap Prod.fst) w' (gcmRun g xs).2.aad := by
  induction xs generalizing g m whole out a w with
  | nil =>
    simp only [gcmRun, List.flatMap_nil, List.append_nil]
    exact ⟨⟨_, h⟩, _, ha⟩
  | cons p xs ih =>
    obtain ⟨w', hw'⟩ := ha.absorbBytes p.1
    have haad : GcmHolds { g with aad := aadAbsorbBytes g.h g.aad p.1 } m whole out :=
      ⟨⟨h.output, h.hash, h.count⟩, h.blocks, h.ctr, h.bytes, h.room, h.mac, h.kept⟩
    obtain ⟨_, hdata⟩ := haad.bytes_append p.2
    have hkey := gcmBytes_sameKey { g with aad := aadAbsorbBytes g.h g.aad p.1 } p.2
    have hnext := ih hdata (by rw [hkey.aad, hkey.h]; exact hw')
    simpa only [gcmRun, List.flatMap_cons, List.append_assoc] using hnext

/-- R411: with the slot keyed by INIT and given all its associated data and data, what FINAL ends the output with and
the tag it makes are the closed form's, and decrypting it compares the tag with the last bytes given. -/
theorem gcmRun_final {enc : Bool} {k : AesKey} {t : Nat} (ht : t ≤ 16) {nonce a0 x rest : List Byte}
    {xs : List (List Byte × List Byte)} (hm : xs.flatMap Prod.snd = x ++ rest)
    (hrest : rest.length = if enc then 0 else t) {r : List Byte × GcmKeyed}
    (hr : gcmRun (gcmInit enc k t nonce a0) xs = r) :
    r.1 ++ (gcmTail r.2).1 = gcmCipher k.rk (gcmJ0 (aesE k.rk 0) nonce) x ∧
    gcmTagBytes (gcmTail r.2).2 = gcmTagOf k.rk (aesE k.rk 0) (gcmJ0 (aesE k.rk 0) nonce)
      (a0 ++ xs.flatMap Prod.fst) (if enc then gcmCipher k.rk (gcmJ0 (aesE k.rk 0) nonce) x else x) t ∧
    (enc = false → gcmReceivedTag r.2 = rest) := by
  subst hr
  obtain ⟨_, ha0⟩ := gcmInit_aad enc k t nonce a0
  obtain ⟨⟨_, hdata⟩, _, haad⟩ := (gcmInit_holds enc k ht nonce a0).run ha0 xs
  have hrun := gcmRun_sameKey (gcmInit enc k t nonce a0) xs
  have hkey := hrun.trans (gcmTail_sameKey _)
  obtain ⟨hdone, htag, hlen⟩ := hdata.final hm (by rw [hrun.enc, hrun.macSize]; exact hrest)
  have htagBytes := hdone.tag (whole := _) (by rw [hkey.h, hkey.aad, ← hrun.h]; exact haad)
  rw [hkey.aes, hkey.h, hkey.j0, hkey.macSize, hkey.hashed] at htagBytes
  refine ⟨?_, htagBytes, fun henc => ?_⟩
  · have hout := hdone.output
    rw [hkey.aes, hkey.j0] at hout
    exact hout
  · subst henc
    have hwhole : gcmTailLen (gcmRun (gcmInit false k t nonce a0) xs).2 +
        (gcmRun (gcmInit false k t nonce a0) xs).2.macSize = (gcmRun (gcmInit false k t nonce a0) xs).2.bufOff := by
      rw [hrun.macSize, ← hlen, hrest]
      rfl
    rw [gcmReceivedTag_eq hwhole, htag]

end Sys2Proof.Machine
end

section
/-! SUPPORT. The GCM commands and GF.MUL (48_gcm.md R399 to R410) past their checks. -/

namespace Sys2Proof.Machine

open Host (Outcome)

variable {s : State} {c : Ctx} {g : GcmSlot} {k : GcmKeyed}

/-- A command that leaves a slot as it is updates it to itself. -/
theorem State.updates_finish_same {sl : Slot} (hs : s.slot? c = some sl) : Updates s (s.finish 0) c sl := by
  have h := s.updates_finish c sl
  rwa [State.setSlot_self hs] at h

theorem Completes.toNat_result {t : State} {e : Err} {n : Nat} (h : Completes s t e (BitVec.ofNat 64 n))
    (hn : n < 2 ^ 64) : t.result.toNat = n := by
  rw [h.result, BitVec.toNat_ofNat, Nat.mod_eq_of_lt hn]

/-- R400, R447: the nonce is not used again with its key, or the slot does not encrypt. -/
theorem not_reuse_iff {enc : Bool} {nonce key : Prop} : ¬(enc = true ∧ nonce ∧ key) ↔ enc = false ∨ ¬nonce ∨ ¬key := by
  cases enc <;> simp [imp_iff_not_or]

theorem GcmSlot.ready_of_init (hk : g.key = some k) (hi : k.init = true) : g.ready = some k :=
  Option.filter_eq_some_iff.mpr ⟨hk, hi⟩

/-! ## GCM.INIT (R400) -/

theorem exec_gcmInit {pk : PKind} (hs : s.slot? c = some (.gcm g)) (hin : s.AllInside (s.initRanges pk))
    (hok : GcmOperandsOk s pk) (hcap : s.arg 3 ≤ s.params.gcmNonceMax) (hlen : AesLen (s.arg 1)) {enc : Bool}
    (hreuse : ¬(enc = true ∧ g.lastNonce = some s.ivBytes ∧ g.lastKey = some s.keyBytes)) (rnd : Bool) :
    exec (.gcmInit c pk rnd enc) s = .next ((s.setSlot c (.gcm ⟨some (gcmInit enc (keySchedule s.keyBytes .E)
      (s.gcmMacSize pk) s.ivBytes (s.aadBytes pk)), 0, some s.keyBytes, some s.ivBytes⟩)).finish 0) := by
  show execGcmInit c pk rnd enc s = _
  rw [execGcmInit, State.onSlot_gcm hs, State.guard_pos hin, State.guard_pos hok.kind, State.guard_pos hok.mac,
    State.guard_pos hok.nonce, State.guard_pos hcap, aesLoad_of_aesLen (s.length_keyBytes.symm ▸ hlen),
    State.loadKey_some, State.guard_pos hreuse]

/-! ## A ready slot: GCM.AAD, GCM.AADS, GCM.PBYTE and GCM.PBYTES (R401 to R404) -/

section Ready

variable (hs : s.slot? c = some (.gcm g)) (hk : g.ready = some k)
include hs hk

theorem exec_gcmAad : exec (.gcmAad c) s = .next ((s.setSlot c
    (.gcm { g with key := some { k with aad := aadAbsorb k.h k.aad s.byteOperand } })).finish 0) := by
  show execGcmAad c s = _
  rw [execGcmAad, State.onSlot_gcm hs, hk, State.require_some, State.putGcm_eq]

theorem exec_gcmAads (hin : s.AllInside [s.inArray]) (hfits : s.InFits s.len) :
    exec (.gcmAads c) s = .next ((s.setSlot c
      (.gcm { g with key := some { k with aad := aadAbsorbBytes k.h k.aad (s.inBytes s.len) } })).finish 0) := by
  show execGcmAads c s = _
  rw [execGcmAads, State.onSlot_gcm hs, State.guard_pos hin, hk, State.require_some, State.guard_pos hfits,
    State.putGcm_eq]

theorem exec_gcmPbyte (hin : s.AllInside [s.outArray]) (hout : s.OutFits (gcmByteSize k)) :
    exec (.gcmPbyte c) s = s.guard (¬(gcmByteSize k = 16 ∧ k.blocksLeft = 0)) .misuseDetected (.next
      ((s.setSlot c (.gcm { g with key := some (gcmByte k s.byteOperand).2 })).emitOut
        (gcmByte k s.byteOperand).1)) := by
  show execGcmPbyte c s = _
  rw [execGcmPbyte, State.onSlot_gcm hs, State.guard_pos hin, hk, State.require_some, State.guard_pos hout,
    State.putGcm_eq]

theorem exec_gcmPbytes (hin : s.AllInside [s.inArray, s.outArray]) (hfits : s.InFits s.len)
    (hout : s.OutFits (gcmUpdateSize k s.len)) :
    exec (.gcmPbytes c) s = s.guard (gcmUpdateSize k s.len / 16 ≤ k.blocksLeft) .misuseDetected (.next
      ((s.setSlot c (.gcm { g with key := some (gcmBytes k (s.inBytes s.len)).2 })).emit s.len
        (gcmBytes k (s.inBytes s.len)).1)) := by
  show execGcmPbytes c s = _
  rw [execGcmPbytes, State.onSlot_gcm hs, State.guard_pos hin, hk, State.require_some, State.guard_pos hfits,
    State.guard_pos hout, State.putGcm_eq]

end Ready

/-! ## GCM.FINAL (R405) -/

/-- What FINAL does past its precise checks of R503. -/
def gcmFinish (s : State) (c : Ctx) (g : GcmSlot) (k : GcmKeyed) : Outcome State Fault Refusal :=
  (s.restartGcm c g k).guard (k.enc = true ∨ k.macSize ≤ k.bufOff) .authenticationFailed <|
  s.guard (¬(0 < gcmTailLen k ∧ k.blocksLeft = 0)) .misuseDetected <|
  match k.enc with
  | true => .next ((s.endGcm c g k).emitOut ((gcmTail k).1 ++ gcmTagBytes (gcmTail k).2))
  | false =>
    (s.restartGcm c g k).guard (gcmReceivedTag k = gcmTagBytes (gcmTail k).2) .authenticationFailed <|
    .next ((s.endGcm c g k).emitOut (gcmTail k).1)

theorem gcmOutputSize_zero (k : GcmKeyed) :
    gcmOutputSize k 0 = if k.enc then k.bufOff + k.macSize else gcmTailLen k := by
  unfold gcmOutputSize gcmTailLen
  rw [Nat.zero_add]
  cases k.enc <;> rfl

theorem gcmTagBytes_gcmTail (k : GcmKeyed) :
    gcmTagBytes (gcmTail k).2 = (toBytes (gcmTag (gcmTail k).2)).take k.macSize := by
  rw [gcmTagBytes, gcmTail_macSize]

theorem exec_gcmFinal (hs : s.slot? c = some (.gcm g)) (hk : g.ready = some k) (hin : s.AllInside [s.outArray])
    (hout : s.OutFits (if k.enc then k.bufOff + k.macSize else gcmTailLen k)) :
    exec (.gcmFinal c) s = gcmFinish s c g k := by
  show execGcmFinal c s = _
  rw [execGcmFinal, State.onSlot_gcm hs, State.guard_pos hin, hk, State.require_some,
    State.guard_pos (gcmOutputSize_zero k ▸ hout)]
  rfl

/-- An input shorter than the tag. -/
theorem gcmFinish_of_short (henc : k.enc = false) (hshort : k.bufOff < k.macSize) :
    gcmFinish s c g k = .next ((s.restartGcm c g k).raise .authenticationFailed) :=
  State.guard_neg (by simp [henc, hshort]) _ _

theorem gcmFinish_of_spent (htag : k.enc = true ∨ k.macSize ≤ k.bufOff) (hspent : 0 < gcmTailLen k ∧ k.blocksLeft = 0) :
    gcmFinish s c g k = .next (s.raise .misuseDetected) := by
  rw [gcmFinish, State.guard_pos htag, State.guard_neg (not_not.mpr hspent)]

theorem gcmFinish_encrypting (henc : k.enc = true) (hroom : ¬(0 < gcmTailLen k ∧ k.blocksLeft = 0)) :
    gcmFinish s c g k = .next ((s.endGcm c g k).emitOut ((gcmTail k).1 ++ gcmTagBytes (gcmTail k).2)) := by
  rw [gcmFinish, State.guard_pos (.inl henc), State.guard_pos hroom, henc]

theorem gcmFinish_decrypting (henc : k.enc = false) (htag : k.macSize ≤ k.bufOff)
    (hroom : ¬(0 < gcmTailLen k ∧ k.blocksLeft = 0)) : gcmFinish s c g k = (s.restartGcm c g k).guard
      (gcmReceivedTag k = gcmTagBytes (gcmTail k).2) .authenticationFailed
      (.next ((s.endGcm c g k).emitOut (gcmTail k).1)) := by
  rw [gcmFinish, State.guard_pos (.inr htag), State.guard_pos hroom, henc]

/-! ## A keyed slot: GCM.GMAC, GCM.RESET, GCM.GOS and GCM.GUOS (R406 to R409) -/

section Keyed

variable (hs : s.slot? c = some (.gcm g)) (hk : g.key = some k)
include hs hk

theorem exec_gcmGmac (hin : s.AllInside [s.outArray]) (hout : s.OutFits k.macSize) :
    exec (.gcmGmac c) s = .next (s.emitOut ((toBytes g.macBlock).take k.macSize)) := by
  show execGcmGmac c s = _
  rw [execGcmGmac, State.onSlot_gcm hs, State.guard_pos hin, hk, State.require_some, State.guard_pos hout]

theorem exec_gcmGos : exec (.gcmGos c) s = .next (s.finishSize (gcmOutputSize k s.len)) := by
  show execGcmGos c s = _
  rw [execGcmGos, State.onSlot_gcm hs, hk, State.require_some]

theorem exec_gcmGuos : exec (.gcmGuos c) s = .next (s.finishSize (gcmUpdateSize k s.len)) := by
  show execGcmGuos c s = _
  rw [execGcmGuos, State.onSlot_gcm hs, hk, State.require_some]

end Keyed

theorem exec_gcmReset_of_unkeyed (hs : s.slot? c = some (.gcm g)) (hk : g.key = none) :
    exec (.gcmReset c) s = .next (s.finish 0) := by
  show execGcmReset c s = _
  rw [execGcmReset, State.onSlot_gcm hs, hk]

/-! ## GF.MUL (R410) -/

section Store

variable (s : State) (ins : List Range) (a : Nat) (bs : List Byte) (r : Word64)

theorem State.completes_storeOver_finish : Completes s ((s.storeOver ins a bs).finish r) .ok r :=
  ⟨⟨rfl, rfl, rfl, rfl, rfl, rfl⟩, rfl, rfl, rfl, rfl, rfl, rfl⟩

theorem State.storesOver_storeOver_finish : StoresOver s ((s.storeOver ins a bs).finish r) ins a bs := by
  obtain ⟨houtside, hexact, hdrawn, hdraws⟩ := s.storesOver_storeOver ins a bs
  exact ⟨houtside, hexact, hdrawn, hdraws⟩

end Store

theorem exec_gfMul (hin : s.AllInside [s.gfRange 0, s.gfRange 1, s.gfRange 4]) :
    exec .gfMul s = .next ((s.storeOver [s.gfRange 0, s.gfRange 1] (s.arg 4)
      (toBytes (gmul (blockOf (s.memRead (s.arg 0) 16)) (blockOf (s.memRead (s.arg 1) 16))))).finish 16) :=
  State.guard_pos hin _ _

end Sys2Proof.Machine
end

section
/-! The obligations about GCM and GF.MUL (48_gcm.md). -/

namespace Sys2Proof.Proofs

open Sys2Proof Sys2Proof.Machine

/-- Settles O51: multiplications commute with each other, and each is fixed by what it makes of the identity. -/
theorem gmulIsAFieldProduct : Obligations.GmulIsAFieldProduct :=
  ⟨gmul_comm, gmul_assoc, xor_gmul, one_gmul, gmul_gfHalve_one 1⟩

/-- Settles O52: in either direction by what FINAL makes of all that the slot was given; the cipher undoes itself. -/
theorem gcmIsTheClosedForm : Obligations.GcmIsTheClosedForm := by
  intro k t nonce a0 d xs ht
  have ht16 : t ≤ 16 := by
    revert t
    decide
  refine ⟨fun hdata => ?encrypting, fun hdata => ?decrypting⟩
  case encrypting =>
    obtain ⟨hout, htag, -⟩ := gcmRun_final (enc := true) (nonce := nonce) (a0 := a0) (k := k) ht16
      (hdata.trans (List.append_nil d).symm) rfl rfl
    exact ⟨hout, htag⟩
  case decrypting =>
    obtain ⟨hout, htag, hreceived⟩ := gcmRun_final (enc := false) (nonce := nonce) (a0 := a0) (k := k) ht16
      hdata (length_gcmTagOf _ _ _ _ _ ht16) rfl
    exact ⟨hout.trans (gcmCipher_gcmCipher ..), hreceived rfl, htag⟩

/-- Settles O46: each command by its equation. -/
theorem gcmInitAndAssociatedData : Obligations.GcmInitAndAssociatedData := by
  refine ⟨fun s c pk rnd enc g hs hin hlen hnone hlong => ?init, fun s c g k hs hk hi => ?aad⟩
  case init =>
    intro key nonce k h j0 slotOf hreuse
    have hexec (hok : GcmOperandsOk s pk) := exec_gcmInit hs hin hok hlong hlen (not_reuse_iff.mpr hreuse) rnd
    refine ⟨?_, ?_⟩
    · rintro rfl
      exact ⟨_, hexec ⟨by decide, nofun, hnone⟩, s.updates_finish c _⟩
    · rintro rfl hmac
      exact ⟨_, hexec ⟨by decide, fun _ => gcmMacBits_iff.mpr hmac, hnone⟩, s.updates_finish c _⟩
  case aad =>
    have hready := GcmSlot.ready_of_init hk hi
    exact ⟨⟨_, exec_gcmAad hs hready, s.updates_finish c _⟩,
      fun hin hfits => ⟨_, exec_gcmAads hs hready hin hfits, s.updates_finish c _⟩⟩

/-- Settles O47: both write as many bytes as their sizes say, which fit RESULT. -/
theorem gcmStreamsWriteTheUpdateSize : Obligations.GcmStreamsWriteTheUpdateSize := by
  intro s c g k hs hk hi hok put b data m1 total m
  have hready := GcmSlot.ready_of_init hk hi
  refine ⟨fun hin hout => ?byte, fun hin hfits hout => ?bytes⟩
  case byte =>
    rw [exec_gcmPbyte hs hready hin hout]
    refine ⟨fun hroom => ?_, fun hspent => ⟨_, State.guard_neg (not_not.mpr hspent) _ _, s.precise_raise _⟩⟩
    have hlen : (gcmByte k b).1.length = m1 := length_gcmByte k b
    have hemits := s.emits_emitOut c (.gcm { g with key := some (gcmByte k b).2 }) (gcmByte k b).1
    exact ⟨_, State.guard_pos hroom _ _, hemits, (hemits.done.toNat_result (hlen ▸ hout.lt)).trans hlen⟩
  case bytes =>
    rw [exec_gcmPbytes hs hready hin hfits hout]
    refine ⟨fun hroom => ?_, fun hspent => ⟨_, State.guard_neg (Nat.not_le.mpr hspent) _ _, s.precise_raise _⟩⟩
    have hlen : (gcmBytes k data).1.length = m := by
      rw [length_gcmBytes hok.bufOff, s.length_memRead]
      rfl
    have hemits := s.emitsOver_emit c (.gcm { g with key := some (gcmBytes k data).2 }) s.len (gcmBytes k data).1
    exact ⟨_, State.guard_pos hroom _ _, hemits, (hemits.done.toNat_result (hlen ▸ hout.lt)).trans hlen⟩

/-- Settles O48, case by case past the precise checks. -/
theorem gcmFinalMakesOrChecksTheTag : Obligations.GcmFinalMakesOrChecksTheTag := by
  intro s c g k hs hk hi hin e y tag received put
  have hready := GcmSlot.ready_of_init hk hi
  have htag : gcmTagBytes (gcmTail k).2 = tag := gcmTagBytes_gcmTail k
  refine ⟨fun henc hout hroom => ?encrypting, fun henc hout hlong hroom => ?decrypting,
    fun henc hout hshort => ?short, fun hout hlong hpos hspent => ?spent⟩
  case encrypting =>
    rw [exec_gcmFinal hs hready hin (by rwa [henc]), gcmFinish_encrypting henc hroom, State.endGcm_eq, htag]
    exact ⟨_, rfl, s.emits_emitOut c _ _⟩
  case decrypting =>
    rw [exec_gcmFinal hs hready hin (by rwa [henc]), gcmFinish_decrypting henc hlong hroom, State.endGcm_eq,
      State.restartGcm_eq, htag]
    exact ⟨fun heq => ⟨_, State.guard_pos heq _ _, s.emits_emitOut c _ _⟩,
      fun hne => ⟨_, State.guard_neg hne _ _, s.fails_raise c _ _⟩⟩
  case short =>
    rw [exec_gcmFinal hs hready hin (by rwa [henc]), gcmFinish_of_short henc hshort, State.restartGcm_eq]
    exact ⟨_, rfl, s.fails_raise c _ _⟩
  case spent =>
    rw [exec_gcmFinal hs hready hin hout, gcmFinish_of_spent hlong ⟨hpos, hspent⟩]
    exact ⟨_, rfl, s.precise_raise _⟩

/-- Settles O49: each command by its equation. -/
theorem gcmTagResetAndSizes : Obligations.GcmTagResetAndSizes :=
  ⟨fun s c _ _ hs hk => ⟨fun hin hout => ⟨_, exec_gcmGmac hs hk hin hout, s.emits_emitOut_same _⟩,
      ⟨_, execGcmReset_of_keyed hs rfl hk, s.updates_finish c _⟩,
      ⟨_, exec_gcmGos hs hk, s.sizes_finishSize _⟩, ⟨_, exec_gcmGuos hs hk, s.sizes_finishSize _⟩⟩,
    fun _ _ _ hs hk => ⟨_, exec_gcmReset_of_unkeyed hs hk, State.updates_finish_same hs⟩⟩

/-- Settles O50: the product is stored under the overlap rule. -/
theorem gfMulWritesTheProduct : Obligations.GfMulWritesTheProduct := by
  intro s hx hy hz
  have hin : s.AllInside [s.gfRange 0, s.gfRange 1, s.gfRange 4] :=
    List.forall_mem_cons.mpr ⟨hx, List.forall_mem_cons.mpr ⟨hy, List.forall_mem_singleton.mpr hz⟩⟩
  exact ⟨_, exec_gfMul hin, s.completes_storeOver_finish .., rfl, s.storesOver_storeOver_finish ..⟩

end Sys2Proof.Proofs
end

section
/-! SUPPORT. CBC-MAC (49_ccm_cbcmac.md R470 to R478): what the slot holds of its message, the CMAC commands past their
checks, and what finishing makes of the message held. -/

namespace Sys2Proof.Machine

variable {rk : List Block} {c : CmacKeyed} {m whole : List Byte}

theorem cbcMac_concat (rk : List Block) (xs : List Block) (x : Block) :
    cbcMac rk (xs ++ [x]) = aesE rk (cbcMac rk xs ^^^ x) := by
  rw [cbcMac, List.foldl_append, List.foldl_cons, List.foldl_nil, ← cbcMac]

/-! ## What a slot holds (R471) -/

/-- The bytes of the message that are not chained yet. -/
def CmacKeyed.held (c : CmacKeyed) : List Byte := (toBytes c.buf).take c.bufOff

/-- The slot has absorbed the message `m` under the round keys `rk`: the blocks `whole` of it are chained, and the rest
is held. -/
structure CmacHolds (rk : List Block) (m whole : List Byte) (c : CmacKeyed) : Prop where
  key : c.aes.rk = rk
  blocks : 16 ∣ whole.length
  bytes : m = whole ++ c.held
  chain : c.chain = cbcMac rk (blocksOf whole)
  fits : c.bufOff ≤ 16

theorem CmacHolds.initial (k : AesKey) : CmacHolds k.rk [] [] ⟨k, 0, 0, 0⟩ :=
  ⟨rfl, Nat.dvd_zero 16, rfl, rfl, Nat.zero_le 16⟩

theorem CmacHolds.length_held (h : CmacHolds rk m whole c) : c.held.length = c.bufOff := by
  have hfits := h.fits
  rw [CmacKeyed.held, List.length_take, length_toBytes]
  omega

/-- Chaining a last block `x` after the blocks that are chained. -/
theorem CmacHolds.chain_last (h : CmacHolds rk m whole c) {x : List Byte} (hpos : 0 < x.length) (hle : x.length ≤ 16) :
    (cmacChain { c with buf := blockOf x }).chain = cbcMac rk (blocksOf (whole ++ x)) := by
  rw [blocksOf_append h.blocks, blocksOf_of_length_le hpos hle, cbcMac_concat, ← h.chain, ← h.key]
  rfl

/-- A full buffer is chained before the next byte. -/
def cmacMakeRoom (c : CmacKeyed) : CmacKeyed := if c.bufOff = 16 then cmacChain c else c

theorem CmacHolds.makeRoom (h : CmacHolds rk m whole c) :
    ∃ whole', CmacHolds rk m whole' (cmacMakeRoom c) ∧ (cmacMakeRoom c).bufOff < 16 := by
  rw [cmacMakeRoom]
  split
  case isTrue hfull =>
    have hheld : c.held = toBytes c.buf := by rw [CmacKeyed.held, hfull, take_toBytes]
    have hlen : (toBytes c.buf).length = 16 := length_toBytes c.buf
    have hchain := h.chain_last (x := toBytes c.buf) (by omega) hlen.le
    rw [blockOf_toBytes, ← hheld, ← h.bytes] at hchain
    refine ⟨m, ⟨h.key, ?_, (List.append_nil m).symm, hchain, Nat.zero_le 16⟩, Nat.succ_pos 15⟩
    rw [h.bytes, hheld, List.length_append, hlen]
    exact Nat.dvd_add h.blocks (Nat.dvd_refl 16)
  case isFalse hroom => exact ⟨whole, h, Nat.lt_of_le_of_ne h.fits hroom⟩

theorem cmacAbsorb_eq (c : CmacKeyed) (b : Byte) : cmacAbsorb c b = { cmacMakeRoom c with
    buf := setByteAt (cmacMakeRoom c).buf (cmacMakeRoom c).bufOff b, bufOff := (cmacMakeRoom c).bufOff + 1 } := rfl

theorem CmacHolds.absorb (h : CmacHolds rk m whole c) (b : Byte) :
    ∃ whole', CmacHolds rk (m ++ [b]) whole' (cmacAbsorb c b) := by
  obtain ⟨whole', hroom, hlt⟩ := h.makeRoom
  refine ⟨whole', hroom.key, hroom.blocks, ?_, hroom.chain, hlt⟩
  rw [cmacAbsorb_eq, CmacKeyed.held, take_toBytes_setByteAt _ (by omega), ← List.append_assoc]
  exact congrArg (· ++ [b]) hroom.bytes

theorem CmacHolds.absorbBytes (h : CmacHolds rk m whole c) (bs : List Byte) :
    ∃ whole', CmacHolds rk (m ++ bs) whole' (cmacAbsorbBytes c bs) := by
  induction bs generalizing m whole c with
  | nil =>
    rw [List.append_nil]
    exact ⟨whole, h⟩
  | cons b bs ih =>
    obtain ⟨_, hbyte⟩ := h.absorb b
    rw [← List.singleton_append, ← List.append_assoc]
    exact ih hbyte

/-- Of a message that is not empty some byte is held. -/
theorem cmacAbsorbBytes_bufOff_pos (c : CmacKeyed) {bs : List Byte} (hne : bs ≠ []) :
    0 < (cmacAbsorbBytes c bs).bufOff := by
  obtain ⟨bs, b, rfl⟩ := (List.eq_nil_or_concat' bs).resolve_left hne
  rw [cmacAbsorbBytes, List.foldl_append, List.foldl_cons, List.foldl_nil]
  exact Nat.succ_pos _

/-! ## Finishing (R472, R478) -/

theorem cmacFinish_pkcs7 (h : CmacHolds rk m whole c) :
    cmacFinish .pkcs7 c = cbcMac rk (blocksOf (cmacPadded .pkcs7 m)) := by
  obtain ⟨whole', hroom, hlt⟩ := h.makeRoom
  have hmod : m.length % 16 = (cmacMakeRoom c).bufOff := by
    have hblocks := hroom.blocks
    rw [hroom.bytes, List.length_append, hroom.length_held]
    omega
  have hpad : padAdd (toBytes (cmacMakeRoom c).buf) (cmacMakeRoom c).bufOff = (cmacMakeRoom c).held ++
      List.replicate (16 - m.length % 16) (BitVec.ofNat 8 (16 - m.length % 16)) := by
    rw [padAdd, padTail_eq, length_toBytes, hmod, CmacKeyed.held]
  have hlen : (padAdd (toBytes (cmacMakeRoom c).buf) (cmacMakeRoom c).bufOff).length = 16 :=
    length_padAdd (by rw [length_toBytes]; omega)
  have hchain := hroom.chain_last (hlen.symm ▸ by decide) hlen.le
  calc cmacFinish .pkcs7 c
    _ = cbcMac rk (blocksOf (whole' ++ padAdd (toBytes (cmacMakeRoom c).buf) (cmacMakeRoom c).bufOff)) := hchain
    _ = cbcMac rk (blocksOf (cmacPadded .pkcs7 m)) := by rw [hpad, ← List.append_assoc, ← hroom.bytes, cmacPadded]

/-- Zeros fill the last block up, and an empty message to one block. -/
theorem cmacPadded_zero (h : CmacHolds rk m whole c) (hpos : m ≠ [] → 0 < c.bufOff) :
    ∃ z, cmacPadded .zero m = whole ++ (c.held ++ zeros z) ∧ 0 < c.held.length + z ∧ c.held.length + z ≤ 16 := by
  have hblocks := h.blocks
  have hfits := h.fits
  have hlen := h.length_held
  rw [cmacPadded]
  split
  case isTrue hnil =>
    obtain ⟨rfl, hheld⟩ := List.append_eq_nil_iff.mp (h.bytes.symm.trans hnil)
    exact ⟨16, by rw [hheld]; rfl, by omega, by rw [hheld]; rfl⟩
  case isFalse hne =>
    have hheld := hpos hne
    have hmod : m.length % 16 = c.held.length % 16 := by
      rw [h.bytes, List.length_append]
      omega
    refine ⟨(16 - m.length % 16) % 16, ?_, by omega, by omega⟩
    rw [pad16, ← List.append_assoc, ← h.bytes]

theorem cmacFinish_zero (h : CmacHolds rk m whole c) (hpos : m ≠ [] → 0 < c.bufOff) :
    cmacFinish .zero c = cbcMac rk (blocksOf (cmacPadded .zero m)) := by
  obtain ⟨z, hpad, hlow, hhigh⟩ := cmacPadded_zero h hpos
  have hlen : (c.held ++ zeros z).length = c.held.length + z := by rw [List.length_append, length_zeros]
  have hchain := h.chain_last (x := c.held ++ zeros z) (by omega) (by omega)
  rw [blockOf_append_zeros, ← hpad] at hchain
  exact hchain

/-! ## The CMAC commands (R473 to R477) -/

variable {s : State} {c : Ctx} {ms : BitVec 5} {pad : PadMode}

theorem exec_cmacInit {old : Option CmacKeyed} (hs : s.slot? c = some (.cmac ms pad old))
    (hin : s.AllInside (s.initRanges .key)) (hlen : AesLen (s.arg 1)) (rnd : Bool) : exec (.cmacInit c .key rnd) s =
      .next ((s.setSlot c (.cmac ms pad (some ⟨keySchedule s.keyBytes .E, 0, 0, 0⟩))).finish 0) := by
  show execCmacInit c .key rnd s = _
  rw [execCmacInit, State.onSlot_cmac hs, State.guard_pos hin, State.guard_pos rfl,
    aesLoad_of_aesLen (s.length_keyBytes.symm ▸ hlen), State.loadKey_some, State.putCmac_eq]

theorem exec_cmacReset {key : Option CmacKeyed} (hs : s.slot? c = some (.cmac ms pad key)) : exec (.cmacReset c) s =
    .next ((s.setSlot c (.cmac ms pad (key.map cmacClear))).finish 0) :=
  State.onSlot_cmac hs

variable {k : CmacKeyed} (hs : s.slot? c = some (.cmac ms pad (some k)))
include hs

theorem exec_cmacUpd : exec (.cmacUpd c) s =
    .next ((s.setSlot c (.cmac ms pad (some (cmacAbsorb k s.byteOperand)))).finish 0) :=
  State.onSlot_cmac hs

theorem exec_cmacUpds (hin : s.AllInside [s.inArray]) (hfits : s.InFits s.len) : exec (.cmacUpds c) s =
    .next ((s.setSlot c (.cmac ms pad (some (cmacAbsorbBytes k (s.inBytes s.len))))).finish 0) := by
  show execCmacUpds c s = _
  rw [execCmacUpds, State.onSlot_cmac hs, State.guard_pos hin, State.require_some, State.guard_pos hfits,
    State.putCmac_eq]

theorem exec_cmacFinal (hin : s.AllInside [s.outArray]) (hout : s.OutFits (cmacSize ms)) : exec (.cmacFinal c) s =
    .next ((s.setSlot c (.cmac ms pad (some (cmacClear k)))).emitOut
      ((toBytes (cmacFinish pad k)).take (cmacSize ms))) := by
  show execCmacFinal c s = _
  rw [execCmacFinal, State.onSlot_cmac hs, State.guard_pos hin, State.require_some, State.guard_pos hout,
    State.putCmac_eq]

end Sys2Proof.Machine
end

section
/-! SUPPORT. CCM packets (49_ccm_cbcmac.md R445, R458) and the CCM commands (R446 to R457) past their checks. -/

namespace Sys2Proof.Machine

open Host (Outcome)

variable {s : State} {c : Ctx} {g : CcmSlot} {k : CcmKeyed}

/-! ## Packets (R445) -/

/-- Of the longer string only the first bytes are used. -/
theorem xorBytes_take {a : List Byte} {n : Nat} (h : a.length ≤ n) (b : List Byte) :
    xorBytes a (b.take n) = xorBytes a b := by
  have hlen : (xorBytes a (b.take n)).length = (xorBytes a b).length := by
    rw [length_xorBytes, length_xorBytes, List.length_take]
    omega
  exact List.ext_getElem hlen fun i _ _ => by simp [xorBytes]

theorem ccmXor_ccmXor (k : CcmKeyed) (x : List Byte) : ccmXor k (ccmXor k x) = x := by
  rw [ccmXor, length_ccmXor, ccmXor]
  exact xorBytes_xorBytes_of_le (by
    rw [length_flatMap_toBytes]
    omega)

theorem ccmMask_ccmMask (k : CcmKeyed) {t : List Byte} (h : t.length ≤ 16) : ccmMask k (ccmMask k t) = t :=
  xorBytes_xorBytes_of_le (h.trans_eq (length_toBytes (ccmStream k 0)).symm)

theorem ccmPacket_encrypting (henc : k.enc = true) (x : List Byte) :
    ccmPacket k x = some (ccmXor k x ++ ccmMask k (ccmMac k x), ccmMask k (ccmMac k x)) := by
  rw [ccmPacket, henc]

/-- A ciphertext `x` and a tag `u` received. -/
theorem ccmPacket_decrypting (henc : k.enc = false) (x : List Byte) {u : List Byte} (hu : u.length = k.macSize) :
    ccmPacket k (x ++ u) = if ccmMask k u = ccmMac k (ccmXor k x) then some (ccmXor k x, u) else none := by
  have hlen : (x ++ u).length - k.macSize = x.length := by rw [List.length_append, hu, Nat.add_sub_cancel]
  have hlong : ¬ (x ++ u).length < k.macSize := by
    rw [List.length_append, hu]
    omega
  rw [ccmPacket, henc]
  dsimp only
  rw [if_neg hlong, hlen, List.take_left, List.drop_left]

/-! ## CCM.INIT (R447) -/

theorem exec_ccmInit {pk : PKind} (hs : s.slot? c = some (.ccm g)) (hin : s.AllInside (s.initRanges pk))
    (hok : CcmOperandsOk s pk) (hcap : pk = .aead → s.arg 5 ≤ s.params.ccmMaxAad) {enc : Bool}
    (hreuse : ¬(enc = true ∧ g.lastNonce = some s.ivBytes ∧ g.lastKey = some s.keyBytes)) (rnd : Bool) :
    exec (.ccmInit c pk rnd enc) s = .next ((s.setSlot c (.ccm ⟨some ⟨true, enc, keySchedule s.keyBytes .E, s.ivBytes,
      s.ccmMacSize pk, s.aadBytes pk, [], []⟩, 0, some s.keyBytes, some s.ivBytes⟩)).finish 0) := by
  show execCcmInit c pk rnd enc s = _
  rw [execCcmInit, State.onSlot_ccm hs, State.guard_pos hin, State.guard_pos hok.kind, State.guard_pos hok.mac,
    State.guard_pos hok.nonce, aesLoad_of_aesLen (s.length_keyBytes.symm ▸ hok.key), State.loadKey_some,
    State.guard_pos hcap, State.guard_pos hreuse]

/-! ## A ready slot: the absorbing commands, CCM.FINAL and CCM.PPKT (R448 to R453) -/

theorem CcmSlot.ready_of_init (hk : g.key = some k) (hi : k.init = true) : g.ready = some k :=
  Option.filter_eq_some_iff.mpr ⟨hk, hi⟩

/-- What the absorbing commands do once they have read their bytes: the capacity check, and the fields put. -/
def ccmAbsorb (s : State) (c : Ctx) (g : CcmSlot) (k : CcmKeyed) (n max : Nat) : Outcome State Fault Refusal :=
  s.guard (n ≤ max) .capacityExceeded <| .next ((s.setSlot c (.ccm { g with key := some k })).finish 0)

theorem ccmAbsorb_of_le {n max : Nat} (h : n ≤ max) :
    ∃ t, ccmAbsorb s c g k n max = .next t ∧ Updates s t c (.ccm { g with key := some k }) :=
  ⟨_, State.guard_pos h _ _, s.updates_finish c _⟩

theorem ccmAbsorb_of_gt {n max : Nat} (h : max < n) :
    ∃ t, ccmAbsorb s c g k n max = .next t ∧ Precise s t .capacityExceeded :=
  ⟨_, State.guard_neg (Nat.not_le.mpr h) _ _, s.precise_raise _⟩

section Ready

variable (hs : s.slot? c = some (.ccm g)) (hk : g.ready = some k)
include hs hk

theorem exec_ccmAad : exec (.ccmAad c) s = ccmAbsorb s c g { k with aad := k.aad ++ [s.byteOperand] }
    (k.iaad.length + k.aad.length + 1) s.params.ccmMaxAad := by
  show execCcmAad c s = _
  rw [execCcmAad, State.onSlot_ccm hs, hk, State.require_some]
  rfl

theorem exec_ccmPbyte : exec (.ccmPbyte c) s = ccmAbsorb s c g { k with msg := k.msg ++ [s.byteOperand] }
    (k.msg.length + 1) s.params.ccmMaxMsg := by
  show execCcmPbyte c s = _
  rw [execCcmPbyte, State.onSlot_ccm hs, hk, State.require_some]
  rfl

theorem exec_ccmAads (hin : s.AllInside [s.inArray]) (hfits : s.InFits s.len) : exec (.ccmAads c) s =
    ccmAbsorb s c g { k with aad := k.aad ++ s.inBytes s.len } (k.iaad.length + k.aad.length + s.len)
      s.params.ccmMaxAad := by
  show execCcmAads c s = _
  rw [execCcmAads, State.onSlot_ccm hs, State.guard_pos hin, hk, State.require_some, State.guard_pos hfits]
  rfl

theorem exec_ccmPbytes (hin : s.AllInside [s.inArray]) (hfits : s.InFits s.len) : exec (.ccmPbytes c) s =
    ccmAbsorb s c g { k with msg := k.msg ++ s.inBytes s.len } (k.msg.length + s.len) s.params.ccmMaxMsg := by
  show execCcmPbytes c s = _
  rw [execCcmPbytes, State.onSlot_ccm hs, State.guard_pos hin, hk, State.require_some, State.guard_pos hfits]
  rfl

theorem exec_ccmFinal (hin : s.AllInside [s.outArray]) (hout : s.OutFits (ccmPacketSize k k.msg.length)) :
    exec (.ccmFinal c) s = s.guard (k.HasRoom k.msg.length) .misuseDetected
      (ccmFinish s c g k k.msg fun t bs => t.emitOut bs) := by
  show execCcmFinal c s = _
  rw [execCcmFinal, State.onSlot_ccm hs, State.guard_pos hin, hk, State.require_some, State.guard_pos hout]

theorem exec_ccmPpkt (hin : s.AllInside [s.inArray, s.outArray]) (hfits : s.InFits s.len)
    (hout : s.OutFits (ccmPacketSize k s.len)) : exec (.ccmPpkt c) s =
      s.guard (s.len ≤ s.params.ccmMaxMsg) .capacityExceeded (s.guard (k.HasRoom s.len) .misuseDetected
        (ccmFinish s c g k (s.inBytes s.len) fun t bs => t.emit s.len bs)) := by
  show execCcmPpkt c s = _
  rw [execCcmPpkt, State.onSlot_ccm hs, State.guard_pos hin, hk, State.require_some, State.guard_pos hfits,
    State.guard_pos hout]

end Ready

theorem ccmFinish_of_some {x : List Byte} {r : List Byte × List Byte} (h : ccmPacket k x = some r)
    (out : State → List Byte → State) : ccmFinish s c g k x out =
      .next (out (s.setSlot c (.ccm ⟨some (ccmRestart k), blockOf r.2, g.lastKey, g.lastNonce⟩)) r.1) := by
  rw [ccmFinish, h]
  rfl

theorem ccmFinish_of_none {x : List Byte} (h : ccmPacket k x = none) (out : State → List Byte → State) :
    ∃ t, ccmFinish s c g k x out = .next t ∧ Fails s t .authenticationFailed c
      (.ccm ⟨some (ccmRestart k), 0, g.lastKey, g.lastNonce⟩) := by
  refine ⟨_, ?_, s.fails_raise c _ _⟩
  rw [ccmFinish, h]
  rfl

/-! ## A keyed slot: CCM.GMAC, CCM.RESET, CCM.GOS and CCM.GUOS (R454 to R457) -/

section Keyed

variable (hs : s.slot? c = some (.ccm g)) (hk : g.key = some k)
include hs hk

theorem exec_ccmGmac (hin : s.AllInside [s.outArray]) (hout : s.OutFits k.macSize) :
    exec (.ccmGmac c) s = .next (s.emitOut ((toBytes g.macBlock).take k.macSize)) := by
  show execCcmGmac c s = _
  rw [execCcmGmac, State.onSlot_ccm hs, State.guard_pos hin, hk, State.require_some, State.guard_pos hout]

theorem exec_ccmGos : exec (.ccmGos c) s = .next (s.finishSize (ccmPacketSize k (s.len + k.msg.length))) := by
  show execCcmGos c s = _
  rw [execCcmGos, State.onSlot_ccm hs, hk, State.require_some]

theorem exec_ccmGuos : exec (.ccmGuos c) s = .next (s.finish 0) := by
  show execCcmGuos c s = _
  rw [execCcmGuos, State.onSlot_ccm hs, hk, State.require_some]

end Keyed

theorem exec_ccmReset_of_unkeyed (hs : s.slot? c = some (.ccm g)) (hk : g.key = none) :
    exec (.ccmReset c) s = .next (s.finish 0) := by
  show execCcmReset c s = _
  rw [execCcmReset, State.onSlot_ccm hs, hk]

end Sys2Proof.Machine
end

section
/-! The obligations about CCM and CBC-MAC (49_ccm_cbcmac.md). -/

namespace Sys2Proof.Proofs

open Sys2Proof Sys2Proof.Machine

/-- Settles O58: the slot holds the message, and finishing chains its last block. -/
theorem cmacIsTheCbcMac : Obligations.CmacIsTheCbcMac := by
  intro k pad m m'
  obtain ⟨_, h⟩ := (CmacHolds.initial k).absorbBytes m
  refine ⟨?_, List.foldl_append.symm⟩
  cases pad with
  | zero => exact cmacFinish_zero h fun hne => cmacAbsorbBytes_bufOff_pos _ hne
  | pkcs7 => exact cmacFinish_pkcs7 h

/-- Settles O57: each command by its equation. -/
theorem cmacCommandsKeyStreamAndFinish : Obligations.CmacCommandsKeyStreamAndFinish :=
  ⟨fun s c rnd _ _ _ hs hin hlen => ⟨_, exec_cmacInit hs hin hlen rnd, s.updates_finish c _⟩,
    fun s c _ _ _ hs => ⟨⟨_, exec_cmacUpd hs, s.updates_finish c _⟩,
      fun hin hfits => ⟨_, exec_cmacUpds hs hin hfits, s.updates_finish c _⟩,
      ⟨_, exec_cmacReset hs, s.updates_finish c _⟩,
      fun hin hout => ⟨_, exec_cmacFinal hs hin hout, s.emits_emitOut c _ _⟩⟩,
    fun s c _ _ hs => ⟨_, exec_cmacReset hs, s.updates_finish c _⟩⟩

/-- Settles O53: each command by its equation. -/
theorem ccmInitAndAbsorption : Obligations.CcmInitAndAbsorption := by
  refine ⟨fun s c pk rnd enc g hs hin hlen hlow hhigh => ?init, fun s c g k hs hk hi => ?absorb⟩
  case init =>
    intro key nonce slotOf hreuse
    have hexec (hok : CcmOperandsOk s pk) (hcap : pk = .aead → s.arg 5 ≤ s.params.ccmMaxAad) :=
      exec_ccmInit hs hin hok hcap (not_reuse_iff.mpr hreuse) rnd
    refine ⟨?_, ?_⟩
    · rintro rfl
      exact ⟨_, hexec ⟨by decide, nofun, ⟨hlow, hhigh⟩, hlen⟩ nofun, s.updates_finish c _⟩
    · rintro rfl hmac hcap
      exact ⟨_, hexec ⟨by decide, fun _ => ccmMacBits_iff.mpr hmac, ⟨hlow, hhigh⟩, hlen⟩ fun _ => hcap,
        s.updates_finish c _⟩
  case absorb =>
    have hready := CcmSlot.ready_of_init hk hi
    dsimp only
    rw [exec_ccmAad hs hready, exec_ccmPbyte hs hready]
    refine ⟨ccmAbsorb_of_le, ccmAbsorb_of_gt, ccmAbsorb_of_le, ccmAbsorb_of_gt, fun hin hfits => ?_⟩
    rw [exec_ccmAads hs hready hin hfits, exec_ccmPbytes hs hready hin hfits]
    exact ⟨ccmAbsorb_of_le, ccmAbsorb_of_gt, ccmAbsorb_of_le, ccmAbsorb_of_gt⟩

/-- Settles O54: past their checks both end in the packet, or refuse it. -/
theorem ccmFinalAndPacketProcess : Obligations.CcmFinalAndPacketProcess := by
  intro s c g k hs hk hi l size tooLong put data
  have hready := CcmSlot.ready_of_init hk hi
  have hnoRoom {n : Nat} {o : Host.Outcome State Fault Refusal} (h : tooLong n) :
      ∃ t, s.guard (k.HasRoom n) .misuseDetected o = .next t ∧ Precise s t .misuseDetected :=
    ⟨_, State.guard_neg (not_not.mpr h) _ _, s.precise_raise _⟩
  refine ⟨fun hin hout => ?final, fun hin hfits hout => ?ppkt⟩
  case final =>
    rw [exec_ccmFinal hs hready hin hout]
    refine ⟨hnoRoom, fun (hroom : k.HasRoom _) => ?_⟩
    rw [State.guard_pos hroom]
    exact ⟨fun r hr => ⟨_, ccmFinish_of_some hr _, s.emits_emitOut c _ _⟩, fun hnone => ccmFinish_of_none hnone _⟩
  case ppkt =>
    rw [exec_ccmPpkt hs hready hin hfits hout]
    refine ⟨fun hlong => ⟨_, State.guard_neg (Nat.not_le.mpr hlong) _ _, s.precise_raise _⟩,
      fun hle hlong => ?_, fun hle (hroom : k.HasRoom _) => ?_⟩
    · rw [State.guard_pos hle]
      exact hnoRoom hlong
    · rw [State.guard_pos hle, State.guard_pos hroom]
      exact ⟨fun r hr => ⟨_, ccmFinish_of_some hr _, s.emitsOver_emit c _ _ _⟩,
        fun hnone => ccmFinish_of_none hnone _⟩

/-- Settles O55: each command by its equation. -/
theorem ccmTagResetAndSizes : Obligations.CcmTagResetAndSizes :=
  ⟨fun s c _ _ hs hk => ⟨fun hin hout => ⟨_, exec_ccmGmac hs hk hin hout, s.emits_emitOut_same _⟩,
      ⟨_, execCcmReset_of_keyed hs rfl hk, s.updates_finish c _⟩,
      ⟨_, exec_ccmGos hs hk, s.sizes_finishSize _⟩, ⟨_, exec_ccmGuos hs hk, s.answers_finish 0⟩⟩,
    fun _ _ _ hs hk => ⟨_, exec_ccmReset_of_unkeyed hs hk, State.updates_finish_same hs⟩⟩

/-- Settles O56: both the cipher and the mask undo themselves, so a tag is accepted just where it unmasks to the MAC. -/
theorem ccmDecryptionInvertsEncryption : Obligations.CcmDecryptionInvertsEncryption := by
  intro k p hmac mask tag
  have hmacLen : (ccmMac k p).length ≤ 16 := (length_ccmMac hmac p).trans_le hmac
  have htag : ccmMask k (ccmMac k p) = tag := (xorBytes_take (length_ccmMac hmac p).le _).symm
  have htagLen : tag.length = k.macSize := by rw [← htag, length_ccmMask k hmacLen, length_ccmMac hmac]
  have hdec (u : List Byte) (hu : u.length = k.macSize) : ccmPacket { k with enc := false } (ccmXor k p ++ u) =
      if ccmMask k u = ccmMac k p then some (p, u) else none := by
    have h := ccmPacket_decrypting (k := { k with enc := false }) rfl (ccmXor k p) hu
    rwa [show ccmXor { k with enc := false } (ccmXor k p) = p from ccmXor_ccmXor k p] at h
  refine ⟨?_, ?_, fun u hu hne => ?_⟩
  · rw [ccmPacket_encrypting rfl, ← htag]
    rfl
  · rw [hdec tag htagLen, if_pos (by rw [← htag, ccmMask_ccmMask k hmacLen])]
  · rw [hdec u hu, if_neg]
    intro haccept
    rw [← htag, ← haccept, ccmMask_ccmMask k (hu.trans_le hmac)] at hne
    exact hne rfl

end Sys2Proof.Proofs
end

section
/-! SUPPORT. The ends of a command by their error (60_exceptions.md R501 to R506), and RegionCheck (40_context.md R150):
an admitted command checks every range it names before anything else. -/

namespace Sys2Proof.Machine

open Host (Outcome)

variable {i : Instr} {s t : State} {c : Ctx}

/-! ## Completion (R505) -/

theorem Effect.completes (h : Effect i s t) : ∃ e r, Completes s t e r ∧ t.nCtx = s.nCtx ∧ (e ≠ .ok → r = 0) := by
  cases h with
  | success h =>
    exact ⟨.ok, t.result, ⟨h.regs, h.err, rfl, h.pend, h.raced, h.unseen, h.lateRaced⟩, h.slots.nCtx, absurd rfl⟩
  | precise => exact ⟨_, 0, (s.precise_raise _).done, rfl, fun _ => rfl⟩
  | failedInit => exact ⟨_, 0, (s.fails_raise _ _ _).done, s.setSlot_nCtx _ _, fun _ => rfl⟩
  | failedFinal => exact ⟨_, 0, (s.fails_raise _ _ _).done, s.setSlot_nCtx _ _, fun _ => rfl⟩

/-! ## The three classes (R506) -/

/-- What is left of the slot of an INIT that failed past RegionCheck. -/
theorem Slot.unkeyed_fields {sl : Slot} (hd : ∀ alg d, sl ≠ .digest alg d) :
    sl.unkeyed.isKeyed = false ∧ sl.unkeyed.isInit = false ∧ sl.unkeyed.conf = sl.conf ∧
      sl.unkeyed.history = sl.history := by
  cases sl with
  | digest alg d => exact absurd rfl (hd alg d)
  | _ => exact ⟨rfl, rfl, rfl, rfl⟩

theorem isInitCommand_of_restarts {errs : List Err} {r : Instr} (h : restarts i = some (errs, r)) :
    isInitCommand i = false := by
  obtain ⟨-, _, rfl, -⟩ | ⟨-, ⟨_, rfl, -⟩ | ⟨_, rfl | rfl, -⟩⟩ := restarts_cases h <;> rfl

theorem accessFault_notMem_of_restarts {errs : List Err} {r : Instr} (h : restarts i = some (errs, r)) :
    Err.accessFault ∉ errs := by
  obtain ⟨rfl, -⟩ | ⟨rfl, -⟩ := restarts_cases h <;> decide

namespace Effect

theorem of_error (h : Effect i s t) (hne : t.err ≠ .ok) :
    SameRegs s t ∧ t.mem = s.mem ∧ t.draws = s.draws ∧ t.result = 0 := by
  cases h with
  | success h => exact absurd h.err hne
  | precise => exact ⟨(s.precise_raise _).done.regs, rfl, rfl, rfl⟩
  | failedInit => exact ⟨(s.fails_raise _ _ _).done.regs, rfl, rfl, rfl⟩
  | failedFinal => exact ⟨(s.fails_raise _ _ _).done.regs, rfl, rfl, rfl⟩

/-- Class 2: a failed INIT. -/
theorem of_initError (h : Effect i s t) (hi : isInitCommand i = true) (he : t.err ∈ initErrors) :
    ∃ c sl sl', i.ctx? = some c ∧ s.slot? c = some sl ∧ t.slots = s.slots.set c.toNat sl' ∧
      sl'.isKeyed = false ∧ sl'.isInit = false ∧ sl'.conf = sl.conf ∧ sl'.history = sl.history := by
  cases h with
  | success h => exact absurd (h.err ▸ he) (by decide)
  | precise _ hni => exact absurd he (hni hi)
  | failedInit hc hs hd => exact ⟨_, _, _, hc, hs, rfl, Slot.unkeyed_fields hd⟩
  | failedFinal _ hni => exact absurd hi (by simp [hni])

/-- Class 3: a FINAL that failed late. -/
theorem of_lateError (h : Effect i s t) (hne : t.err ≠ .ok) {errs : List Err} {r : Instr}
    (hr : restarts i = some (errs, r)) (he : t.err ∈ errs) : ∃ u, exec r s = .next u ∧ t.slots = u.slots := by
  cases h with
  | success h => exact absurd h.err hne
  | precise _ _ hnr => exact absurd he (hnr errs r hr)
  | failedInit _ _ _ hi => exact absurd hi (by simp [isInitCommand_of_restarts hr])
  | failedFinal _ _ hexec hlate =>
    obtain ⟨_, hr', -⟩ | ⟨rfl, -, rfl⟩ := hlate
    · cases hr.symm.trans hr'
      exact ⟨_, hexec, rfl⟩
    · cases hr
      exact absurd he (by simp)

/-- Class 1, and the late OutputTooShort of BUF.FINAL. -/
theorem of_otherError (h : Effect i s t) (hne : t.err ≠ .ok) (hi : ¬(isInitCommand i = true ∧ t.err ∈ initErrors))
    (hr : ∀ errs r, restarts i = some (errs, r) → t.err ∉ errs) :
    t.slots = s.slots ∨ ∃ c, i = .bufFinal c ∧ t.err = .outputTooShort ∧
      ∃ u, exec (.bufReset c) s = .next u ∧ t.slots = u.slots := by
  cases h with
  | success h => exact absurd h.err hne
  | precise => exact .inl rfl
  | failedInit _ _ _ hinit he => exact absurd ⟨hinit, he⟩ hi
  | failedFinal _ _ hexec hlate =>
    obtain ⟨errs, hr', he⟩ | ⟨rfl, rfl, rfl⟩ := hlate
    · exact absurd he (hr errs _ hr')
    · exact .inr ⟨_, rfl, rfl, _, hexec, rfl⟩

theorem of_accessFault (h : Effect i s t) (he : t.err = .accessFault) : ¬ s.AllInside (ranges i s) := by
  cases h with
  | success h => exact nomatch h.err.symm.trans he
  | precise _ _ _ ha => exact ha he
  | failedInit _ _ _ _ hinit =>
    subst he
    exact absurd hinit (by decide)
  | failedFinal _ _ _ hlate =>
    subst he
    obtain ⟨_, hr, hmem⟩ | ⟨-, -, he⟩ := hlate
    · exact absurd hmem (accessFault_notMem_of_restarts hr)
    · cases he

end Effect

/-! ## RegionCheck (R150, R504) -/

/-- An admitted command's slot passes its family's selector. -/
theorem State.onSlot_of_admits {α : Type} {sel : Slot → Option α} {k : α → Outcome State Fault Refusal}
    {o : Outcome State Fault Refusal} (ha : s.Admits i) (hc : i.ctx? = some c)
    (hsel : ∀ {sl : Slot}, sel sl = none ↔ sl.alg ∉ admittedCodes i) (hk : ∀ x, k x = o) : s.onSlot c sel k = o := by
  obtain ⟨sl, hs, hmem, -⟩ := ha c hc
  obtain ⟨x, hx⟩ := Option.ne_none_iff_exists'.mp fun hnone => hsel.mp hnone hmem
  rw [State.onSlot_slot hs hx, hk x]

/-- A command with no output ranges names its input ranges. -/
theorem not_allInside_left {rs : List Range} (h : ¬ s.AllInside (rs ++ [])) : ¬ s.AllInside rs := by
  rwa [List.append_nil] at h

theorem exec_of_outside (ha : s.Admits i) (h : ¬ s.AllInside (ranges i s)) :
    exec i s = .next (s.raise .accessFault) := by
  cases i with
  | aesPblk => exact State.onSlot_of_admits ha rfl Slot.aes?_eq_none fun _ => State.guard_neg h _ _
  | cbcPblk => exact State.onSlot_of_admits ha rfl Slot.cbc?_eq_none fun _ => State.guard_neg h _ _
  | ctrPblk | ctrPbyte | ctrPbytes =>
    exact State.onSlot_of_admits ha rfl Slot.ctr?_eq_none fun _ => State.guard_neg h _ _
  | dgUpds | dgFinal => exact State.onSlot_of_admits ha rfl Slot.digest?_eq_none fun _ => State.guard_neg h _ _
  | hmUpds | hmFinal => exact State.onSlot_of_admits ha rfl Slot.hmac?_eq_none fun _ => State.guard_neg h _ _
  | bufPbyte | bufPbytes | bufFinal =>
    exact State.onSlot_of_admits ha rfl Slot.buf?_eq_none fun _ => State.guard_neg h _ _
  | gcmAads | gcmPbyte | gcmPbytes | gcmFinal | gcmGmac =>
    exact State.onSlot_of_admits ha rfl Slot.gcm?_eq_none fun _ => State.guard_neg h _ _
  | ccmAads | ccmPbytes | ccmFinal | ccmPpkt | ccmGmac =>
    exact State.onSlot_of_admits ha rfl Slot.ccm?_eq_none fun _ => State.guard_neg h _ _
  | cmacUpds | cmacFinal => exact State.onSlot_of_admits ha rfl Slot.cmac?_eq_none fun _ => State.guard_neg h _ _
  | aesInit => exact State.onSlot_of_admits ha rfl Slot.aes?_eq_none fun _ => State.guard_neg (not_allInside_left h) _ _
  | hmInit => exact State.onSlot_of_admits ha rfl Slot.hmac?_eq_none fun _ => State.guard_neg (not_allInside_left h) _ _
  | bufInit => exact State.onSlot_of_admits ha rfl Slot.buf?_eq_none fun _ => State.guard_neg (not_allInside_left h) _ _
  | cbcInit => exact State.onSlot_of_admits ha rfl Slot.cbc?_eq_none fun _ => State.guard_neg (not_allInside_left h) _ _
  | ctrInit => exact State.onSlot_of_admits ha rfl Slot.ctr?_eq_none fun _ => State.guard_neg (not_allInside_left h) _ _
  | gcmInit => exact State.onSlot_of_admits ha rfl Slot.gcm?_eq_none fun _ => State.guard_neg (not_allInside_left h) _ _
  | ccmInit => exact State.onSlot_of_admits ha rfl Slot.ccm?_eq_none fun _ => State.guard_neg (not_allInside_left h) _ _
  | cmacInit => exact State.onSlot_of_admits ha rfl Slot.cmac?_eq_none fun _ => State.guard_neg (not_allInside_left h) _ _
  -- Context-free commands
  | st16be | st16le | st32be | st32le | st64be | st64le | ld16be | ld16le | ld32be | ld32le | ld64be | ld64le =>
    exact State.guard_neg (fun hin => h (List.forall_mem_singleton.mpr hin)) _ _
  | padCnt | gfMul => exact State.guard_neg h _ _
  | padAdd => exact State.guard_neg (fun hin => h (List.forall_mem_cons.mpr ⟨hin _ (.head _), hin⟩)) _ _
  -- The others name no range
  | _ => exact absurd s.allInside_nil h

end Sys2Proof.Machine
end

section
/-! The obligations about errors and completion (60_exceptions.md). -/

namespace Sys2Proof.Proofs

open Sys2Proof Sys2Proof.Machine

/-- Settles O16: a success or an error, every end of a command is a completion. -/
theorem everyCommandCompletes : Obligations.EveryCommandCompletes := by
  intro i s
  obtain ⟨t, ht, heffect⟩ := exec_effect i s
  obtain ⟨e, r, hdone, hslots, hresult⟩ := heffect.completes
  exact ⟨t, ht, hdone.regs, hdone.pend, hdone.raced, hdone.unseen, hdone.lateRaced, hslots,
    fun hne => hdone.result.trans (hresult (hdone.err ▸ hne))⟩

/-- Settles O17: each end of a command is of one class. -/
theorem errorsAreOfThreeClasses : Obligations.ErrorsAreOfThreeClasses := by
  refine ⟨fun s p e hp hd => ⟨_, engineStep_of_illegal hp hd, s.precise_raise _⟩, fun i s t ht hne => ?_⟩
  have heffect : Effect i s t := EndsIn.of_next (exec_effect i s) ht
  obtain ⟨hregs, hmem, hdraws, hresult⟩ := heffect.of_error hne
  exact ⟨hregs, hmem, hdraws, hresult, fun ⟨hi, he⟩ => heffect.of_initError hi he,
    fun _ _ hr he => heffect.of_lateError hne hr he, heffect.of_otherError hne⟩

/-- Settles O19: RegionCheck comes first, and no other check raises AccessFault. -/
theorem rangesOutsideDmemFault : Obligations.RangesOutsideDmemFault :=
  fun i s ha => ⟨fun h => ⟨_, exec_of_outside ha h, s.precise_raise _⟩,
    fun _ ht he => (EndsIn.of_next (exec_effect i s) ht).of_accessFault he⟩

end Sys2Proof.Proofs
end

section
/-! SUPPORT. Reset events and argument writes (70_reset_and_hazards.md R541, R552, R554). -/

namespace Sys2Proof.Machine

variable {s : State}

/-- R554: a reset event after a reset event changes nothing. -/
theorem State.applyReset_applyReset (s : State) : s.applyReset.applyReset = s.applyReset := by
  simp [State.applyReset, State.nCtx]

theorem State.statusWord_applyReset (s : State) : s.applyReset.statusWord = 0 := by
  show 0#20 ++ Err.ok.code ++ 0#6 ++ BitVec.ofBool false ++ BitVec.ofBool false = 0#32
  decide

/-- The offset of an argument register's half (R32). -/
theorem toNat_argOffset (i : Fin 8) (hi : Bool) : (BitVec.ofNat 12 (0x040 + 8 * i.val + if hi then 4 else 0)).toNat =
    0x040 + 8 * i.val + if hi then 4 else 0 := by
  have hlt := i.isLt
  rw [BitVec.toNat_ofNat]
  refine Nat.mod_eq_of_lt ?_
  split <;> omega

theorem argOfOffset_argOffset (i : Fin 8) (hi : Bool) :
    argOfOffset (BitVec.ofNat 12 (0x040 + 8 * i.val + if hi then 4 else 0)) = some (i, hi) := by
  have hoff := toNat_argOffset i hi
  cases hi
  · exact argOfOffset_lo hoff
  · exact argOfOffset_hi (hoff.trans (Nat.add_right_comm 0x040 (8 * i.val) 4))

/-- A write of the window at an argument register's offset sets its half. -/
theorem writeReg_of_arg {off : BitVec 12} {i : Fin 8} {hi : Bool} (h : argOfOffset off = some (i, hi)) (v : Word32) :
    writeReg s off v = { s with args := s.args.set i (setHalf hi s.args[i] v) } := by
  have hge : 0x040 ≤ off.toNat := by
    by_contra hlt
    rw [argOfOffset_eq_none (by omega)] at h
    cases h
  unfold writeReg
  split
  case h_3 => rw [h]
  all_goals omega

/-- The other half is kept (R39). -/
theorem setHalf_halves (hi : Bool) (v : Word64) (x : Word32) :
    (setHalf hi v x).extractLsb' (if hi then 32 else 0) 32 = x ∧
    (setHalf hi v x).extractLsb' (if hi then 0 else 32) 32 = v.extractLsb' (if hi then 0 else 32) 32 := by
  have hlow (a b : Word32) : (a ++ b).extractLsb' 0 32 = b := BitVec.extractLsb'_append_eq_right
  have hhigh (a b : Word32) : (a ++ b).extractLsb' 32 32 = a := BitVec.extractLsb'_append_eq_left
  cases hi
  · exact ⟨hlow _ _, hhigh _ _⟩
  · exact ⟨hhigh _ _, hlow _ _⟩

/-- A command reads the latched arguments, not the registers. -/
theorem SameView.withArgs (k : Instr) (s : State) (args : Args) : SameView k s { s with args := args } :=
  ⟨⟨args, s.slots, s.mem, rfl⟩, fun _ _ => rfl, fun _ _ => rfl, fun _ _ => rfl⟩

theorem exec_withArgs {k : Instr} {u : State} (h : exec k s = .next u) (args : Args) :
    exec k { s with args := args } = .next { u with args := args } := by
  obtain ⟨e, he, he'⟩ := exec_sameEnding (SameView.withArgs k s args)
  obtain rfl : u = e.apply k.ctx? s := Host.Outcome.next.inj (h.symm.trans he)
  exact he'

end Sys2Proof.Machine
end

section
/-! The obligations about reset events and hazards (70_reset_and_hazards.md). -/

namespace Sys2Proof.Proofs

open Sys2Proof Sys2Proof.Machine

/-- Settles O2: the step is `State.applyReset`, which sets every register and slot and does not touch DMEM. -/
theorem resetEventClearsAllButDmem : Obligations.ResetEventClearsAllButDmem := by
  intro s rest hin
  refine ⟨_, step_of_host hin, rfl, State.statusWord_applyReset _, rfl, fun i => ?_, rfl, ?_, fun c sl h => ?_, fun _ => rfl, rfl, rfl, ?_⟩
  · exact Vector.getElem_replicate ..
  · exact List.length_replicate
  · exact List.eq_of_mem_replicate (List.mem_of_getElem? h)
  · exact congrArg Host.Outcome.next (State.applyReset_applyReset _)

/-- Settles O12: the write sets one half of one argument register, which is in no command's view. -/
theorem argumentWritesDoNotReachTheRunningCommand : Obligations.ArgumentWritesDoNotReachTheRunningCommand := by
  intro s i hi v
  have haligned : (BitVec.ofNat 12 (0x040 + 8 * i.val + if hi then 4 else 0)).toNat % 4 = 0 := by
    rw [toNat_argOffset]
    split <;> omega
  have hself : (s.args.set i (setHalf hi s.args[i] v))[i] = setHalf hi s.args[i] v := Vector.getElem_set_self ..
  obtain ⟨hset, hkept⟩ := setHalf_halves hi s.args[i] v
  rw [← hself] at hset hkept
  exact ⟨_, (hostStep_regWrite s haligned v).trans (congrArg _ (writeReg_of_arg (argOfOffset_argOffset i hi) v)), hset, hkept,
    fun j hj => Vector.getElem_set_ne i.isLt j.isLt fun h => hj (Fin.ext h.symm), rfl, fun k u hu => exec_withArgs hu _⟩

end Sys2Proof.Proofs
end
